-- ==== Sys2Proof/Word.lean ====
section
/-! DEFINITION. The word types of the machine: the widths spec/00_scope.md rule R4 fixes (XLEN = 64, RM = 24 bits,
32-bit instruction words) and the byte. Bit-field and byte-order helpers stand in Sys2Proof/Decode.lean. -/

namespace Sys2Proof

/-- One byte of memory (R50: the address space is byte addressed). -/
abbrev Byte := BitVec 8

/-- A 32-bit instruction word, prefix or suffix (R70). MSB0 bit `k` is the bit of weight `2^(31-k)` (R5). -/
abbrev Word32 := BitVec 32

/-- A 64-bit register or address (R21, R23, R27, R50). -/
abbrev DWord := BitVec 64

/-- The Remapped Encoding `RM[0:23]` (R73). `RM[k]` is the bit of weight `2^(23-k)` (R5). -/
abbrev Rm := BitVec 24

/-- The number of a register of one of the three files, r0 to r127, fp0 to fp127, CR0 to CR127 (R20, R23, R25). -/
abbrev RegNum := Fin 128

end Sys2Proof
end

