-- ==== Sys2Proof/Syntax.lean ====
section
/-! DEFINITION. The syntax: what the prefix subsystem knows of a decoded suffix (R240, R193), the common `RM` fields
(R74), and `Instr`, one constructor for each row of spec/opcode_table.json. -/

namespace Sys2Proof

/-- The kind of register a suffix operand names (R191, R240). A `crField` operand is a 3-bit CR field number (BF, BFA),
a `crBit` operand a 5-bit CR bit number (BA, BB, BT, BC) (R25). -/
inductive RegKind where
  | gpr
  | fpr
  | crField
  | crBit
deriving DecidableEq, Repr, Inhabited

/-- One register operand of a suffix: its kind, the value of its field in the word, and whether it is read, written or
both (R240 part `slots`). A `crField` operand uses the low three bits of `field`. -/
structure Slot where
  kind : RegKind
  field : BitVec 5
  reads : Bool
  writes : Bool
deriving DecidableEq, Repr, Inhabited

/-- The instruction type (R240 part `class`). -/
inductive SuffixClass where
  | arith
  | ldst
  | crop
  | branch
  | sync
  | other
deriving DecidableEq, Repr, Inhabited

/-- A suffix's access to a special-purpose register: its number and whether it is written (R31, R33). -/
structure SprAccess where
  num : BitVec 10
  write : Bool
deriving DecidableEq, Repr, Inhabited

/-- A decoded 32-bit instruction, as much of it as the prefix subsystem looks at (R240). The word itself is the rest:
what the instruction does is `Params.exec1`'s business. -/
structure Suffix where
  /-- the 32-bit word, which the prefix never changes (R83, R102) -/
  word : Word32
  /-- the register operands (R240) -/
  slots : List Slot
  /-- the instruction type (R240) -/
  cls : SuffixClass
  /-- it records to a CR field by Rc=1 (R240) -/
  rc1 : Bool
  /-- the position in `slots` of the operand that reads as the constant 0 when its field is 0 (R240, R256) -/
  ra0 : Option Nat
  /-- an FP operation "ending in 's'" (R125) -/
  single : Bool
  /-- `maddedu` or `divmod2du`, whose implicit RS is not specified (R182) -/
  implicitRs : Bool
  /-- a store, not a load: R195 names the two in different rows (R186, R187, R190) -/
  isStore : Bool
  /-- it has a destination width of its own for ELWIDTH to override (R105) -/
  dstWidth : Bool
  /-- it has a source width of its own for ELWIDTH_SRC to override (R105) -/
  srcWidth : Bool
  /-- the SPR it reads or writes, if any (R33) -/
  spr : Option SprAccess
deriving DecidableEq, Repr, Inhabited

/-- The seven RM categories (R180). -/
inductive Category where
  | rm1P3S1D
  | rm1P2S1D
  | rm2P1S1D
  | rm2P2S
  | rm2P2S1D
  | rm2P1S2D
  | rm2P3S
deriving DecidableEq, Repr, Inhabited

/-- The names of the EXTRA sub-fields that extend a register operand (R76). `rdest` is Rdest or Rdest1, `rsrc1` is Rsrc
or Rsrc1, after the category. -/
inductive SubField where
  | rdest
  | rdest2
  | rsrc1
  | rsrc2
  | rsrc3
deriving DecidableEq, Repr, Inhabited

/-- The value of one sub-field: two bits (EXTRA2) or three (EXTRA3) (R211). -/
inductive SubValue where
  | extra2 (v : BitVec 2)
  | extra3 (v : BitVec 3)
deriving DecidableEq, Repr, Inhabited

/-- What `rmCategory` says of a suffix (R193): its category and, operand by operand in the order of `Suffix.slots`, the
sub-field that extends it. -/
structure RmMap where
  cat : Category
  subs : List SubField
deriving DecidableEq, Repr, Inhabited

/-- The two tables of the suffix ISA that decoding a pair needs (R240 part `decode`, R193 `rmCategory`). `decode` answers
`none` for a word the suffix ISA finds illegal, `rmCategory` for a suffix the mapping does not cover (R103). -/
structure SuffixIsa where
  decode : Word32 → Option Suffix
  rmCategory : Suffix → Option RmMap

/-- The fields every Remapped Encoding has outside EXTRA (R74). -/
structure CommonRm where
  /-- RM[0] -/
  maskmode : BitVec 1
  /-- RM[1:3] -/
  mask : BitVec 3
  /-- RM[4:5] -/
  elwidth : BitVec 2
  /-- RM[6:7] -/
  elwidthSrc : BitVec 2
  /-- RM[8:9] -/
  subvl : BitVec 2
  /-- RM[19:23] -/
  mode : BitVec 5
deriving DecidableEq, Repr, Inhabited

/-- What a destination tagged Scalar does when `VL > 1` (R247, parameter `scalarDestPolicy`): refuse (the default), stop
after the first enabled element, or run to the end so that the last write stands. -/
inductive ScalarDestPolicy where
  | refuse
  | stopAfterFirst
  | lastWriteWins
deriving DecidableEq, Repr, Inhabited

/-- The instructions: one constructor for each row of spec/opcode_table.json, in the table's order.

The first eight rows are the SVP64 pair: a prefix word and the suffix word behind it. All eight have the same fixed bits,
and the suffix alone says which of them a pair is (R103): `svp64Prefix` is a pair as its two words give it, `RM` not yet
split (R100); the seven others are a pair whose `RM` has been split by the category of its suffix (R181 to R190).
The next seven are the words the opcode map gives to Power ISA v3.1 or does not show, with their second word (R79).
The last ten are the map's empty cells: one word, no second word is fetched (R79, R271). -/
inductive Instr where
  | svp64Prefix (rm : Rm) (suffix : Word32)
  | rm1P3S1D (c : CommonRm) (rdest rsrc1 rsrc2 rsrc3 : BitVec 2) (extra2Mode : BitVec 1) (suffix : Word32)
  | rm1P2S1D (c : CommonRm) (rdest rsrc1 rsrc2 : BitVec 3) (suffix : Word32)
  | rm2P1S1D (c : CommonRm) (rdest rsrc1 maskSrc : BitVec 3) (suffix : Word32)
  | rm2P2S (c : CommonRm) (rsrc1 rsrc2 maskSrc : BitVec 3) (suffix : Word32)
  | rm2P2S1D (c : CommonRm) (rdest rsrc1 rsrc2 : BitVec 2) (maskSrc : BitVec 3) (suffix : Word32)
  | rm2P1S2D (c : CommonRm) (rsrc rdest1 rdest2 : BitVec 2) (maskSrc : BitVec 3) (suffix : Word32)
  | rm2P3S (c : CommonRm) (rsrc1 rsrc2 rsrc3 : BitVec 2) (maskSrc : BitVec 3) (suffix : Word32)
  | ext01_8LS (payload : BitVec 23) (second : Word32)
  | ext01_8RR (payload : BitVec 20) (second : Word32)
  | ext01_MRR (payload : BitVec 20) (second : Word32)
  | ext01_MMIRR (payload : BitVec 20) (second : Word32)
  | ext01_row100 (payload : BitVec 23) (second : Word32)
  | ext01_row001 (payload : BitVec 23) (second : Word32)
  | ext01_row101 (payload : BitVec 23) (second : Word32)
  | ext01_unallocated_011 (payload : BitVec 22)
  | ext01_unallocated_010001 (payload : BitVec 20)
  | ext01_unallocated_010010 (payload : BitVec 20)
  | ext01_unallocated_010011 (payload : BitVec 20)
  | ext01_unallocated_110001 (payload : BitVec 20)
  | ext01_unallocated_110010 (payload : BitVec 20)
  | ext01_unallocated_110011 (payload : BitVec 20)
  | ext01_unallocated_111000 (payload : BitVec 20)
  | ext01_unallocated_111010 (payload : BitVec 20)
  | ext01_unallocated_111011 (payload : BitVec 20)
deriving DecidableEq, Repr

/-- The rows of the EXT01 opcode map that the prefix subsystem hands to the suffix ISA (R79): the named Power ISA v3.1
classes and the three rows the source's map does not print. -/
inductive V31Row where
  | ls8
  | rr8
  | mrr
  | mmirr
  | row100
  | row001
  | row101
deriving DecidableEq, Repr, Inhabited

/-- The empty cells of the EXT01 opcode map, "yet-to-be-allocated Illegal Instructions" (R77, R79). `c011` is the four
cells of row 011 together, as the opcode table groups them. -/
inductive EmptyCell where
  | c011
  | c010001
  | c010010
  | c010011
  | c110001
  | c110010
  | c110011
  | c111000
  | c111010
  | c111011
deriving DecidableEq, Repr, Inhabited

/-- What the first word at `CIA` is (R52, R71, R79, R100). -/
inductive FirstWord where
  | unprefixed
  | svp64
  | v31 (row : V31Row)
  | unallocated (cell : EmptyCell)
deriving DecidableEq, Repr, Inhabited

/-- The two-operand CR logical functions of the reference suffix ISA (log entry 4). -/
inductive CrLogic where
  | and
  | nand
  | or
  | nor
  | xor
  | eqv
  | andc
  | orc
deriving DecidableEq, Repr, Inhabited

/-- The two-operand GPR logical functions of the reference suffix ISA (log entry 4). -/
inductive GprLogic where
  | and
  | or
  | xor
deriving DecidableEq, Repr, Inhabited

/-- What a load of the reference suffix ISA brings to a register, named after the plain mnemonic: the width in memory, how it is
filled up to 64 bits, byte reversed or not, into a GPR or an FPR (log entry 4). -/
inductive LoadKind where
  | lbz
  | lhz
  | lha
  | lwz
  | lwa
  | ld
  | lhbr
  | lwbr
  | ldbr
  | lfs
  | lfd
  | lfiwa
  | lfiwz
deriving DecidableEq, Repr, Inhabited

/-- What a store of the reference suffix ISA takes from a register, named after the plain mnemonic (log entry 4). -/
inductive StoreKind where
  | stb
  | sth
  | stw
  | std
  | sthbr
  | stwbr
  | stdbr
  | stfs
  | stfd
  | stfiw
deriving DecidableEq, Repr, Inhabited

/-- The suffix instructions whose Power ISA meaning the reference suffix ISA writes out: those spec/ names (R180, R184,
R188, R195, G14 of 93_implementation_defined.md), all members of the classes of loads and stores R188 and R195 speak of, and a few
beside them, so that every class and every operand kind of R240 occurs. A load or store has a displacement or is indexed (`X`), and
`u` says that it updates its base: `lhaux` is `loadX .lha true`. PRESUMED (log entry 4): Power ISA is not among the
sources. Every other word is `Config.otherSuffix`'s. -/
inductive ScalarOp where
  | add (rt ra rb : BitVec 5) (rc : Bool)
  | subf (rt ra rb : BitVec 5) (rc : Bool)
  | logic (fn : GprLogic) (ra rs rb : BitVec 5) (rc : Bool)
  | addi (rt ra : BitVec 5) (si : BitVec 16)
  | extsb (ra rs : BitVec 5) (rc : Bool)
  | rlwimi (ra rs sh mb me : BitVec 5) (rc : Bool)
  | maddld (rt ra rb rc : BitVec 5)
  | isel (rt ra rb bc : BitVec 5)
  | cmp (bf : BitVec 3) (l : Bool) (ra rb : BitVec 5)
  | fadds (frt fra frb : BitVec 5) (rc : Bool)
  | fmadd (frt fra frc frb : BitVec 5) (rc : Bool)
  | maddedu (rt ra rb rc : BitVec 5)
  | divmod2du (rt ra rb rc : BitVec 5)
  | load (k : LoadKind) (u : Bool) (rt ra : BitVec 5) (d : BitVec 16)
  | loadX (k : LoadKind) (u : Bool) (rt ra rb : BitVec 5)
  | store (k : StoreKind) (u : Bool) (rs ra : BitVec 5) (d : BitVec 16)
  | storeX (k : StoreKind) (u : Bool) (rs ra rb : BitVec 5)
  | crlogic (fn : CrLogic) (bt ba bb : BitVec 5)
  | mcrf (bf bfa : BitVec 3)
  | branch (li : BitVec 24) (aa : Bool)
  | sync
  | mtspr (spr : BitVec 10) (rs : BitVec 5)
  | mfspr (rt : BitVec 5) (spr : BitVec 10)
deriving DecidableEq, Repr

end Sys2Proof
end

