-- ==== Sys2Proof/Config.lean ====
section
/-! DEFINITION. What an implementation fixes (R4) and the free values: the constants the spec gives, the open parameters
of spec/92_eei_decisions.md at the values the runnable machine takes them (each a DESIGN CHOICE with a log entry; every
theorem that can is stated for all of them, see Sys2Proof/Machine/Params.lean), and the opaque constants that stand for
what the spec leaves to documents that were not supplied. -/

namespace Sys2Proof
namespace Config

/-- The first CR field of CR predication (R156, D17): "offs is defined as CR32 (4x8)". -/
def crPredOffs : Nat := 32

/-- The byte order of the runnable machine (R51, D12: OPEN). DESIGN CHOICE, log entry 5. -/
def bigEndian : Bool := true

/-- The largest legal VL of the runnable machine (R30, D3: OPEN). DESIGN CHOICE, log entry 6: the largest number 64 bits
hold, so that the bound stops no VL a 64-bit register could hold. -/
def vlMax : Nat := 18446744073709551615

/-- The policy for a scalar destination with VL > 1 (R247, D6: OPEN, default refuse). -/
def scalarDestPolicy : ScalarDestPolicy := .refuse

/-- A reserved value traps even when VL = 0 (R108, D14, U9: default true). -/
def vl0ChecksReserved : Bool := true

/-- Which field values the hardware implements (R107, D15: OPEN, default true wherever the spec gives a meaning). -/
def hwSupports (_ : Rm) (_ : Category) : Bool := true

/-- The first CR field of a vectorised Rc=1 result (R251, D25) of the runnable machine: OPEN, "(TBD)", no default, so a free value
(log entry 24). -/
opaque rc1CrBase : RegNum

/-- The suffix words outside the reference suffix ISA (R240 part `decode`, D1: OPEN): free, log entry 4. -/
opaque otherSuffix : Word32 → Option Suffix

/-- The category of a suffix outside the reference suffix ISA (R193: OPEN): free, log entry 4. -/
opaque otherRmCategory : Suffix → Option RmMap

/-- Whether an SPR number other than XER, LR and CTR names an SVP64 SPR (R31: the numbers are not in the source): free,
log entry 8. -/
opaque otherSvSpr : BitVec 10 → Bool

/-- Whether the implementation supports a value read from, or written to, an SVP64 SPR (R33); `none` is a write whose value no
register operand holds: free, log entry 8. -/
opaque svSprValueOk : BitVec 10 → Option DWord → Bool

/-- Whether the suffix ISA has an instruction for a pair whose first word lies in a row of the opcode map that the source does not
print (R79), where the second word is itself an EXT01 word: free, log entry 9. -/
opaque otherUnprinted : Word32 → Word32 → Bool

/-- The word `stfs` stores for a double whose exponent is below single precision's range, where Power ISA's conversion leaves it
undefined: free, log entry 7. -/
opaque storedSingle : DWord → Word32

/-- What a load with update leaves in a register that is both its destination and its updated base, from the loaded value and the
address: free, log entry 25. The spec is silent on it (R188, R189, R245). -/
opaque updateCollision : DWord → DWord → DWord

/-- What an FP operation of the suffix ISA leaves: the result, the FPSCR after it, and whether an enabled exception was
taken (R286). -/
structure FpResult (w : Nat) where
  value : BitVec w
  fpscr : DWord
  trap : Bool
deriving DecidableEq, Repr, Inhabited

/-- The binary32 sum of `fadds` (R125: the rounding is the suffix ISA's): free in the operands and the FPSCR, log entry 7. -/
opaque faddSingle : DWord → DWord → DWord → FpResult 32

/-- The result of `fmadd` (suffix ISA): free in the operands and the FPSCR, log entry 7. -/
opaque fmaddDouble : DWord → DWord → DWord → DWord → FpResult 64

end Config
end Sys2Proof
end

