-- ==== Sys2Proof/Decode.lean ====
section
/-! DEFINITION. Decoding and encoding. The bit-field and byte-order helpers; the opcode map (R77, R79); `RM` (R73 to R76); the
reference suffix ISA's decoder and its `rmCategory` (log entry 4); what every `rmCategory` is held to (R4); the decoder of a whole
instruction, total on any bytes, which rejects by name; after it the encoders. -/

namespace Sys2Proof

/-! ### Fields of a word -/

/-- Bits 0:5 of a word, the primary opcode (R71): `W >> 26`. -/
def primary (w : Word32) : BitVec 6 := w.extractLsb' 26 6

/-- Bits 6:8 of a word, the row of the EXT01 opcode map (R77). -/
def mapRow (w : Word32) : BitVec 3 := w.extractLsb' 23 3

/-- Bits 9:11 of a word, the column of the EXT01 opcode map (R77). -/
def mapCol (w : Word32) : BitVec 3 := w.extractLsb' 20 3

/-- What the first word is (R71, R79, R100). The SVP64 test reads bits 0:5, 7 and 9 only. The columns of 8RR, MRR and
MMIRR, and with them which three cells of rows 010, 110 and 111 are empty, are PRESUMED (G4; log entry 9). -/
def classify (w : Word32) : FirstWord :=
  if primary w ≠ 1#6 then .unprefixed
  else if w.getLsbD 24 && w.getLsbD 22 then .svp64
  else match (mapRow w).toNat, (mapCol w).toNat with
    | 0, _ => .v31 .ls8
    | 1, _ => .v31 .row001
    | 2, 0 => .v31 .rr8
    | 2, 1 => .unallocated .c010001
    | 2, 2 => .unallocated .c010010
    | 2, _ => .unallocated .c010011
    | 3, _ => .unallocated .c011
    | 4, _ => .v31 .row100
    | 5, _ => .v31 .row101
    | 6, 0 => .v31 .mrr
    | 6, 1 => .unallocated .c110001
    | 6, 2 => .unallocated .c110010
    | 6, _ => .unallocated .c110011
    | _, 0 => .unallocated .c111000
    | _, 1 => .v31 .mmirr
    | _, 2 => .unallocated .c111010
    | _, _ => .unallocated .c111011

/-! ### The Remapped Encoding -/

/-- `RM` of an SVP64 prefix word (R73, R101): word bit 6, word bit 8, word bits 10:31. Bits 7 and 9 are dropped. -/
def rmOf (w : Word32) : Rm := w.extractLsb' 25 1 ++ w.extractLsb' 23 1 ++ w.extractLsb' 0 22

/-- The SVP64 prefix word of an `RM` (R72, R73). -/
def prefixWord (rm : Rm) : Word32 :=
  1#6 ++ rm.extractLsb' 23 1 ++ 1#1 ++ rm.extractLsb' 22 1 ++ 1#1 ++ rm.extractLsb' 0 22

/-- The fields of `RM` outside EXTRA (R74, R75). -/
def commonOf (rm : Rm) : CommonRm where
  maskmode := rm.extractLsb' 23 1
  mask := rm.extractLsb' 20 3
  elwidth := rm.extractLsb' 18 2
  elwidthSrc := rm.extractLsb' 16 2
  subvl := rm.extractLsb' 14 2
  mode := rm.extractLsb' 0 5

/-- EXTRA, `RM[10:18]` (R75, R130). -/
def extraOf (rm : Rm) : BitVec 9 := rm.extractLsb' 5 9

/-- `RM` from its fields: the seven fields tile the 24 bits (R74). -/
def packRm (c : CommonRm) (extra : BitVec 9) : Rm :=
  c.maskmode ++ c.mask ++ c.elwidth ++ c.elwidthSrc ++ c.subvl ++ extra ++ c.mode

/-- The split of EXTRA by category (R76, R181 to R190): for each register sub-field whether it is three bits wide and the
shift that brings it to the low end of `RM`, in the order of the bits. -/
def layout : Category → List (SubField × Bool × Nat)
  | .rm1P3S1D => [(.rdest, false, 12), (.rsrc1, false, 10), (.rsrc2, false, 8), (.rsrc3, false, 6)]
  | .rm1P2S1D => [(.rdest, true, 11), (.rsrc1, true, 8), (.rsrc2, true, 5)]
  | .rm2P1S1D => [(.rdest, true, 11), (.rsrc1, true, 8)]
  | .rm2P2S => [(.rsrc1, true, 11), (.rsrc2, true, 8)]
  | .rm2P2S1D => [(.rdest, false, 12), (.rsrc1, false, 10), (.rsrc2, false, 8)]
  | .rm2P1S2D => [(.rsrc1, false, 12), (.rdest, false, 10), (.rdest2, false, 8)]
  | .rm2P3S => [(.rsrc1, false, 12), (.rsrc2, false, 10), (.rsrc3, false, 8)]

/-- One sub-field of `RM`, given its width and shift (R76). -/
def subAt (rm : Rm) (three : Bool) (shift : Nat) : SubValue :=
  if three then .extra3 (rm.extractLsb' shift 3) else .extra2 (rm.extractLsb' shift 2)

/-- The value of a named sub-field under a category, `none` where the category has no such sub-field (R76). -/
def subField (cat : Category) (rm : Rm) (f : SubField) : Option SubValue :=
  ((layout cat).find? fun e => e.1 == f).map fun e => subAt rm e.2.1 e.2.2

/-- Twin predication: the categories whose name starts RM-2P (R157, R180). -/
def Category.isTwin : Category → Bool
  | .rm1P3S1D => false
  | .rm1P2S1D => false
  | .rm2P1S1D => true
  | .rm2P2S => true
  | .rm2P2S1D => true
  | .rm2P1S2D => true
  | .rm2P3S => true

/-- MASK_SRC, `RM[16:18]`, of a twin-predicate category (R76, R157). -/
def maskSrcOf (rm : Rm) : BitVec 3 := rm.extractLsb' 5 3

/-- EXTRA2_MODE, `RM[18]`, of RM-1P-3S1D (R76, R182). -/
def extra2ModeOf (rm : Rm) : BitVec 1 := rm.extractLsb' 5 1

/-- A pair whose suffix has category `cat`, its `RM` split by that category (R103, R108 step 4). -/
def splitInstr (cat : Category) (rm : Rm) (suffix : Word32) : Instr :=
  match cat with
  | .rm1P3S1D => .rm1P3S1D (commonOf rm) (rm.extractLsb' 12 2) (rm.extractLsb' 10 2) (rm.extractLsb' 8 2)
      (rm.extractLsb' 6 2) (rm.extractLsb' 5 1) suffix
  | .rm1P2S1D => .rm1P2S1D (commonOf rm) (rm.extractLsb' 11 3) (rm.extractLsb' 8 3) (rm.extractLsb' 5 3) suffix
  | .rm2P1S1D => .rm2P1S1D (commonOf rm) (rm.extractLsb' 11 3) (rm.extractLsb' 8 3) (rm.extractLsb' 5 3) suffix
  | .rm2P2S => .rm2P2S (commonOf rm) (rm.extractLsb' 11 3) (rm.extractLsb' 8 3) (rm.extractLsb' 5 3) suffix
  | .rm2P2S1D => .rm2P2S1D (commonOf rm) (rm.extractLsb' 12 2) (rm.extractLsb' 10 2) (rm.extractLsb' 8 2)
      (rm.extractLsb' 5 3) suffix
  | .rm2P1S2D => .rm2P1S2D (commonOf rm) (rm.extractLsb' 12 2) (rm.extractLsb' 10 2) (rm.extractLsb' 8 2)
      (rm.extractLsb' 5 3) suffix
  | .rm2P3S => .rm2P3S (commonOf rm) (rm.extractLsb' 12 2) (rm.extractLsb' 10 2) (rm.extractLsb' 8 2)
      (rm.extractLsb' 5 3) suffix

/-! ### The reference suffix ISA: decoding (PRESUMED, log entry 4)

The encodings are those of Power ISA v3.0B (for `maddedu` and `divmod2du` those of the Libre-SOC drafts), from general
knowledge; spec/95_test_vectors.md confirms `add`, `addi`, `extsb`, `cmp`, `lwz`, `fadds` and `b` (G14). -/

/-- A 5-bit register field whose least significant bit has weight `2^lo`. -/
def field5 (w : Word32) (lo : Nat) : BitVec 5 := w.extractLsb' lo 5

/-- The CR logical function of an XL-form extended opcode. -/
def crLogicOf (xo : Nat) : Option CrLogic :=
  match xo with
  | 257 => some .and
  | 225 => some .nand
  | 449 => some .or
  | 33 => some .nor
  | 193 => some .xor
  | 289 => some .eqv
  | 129 => some .andc
  | 417 => some .orc
  | _ => none

/-- A load into an FPR. -/
def LoadKind.fp : LoadKind → Bool
  | .lbz => false
  | .lhz => false
  | .lha => false
  | .lwz => false
  | .lwa => false
  | .ld => false
  | .lhbr => false
  | .lwbr => false
  | .ldbr => false
  | .lfs => true
  | .lfd => true
  | .lfiwa => true
  | .lfiwz => true

/-- A store from an FPR. -/
def StoreKind.fp : StoreKind → Bool
  | .stb => false
  | .sth => false
  | .stw => false
  | .std => false
  | .sthbr => false
  | .stwbr => false
  | .stdbr => false
  | .stfs => true
  | .stfd => true
  | .stfiw => true

/-- The loads with a displacement, by primary opcode and, for the DS forms of opcode 58, the two low bits. -/
def loadOfD (op : Nat) (low : Nat) : Option (LoadKind × Bool) :=
  match op, low with
  | 32, _ => some (.lwz, false)
  | 33, _ => some (.lwz, true)
  | 34, _ => some (.lbz, false)
  | 35, _ => some (.lbz, true)
  | 40, _ => some (.lhz, false)
  | 41, _ => some (.lhz, true)
  | 42, _ => some (.lha, false)
  | 43, _ => some (.lha, true)
  | 48, _ => some (.lfs, false)
  | 49, _ => some (.lfs, true)
  | 50, _ => some (.lfd, false)
  | 51, _ => some (.lfd, true)
  | 58, 0 => some (.ld, false)
  | 58, 1 => some (.ld, true)
  | 58, 2 => some (.lwa, false)
  | _, _ => none

/-- The stores with a displacement, by primary opcode and, for the DS forms of opcode 62, the two low bits. -/
def storeOfD (op : Nat) (low : Nat) : Option (StoreKind × Bool) :=
  match op, low with
  | 36, _ => some (.stw, false)
  | 37, _ => some (.stw, true)
  | 38, _ => some (.stb, false)
  | 39, _ => some (.stb, true)
  | 44, _ => some (.sth, false)
  | 45, _ => some (.sth, true)
  | 52, _ => some (.stfs, false)
  | 53, _ => some (.stfs, true)
  | 54, _ => some (.stfd, false)
  | 55, _ => some (.stfd, true)
  | 62, 0 => some (.std, false)
  | 62, 1 => some (.std, true)
  | _, _ => none

/-- The indexed loads, by extended opcode. -/
def loadOfX (xo : Nat) : Option (LoadKind × Bool) :=
  match xo with
  | 21 => some (.ld, false)
  | 53 => some (.ld, true)
  | 23 => some (.lwz, false)
  | 55 => some (.lwz, true)
  | 87 => some (.lbz, false)
  | 119 => some (.lbz, true)
  | 279 => some (.lhz, false)
  | 311 => some (.lhz, true)
  | 341 => some (.lwa, false)
  | 373 => some (.lwa, true)
  | 343 => some (.lha, false)
  | 375 => some (.lha, true)
  | 532 => some (.ldbr, false)
  | 534 => some (.lwbr, false)
  | 790 => some (.lhbr, false)
  | 535 => some (.lfs, false)
  | 567 => some (.lfs, true)
  | 599 => some (.lfd, false)
  | 631 => some (.lfd, true)
  | 855 => some (.lfiwa, false)
  | 887 => some (.lfiwz, false)
  | _ => none

/-- The indexed stores, by extended opcode. -/
def storeOfX (xo : Nat) : Option (StoreKind × Bool) :=
  match xo with
  | 149 => some (.std, false)
  | 181 => some (.std, true)
  | 151 => some (.stw, false)
  | 183 => some (.stw, true)
  | 215 => some (.stb, false)
  | 247 => some (.stb, true)
  | 407 => some (.sth, false)
  | 439 => some (.sth, true)
  | 660 => some (.stdbr, false)
  | 662 => some (.stwbr, false)
  | 918 => some (.sthbr, false)
  | 663 => some (.stfs, false)
  | 695 => some (.stfs, true)
  | 727 => some (.stfd, false)
  | 759 => some (.stfd, true)
  | 983 => some (.stfiw, false)
  | _ => none

/-- A base that can be updated: RA is not 0 and, for a load into a GPR, not RT; the other forms are invalid. -/
def validBase (u : Bool) (ra : BitVec 5) (rt : Option (BitVec 5)) : Bool := !u || (ra != 0#5 && rt != some ra)

/-- The register a load must not share with its updated base. -/
def LoadKind.target (k : LoadKind) (rt : BitVec 5) : Option (BitVec 5) := if k.fp then none else some rt

/-- The displacement of an opcode: its 16 bits, or for the DS forms of opcodes 58 and 62 the upper 14 with two zeros. -/
def displacement (op : Nat) (w : Word32) : BitVec 16 :=
  if op = 58 ∨ op = 62 then w.extractLsb' 2 14 ++ 0#2 else w.extractLsb' 0 16

/-- The loads and stores with a displacement, by primary opcode. -/
def displacementOp (op : Nat) (w : Word32) : Option ScalarOp :=
  let t := field5 w 21
  let a := field5 w 16
  let low := (w.extractLsb' 0 2).toNat
  match loadOfD op low with
  | some (k, u) => if validBase u a (k.target t) then some (.load k u t a (displacement op w)) else none
  | none =>
    match storeOfD op low with
    | some (k, u) => if validBase u a none then some (.store k u t a (displacement op w)) else none
    | none => none

/-- The indexed loads and stores, by extended opcode. -/
def indexedOp (xo : Nat) (t a b : BitVec 5) : Option ScalarOp :=
  match loadOfX xo with
  | some (k, u) => if validBase u a (k.target t) then some (.loadX k u t a b) else none
  | none =>
    match storeOfX xo with
    | some (k, u) => if validBase u a none then some (.storeX k u t a b) else none
    | none => none

/-- Words of primary opcode 31 (X, XO and A forms). -/
def scalarOp31 (w : Word32) : Option ScalarOp :=
  let t := field5 w 21
  let a := field5 w 16
  let b := field5 w 11
  let rc := w.getLsbD 0
  match (w.extractLsb' 1 10).toNat with
  | 266 => some (.add t a b rc)
  | 40 => some (.subf t a b rc)
  | 28 => some (.logic .and a t b rc)
  | 444 => some (.logic .or a t b rc)
  | 316 => some (.logic .xor a t b rc)
  | 954 => if b = 0#5 then some (.extsb a t rc) else none
  | 0 => if rc || w.getLsbD 22 then none else some (.cmp (w.extractLsb' 23 3) (w.getLsbD 21) a b)
  | 598 => if rc || w.extractLsb' 11 15 != 0#15 then none else some .sync
  | 467 => if rc then none else some (.mtspr (b ++ a) t)
  | 339 => if rc then none else some (.mfspr t (b ++ a))
  | xo =>
    if rc then none
    else if w.extractLsb' 1 5 = 15#5 then some (.isel t a b (field5 w 6))
    else indexedOp xo t a b

/-- Words of primary opcode 19 (XL form). -/
def scalarOp19 (w : Word32) : Option ScalarOp :=
  if w.getLsbD 0 then none
  else match (w.extractLsb' 1 10).toNat with
    | 0 =>
      if w.extractLsb' 21 2 = 0#2 && w.extractLsb' 11 7 = 0#7 then
        some (.mcrf (w.extractLsb' 23 3) (w.extractLsb' 18 3))
      else none
    | xo => (crLogicOf xo).map fun fn => .crlogic fn (field5 w 21) (field5 w 16) (field5 w 11)

/-- The reference suffix ISA's instruction of a word, `none` for every word it does not write out. A load or store
with update in an invalid form (`validBase`) is left to `Config.otherSuffix`, as is every form with OE, LK or a set reserved bit, and
a `sync` whose L field is not 0 (log entry 4). -/
def scalarOp (w : Word32) : Option ScalarOp :=
  let t := field5 w 21
  let a := field5 w 16
  let b := field5 w 11
  let c := field5 w 6
  let d := w.extractLsb' 0 16
  let rc := w.getLsbD 0
  match (primary w).toNat with
  | 4 =>
    match (w.extractLsb' 0 6).toNat with
    | 51 => some (.maddld t a b c)
    | 50 => some (.maddedu t a b c)
    | 58 => some (.divmod2du t a b c)
    | _ => none
  | 14 => some (.addi t a d)
  | 18 => if rc then none else some (.branch (w.extractLsb' 2 24) (w.getLsbD 1))
  | 19 => scalarOp19 w
  | 20 => some (.rlwimi a t b c (field5 w 1) rc)
  | 31 => scalarOp31 w
  | 59 => if (w.extractLsb' 1 5) = 21#5 && c = 0#5 then some (.fadds t a b rc) else none
  | 63 => if (w.extractLsb' 1 5) = 29#5 then some (.fmadd t a c b rc) else none
  | op => displacementOp op w

/-- A register operand that is only read. -/
def srcSlot (k : RegKind) (f : BitVec 5) : Slot := ⟨k, f, true, false⟩

/-- A register operand that is only written. -/
def dstSlot (k : RegKind) (f : BitVec 5) : Slot := ⟨k, f, false, true⟩

/-- The register file a load writes (R191). -/
def LoadKind.file (k : LoadKind) : RegKind := if k.fp then .fpr else .gpr

/-- The register file a store reads (R191). -/
def StoreKind.file (k : StoreKind) : RegKind := if k.fp then .fpr else .gpr

/-- The register operands, destination first and sources in the order of the mnemonic's operand list (D24). For `rlwimi`
the RA field stands twice, once written and once read (R184), and so it does for a store with update (log entry 25); for an indexed
load with update RA is read and written as one operand (R188); for a load with displacement and update RA is a source and a second
destination (R189). -/
def ScalarOp.slots : ScalarOp → List Slot
  | .add t a b _ => [dstSlot .gpr t, srcSlot .gpr a, srcSlot .gpr b]
  | .subf t a b _ => [dstSlot .gpr t, srcSlot .gpr a, srcSlot .gpr b]
  | .logic _ a s b _ => [dstSlot .gpr a, srcSlot .gpr s, srcSlot .gpr b]
  | .addi t a _ => [dstSlot .gpr t, srcSlot .gpr a]
  | .extsb a s _ => [dstSlot .gpr a, srcSlot .gpr s]
  | .rlwimi a s _ _ _ _ => [dstSlot .gpr a, srcSlot .gpr s, srcSlot .gpr a]
  | .maddld t a b c => [dstSlot .gpr t, srcSlot .gpr a, srcSlot .gpr b, srcSlot .gpr c]
  | .isel t a b bc => [dstSlot .gpr t, srcSlot .gpr a, srcSlot .gpr b, srcSlot .crBit bc]
  | .cmp bf _ a b => [dstSlot .crField (bf.zeroExtend 5), srcSlot .gpr a, srcSlot .gpr b]
  | .fadds t a b _ => [dstSlot .fpr t, srcSlot .fpr a, srcSlot .fpr b]
  | .fmadd t a c b _ => [dstSlot .fpr t, srcSlot .fpr a, srcSlot .fpr c, srcSlot .fpr b]
  | .maddedu t a b c => [dstSlot .gpr t, srcSlot .gpr a, srcSlot .gpr b, srcSlot .gpr c]
  | .divmod2du t a b c => [dstSlot .gpr t, srcSlot .gpr a, srcSlot .gpr b, srcSlot .gpr c]
  | .load k false t a _ => [dstSlot k.file t, srcSlot .gpr a]
  | .load k true t a _ => [dstSlot k.file t, srcSlot .gpr a, dstSlot .gpr a]
  | .loadX k false t a b => [dstSlot k.file t, srcSlot .gpr a, srcSlot .gpr b]
  | .loadX k true t a b => [dstSlot k.file t, ⟨.gpr, a, true, true⟩, srcSlot .gpr b]
  | .store k false s a _ => [srcSlot k.file s, srcSlot .gpr a]
  | .store k true s a _ => [dstSlot .gpr a, srcSlot k.file s, srcSlot .gpr a]
  | .storeX k false s a b => [srcSlot k.file s, srcSlot .gpr a, srcSlot .gpr b]
  | .storeX k true s a b => [dstSlot .gpr a, srcSlot k.file s, srcSlot .gpr a, srcSlot .gpr b]
  | .crlogic _ bt ba bb => [dstSlot .crBit bt, srcSlot .crBit ba, srcSlot .crBit bb]
  | .mcrf bf bfa => [dstSlot .crField (bf.zeroExtend 5), srcSlot .crField (bfa.zeroExtend 5)]
  | .branch _ _ => []
  | .sync => []
  | .mtspr _ s => [srcSlot .gpr s]
  | .mfspr t _ => [dstSlot .gpr t]

/-- The instruction type (R240). -/
def ScalarOp.cls : ScalarOp → SuffixClass
  | .add .. => .arith
  | .subf .. => .arith
  | .logic .. => .arith
  | .addi .. => .arith
  | .extsb .. => .arith
  | .rlwimi .. => .arith
  | .maddld .. => .arith
  | .isel .. => .arith
  | .cmp .. => .arith
  | .fadds .. => .arith
  | .fmadd .. => .arith
  | .maddedu .. => .arith
  | .divmod2du .. => .arith
  | .load .. => .ldst
  | .loadX .. => .ldst
  | .store .. => .ldst
  | .storeX .. => .ldst
  | .crlogic .. => .crop
  | .mcrf .. => .crop
  | .branch _ _ => .branch
  | .sync => .sync
  | .mtspr .. => .other
  | .mfspr .. => .other

/-- The Rc bit of the forms that have one. -/
def ScalarOp.rc : ScalarOp → Bool
  | .add _ _ _ rc => rc
  | .subf _ _ _ rc => rc
  | .logic _ _ _ _ rc => rc
  | .extsb _ _ rc => rc
  | .rlwimi _ _ _ _ _ rc => rc
  | .fadds _ _ _ rc => rc
  | .fmadd _ _ _ _ rc => rc
  | _ => false

/-- The position of the operand that reads as 0 when its field is 0 (R240 part `ra0`). -/
def ScalarOp.ra0 : ScalarOp → Option Nat
  | .addi .. => some 1
  | .isel .. => some 1
  | .load _ false _ _ _ => some 1
  | .loadX _ false _ _ _ => some 1
  | .store _ false _ _ _ => some 1
  | .storeX _ false _ _ _ => some 1
  | _ => none

/-- The SPR access of `mtspr` and `mfspr` (R33). -/
def ScalarOp.spr : ScalarOp → Option SprAccess
  | .mtspr n _ => some ⟨n, true⟩
  | .mfspr _ n => some ⟨n, false⟩
  | _ => none

/-- FP operations ending in 's', a set that R125 leaves to the suffix ISA; a load or a store is no IEEE 754 operation (DEDUCED, log entry
12). -/
def ScalarOp.single : ScalarOp → Bool
  | .fadds .. => true
  | _ => false

/-- `maddedu` and `divmod2du` (R182). -/
def ScalarOp.implicitRs : ScalarOp → Bool
  | .maddedu .. => true
  | .divmod2du .. => true
  | _ => false

/-- The stores. -/
def ScalarOp.isStore : ScalarOp → Bool
  | .store .. => true
  | .storeX .. => true
  | _ => false

/-- A suffix has a source width of its own if it reads a register operand (R105, R127; DEDUCED, log entry 13). -/
def hasSourceWidth (slots : List Slot) : Bool := slots.any Slot.reads

/-- A suffix has a destination width of its own if it writes a register operand, or moves data to or from memory: "with ELWIDTH
overrides, the width of the access" (R55, R105, R120; DEDUCED, log entry 13). -/
def hasDestWidth (slots : List Slot) (cls : SuffixClass) : Bool := slots.any Slot.writes || cls == .ldst

/-- The profile the prefix subsystem sees (R240). -/
def ScalarOp.suffix (op : ScalarOp) (w : Word32) : Suffix where
  word := w
  slots := op.slots
  cls := op.cls
  rc1 := op.rc
  ra0 := op.ra0
  single := op.single
  implicitRs := op.implicitRs
  isStore := op.isStore
  dstWidth := hasDestWidth op.slots op.cls
  srcWidth := hasSourceWidth op.slots
  spr := op.spr

/-- The category and the operand-to-sub-field assignment (R193, R195, D24). R195 states those of `add`, `maddld` (the
source's madd), `fmadd`, `isel`, `rlwimi`, and of the classes of loads and stores: `stw` "etc.", `stdx` "etc.", LDST Indexed with
update as `lhaux` and without, LDST Update; the others follow R194 and G14 and are PRESUMED (log entry 4), the stores with update R194:
two sources and one destination give RM-1P-2S1D, three and one RM-1P-3S1D (log entry 25). Which destination of a load with update is
Rdest1 and which Rdest2 "is not stated" (R189): the model makes RT Rdest1 and the updated RA Rdest2, DESIGN CHOICE (log entry 25). -/
def ScalarOp.rmMap : ScalarOp → Option RmMap
  | .add .. => some ⟨.rm1P2S1D, [.rdest, .rsrc1, .rsrc2]⟩
  | .subf .. => some ⟨.rm1P2S1D, [.rdest, .rsrc1, .rsrc2]⟩
  | .logic .. => some ⟨.rm1P2S1D, [.rdest, .rsrc1, .rsrc2]⟩
  | .addi .. => some ⟨.rm2P1S1D, [.rdest, .rsrc1]⟩
  | .extsb .. => some ⟨.rm2P1S1D, [.rdest, .rsrc1]⟩
  | .rlwimi .. => some ⟨.rm1P2S1D, [.rdest, .rsrc1, .rsrc2]⟩
  | .maddld .. => some ⟨.rm1P3S1D, [.rdest, .rsrc1, .rsrc2, .rsrc3]⟩
  | .isel .. => some ⟨.rm1P3S1D, [.rdest, .rsrc1, .rsrc2, .rsrc3]⟩
  | .cmp .. => some ⟨.rm1P2S1D, [.rdest, .rsrc1, .rsrc2]⟩
  | .fadds .. => some ⟨.rm1P2S1D, [.rdest, .rsrc1, .rsrc2]⟩
  | .fmadd .. => some ⟨.rm1P3S1D, [.rdest, .rsrc1, .rsrc2, .rsrc3]⟩
  | .maddedu .. => some ⟨.rm1P3S1D, [.rdest, .rsrc1, .rsrc2, .rsrc3]⟩
  | .divmod2du .. => some ⟨.rm1P3S1D, [.rdest, .rsrc1, .rsrc2, .rsrc3]⟩
  | .load _ false _ _ _ => some ⟨.rm2P1S1D, [.rdest, .rsrc1]⟩
  | .load _ true _ _ _ => some ⟨.rm2P1S2D, [.rdest, .rsrc1, .rdest2]⟩
  | .loadX .. => some ⟨.rm2P2S1D, [.rdest, .rsrc1, .rsrc2]⟩
  | .store _ false _ _ _ => some ⟨.rm2P2S, [.rsrc1, .rsrc2]⟩
  | .store _ true _ _ _ => some ⟨.rm1P2S1D, [.rdest, .rsrc1, .rsrc2]⟩
  | .storeX _ false _ _ _ => some ⟨.rm2P3S, [.rsrc1, .rsrc2, .rsrc3]⟩
  | .storeX _ true _ _ _ => some ⟨.rm1P3S1D, [.rdest, .rsrc1, .rsrc2, .rsrc3]⟩
  | .crlogic .. => some ⟨.rm1P2S1D, [.rdest, .rsrc1, .rsrc2]⟩
  | .mcrf .. => some ⟨.rm2P1S1D, [.rdest, .rsrc1]⟩
  | .branch _ _ => some ⟨.rm1P2S1D, []⟩
  | .sync => some ⟨.rm1P2S1D, []⟩
  | .mtspr .. => some ⟨.rm2P1S1D, [.rsrc1]⟩
  | .mfspr .. => some ⟨.rm2P1S1D, [.rdest]⟩

/-- The reference suffix ISA's `decode` (R240). The all-zero word is illegal; a word the reference does not write out is
`Config.otherSuffix`'s (log entry 4). -/
def referenceDecode (w : Word32) : Option Suffix :=
  if w = 0#32 then none
  else match scalarOp w with
    | some op => some (op.suffix w)
    | none => (Config.otherSuffix w).map fun ins => { ins with word := w }

/-- The reference suffix ISA's `rmCategory` (R193). -/
def referenceRmCategory (ins : Suffix) : Option RmMap :=
  match scalarOp ins.word with
  | some op => op.rmMap
  | none => Config.otherRmCategory ins

/-- The suffix ISA of the runnable machine (R240, D1). -/
def referenceIsa : SuffixIsa := ⟨referenceDecode, referenceRmCategory⟩

/-! ### What R181 to R195 ask of `rmCategory` (R4) -/

/-- The sub-field can extend the operand: a source sub-field one that is read, written as well or not (R184, R188), a destination
sub-field one that is only written (R181 to R190). -/
def SubField.covers (f : SubField) (sl : Slot) : Bool :=
  match f with
  | .rdest => sl.writes && !sl.reads
  | .rdest2 => sl.writes && !sl.reads
  | .rsrc1 => sl.reads
  | .rsrc2 => sl.reads
  | .rsrc3 => sl.reads

/-- The mapping may extend an operand that is both read and written by this one sub-field (R193). In RM-1P-2S1D it may not: "due to the
prefix they are different SV regs", two operands (R184). Of a load only that with update has one, its RA, under Rsrc1 where it is indexed
(R188) and under Rsrc, the one source of LDST Update, where it has a displacement and RA is not listed as two operands (R189). -/
def RmMap.sharesSubField (m : RmMap) (ins : Suffix) (f : SubField) : Bool :=
  m.cat != .rm1P2S1D &&
    (ins.cls != .ldst || ins.isStore || (m.cat == .rm2P2S1D || m.cat == .rm2P1S2D) && f == .rsrc1)

/-- The category of the class row of R195 a load or store is in, by the number of its register sources and of its destinations (R194),
an operand that is read and written counted as both: `stw` "etc." and `stdx` "etc.", with "no register destination" (R186, R190), LDST
(Indexed), which with update "takes 2 src and 2 dest" (R188), and LDST Update, one and two (R189); `none` where R195 has no row, as for a
store with update: its category is what `rmCategory` says (R194). -/
def ldstCategory (ins : Suffix) : Option Category :=
  match ins.isStore, ins.slots.countP Slot.reads, ins.slots.countP Slot.writes with
  | true, 2, 0 => some .rm2P2S
  | true, 3, 0 => some .rm2P3S
  | false, 2, 1 => some .rm2P2S1D
  | false, 2, 2 => some .rm2P2S1D
  | false, 1, 2 => some .rm2P1S2D
  | _, _, _ => none

/-- The row of R195 that the instruction stands in: its category, and its operands with the sub-field the row states for each. The order of
the sources is stated for `add`, `madd`, `rlwimi` and `lhaux` (D24), and so for "the other indexed loads with update" (R188); of `isel` it
is stated that "the third source is a CR bit operand"; of the class rows only the category. -/
def ScalarOp.namedRow : ScalarOp → Option (Category × List (SubField × Slot))
  | .maddld t a b c => some (.rm1P3S1D,
      [(.rdest, dstSlot .gpr t), (.rsrc1, srcSlot .gpr a), (.rsrc2, srcSlot .gpr b), (.rsrc3, srcSlot .gpr c)])
  | .fmadd t _ _ _ _ => some (.rm1P3S1D, [(.rdest, dstSlot .fpr t)])
  | .isel t _ _ bc => some (.rm1P3S1D, [(.rdest, dstSlot .gpr t), (.rsrc3, srcSlot .crBit bc)])
  | .maddedu .. => some (.rm1P3S1D, [])
  | .divmod2du .. => some (.rm1P3S1D, [])
  | .add t a b _ => some (.rm1P2S1D, [(.rdest, dstSlot .gpr t), (.rsrc1, srcSlot .gpr a), (.rsrc2, srcSlot .gpr b)])
  | .rlwimi a s _ _ _ _ => some (.rm1P2S1D, [(.rsrc1, srcSlot .gpr s), (.rsrc2, srcSlot .gpr a), (.rdest, dstSlot .gpr a)])
  | .store _ false _ _ _ => some (.rm2P2S, [])
  | .storeX _ false _ _ _ => some (.rm2P3S, [])
  | .loadX k true t a b => some (.rm2P2S1D,
      [(.rdest, dstSlot k.file t), (.rsrc1, ⟨.gpr, a, true, true⟩), (.rsrc2, srcSlot .gpr b)])
  | .loadX _ false _ _ _ => some (.rm2P2S1D, [])
  | .load _ true _ _ _ => some (.rm2P1S2D, [])
  | _ => none

/-- The mapping says of a suffix word what the row of R195 that its instruction stands in says. The names are Power ISA's, and so the words
("simply a 32-bit v3.0B / v3.1 instruction", R240), in any suffix ISA (PRESUMED, log entry 4). -/
def RmMap.meetsNamedRow (m : RmMap) (ins : Suffix) : Bool :=
  ((scalarOp ins.word).bind ScalarOp.namedRow).all fun row =>
    row.1 == m.cat && row.2.all fun e => (m.subs.zip ins.slots).contains e

/-- The mapping is one that R181 to R195 allow: it names a sub-field for every register operand (R193), each one its category has (R181
to R190), none twice, a source for what is read and a destination for what is only written, one for a read and a write only where R184,
R188 and R189 let it be one; an instruction that stands in a row of R195 has its row, a load or store the category of its class, and only
RM-1P-3S1D holds an implicit RS (R182, R195). -/
def RmMap.fits (m : RmMap) (ins : Suffix) : Bool :=
  m.subs.length == ins.slots.length &&
    (m.subs.zip ins.slots).all (fun e => e.1.covers e.2 && (!(e.2.reads && e.2.writes) || m.sharesSubField ins e.1)) &&
    m.subs.all (fun f => (layout m.cat).any fun e => e.1 == f) && decide m.subs.Nodup &&
    (ins.cls != .ldst || (ldstCategory ins).all (· == m.cat)) && (!ins.implicitRs || m.cat == .rm1P3S1D) &&
    m.meetsNamedRow ins

/-- The mapping of a suffix: what the parameter `rmCategory` says of it, "constrained by 43_extra_formats.md rules R181 to R195" (R4). An
answer those rules exclude maps nothing (log entry 29). -/
def SuffixIsa.mapping (isa : SuffixIsa) (ins : Suffix) : Option RmMap := (isa.rmCategory ins).filter fun m => m.fits ins

/-! ### The decoder -/

/-- The category of a suffix word, `none` where the word is itself an EXT01 word (R102), is illegal (R102), or has no RM
category (R103). -/
def categoryOf (isa : SuffixIsa) (w1 : Word32) : Option Category :=
  if primary w1 = 1#6 then none
  else (isa.decode w1).bind fun ins => (isa.mapping ins).map RmMap.cat

/-- An SVP64 pair (R100, R103): the category of the suffix says which row it is; a pair whose suffix fixes no category
stays `svp64Prefix`. -/
def decodePair (isa : SuffixIsa) (w0 w1 : Word32) : Instr :=
  match categoryOf isa w1 with
  | none => .svp64Prefix (rmOf w0) w1
  | some cat => splitInstr cat (rmOf w0) w1

/-- A first word of a row handed to the suffix ISA, with its second word (R79). -/
def decodeV31 (row : V31Row) (w0 w1 : Word32) : Instr :=
  match row with
  | .ls8 => .ext01_8LS (w0.extractLsb' 0 23) w1
  | .rr8 => .ext01_8RR (w0.extractLsb' 0 20) w1
  | .mrr => .ext01_MRR (w0.extractLsb' 0 20) w1
  | .mmirr => .ext01_MMIRR (w0.extractLsb' 0 20) w1
  | .row100 => .ext01_row100 (w0.extractLsb' 0 23) w1
  | .row001 => .ext01_row001 (w0.extractLsb' 0 23) w1
  | .row101 => .ext01_row101 (w0.extractLsb' 0 23) w1

/-- A first word that lies in an empty cell (R79, R271 cause 1). -/
def decodeEmpty (cell : EmptyCell) (w0 : Word32) : Instr :=
  match cell with
  | .c011 => .ext01_unallocated_011 (w0.extractLsb' 0 22)
  | .c010001 => .ext01_unallocated_010001 (w0.extractLsb' 0 20)
  | .c010010 => .ext01_unallocated_010010 (w0.extractLsb' 0 20)
  | .c010011 => .ext01_unallocated_010011 (w0.extractLsb' 0 20)
  | .c110001 => .ext01_unallocated_110001 (w0.extractLsb' 0 20)
  | .c110010 => .ext01_unallocated_110010 (w0.extractLsb' 0 20)
  | .c110011 => .ext01_unallocated_110011 (w0.extractLsb' 0 20)
  | .c111000 => .ext01_unallocated_111000 (w0.extractLsb' 0 20)
  | .c111010 => .ext01_unallocated_111010 (w0.extractLsb' 0 20)
  | .c111011 => .ext01_unallocated_111011 (w0.extractLsb' 0 20)

/-- Why the decoder gives no instruction of the opcode table. -/
inductive DecodeReject where
  /-- fewer than four bytes -/
  | noWord
  /-- the first word is not an EXT01 word: an unprefixed instruction of the suffix ISA (R71, R243), no row of the table -/
  | unprefixed (w : Word32)
  /-- a 64-bit instruction whose second word is missing -/
  | noSecondWord (w : Word32)
deriving DecidableEq, Repr

/-- The instruction a list of words begins with (R52, R71, R79, R100). -/
def decodeWords (isa : SuffixIsa) (ws : List Word32) : Except DecodeReject Instr :=
  match ws with
  | [] => .error .noWord
  | w0 :: rest =>
    match classify w0 with
    | .unprefixed => .error (.unprefixed w0)
    | .unallocated cell => .ok (decodeEmpty cell w0)
    | .svp64 =>
      match rest with
      | [] => .error (.noSecondWord w0)
      | w1 :: _ => .ok (decodePair isa w0 w1)
    | .v31 row =>
      match rest with
      | [] => .error (.noSecondWord w0)
      | w1 :: _ => .ok (decodeV31 row w0 w1)

/-- The 32-bit value of four bytes in address order (R51). -/
def wordOfBytes (be : Bool) (b0 b1 b2 b3 : Byte) : Word32 :=
  if be then b0 ++ b1 ++ b2 ++ b3 else b3 ++ b2 ++ b1 ++ b0

/-- The four bytes of a word in address order (R51). -/
def bytesOfWord (be : Bool) (w : Word32) : List Byte :=
  if be then [w.extractLsb' 24 8, w.extractLsb' 16 8, w.extractLsb' 8 8, w.extractLsb' 0 8]
  else [w.extractLsb' 0 8, w.extractLsb' 8 8, w.extractLsb' 16 8, w.extractLsb' 24 8]

/-- The low `n` bytes of a doubleword in address order (R51). -/
def lowBytes (be : Bool) (n : Nat) (v : DWord) : List Byte :=
  let little := (List.range n).map fun k => v.extractLsb' (8 * k) 8
  if be then little.reverse else little

/-- The number that bytes in address order make (R51). -/
def dwordOfBytes (be : Bool) (bs : List Byte) : DWord :=
  (if be then bs else bs.reverse).foldl (fun acc b => acc <<< 8 ||| b.zeroExtend 64) 0#64

/-- The whole words at the front of a list of bytes, each word in the byte order on its own (R51). -/
def wordsOfBytes (be : Bool) : List Byte → List Word32
  | b0 :: b1 :: b2 :: b3 :: rest => wordOfBytes be b0 b1 b2 b3 :: wordsOfBytes be rest
  | _ => []

/-- The instruction a list of bytes begins with: total on any bytes, rejecting by name. -/
def decodeBytes (isa : SuffixIsa) (be : Bool) (bytes : List Byte) : Except DecodeReject Instr :=
  decodeWords isa (wordsOfBytes be bytes)

/-! ### The encoder -/

/-- `RM` of an SVP64 instruction, `none` for the rows that are not SVP64 (R74, R76). -/
def Instr.rm? : Instr → Option Rm
  | .svp64Prefix rm _ => some rm
  | .rm1P3S1D c d a b e y _ => some (packRm c (d ++ a ++ b ++ e ++ y))
  | .rm1P2S1D c d a b _ => some (packRm c (d ++ a ++ b))
  | .rm2P1S1D c d a p _ => some (packRm c (d ++ a ++ p))
  | .rm2P2S c a b p _ => some (packRm c (a ++ b ++ p))
  | .rm2P2S1D c d a b p _ => some (packRm c (d ++ a ++ b ++ p))
  | .rm2P1S2D c a d f p _ => some (packRm c (a ++ d ++ f ++ p))
  | .rm2P3S c a b e p _ => some (packRm c (a ++ b ++ e ++ p))
  | .ext01_8LS _ _ => none
  | .ext01_8RR _ _ => none
  | .ext01_MRR _ _ => none
  | .ext01_MMIRR _ _ => none
  | .ext01_row100 _ _ => none
  | .ext01_row001 _ _ => none
  | .ext01_row101 _ _ => none
  | .ext01_unallocated_011 _ => none
  | .ext01_unallocated_010001 _ => none
  | .ext01_unallocated_010010 _ => none
  | .ext01_unallocated_010011 _ => none
  | .ext01_unallocated_110001 _ => none
  | .ext01_unallocated_110010 _ => none
  | .ext01_unallocated_110011 _ => none
  | .ext01_unallocated_111000 _ => none
  | .ext01_unallocated_111010 _ => none
  | .ext01_unallocated_111011 _ => none

/-- The category an instruction was split by; the unsplit pair and the rows that are not SVP64 have none (R103). -/
def Instr.category? : Instr → Option Category
  | .svp64Prefix _ _ => none
  | .rm1P3S1D _ _ _ _ _ _ _ => some .rm1P3S1D
  | .rm1P2S1D _ _ _ _ _ => some .rm1P2S1D
  | .rm2P1S1D _ _ _ _ _ => some .rm2P1S1D
  | .rm2P2S _ _ _ _ _ => some .rm2P2S
  | .rm2P2S1D _ _ _ _ _ _ => some .rm2P2S1D
  | .rm2P1S2D _ _ _ _ _ _ => some .rm2P1S2D
  | .rm2P3S _ _ _ _ _ _ => some .rm2P3S
  | .ext01_8LS _ _ => none
  | .ext01_8RR _ _ => none
  | .ext01_MRR _ _ => none
  | .ext01_MMIRR _ _ => none
  | .ext01_row100 _ _ => none
  | .ext01_row001 _ _ => none
  | .ext01_row101 _ _ => none
  | .ext01_unallocated_011 _ => none
  | .ext01_unallocated_010001 _ => none
  | .ext01_unallocated_010010 _ => none
  | .ext01_unallocated_010011 _ => none
  | .ext01_unallocated_110001 _ => none
  | .ext01_unallocated_110010 _ => none
  | .ext01_unallocated_110011 _ => none
  | .ext01_unallocated_111000 _ => none
  | .ext01_unallocated_111010 _ => none
  | .ext01_unallocated_111011 _ => none

/-- The first word of an instruction, from the fixed bits of its row of the opcode table (R72, R77). -/
def Instr.firstWord : Instr → Word32
  | .svp64Prefix rm _ => prefixWord rm
  | .rm1P3S1D c d a b e y _ => prefixWord (packRm c (d ++ a ++ b ++ e ++ y))
  | .rm1P2S1D c d a b _ => prefixWord (packRm c (d ++ a ++ b))
  | .rm2P1S1D c d a p _ => prefixWord (packRm c (d ++ a ++ p))
  | .rm2P2S c a b p _ => prefixWord (packRm c (a ++ b ++ p))
  | .rm2P2S1D c d a b p _ => prefixWord (packRm c (d ++ a ++ b ++ p))
  | .rm2P1S2D c a d f p _ => prefixWord (packRm c (a ++ d ++ f ++ p))
  | .rm2P3S c a b e p _ => prefixWord (packRm c (a ++ b ++ e ++ p))
  | .ext01_8LS x _ => 0b000001000#9 ++ x
  | .ext01_8RR x _ => 0b000001010000#12 ++ x
  | .ext01_MRR x _ => 0b000001110000#12 ++ x
  | .ext01_MMIRR x _ => 0b000001111001#12 ++ x
  | .ext01_row100 x _ => 0b000001100#9 ++ x
  | .ext01_row001 x _ => 0b000001001#9 ++ x
  | .ext01_row101 x _ => 0b000001101#9 ++ x
  | .ext01_unallocated_011 x => 0b0000010110#10 ++ x
  | .ext01_unallocated_010001 x => 0b000001010001#12 ++ x
  | .ext01_unallocated_010010 x => 0b000001010010#12 ++ x
  | .ext01_unallocated_010011 x => 0b000001010011#12 ++ x
  | .ext01_unallocated_110001 x => 0b000001110001#12 ++ x
  | .ext01_unallocated_110010 x => 0b000001110010#12 ++ x
  | .ext01_unallocated_110011 x => 0b000001110011#12 ++ x
  | .ext01_unallocated_111000 x => 0b000001111000#12 ++ x
  | .ext01_unallocated_111010 x => 0b000001111010#12 ++ x
  | .ext01_unallocated_111011 x => 0b000001111011#12 ++ x

/-- The second word of an instruction; an empty cell has none (R79: no second word is fetched). -/
def Instr.secondWord? : Instr → Option Word32
  | .svp64Prefix _ w => some w
  | .rm1P3S1D _ _ _ _ _ _ w => some w
  | .rm1P2S1D _ _ _ _ w => some w
  | .rm2P1S1D _ _ _ _ w => some w
  | .rm2P2S _ _ _ _ w => some w
  | .rm2P2S1D _ _ _ _ _ w => some w
  | .rm2P1S2D _ _ _ _ _ w => some w
  | .rm2P3S _ _ _ _ _ w => some w
  | .ext01_8LS _ w => some w
  | .ext01_8RR _ w => some w
  | .ext01_MRR _ w => some w
  | .ext01_MMIRR _ w => some w
  | .ext01_row100 _ w => some w
  | .ext01_row001 _ w => some w
  | .ext01_row101 _ w => some w
  | .ext01_unallocated_011 _ => none
  | .ext01_unallocated_010001 _ => none
  | .ext01_unallocated_010010 _ => none
  | .ext01_unallocated_010011 _ => none
  | .ext01_unallocated_110001 _ => none
  | .ext01_unallocated_110010 _ => none
  | .ext01_unallocated_110011 _ => none
  | .ext01_unallocated_111000 _ => none
  | .ext01_unallocated_111010 _ => none
  | .ext01_unallocated_111011 _ => none

/-- The words of an instruction in "PC order" (R70). -/
def encode (i : Instr) : List Word32 := i.firstWord :: i.secondWord?.toList

/-! ### The reference suffix ISA: encoding (PRESUMED, log entry 4) -/

/-- The XL-form extended opcode of a CR logical function. -/
def CrLogic.xo : CrLogic → BitVec 10
  | .and => 257#10
  | .nand => 225#10
  | .or => 449#10
  | .nor => 33#10
  | .xor => 193#10
  | .eqv => 289#10
  | .andc => 129#10
  | .orc => 417#10

/-- The X-form extended opcode of a GPR logical function. -/
def GprLogic.xo : GprLogic → BitVec 10
  | .and => 28#10
  | .or => 444#10
  | .xor => 316#10

/-- The primary opcode and the low two bits of a load with a displacement, where Power ISA has one. -/
def LoadKind.codeD : LoadKind → Bool → Option (BitVec 6 × BitVec 2)
  | .lwz, u => some (if u then 33 else 32, 0)
  | .lbz, u => some (if u then 35 else 34, 0)
  | .lhz, u => some (if u then 41 else 40, 0)
  | .lha, u => some (if u then 43 else 42, 0)
  | .lfs, u => some (if u then 49 else 48, 0)
  | .lfd, u => some (if u then 51 else 50, 0)
  | .ld, u => some (58, if u then 1 else 0)
  | .lwa, false => some (58, 2)
  | _, _ => none

/-- The primary opcode and the low two bits of a store with a displacement, where Power ISA has one. -/
def StoreKind.codeD : StoreKind → Bool → Option (BitVec 6 × BitVec 2)
  | .stw, u => some (if u then 37 else 36, 0)
  | .stb, u => some (if u then 39 else 38, 0)
  | .sth, u => some (if u then 45 else 44, 0)
  | .stfs, u => some (if u then 53 else 52, 0)
  | .stfd, u => some (if u then 55 else 54, 0)
  | .std, u => some (62, if u then 1 else 0)
  | _, _ => none

/-- The extended opcode of an indexed load, where Power ISA has one. -/
def LoadKind.codeX : LoadKind → Bool → Option (BitVec 10)
  | .ld, u => some (if u then 53 else 21)
  | .lwz, u => some (if u then 55 else 23)
  | .lbz, u => some (if u then 119 else 87)
  | .lhz, u => some (if u then 311 else 279)
  | .lwa, u => some (if u then 373 else 341)
  | .lha, u => some (if u then 375 else 343)
  | .lfs, u => some (if u then 567 else 535)
  | .lfd, u => some (if u then 631 else 599)
  | .ldbr, false => some 532
  | .lwbr, false => some 534
  | .lhbr, false => some 790
  | .lfiwa, false => some 855
  | .lfiwz, false => some 887
  | _, _ => none

/-- The extended opcode of an indexed store, where Power ISA has one. -/
def StoreKind.codeX : StoreKind → Bool → Option (BitVec 10)
  | .std, u => some (if u then 181 else 149)
  | .stw, u => some (if u then 183 else 151)
  | .stb, u => some (if u then 247 else 215)
  | .sth, u => some (if u then 439 else 407)
  | .stfs, u => some (if u then 695 else 663)
  | .stfd, u => some (if u then 759 else 727)
  | .stdbr, false => some 660
  | .stwbr, false => some 662
  | .sthbr, false => some 918
  | .stfiw, false => some 983
  | _, _ => none

/-- A word with a displacement: the low two bits are the displacement's, or, in a DS form, the opcode's. -/
def dWord (code : Option (BitVec 6 × BitVec 2)) (t a : BitVec 5) (d : BitVec 16) : Word32 :=
  let c := code.getD (0, 0)
  c.1 ++ t ++ a ++ (d.extractLsb' 2 14 ++ (d.extractLsb' 0 2 ||| c.2))

/-- A displacement the opcode can hold: a DS form's is a multiple of 4. -/
def dFits (code : Option (BitVec 6 × BitVec 2)) (d : BitVec 16) : Bool :=
  match code with
  | none => false
  | some c => !(c.1 == 58#6 || c.1 == 62#6) || d.extractLsb' 0 2 == 0#2

/-- The word of an instruction of the reference suffix ISA. -/
def ScalarOp.word : ScalarOp → Word32
  | .add t a b rc => 31#6 ++ t ++ a ++ b ++ 266#10 ++ BitVec.ofBool rc
  | .subf t a b rc => 31#6 ++ t ++ a ++ b ++ 40#10 ++ BitVec.ofBool rc
  | .logic fn a s b rc => 31#6 ++ s ++ a ++ b ++ fn.xo ++ BitVec.ofBool rc
  | .addi t a si => 14#6 ++ t ++ a ++ si
  | .extsb a s rc => 31#6 ++ s ++ a ++ 0#5 ++ 954#10 ++ BitVec.ofBool rc
  | .rlwimi a s sh mb me rc => 20#6 ++ s ++ a ++ sh ++ mb ++ me ++ BitVec.ofBool rc
  | .maddld t a b c => 4#6 ++ t ++ a ++ b ++ c ++ 51#6
  | .isel t a b bc => 31#6 ++ t ++ a ++ b ++ bc ++ 15#5 ++ 0#1
  | .cmp bf l a b => 31#6 ++ bf ++ 0#1 ++ BitVec.ofBool l ++ a ++ b ++ 0#10 ++ 0#1
  | .fadds t a b rc => 59#6 ++ t ++ a ++ b ++ 0#5 ++ 21#5 ++ BitVec.ofBool rc
  | .fmadd t a c b rc => 63#6 ++ t ++ a ++ b ++ c ++ 29#5 ++ BitVec.ofBool rc
  | .maddedu t a b c => 4#6 ++ t ++ a ++ b ++ c ++ 50#6
  | .divmod2du t a b c => 4#6 ++ t ++ a ++ b ++ c ++ 58#6
  | .load k u t a d => dWord (k.codeD u) t a d
  | .loadX k u t a b => 31#6 ++ t ++ a ++ b ++ (k.codeX u).getD 0 ++ 0#1
  | .store k u s a d => dWord (k.codeD u) s a d
  | .storeX k u s a b => 31#6 ++ s ++ a ++ b ++ (k.codeX u).getD 0 ++ 0#1
  | .crlogic fn bt ba bb => 19#6 ++ bt ++ ba ++ bb ++ fn.xo ++ 0#1
  | .mcrf bf bfa => 19#6 ++ bf ++ 0#2 ++ bfa ++ 0#7 ++ 0#10 ++ 0#1
  | .branch li aa => 18#6 ++ li ++ BitVec.ofBool aa ++ 0#1
  | .sync => 31#6 ++ 0#15 ++ 598#10 ++ 0#1
  | .mtspr n s => 31#6 ++ s ++ n.extractLsb' 0 5 ++ n.extractLsb' 5 5 ++ 467#10 ++ 0#1
  | .mfspr t n => 31#6 ++ t ++ n.extractLsb' 0 5 ++ n.extractLsb' 5 5 ++ 339#10 ++ 0#1

/-- The forms the reference writes out: loads and stores that Power ISA has, not the invalid forms of an update. -/
def ScalarOp.valid : ScalarOp → Bool
  | .load k u t a d => dFits (k.codeD u) d && validBase u a (k.target t)
  | .loadX k u t a _ => (k.codeX u).isSome && validBase u a (k.target t)
  | .store k u _ a d => dFits (k.codeD u) d && validBase u a none
  | .storeX k u _ a _ => (k.codeX u).isSome && validBase u a none
  | _ => true

/-! ### The machine's decoder, as the host asks for it -/

/-- The bytes of an instruction whose bits are `w`, numbered as spec/opcode_table.json numbers them: the first word is the
low 32 bits, the second word the next 32, each laid out in the machine's byte order (R51). -/
def tableBytes (nbits w : Nat) : List Byte :=
  bytesOfWord Config.bigEndian (BitVec.ofNat 32 (w % 2 ^ nbits)) ++
    bytesOfWord Config.bigEndian (BitVec.ofNat 32 (w % 2 ^ nbits / 2 ^ 32))

/-- The instruction the decoder reads from a word of the opcode table, the bits above `nbits` zero. A table row gives the
suffix no bits, so for the eight SVP64 rows the suffix is the all-zero word, which fixes no category (R103): the answer is
`svp64Prefix` for each of them (log entry 10). -/
def decodeTableWord (nbits w : Nat) : Option Instr :=
  match decodeBytes referenceIsa Config.bigEndian (tableBytes nbits w) with
  | .ok i => some i
  | .error _ => none

end Sys2Proof
end

