-- ==== Sys2Proof/Machine/State.lean ====
section
/-! DEFINITION. The state of the machine as plain data (R20 to R38), the state right after reset, and the closed lists of
reasons a step can stop: faults (R270, R285, R286) and refusals (R279). -/

namespace Sys2Proof
namespace Machine

/-- SVSTATE (R31): an opaque record with one known projection, VL. -/
structure Svstate where
  /-- the vector length, a natural number (R30) -/
  vl : Nat
  /-- the rest of SVSTATE and the "other sprs" (R31, R32), of unknown layout: only the suffix ISA's own meanings can depend on
  it or change it, and the value an SVP64 SPR holds (R33) -/
  rest : List DWord
deriving DecidableEq, Repr, Inhabited

/-- The computation mode (R34). The prefix subsystem does not read it; the suffix ISA does. -/
inductive CompMode where
  | bits64
  | bits32
deriving DecidableEq, Repr, Inhabited

/-- Byte-addressed memory (R50): address and byte, addresses strictly rising, only the bytes something has written. An
unlisted address holds no byte (log entry 2). -/
abbrev Memory := List Host.Cell

/-- The state. `gpr` to `mem` are what spec/10_state.md and spec/20_memory.md give the machine; `xer` to `own` are the suffix
ISA's own state, which R240 says exists and does not describe (log entry 4). -/
structure State where
  /-- r0 to r127 (R20, R21) -/
  gpr : Vector DWord 128
  /-- fp0 to fp127 (R23) -/
  fpr : Vector DWord 128
  /-- CR0 to CR127, four bits each, LT most significant, then GT, EQ, SO (R25, R26) -/
  cr : Vector (BitVec 4) 128
  /-- the address of the current instruction, of its first word when it has two (R27) -/
  cia : DWord
  /-- SVSTATE, with VL (R30, R31) -/
  svstate : Svstate
  /-- 64-bit or 32-bit mode (R34) -/
  mode : CompMode
  /-- memory (R50, R57) -/
  mem : Memory
  /-- the suffix ISA's XER -/
  xer : DWord
  /-- the suffix ISA's link register -/
  lr : DWord
  /-- the suffix ISA's count register -/
  ctr : DWord
  /-- the suffix ISA's FPSCR -/
  fpscr : DWord
  /-- every other register of the suffix ISA, by a number of the suffix ISA's choosing, numbers strictly rising -/
  own : List (Nat × DWord)
deriving DecidableEq, Repr

/-- The vector length (R30). -/
abbrev State.vl (s : State) : Nat := s.svstate.vl

/-- The machine right after reset (R38, R300). The source states no reset value at all, so every value here is the model's:
zero for every register, 64-bit mode, no byte of memory (DESIGN CHOICE, log entries 1 and 2). -/
def State.reset : State where
  gpr := Vector.replicate 128 0#64
  fpr := Vector.replicate 128 0#64
  cr := Vector.replicate 128 0#4
  cia := 0#64
  svstate := ⟨0, []⟩
  mode := .bits64
  mem := []
  xer := 0#64
  lr := 0#64
  ctr := 0#64
  fpscr := 0#64
  own := []

/-- The two width fields, for the causes of R271 that name one. -/
inductive WidthField where
  | elwidth
  | elwidthSrc
deriving DecidableEq, Repr, Inhabited

/-- The causes of `IllegalInstruction` (R271), with the field and its value where R104 asks for them. -/
inductive IllegalCause where
  /-- cause 1: the first word lies in an empty cell of the opcode map, or in a row the source's map does not print and the suffix
  ISA has no instruction there (R79) -/
  | unallocatedPrefix
  /-- cause 2: a floating-point operand's element width is `0b11`, bf16 -/
  | reservedElwidth (field : WidthField)
  /-- cause 3: an FP operation ending in 's' has element width f16 or bf16 -/
  | narrowSingle (field : WidthField) (value : BitVec 2)
  /-- cause 4: ELWIDTH or ELWIDTH_SRC is not zero and the suffix has no destination width, or no source width -/
  | unusedWidth (field : WidthField) (value : BitVec 2)
  /-- cause 4: a sub-field of EXTRA that extends no operand is not zero -/
  | unusedSubField (field : SubField) (value : SubValue)
  /-- cause 4: EXTRA2_MODE is not zero outside `maddedu` and `divmod2du` -/
  | unusedExtra2Mode
  /-- cause 5: the hardware does not implement the field values -/
  | unsupported
  /-- cause 6: a value of an SVP64 SPR the hardware does not support -/
  | svSprValue (spr : BitVec 10)
  /-- cause 7: the suffix word is no instruction of the suffix ISA. The model reports an unprefixed word the suffix ISA finds
  illegal in the same way, with one word (DESIGN CHOICE, log entry 26: R271 speaks of the suffix of a pair only). -/
  | illegalSuffix
deriving DecidableEq, Repr, Inhabited

/-- What is recorded with an illegal instruction (R272): the address of the first word, the words, the cause. -/
structure IllegalRecord where
  cia : DWord
  w0 : Word32
  /-- absent when no second word was fetched -/
  w1 : Option Word32
  cause : IllegalCause
deriving DecidableEq, Repr, Inhabited

/-- A trap of the suffix ISA (R286): its codes are not in the source. -/
inductive SuffixTrap where
  /-- instruction fetch from an address that holds no byte, "no memory" -/
  | fetchAbsent (addr : DWord)
  /-- instruction fetch of a word without execute permission -/
  | noExecute (addr : DWord)
  /-- a data access to an address that holds no byte -/
  | dataAbsent (addr : DWord)
  /-- an enabled FP exception -/
  | fpEnabled
  /-- any other, by a code of the suffix ISA's choosing -/
  | other (code : Nat)
deriving DecidableEq, Repr, Inhabited

/-- Why the machine stops with a fault. -/
inductive Fault where
  /-- The illegal instruction trap (R270), raised by every check of R108 steps 2, 5 and 6, by an empty cell of the opcode map
  and by an SVP64 SPR value. It carries the state, which is the state before the instruction: the trap is precise. The
  source gives no trap entry (R274), so the machine stops. Safe. -/
  | illegalInstruction (r : IllegalRecord) (s : State)
  /-- The source's one UNDEFINED behaviour (R159, R285), raised by the element loop at the element that would make the write,
  with the state after the elements before it. Safe. -/
  | undefinedCRPredicateOverwrite (element : Nat) (s : State)
  /-- A trap of the suffix ISA inside element `element` (0 for an instruction outside the loop), with the state after the elements
  before it (R252, R286). Safe. -/
  | suffixTrap (element : Nat) (trap : SuffixTrap) (s : State)
  /-- A fault of instruction fetch, of either word of a pair (R100, R286), raised by `step`: "reported at `CIA` of the first word",
  with the state, which is as before the instruction. Safe. -/
  | fetchTrap (cia : DWord) (trap : SuffixTrap) (s : State)
  /-- `CIA` is not a multiple of 4, raised by `step`. R53 says that instruction words are aligned and gives no outcome where they are
  not ("what a misaligned PC does" is missing, N16): a fault is the model's DESIGN CHOICE (log entry 27). Safe; no step leads
  to such a state from one that is not. -/
  | misalignedCia
deriving DecidableEq, Repr

/-- Why the machine refuses: R279's list, in its order. A refusal met inside the element loop carries the element and the
state after the elements before it. All are safe: they claim nothing of the hardware. -/
inductive Refusal where
  /-- R54, raised by `step` -/
  | crosses64ByteBoundary
  /-- R102, raised by the decode checks -/
  | suffixIsPrefixWord
  /-- R103, raised by the decode checks -/
  | noRmCategory
  /-- R129, raised by the decode checks (R244 line 1) -/
  | modeNotSpecified
  /-- R254, raised by the decode checks (R244 line 2) -/
  | subvlNotSpecified
  /-- R122 to R127, raised by the decode checks (R244 line 3) -/
  | elwidthNotSpecified
  /-- R154, raised when the masks are read -/
  | integerPredicateBeyond63
  /-- R156, raised when the masks are read -/
  | crPredicatePast127
  /-- R223, raised by the element loop -/
  | registerPast127 (element : Nat) (s : State)
  /-- R247, raised before the loop (R244 line 6) -/
  | scalarDestination
  /-- R248, raised before the loop (R244 line 7) -/
  | twinSteppingNotSpecified
  /-- R251, raised before the loop (R244 line 5) -/
  | vectorisedRc1
  /-- R253, raised before the loop (R244 line 4) -/
  | vectorisedBranch
  /-- R244 line 4: a load or store with VL > 1 -/
  | vectorisedLdst
  /-- R244 line 4: a fence, load-reserve, store-conditional or cache instruction -/
  | vectorisedSync
  /-- R244 line 4: any other class -/
  | vectorisedOther
  /-- R256, raised before the loop (R244 line 8) -/
  | ra0WithExtra
  /-- R182, raised by the decode checks -/
  | rsSelectionNotSpecified
  /-- R31, raised before an instruction that reads or writes an SVP64 SPR -/
  | svstateAccess
  /-- R30, raised when VL is read -/
  | vlAboveMax
  /-- The model's own: a constructor that names a category its suffix does not have. No decoder produces one (Instr.wfFor). -/
  | categoryMismatch
  /-- An instruction of the opcode table that has no meaning yet: raised by no arm of exec now. -/
  | notModelled (mnemonic : String)
deriving DecidableEq, Repr

end Machine
end Sys2Proof
end

