-- ==== Sys2Proof/Machine/Params.lean ====
section
/-! DEFINITION. The parameters of the machine (R4, R240): what the spec leaves to the implementation and to the suffix ISA is
an argument of every operation that needs it, of `execFor` and `stepFor` (Sys2Proof/Machine/General.lean) too, so that a theorem can be
stated for all of them. An execution of a suffix instruction is given as plain data, the list of what it writes. -/

namespace Sys2Proof
namespace Machine

/-- One write of a scalar instruction (R240 part `exec1`: GPR, FPR, CR, memory and the suffix ISA's own state). `svstate` is
there because a model may receive VL "from the suffix ISA parameter" (R30). None of them moves `CIA`: `exec1` "does not
advance the PC". -/
inductive Write where
  | gpr (n : RegNum) (v : DWord)
  | fpr (n : RegNum) (v : DWord)
  | crField (n : RegNum) (v : BitVec 4)
  /-- bit `b` of a CR field, 0 = LT, 1 = GT, 2 = EQ, 3 = SO (R26) -/
  | crBit (n : RegNum) (b : Fin 4) (v : Bool)
  | mem (addr : DWord) (v : Byte)
  | xer (v : DWord)
  | lr (v : DWord)
  | ctr (v : DWord)
  | fpscr (v : DWord)
  | own (k : Nat) (v : DWord)
  | svstate (v : Svstate)
  | mode (m : CompMode)
deriving DecidableEq, Repr, Inhabited

/-- The outcome of one scalar execution (R240 part `exec1`): the writes in order and the target of a taken branch, or a trap
of the suffix ISA. -/
inductive ScalarResult where
  | done (writes : List Write) (target : Option DWord)
  | trap (t : SuffixTrap)
deriving DecidableEq, Repr, Inhabited

/-- The parameters (R4), one field for each row that is OPEN: `ScalarISA` is `suffixes.decode`, `exec1`, `execV31`, `hasUnprinted` and
`fetchTrap`. The fixed rows are constants: the widths and counts in the types, `CR_PRED_OFFS` in Sys2Proof/Config.lean. -/
structure Params where
  /-- the suffix ISA's decoding and categories (R240, R193); `rmCategory` is read through `SuffixIsa.mapping`, within R181 to R195 -/
  suffixes : SuffixIsa
  /-- one scalar execution of a suffix, its data in the byte order given, with each operand replaced by the register number the list
  gives, in the order of `Suffix.slots`; for a CR bit operand the number is the 9-bit bit number (R240) -/
  exec1 : Bool → Suffix → List Nat → State → ScalarResult
  /-- the suffix ISA's execution of a prefixed instruction of another class (R79, D23), its data in the byte order given, from both
  words -/
  execV31 : Bool → Word32 → Word32 → State → ScalarResult
  /-- the suffix ISA has an instruction for a pair whose first word lies in row 001, 100 or 101 of the opcode map, which the source's
  map does not print; "otherwise illegal" (R79) -/
  hasUnprinted : Word32 → Word32 → Bool
  /-- the suffix ISA's fault of fetching the word at an address, if it has one: execute permission, translation (R58, R286) -/
  fetchTrap : State → DWord → Option SuffixTrap
  /-- the byte order of instruction fetch and data (R4, R51) -/
  bigEndian : Bool
  /-- the largest legal VL (R30) -/
  vlMax : Nat
  /-- which field values the hardware implements (R107) -/
  hwSupports : Rm → Category → Bool
  /-- the first CR field of a vectorised Rc=1 result (R251, D25); no operation reads it, because R251 refuses such a suffix -/
  rc1CrBase : RegNum
  /-- what a scalar destination does with VL > 1 (R247) -/
  scalarDestPolicy : ScalarDestPolicy
  /-- a reserved value traps even when VL = 0 (R108; U9 of 93_implementation_defined.md) -/
  vl0ChecksReserved : Bool
  /-- which SPR numbers name SVP64 SPRs (R31) -/
  isSvSpr : BitVec 10 → Bool
  /-- the value an SVP64 SPR holds, from SVSTATE and the "other sprs", whose layout is not in the source (R31, R32) -/
  svSprHeld : BitVec 10 → Svstate → DWord
  /-- which values read from, or written to, an SVP64 SPR the hardware supports; `none` for a write whose value no register operand
  holds (R33) -/
  svSprValueOk : BitVec 10 → Option DWord → Bool

/-- One scalar execution in the machine's byte order (R240 part `exec1`, R4). -/
def Params.run (p : Params) : Suffix → List Nat → State → ScalarResult := p.exec1 p.bigEndian

end Machine

namespace Config

/-- What a suffix instruction outside the reference suffix ISA does in either byte order (R240 part `exec1`, D1: OPEN): free, log
entry 4. -/
opaque otherExec : Bool → Suffix → List Nat → Machine.State → Machine.ScalarResult

/-- The value an SVP64 SPR holds in a state (R31, R32: no layout is in the source): free, log entry 8. -/
opaque svSprHeld : BitVec 10 → Machine.Svstate → DWord

/-- What a prefixed instruction of another class writes in either byte order (R79, D23): free, log entry 9. -/
opaque v31Writes : Bool → Word32 → Word32 → Machine.State → List Machine.Write

/-- Where a prefixed instruction of another class branches, if it does: free, log entry 9. -/
opaque v31Target : Bool → Word32 → Word32 → Machine.State → Option DWord

end Config
end Sys2Proof
end

