-- ==== Sys2Proof/Machine/Ops.lean ====
section
/-! DEFINITION. The named operations over registers and memory, the writes of a scalar execution, the program counter, and
the ways an instruction stops: the illegal instruction trap stands here once, for all its causes (R270 to R272). The source
gives the trap no entry and no return (R274, R275), so taking it is a fault that carries what R272 says is recorded. -/

namespace Sys2Proof
namespace Machine

/-! ### Sparse data by number -/

/-- What a sorted list of numbered values holds at a number. -/
def sparseGet {α : Type} : List (Nat × α) → Nat → Option α
  | [], _ => none
  | (k, v) :: rest, a => if a = k then some v else sparseGet rest a

/-- Write one value, keeping the numbers strictly rising. -/
def sparseSet {α : Type} : List (Nat × α) → Nat → α → List (Nat × α)
  | [], a, x => [(a, x)]
  | (k, v) :: rest, a, x =>
    if a < k then (a, x) :: (k, v) :: rest
    else if a = k then (a, x) :: rest
    else (k, v) :: sparseSet rest a x

/-- The canonical form: the numbers rise strictly. An unlisted number holds nothing, so no listed value can equal what an
unlisted number reads as. -/
def sparseRising {α : Type} : List (Nat × α) → Bool
  | [] => true
  | (k, _) :: rest => (rest.all fun e => decide (k < e.1)) && sparseRising rest

/-! ### Memory (R50) -/

/-- Memory in its canonical form: addresses strictly rising, each inside the 64-bit address space. -/
def Memory.wf (m : Memory) : Bool := sparseRising m && m.all fun e => decide (e.1 < 18446744073709551616)

/-- The byte at an address, `none` where nothing has been written (log entry 2). -/
def readByte (s : State) (a : DWord) : Option Byte := sparseGet s.mem a.toNat

/-- Store one byte. -/
def writeByte (s : State) (a : DWord) (v : Byte) : State := { s with mem := sparseSet s.mem a.toNat v }

/-- `MemRead(addr, n)`: the bytes at `addr` to `addr+n-1`, addresses modulo 2^64 (R7, D13); the first absent address where one
is absent. -/
def readBytes (s : State) : Nat → DWord → Except DWord (List Byte)
  | 0, _ => .ok []
  | n + 1, a =>
    match readByte s a with
    | none => .error a
    | some b =>
      match readBytes s n (a + 1#64) with
      | .error e => .error e
      | .ok bs => .ok (b :: bs)

/-- The writes that store bytes at consecutive addresses, modulo 2^64. -/
def storeBytes : DWord → List Byte → List Write
  | _, [] => []
  | a, b :: bs => .mem a b :: storeBytes (a + 1#64) bs

/-- The word at an address: four bytes read as one access (R51, R56). -/
def readWord (be : Bool) (s : State) (a : DWord) : Except DWord Word32 :=
  match readBytes s 4 a with
  | .error e => .error e
  | .ok [b0, b1, b2, b3] => .ok (wordOfBytes be b0 b1 b2 b3)
  | .ok _ => .error a

/-! ### Registers -/

/-- `GPR[n]` (R7, R20). -/
def readGpr (s : State) (n : RegNum) : DWord := s.gpr[n]

/-- `GPR[n] <- v`. -/
def writeGpr (s : State) (n : RegNum) (v : DWord) : State := { s with gpr := s.gpr.set n v }

/-- `FPR[n]` (R7, R23). -/
def readFpr (s : State) (n : RegNum) : DWord := s.fpr[n]

/-- `FPR[n] <- v`. -/
def writeFpr (s : State) (n : RegNum) (v : DWord) : State := { s with fpr := s.fpr.set n v }

/-- `CR[n]`, a CR field (R7, R25). -/
def readCr (s : State) (n : RegNum) : BitVec 4 := s.cr[n]

/-- `CR[n] <- v`. -/
def writeCr (s : State) (n : RegNum) (v : BitVec 4) : State := { s with cr := s.cr.set n v }

/-- Bit `b` of a CR field: 0 = LT, 1 = GT, 2 = EQ, 3 = SO, from the most significant (R26). -/
def crFieldBit (f : BitVec 4) (b : Fin 4) : Bool := f.getLsbD (3 - b)

/-- A CR field with its bit `b` replaced (R26). -/
def setCrFieldBit (f : BitVec 4) (b : Fin 4) (v : Bool) : BitVec 4 :=
  BitVec.ofBool (if b = 0 then v else crFieldBit f 0) ++ BitVec.ofBool (if b = 1 then v else crFieldBit f 1) ++
    BitVec.ofBool (if b = 2 then v else crFieldBit f 2) ++ BitVec.ofBool (if b = 3 then v else crFieldBit f 3)

/-- Write one bit of a CR field. -/
def writeCrBit (s : State) (n : RegNum) (b : Fin 4) (v : Bool) : State :=
  writeCr s n (setCrFieldBit (readCr s n) b v)

/-- Set the current instruction address. -/
def setCia (s : State) (a : DWord) : State := { s with cia := a }

/-- Write a register of the suffix ISA's own. -/
def writeOwn (s : State) (k : Nat) (v : DWord) : State := { s with own := sparseSet s.own k v }

/-! ### The writes of a scalar execution -/

/-- Carry out one write. -/
def Write.apply (s : State) : Write → State
  | .gpr n v => writeGpr s n v
  | .fpr n v => writeFpr s n v
  | .crField n v => writeCr s n v
  | .crBit n b v => writeCrBit s n b v
  | .mem a v => writeByte s a v
  | .xer v => { s with xer := v }
  | .lr v => { s with lr := v }
  | .ctr v => { s with ctr := v }
  | .fpscr v => { s with fpscr := v }
  | .own k v => writeOwn s k v
  | .svstate v => { s with svstate := v }
  | .mode m => { s with mode := m }

/-- Carry out writes in order. -/
def applyWrites (s : State) : List Write → State
  | [] => s
  | w :: ws => applyWrites (w.apply s) ws

/-- A write that an instruction without an SVP64 prefix can make: it "reaches r0-r31, fp0-fp31 and CR0-CR7 only" (R22, R243). -/
def Write.inScalarReach : Write → Bool
  | .gpr n _ => decide (n.val < 32)
  | .fpr n _ => decide (n.val < 32)
  | .crField n _ => decide (n.val < 8)
  | .crBit n _ _ => decide (n.val < 8)
  | _ => true

/-- The writes of an instruction that runs as the unprefixed suffix ISA has it: those R243 says it can make. -/
def scalarReach (ws : List Write) : List Write := ws.filter Write.inScalarReach

/-- The first `k` of 128 registers, the others hidden behind one value. -/
def firstRegs {α : Type} (k : Nat) (hidden : α) (v : Vector α 128) : Vector α 128 :=
  v.mapIdx fun i x => if i < k then x else hidden

/-- The state as an instruction without an SVP64 prefix can read it: r0 to r31, fp0 to fp31 and CR0 to CR7, "read or written" (R22,
R243). Every register above reads as 0, so that nothing such an instruction does depends on one (log entry 20). -/
def scalarView (s : State) : State :=
  { s with gpr := firstRegs 32 0#64 s.gpr, fpr := firstRegs 32 0#64 s.fpr, cr := firstRegs 8 0#4 s.cr }

/-- The CR field a write changes, if any. -/
def Write.crField? : Write → Option RegNum
  | .crField n _ => some n
  | .crBit n _ _ => some n
  | _ => none

/-! ### The program counter (R27, R28, R249) -/

/-- A branch target as an instruction address, a multiple of 4 (R28, R53): the two low bits are dropped (log entry 14). -/
def alignTarget (t : DWord) : DWord := t &&& ~~~3#64

/-- `NIA`: a branch target where there is one, else `CIA` plus the length in bytes, modulo 2^64 (R28, R241, R249). -/
def nextAddress (s : State) (length : DWord) (target : Option DWord) : DWord :=
  match target with
  | some t => alignTarget t
  | none => s.cia + length

/-! ### Stopping -/

/-- The two ways an instruction stops. -/
inductive Stop where
  | fault (f : Fault)
  | refuse (r : Refusal)
deriving DecidableEq, Repr

/-- A stop as the outcome of a step. -/
def Stop.outcome : Stop → Host.Outcome State Fault Refusal
  | .fault f => .fault f
  | .refuse r => .refused r

/-- `raise IllegalInstruction(cause)` (R270, R272): the record and the state before the instruction. -/
def raiseIllegal (w0 : Word32) (w1 : Option Word32) (cause : IllegalCause) (s : State) : Stop :=
  .fault (.illegalInstruction ⟨s.cia, w0, w1, cause⟩ s)

/-- The first stop of a list of checks made in order (R273). -/
def firstStop : List (Option Stop) → Option Stop
  | [] => none
  | some st :: _ => some st
  | none :: rest => firstStop rest

/-- A check that stops when its condition holds. -/
def stopIf (c : Bool) (st : Stop) : Option Stop := if c then some st else none

end Machine
end Sys2Proof
end

