-- ==== Sys2Proof/Machine/Operands.lean ====
section
/-! DEFINITION. Operands: the extension of a register number by its EXTRA sub-field (R210 to R221), the register an element
uses (R222), and the register numbers a scalar execution is given (R240, R245). -/

namespace Sys2Proof

/-- The Vector tag of a sub-field: its most significant bit (R211). -/
def SubValue.isVector : SubValue → Bool
  | .extra2 v => v.getLsbD 1
  | .extra3 v => v.getLsbD 2

/-- The two extension bits `aug` (R211, C13): in EXTRA2 the one bit is the upper of the two for a vector, the lower for a
scalar. -/
def SubValue.aug : SubValue → BitVec 2
  | .extra2 v => if v.getLsbD 1 then v.extractLsb' 0 1 ++ 0#1 else 0#1 ++ v.extractLsb' 0 1
  | .extra3 v => v.extractLsb' 0 2

/-- A sub-field whose bits are all zero. -/
def SubValue.isZero : SubValue → Bool
  | .extra2 v => v == 0#2
  | .extra3 v => v == 0#3

/-- The number of a slot under the identity map: its own field (R240). -/
def Slot.ownNumber (slot : Slot) : Nat :=
  match slot.kind with
  | .gpr => slot.field.toNat
  | .fpr => slot.field.toNat
  | .crField => (slot.field.extractLsb' 0 3).toNat
  | .crBit => slot.field.toNat

namespace Machine

/-- `extend_reg(field5, sub)` for INT and FP operands (R211 to R213): the tag and the 7-bit register number. -/
def extendReg (field : BitVec 5) (sub : SubValue) : Bool × BitVec 7 :=
  if sub.isVector then (true, field ++ sub.aug) else (false, sub.aug ++ field)

/-- `extend_cr(field3, sub)` for CR field numbers (R216, R218, R219): the tag and the 7-bit CR field number. -/
def extendCr (field : BitVec 3) (sub : SubValue) : Bool × BitVec 7 :=
  if sub.isVector then (true, field ++ sub.aug ++ 0#2) else (false, 0#2 ++ sub.aug ++ field)

/-- `extend_crbit(field5, sub)` for CR bit numbers (R215, R217, R219): the tag and the 9-bit CR bit number. The bit part is
copied. -/
def extendCrBit (field : BitVec 5) (sub : SubValue) : Bool × BitVec 9 :=
  let r := extendCr (field.extractLsb' 2 3) sub
  (r.1, r.2 ++ field.extractLsb' 0 2)

/-- A resolved operand: its slot, its tag, and the number of its first register or CR field. -/
structure Operand where
  slot : Slot
  vector : Bool
  base : Nat
deriving DecidableEq, Repr, Inhabited

/-- Resolve one operand (R191, R211, R219). -/
def resolve (slot : Slot) (sub : SubValue) : Operand :=
  match slot.kind with
  | .gpr => ⟨slot, (extendReg slot.field sub).1, (extendReg slot.field sub).2.toNat⟩
  | .fpr => ⟨slot, (extendReg slot.field sub).1, (extendReg slot.field sub).2.toNat⟩
  | .crField =>
    ⟨slot, (extendCr (slot.field.extractLsb' 0 3) sub).1, (extendCr (slot.field.extractLsb' 0 3) sub).2.toNat⟩
  | .crBit =>
    ⟨slot, (extendCrBit slot.field sub).1, ((extendCrBit slot.field sub).2.extractLsb' 2 7).toNat⟩

/-- The sub-field value that extends the slot at position `k` (R193); a slot the map gives none is unextended. -/
def slotSub (map : RmMap) (rm : Rm) (k : Nat) : SubValue :=
  ((map.subs[k]?).bind (subField map.cat rm)).getD (.extra2 0#2)

/-- All operands of a suffix, resolved (R245). -/
def resolveAll (ins : Suffix) (map : RmMap) (rm : Rm) : List Operand :=
  ins.slots.zipIdx.map fun e => resolve e.1 (slotSub map rm e.2)

/-- The number of the register, or CR field, of element `i` (R222): a vector steps by one, a scalar stays. -/
def Operand.number (o : Operand) (i : Nat) : Nat := if o.vector then o.base + i else o.base

/-- The number a scalar execution is given for an operand (R240, R222): for a CR bit operand the bit number, its field part
stepped and its bit part fixed. -/
def Operand.register (o : Operand) (i : Nat) : Nat :=
  match o.slot.kind with
  | .gpr => o.number i
  | .fpr => o.number i
  | .crField => o.number i
  | .crBit => o.number i * 4 + (o.slot.field.extractLsb' 0 2).toNat

/-- The identity map of a suffix (R240). -/
def identityMap (ins : Suffix) : List Nat := ins.slots.map Slot.ownNumber

end Machine
end Sys2Proof
end

