-- ==== Sys2Proof/Machine/Flags.lean ====
section
/-! DEFINITION. CR fields as flags and as predicates, and the encodings of the width fields: the reading of one CR bit as a
predicate (R155, R156), the CR field of a comparison and of an Rc=1 form (suffix ISA, log entry 4), and the tables of ELWIDTH,
ELWIDTH_SRC and SUBVL (R122 to R128). -/

namespace Sys2Proof
namespace Machine

/-! ### The flags of a CR field -/

/-- A CR field from its four flags, LT most significant (R26). -/
def crOfFlags (lt gt eq so : Bool) : BitVec 4 :=
  BitVec.ofBool lt ++ BitVec.ofBool gt ++ BitVec.ofBool eq ++ BitVec.ofBool so

/-- XER's summary overflow bit, MSB0 bit 32 of the register (suffix ISA). -/
def summaryOverflow (s : State) : Bool := s.xer.getLsbD 31

/-- The field of a signed comparison, SO copied from XER (suffix ISA). -/
def crOfCompare (s : State) (a b : Int) : BitVec 4 := crOfFlags (a < b) (a > b) (a = b) (summaryOverflow s)

/-- The field an integer Rc=1 form records: its result compared with 0 (suffix ISA). -/
def crOfResult (s : State) (v : DWord) : BitVec 4 := crOfCompare s v.toInt 0

/-- The write of CR0 by an integer Rc=1 form (R251: under scalar identity it writes CR0 as unprefixed). -/
def recordInt (s : State) (rc : Bool) (v : DWord) : List Write := if rc then [.crField 0 (crOfResult s v)] else []

/-- The write of CR1 by an FP Rc=1 form: FPSCR bits FX, FEX, VX, OX, MSB0 bits 32 to 35 (R251; suffix ISA). -/
def recordFp (rc : Bool) (fpscr : DWord) : List Write := if rc then [.crField 1 (fpscr.extractLsb' 28 4)] else []

/-! ### A CR field as predicate -/

/-- The CR field that governs element `i` (R156): `CR[offs+i]`. `maskStop` refuses before a number past 127 is formed. -/
def crPredField (i : Nat) : RegNum := Fin.ofNat 128 (Config.crPredOffs + i)

/-- `enabled(1, sel, i)`, the table of R155, row by row. -/
def crEnabled (s : State) (sel : BitVec 3) (i : Nat) : Bool :=
  let f := readCr s (crPredField i)
  match sel.toNat with
  | 0 => crFieldBit f 0
  | 1 => !crFieldBit f 0
  | 2 => crFieldBit f 1
  | 3 => !crFieldBit f 1
  | 4 => crFieldBit f 2
  | 5 => !crFieldBit f 2
  | 6 => crFieldBit f 3
  | _ => !crFieldBit f 3

/-! ### Element widths and sub-vectors -/

/-- ELWIDTH and ELWIDTH_SRC for integer operands (R122). -/
inductive IntWidth where
  | default
  | w
  | h
  | b
deriving DecidableEq, Repr

/-- The table of R122. -/
def intWidth (v : BitVec 2) : IntWidth :=
  match v.toNat with
  | 0 => .default
  | 1 => .w
  | 2 => .h
  | _ => .b

/-- ELWIDTH and ELWIDTH_SRC for floating-point operands (R124). -/
inductive FpWidth where
  | default
  | f32
  | f16
  | bf16
deriving DecidableEq, Repr

/-- The table of R124; `bf16` is reserved. -/
def fpWidth (v : BitVec 2) : FpWidth :=
  match v.toNat with
  | 0 => .default
  | 1 => .f32
  | 2 => .f16
  | _ => .bf16

/-- `width_bits(ew) = 8 << (3 - ew)` (R123). -/
def widthBits (v : BitVec 2) : Nat := 8 <<< (3 - v.toNat)

/-- `width_bytes(ew) = 1 << (3 - ew)` (R123). -/
def widthBytes (v : BitVec 2) : Nat := 1 <<< (3 - v.toNat)

/-- The widths an FP operation ending in 's' computes in and is stored as (R125), `none` for the reserved rows. -/
def singleWidths (v : BitVec 2) : Option (Nat × Nat) :=
  match fpWidth v with
  | .default => some (32, 64)
  | .f32 => some (16, 32)
  | .f16 => none
  | .bf16 => none

/-- The sub-vector length, the field value plus one (R128). -/
def subvlLength (v : BitVec 2) : Nat := v.toNat + 1

end Machine
end Sys2Proof
end

