-- ==== Sys2Proof/Machine/Predicate.lean ====
section
/-! DEFINITION. Predication (R150 to R160): when an element is enabled, the refusals met when the masks are read, and the
masks, read whole before the first element (R158). -/

namespace Sys2Proof
namespace Machine

/-- `enabled(0, sel, i)`, the table of R152, row by row. -/
def intEnabled (s : State) (sel : BitVec 3) (i : Nat) : Bool :=
  match sel.toNat with
  | 0 => true
  | 1 => decide (i = (readGpr s 3).toNat)
  | 2 => (readGpr s 3).getLsbD i
  | 3 => !(readGpr s 3).getLsbD i
  | 4 => (readGpr s 10).getLsbD i
  | 5 => !(readGpr s 10).getLsbD i
  | 6 => (readGpr s 30).getLsbD i
  | _ => !(readGpr s 30).getLsbD i

/-- `enabled(maskmode, sel, i)` (R150, R160). -/
def enabled (s : State) (maskmode : BitVec 1) (sel : BitVec 3) (i : Nat) : Bool :=
  if maskmode = 0#1 then intEnabled s sel i else crEnabled s sel i

/-- The refusals of reading one mask of `vl` elements: a bit test of an integer register past bit 63 (R154), a CR field past
CR127 (R156). -/
def maskStop (maskmode : BitVec 1) (sel : BitVec 3) (vl : Nat) : Option Stop :=
  firstStop [
    stopIf (maskmode == 0#1 && sel != 0#3 && sel != 1#3 && decide (64 < vl)) (.refuse .integerPredicateBeyond63),
    stopIf (maskmode == 1#1 && decide (128 < Config.crPredOffs + vl)) (.refuse .crPredicatePast127)]

/-- One mask, read whole (R158). -/
def latchMask (s : State) (maskmode : BitVec 1) (sel : BitVec 3) (vl : Nat) : List Bool :=
  (List.range vl).map (enabled s maskmode sel)

/-- The mask of the element loop: MASK for a single-predicate category; for a twin-predicate one the elements enabled by MASK
and by MASK_SRC, the only outcome in the cases R248 admits. -/
def elementMask (s : State) (cat : Category) (rm : Rm) (vl : Nat) : List Bool :=
  let c := commonOf rm
  let dmask := latchMask s c.maskmode c.mask vl
  if cat.isTwin then List.zipWith and (latchMask s c.maskmode (maskSrcOf rm) vl) dmask else dmask

/-- The refusals of reading the masks (R154, R156). -/
def masksStop (cat : Category) (rm : Rm) (vl : Nat) : Option Stop :=
  let c := commonOf rm
  firstStop [
    maskStop c.maskmode c.mask vl,
    if cat.isTwin then maskStop c.maskmode (maskSrcOf rm) vl else none]

end Machine
end Sys2Proof
end

