-- ==== Sys2Proof/Machine/Checks.lean ====
section
/-! DEFINITION. The decode checks of a prefixed instruction in the order R108 and R273 fix: identification of the suffix, the
reserved fields (R104, R105, R271 causes 2 to 4), the subset check (R107), the field values without a meaning (R244 lines 1
to 3), and the combinations the element loop does not admit (R244 lines 4 to 8). -/

namespace Sys2Proof
namespace Machine

/-- A decoded pair: the two words, `RM`, the suffix and its mapping. -/
structure Pair where
  w0 : Word32
  w1 : Word32
  rm : Rm
  ins : Suffix
  map : RmMap
deriving DecidableEq, Repr

/-- R108 steps 1 to 3: what the suffix is. `want` is the category the instruction was decoded with, `none` for a pair that was
not split. -/
def identify (p : Params) (want : Option Category) (rm : Rm) (w1 : Word32) (s : State) : Except Stop Pair :=
  if primary w1 = 1#6 then .error (.refuse .suffixIsPrefixWord)
  else
    match p.suffixes.decode w1 with
    | none => .error (raiseIllegal (prefixWord rm) (some w1) .illegalSuffix s)
    | some ins =>
      match p.suffixes.mapping ins with
      | none => .error (.refuse .noRmCategory)
      | some map =>
        match want with
        | none => .ok ⟨prefixWord rm, w1, rm, ins, map⟩
        | some cat =>
          if map.cat = cat then .ok ⟨prefixWord rm, w1, rm, ins, map⟩ else .error (.refuse .categoryMismatch)

/-- The suffix writes, or reads, a floating-point register: ELWIDTH, or ELWIDTH_SRC, is then an FP width (R124). -/
def fpWidthApplies (ins : Suffix) : WidthField → Bool
  | .elwidth => ins.slots.any fun sl => sl.kind == .fpr && sl.writes
  | .elwidthSrc => ins.slots.any fun sl => sl.kind == .fpr && sl.reads

/-- Cause 2 for one width field: an FP width of `0b11` (R124, D28). -/
def reservedWidth (ins : Suffix) (field : WidthField) (v : BitVec 2) : Option IllegalCause :=
  if fpWidthApplies ins field && fpWidth v == .bf16 then some (.reservedElwidth field) else none

/-- Cause 3 for one width field: an operation ending in 's' at f16 or bf16 (R125, D28). -/
def narrowWidth (ins : Suffix) (field : WidthField) (v : BitVec 2) : Option IllegalCause :=
  if ins.single && (singleWidths v).isNone then some (.narrowSingle field v) else none

/-- A CR operation, or a suffix whose operands are only CR fields: RM[4:7] has "other purposes", so that a value there is refused
and never traps (R126, R244 line 3, R271 "Not causes"). -/
def crOnly (ins : Suffix) : Bool :=
  ins.cls == .crop || !ins.slots.isEmpty && ins.slots.all fun sl => sl.kind == .crField || sl.kind == .crBit

/-- The suffix has a width for the field to override (R105). -/
def hasWidth (ins : Suffix) : WidthField → Bool
  | .elwidth => ins.dstWidth
  | .elwidthSrc => ins.srcWidth

/-- Cause 4 for one width field (R105): it has no use for the suffix and is not zero. -/
def unusedWidth (ins : Suffix) (field : WidthField) (v : BitVec 2) : Option IllegalCause :=
  if !crOnly ins && !hasWidth ins field && v != 0#2 then some (.unusedWidth field v) else none

/-- Cause 4 for the register sub-fields (R105): one that extends no operand is not zero. -/
def unusedSubCauses (map : RmMap) (rm : Rm) : List (Option IllegalCause) :=
  (layout map.cat).map fun e =>
    let v := subAt rm e.2.1 e.2.2
    if !map.subs.contains e.1 && !v.isZero then some (.unusedSubField e.1 v) else none

/-- Cause 4 for EXTRA2_MODE (R182). -/
def extra2ModeCause (ins : Suffix) (map : RmMap) (rm : Rm) : Option IllegalCause :=
  if map.cat = .rm1P3S1D && !ins.implicitRs && extra2ModeOf rm != 0#1 then some .unusedExtra2Mode else none

/-- The first cause of a list. -/
def firstCause : List (Option IllegalCause) → Option IllegalCause
  | [] => none
  | some c :: _ => some c
  | none :: rest => firstCause rest

/-- The causes of the two width fields, ELWIDTH first (R273 (8)). Of two causes of one field the model reports the one that
95_test_vectors.md part 2.2 names: 2 in ELWIDTH, 3 in ELWIDTH_SRC (log entry 11). -/
def widthCauses (ins : Suffix) (c : CommonRm) : List (Option IllegalCause) :=
  [reservedWidth ins .elwidth c.elwidth, narrowWidth ins .elwidth c.elwidth, unusedWidth ins .elwidth c.elwidth,
    narrowWidth ins .elwidthSrc c.elwidthSrc, reservedWidth ins .elwidthSrc c.elwidthSrc,
    unusedWidth ins .elwidthSrc c.elwidthSrc]

/-- R108 step 5 in the order of R273 (8): ELWIDTH, ELWIDTH_SRC, EXTRA sub-fields, EXTRA2_MODE. -/
def reservedCause (q : Pair) : Option IllegalCause :=
  firstCause (
    widthCauses q.ins (commonOf q.rm) ++
    unusedSubCauses q.map q.rm ++
    [extra2ModeCause q.ins q.map q.rm])

/-- R108 steps 5 and 6: reserved values and those the hardware does not implement (R104, R107). -/
def illegalStop (p : Params) (q : Pair) (s : State) : Option Stop :=
  match reservedCause q with
  | some c => some (raiseIllegal q.w0 (some q.w1) c s)
  | none => stopIf (!p.hwSupports q.rm q.map.cat) (raiseIllegal q.w0 (some q.w1) .unsupported s)

/-- With `vl0ChecksReserved` false, the other reading of U9: at VL = 0 no reserved value traps. -/
def skipsIllegal (p : Params) (s : State) : Bool := !p.vl0ChecksReserved && s.vl == 0

/-- R108 step 7: field values this spec gives no meaning, whatever VL is (R182, R244 lines 1 to 3). -/
def valueStop (q : Pair) : Option Stop :=
  let c := commonOf q.rm
  firstStop [
    stopIf q.ins.implicitRs (.refuse .rsSelectionNotSpecified),
    stopIf (c.mode != 0#5) (.refuse .modeNotSpecified),
    stopIf (c.subvl != 0#2) (.refuse .subvlNotSpecified),
    stopIf (c.elwidth != 0#2 || c.elwidthSrc != 0#2) (.refuse .elwidthNotSpecified)]

/-- R108 steps 5 to 7, then the bound on VL when it is read (R30). -/
def decodeStop (p : Params) (q : Pair) (s : State) : Option Stop :=
  firstStop [
    if skipsIllegal p s then none else illegalStop p q s,
    valueStop q,
    stopIf (decide (p.vlMax < s.vl)) (.refuse .vlAboveMax)]

/-- R244 line 4: the classes that are not admitted outside scalar identity. -/
def classStop (ins : Suffix) (vl : Nat) : Option Stop :=
  match ins.cls with
  | .arith => none
  | .crop => none
  | .ldst => stopIf (decide (vl ≠ 1)) (.refuse .vectorisedLdst)
  | .branch => some (.refuse .vectorisedBranch)
  | .sync => some (.refuse .vectorisedSync)
  | .other => some (.refuse .vectorisedOther)

/-- Some destination operand is tagged Scalar (R244 line 6, R247). -/
def hasScalarDest (ops : List Operand) : Bool := ops.any fun o => o.slot.writes && !o.vector

/-- R244 line 6 under the policy of R247. -/
def scalarDestStop (p : Params) (ops : List Operand) (vl : Nat) : Option Stop :=
  stopIf (hasScalarDest ops && decide (vl ≠ 1) && p.scalarDestPolicy == .refuse) (.refuse .scalarDestination)

/-- R244 line 7 (R248): with VL > 1 both masks of a twin-predicate category must be ALWAYS. -/
def twinStop (map : RmMap) (rm : Rm) (vl : Nat) : Option Stop :=
  let c := commonOf rm
  stopIf
    (map.cat.isTwin && decide (vl ≠ 1) && !(c.maskmode == 0#1 && c.mask == 0#3 && maskSrcOf rm == 0#3))
    (.refuse .twinSteppingNotSpecified)

/-- R244 line 8 (R256): an operand that reads as 0 when its field is 0 may have a sub-field only when its field is not 0. -/
def ra0Stop (q : Pair) : Option Stop :=
  match q.ins.ra0 with
  | none => none
  | some k =>
    match q.ins.slots[k]? with
    | none => none
    | some sl => stopIf (sl.field == 0#5 && !(slotSub q.map q.rm k).isZero) (.refuse .ra0WithExtra)

/-- R244 lines 4 to 8, in that order, for VL ≥ 1 outside scalar identity. -/
def admissionStop (p : Params) (q : Pair) (ops : List Operand) (vl : Nat) : Option Stop :=
  firstStop [
    classStop q.ins vl,
    stopIf q.ins.rc1 (.refuse .vectorisedRc1),
    scalarDestStop p ops vl,
    twinStop q.map q.rm vl,
    ra0Stop q]

/-- The value an access to an SVP64 SPR reads, the one the SPR holds in this state, or writes, the one its integer source operand holds
(R33); `none` for a write without one. -/
def svSprValue (p : Params) (ins : Suffix) (acc : SprAccess) (regs : List Nat) (s : State) : Option DWord :=
  if acc.write then
    ((ins.slots.zip regs).find? fun e => e.1.kind == .gpr && e.1.reads).map fun e => readGpr s (Fin.ofNat 128 e.2)
  else some (p.svSprHeld acc.num s.svstate)

/-- R31, R33: a suffix that reads or writes an SVP64 SPR. An unsupported value, read or written, is an illegal instruction (cause 6),
every other access is refused. -/
def sprStop (p : Params) (ins : Suffix) (regs : List Nat) (w0 : Word32) (w1 : Option Word32) (s : State) : Option Stop :=
  match ins.spr with
  | none => none
  | some acc =>
    if p.isSvSpr acc.num then
      if p.svSprValueOk acc.num (svSprValue p ins acc regs s) then some (.refuse .svstateAccess)
      else some (raiseIllegal w0 w1 (.svSprValue acc.num) s)
    else none

end Machine
end Sys2Proof
end

