-- ==== Sys2Proof/Machine/Loop.lean ====
section
/-! DEFINITION. Execution of a prefixed instruction (R240 to R256): one scalar execution outside the loop, the element loop,
and `executePrefixed`, the whole of R108, which the meanings of the eight SVP64 rows share. -/

namespace Sys2Proof
namespace Machine

/-- One scalar execution with the identity map and the advance of the program counter: an unprefixed instruction of 4 bytes
(R240 part `step32`, R243), and scalar identity with 8 (R241). It reads and writes within the reach of an unprefixed
instruction (R22). -/
def runScalar (p : Params) (ins : Suffix) (w0 : Word32) (w1 : Option Word32) (length : DWord) (s : State) :
    Host.Outcome State Fault Refusal :=
  match sprStop p ins (identityMap ins) w0 w1 s with
  | some st => st.outcome
  | none =>
    match p.run ins (identityMap ins) (scalarView s) with
    | .done ws target => .next (setCia (applyWrites s (scalarReach ws)) (nextAddress s length target))
    | .trap t => .fault (.suffixTrap 0 t s)

/-- An unprefixed instruction of the suffix ISA (R243): it runs by the suffix ISA whatever VL is. What a word does that the suffix ISA
finds illegal is the suffix ISA's own (R240 part `step32`); the model raises the illegal instruction trap with cause 7 and one
word (DESIGN CHOICE, log entry 26). -/
def executeUnprefixed (p : Params) (w0 : Word32) (s : State) : Host.Outcome State Fault Refusal :=
  match p.suffixes.decode w0 with
  | none => (raiseIllegal w0 none .illegalSuffix s).outcome
  | some ins => runScalar p ins w0 none 4#64 s

/-- Some operand of element `i` names a register or CR field past 127 (R223). -/
def runsOffEnd (ops : List Operand) (i : Nat) : Bool := ops.any fun o => decide (127 < o.number i)

/-- The CR fields an element writes: those of its written CR operands, and any other its scalar execution writes (R159). -/
def elementCrFields (ops : List Operand) (i : Nat) (r : ScalarResult) : List Nat :=
  ((ops.filter fun o => o.slot.writes && (o.slot.kind == .crField || o.slot.kind == .crBit)).map fun o => o.number i) ++
    match r with
    | .done ws _ => (ws.filterMap Write.crField?).map Fin.val
    | .trap _ => []

/-- Element `i` writes the predicate field of an element not yet executed: a field in `offs+i+1 .. offs+VL-1` under CR
predication (R159, R245). -/
def overwritesPredicate (maskmode : BitVec 1) (ops : List Operand) (i vl : Nat) (r : ScalarResult) : Bool :=
  maskmode == 1#1 &&
    (elementCrFields ops i r).any fun n =>
      decide (Config.crPredOffs + i < n) && decide (n < Config.crPredOffs + vl)

/-- One enabled element (R245): its register numbers, the stop for a number past 127, the UNDEFINED case, one scalar
execution. A stop carries the state after the elements before it (R252). -/
def runElement (p : Params) (q : Pair) (ops : List Operand) (vl i : Nat) (s : State) : Except Stop State :=
  if runsOffEnd ops i then .error (.refuse (.registerPast127 i s))
  else
    let r := p.run q.ins (ops.map fun o => o.register i) s
    if overwritesPredicate (commonOf q.rm).maskmode ops i vl r then
      .error (.fault (.undefinedCRPredicateOverwrite i s))
    else
      match r with
      | .done ws _ => .ok (applyWrites s ws)
      | .trap t => .error (.fault (.suffixTrap i t s))

/-- The element loop over the latched mask, elements in ascending order from `i` (R245). A disabled element does nothing
(R246). `stopsAfterFirst` ends the loop after the first enabled element (R247, one value of `scalarDestPolicy`). -/
def runLoop (p : Params) (q : Pair) (ops : List Operand) (vl : Nat) (stopsAfterFirst : Bool) :
    Nat → List Bool → State → Except Stop State
  | _, [], s => .ok s
  | i, false :: rest, s => runLoop p q ops vl stopsAfterFirst (i + 1) rest s
  | i, true :: rest, s =>
    match runElement p q ops vl i s with
    | .error st => .error st
    | .ok s' => if stopsAfterFirst then .ok s' else runLoop p q ops vl stopsAfterFirst (i + 1) rest s'

/-- The loop ends after the first enabled element: a scalar destination, VL > 1, and the policy that says so (R247). -/
def endsAfterFirst (p : Params) (ops : List Operand) (vl : Nat) : Bool :=
  p.scalarDestPolicy == .stopAfterFirst && hasScalarDest ops && decide (vl ≠ 1)

/-- VL ≥ 1 outside scalar identity: admission (R244 lines 4 to 8), the masks (R158), the loop, and `NIA = CIA + 8` (R249). -/
def executeLoop (p : Params) (q : Pair) (s : State) : Host.Outcome State Fault Refusal :=
  let ops := resolveAll q.ins q.map q.rm
  match firstStop [admissionStop p q ops s.vl, masksStop q.map.cat q.rm s.vl] with
  | some st => st.outcome
  | none =>
    match runLoop p q ops s.vl (endsAfterFirst p ops s.vl) 0 (elementMask s q.map.cat q.rm s.vl) s with
    | .error st => st.outcome
    | .ok s' => .next (setCia s' (nextAddress s 8#64 none))

/-- R108 step 8: VL = 0 is a nop (R242), `RM = 0` with VL = 1 is scalar identity (R241), the rest is the loop. -/
def executeChecked (p : Params) (q : Pair) (s : State) : Host.Outcome State Fault Refusal :=
  if s.vl = 0 then .next (setCia s (nextAddress s 8#64 none))
  else if q.rm = 0#24 ∧ s.vl = 1 then runScalar p q.ins q.w0 (some q.w1) 8#64 s
  else executeLoop p q s

/-- `execute_prefixed(RM, W1)` (R108), the pair at `CIA` and `CIA+4` (R100). -/
def executePrefixed (p : Params) (want : Option Category) (rm : Rm) (w1 : Word32) (s : State) :
    Host.Outcome State Fault Refusal :=
  match identify p want rm w1 s with
  | .error st => st.outcome
  | .ok q =>
    match decodeStop p q s with
    | some st => st.outcome
    | none => executeChecked p q s

/-- A prefixed instruction of another class, handed to the suffix ISA (R79, R243, D23): 8 bytes long, "whatever VL is", within
the reach of an unprefixed instruction. -/
def executeV31 (p : Params) (w0 w1 : Word32) (s : State) : Host.Outcome State Fault Refusal :=
  match p.execV31 p.bigEndian w0 w1 (scalarView s) with
  | .done ws target => .next (setCia (applyWrites s (scalarReach ws)) (nextAddress s 8#64 target))
  | .trap t => .fault (.suffixTrap 0 t s)

/-- A prefixed instruction of a row the source's map does not print, 001, 100 or 101: "handed to `ScalarISA` (MLS lives in row 100 by
general knowledge); otherwise illegal" (R79, D23). -/
def executeUnprinted (p : Params) (w0 w1 : Word32) (s : State) : Host.Outcome State Fault Refusal :=
  if p.hasUnprinted w0 w1 then executeV31 p w0 w1 s else (raiseIllegal w0 (some w1) .unallocatedPrefix s).outcome

/-- A first word in an empty cell of the opcode map (R79, R271 cause 1): no second word is fetched. -/
def executeUnallocated (w0 : Word32) (s : State) : Host.Outcome State Fault Refusal :=
  (raiseIllegal w0 none .unallocatedPrefix s).outcome

end Machine
end Sys2Proof
end

