-- ==== Sys2Proof/Machine/Scalar.lean ====
section
/-! DEFINITION. The reference suffix ISA's `exec1` (R240; PRESUMED, log entry 4) and the parameters of the runnable machine
(R4). The meanings are Power ISA v3.0B's, from general knowledge: the spec gives them for no instruction, and names the ones
used here in R195 and in G14 of 93_implementation_defined.md. What the reference does not write out, and everything in 32-bit
mode (R34), is the free `Config.otherExec`. -/

namespace Sys2Proof
namespace Machine

/-- The register at a position of the numbers given. -/
def regAt (regs : List Nat) (k : Nat) : RegNum := Fin.ofNat 128 (regs.getD k 0)

/-- The CR field of a CR bit number at a position (R219: bit number = field * 4 + bit). -/
def crBitField (regs : List Nat) (k : Nat) : RegNum := Fin.ofNat 128 (regs.getD k 0 / 4)

/-- The bit part of a CR bit number at a position. -/
def crBitPart (regs : List Nat) (k : Nat) : Fin 4 := Fin.ofNat 4 (regs.getD k 0)

/-- The GPR at a position. -/
def gprAt (s : State) (regs : List Nat) (k : Nat) : DWord := readGpr s (regAt regs k)

/-- The FPR at a position. -/
def fprAt (s : State) (regs : List Nat) (k : Nat) : DWord := readFpr s (regAt regs k)

/-- The CR bit at a position. -/
def crBitAt (s : State) (regs : List Nat) (k : Nat) : Bool := crFieldBit (readCr s (crBitField regs k)) (crBitPart regs k)

/-- "(RA|0)": the constant 0 when the field is 0, else the register (R240 part `ra0`, R256). -/
def gprOrZero (s : State) (regs : List Nat) (k : Nat) (field : BitVec 5) : DWord :=
  if field = 0#5 then 0#64 else gprAt s regs k

/-- The 64 bits from MSB0 bit `x` to MSB0 bit `y`, wrapping round when `x > y`. -/
def maskBits (x y : Nat) : DWord :=
  let fromX := BitVec.allOnes 64 >>> x
  let toY := ~~~(BitVec.allOnes 64 >>> (y + 1))
  if x ≤ y then fromX &&& toY else fromX ||| toY

/-- `rlwimi`'s result: the rotated low word of RS inserted into RA under the mask. -/
def insertRotated (rs ra : DWord) (sh mb me : BitVec 5) : DWord :=
  let w := (rs.extractLsb' 0 32).rotateLeft sh.toNat
  let m := maskBits (mb.toNat + 32) (me.toNat + 32)
  ((w ++ w) &&& m) ||| (ra &&& ~~~m)

/-- A single-precision number in double format, exactly: what "padded back out" is read as (R125; PRESUMED, G9). -/
def singleToDouble (x : BitVec 32) : DWord :=
  let sign := x.extractLsb' 31 1
  let e := x.extractLsb' 23 8
  let f := x.extractLsb' 0 23
  if e = 0xFF#8 then sign ++ 0x7FF#11 ++ f ++ 0#29
  else if e ≠ 0#8 then sign ++ (e.zeroExtend 11 + 896#11) ++ f ++ 0#29
  else if f = 0#23 then sign ++ 0#63
  else
    let top := ((List.range 23).reverse.find? fun k => f.getLsbD k).getD 0
    sign ++ BitVec.ofNat 11 (top + 874) ++ ((f.zeroExtend 52) <<< (52 - top))

/-- The CR logical functions. -/
def crLogicBit (fn : CrLogic) (a b : Bool) : Bool :=
  match fn with
  | .and => a && b
  | .nand => !(a && b)
  | .or => a || b
  | .nor => !(a || b)
  | .xor => a != b
  | .eqv => a == b
  | .andc => a && !b
  | .orc => a || !b

/-- The GPR logical functions. -/
def gprLogicWord (fn : GprLogic) (a b : DWord) : DWord :=
  match fn with
  | .and => a &&& b
  | .or => a ||| b
  | .xor => a ^^^ b

/-- The word of a double in single precision, Power ISA's SINGLE: the fields as they stand where the exponent is in the range of single
precision, an infinity, a NaN or a zero; the significand shifted right for a denormalized single; below that range the value is
undefined there and free here (log entry 7). -/
def doubleToSingle (v : DWord) : Word32 :=
  let e := (v.extractLsb' 52 11).toNat
  if 896 < e ∨ v.extractLsb' 0 63 = 0#63 then v.extractLsb' 62 2 ++ v.extractLsb' 29 30
  else if 874 ≤ e then v.extractLsb' 63 1 ++ 0#8 ++ ((1#1 ++ v.extractLsb' 0 52) >>> (897 - e)).extractLsb' 29 23
  else Config.storedSingle v

end Machine

/-- The bytes a load reads. -/
def LoadKind.width : LoadKind → Nat
  | .lbz => 1
  | .lhz => 2
  | .lha => 2
  | .lwz => 4
  | .lwa => 4
  | .ld => 8
  | .lhbr => 2
  | .lwbr => 4
  | .ldbr => 8
  | .lfs => 4
  | .lfd => 8
  | .lfiwa => 4
  | .lfiwz => 4

/-- The bytes a store writes. -/
def StoreKind.width : StoreKind → Nat
  | .stb => 1
  | .sth => 2
  | .stw => 4
  | .std => 8
  | .sthbr => 2
  | .stwbr => 4
  | .stdbr => 8
  | .stfs => 4
  | .stfd => 8
  | .stfiw => 4

/-- The value a load brings to its register, from the bytes in address order: zero or sign extended, in the other byte order, or a
single in double format. -/
def LoadKind.value (be : Bool) (k : LoadKind) (bs : List Byte) : DWord :=
  let v := dwordOfBytes be bs
  match k with
  | .lbz => v
  | .lhz => v
  | .lha => (v.extractLsb' 0 16).signExtend 64
  | .lwz => v
  | .lwa => (v.extractLsb' 0 32).signExtend 64
  | .ld => v
  | .lhbr => dwordOfBytes (!be) bs
  | .lwbr => dwordOfBytes (!be) bs
  | .ldbr => dwordOfBytes (!be) bs
  | .lfs => Machine.singleToDouble (v.extractLsb' 0 32)
  | .lfd => v
  | .lfiwa => (v.extractLsb' 0 32).signExtend 64
  | .lfiwz => v

/-- The bytes a store writes, in address order, from the doubleword in its register. -/
def StoreKind.bytes (be : Bool) (k : StoreKind) (v : DWord) : List Byte :=
  match k with
  | .stb => lowBytes be k.width v
  | .sth => lowBytes be k.width v
  | .stw => lowBytes be k.width v
  | .std => lowBytes be k.width v
  | .sthbr => lowBytes (!be) k.width v
  | .stwbr => lowBytes (!be) k.width v
  | .stdbr => lowBytes (!be) k.width v
  | .stfs => lowBytes be k.width ((Machine.doubleToSingle v).zeroExtend 64)
  | .stfd => lowBytes be k.width v
  | .stfiw => lowBytes be k.width v

/-- The write of a load's destination (R191). -/
def LoadKind.write (k : LoadKind) (r : RegNum) (v : DWord) : Machine.Write := if k.fp then .fpr r v else .gpr r v

/-- The register a store takes its bytes from, at a position of the numbers given (R191). -/
def StoreKind.source (k : StoreKind) (s : Machine.State) (regs : List Nat) (i : Nat) : DWord :=
  if k.fp then Machine.fprAt s regs i else Machine.gprAt s regs i

namespace Machine

/-- A load from an address: the writes its value gives, or the storage trap. -/
def loadFrom (be : Bool) (s : State) (k : LoadKind) (ea : DWord) (ws : DWord → List Write) : ScalarResult :=
  match readBytes s k.width ea with
  | .ok bs => .done (ws (k.value be bs)) none
  | .error a => .trap (.dataAbsent a)

/-- The writes of a load with update: the loaded value to RT, the address to RA. Extended, the two can name one GPR although their
fields differ; what it then holds the spec does not say, and it is a free value (R188, R189, R245; log entry 25). -/
def updateWrites (k : LoadKind) (rt ra : RegNum) (v ea : DWord) : List Write :=
  if k.fp = false ∧ rt = ra then [.gpr rt (Config.updateCollision v ea)] else [k.write rt v, .gpr ra ea]

/-- `exec1` of an instruction the reference writes out, in 64-bit mode. The numbers `regs` stand in the order of
`ScalarOp.slots`. -/
def execOp (be : Bool) (op : ScalarOp) (ins : Suffix) (regs : List Nat) (s : State) : ScalarResult :=
  match op with
  | .add _ _ _ rc =>
    let v := gprAt s regs 1 + gprAt s regs 2
    .done (.gpr (regAt regs 0) v :: recordInt s rc v) none
  | .subf _ _ _ rc =>
    let v := gprAt s regs 2 - gprAt s regs 1
    .done (.gpr (regAt regs 0) v :: recordInt s rc v) none
  | .logic fn _ _ _ rc =>
    let v := gprLogicWord fn (gprAt s regs 1) (gprAt s regs 2)
    .done (.gpr (regAt regs 0) v :: recordInt s rc v) none
  | .addi _ ra si => .done [.gpr (regAt regs 0) (gprOrZero s regs 1 ra + si.signExtend 64)] none
  | .extsb _ _ rc =>
    let v := ((gprAt s regs 1).extractLsb' 0 8).signExtend 64
    .done (.gpr (regAt regs 0) v :: recordInt s rc v) none
  | .rlwimi _ _ sh mb me rc =>
    let v := insertRotated (gprAt s regs 1) (gprAt s regs 2) sh mb me
    .done (.gpr (regAt regs 0) v :: recordInt s rc v) none
  | .maddld _ _ _ _ => .done [.gpr (regAt regs 0) (gprAt s regs 1 * gprAt s regs 2 + gprAt s regs 3)] none
  | .isel _ ra _ _ =>
    .done [.gpr (regAt regs 0) (if crBitAt s regs 3 then gprOrZero s regs 1 ra else gprAt s regs 2)] none
  | .cmp _ l _ _ =>
    let a := gprAt s regs 1
    let b := gprAt s regs 2
    let f := if l then crOfCompare s a.toInt b.toInt
      else crOfCompare s (a.extractLsb' 0 32).toInt (b.extractLsb' 0 32).toInt
    .done [.crField (regAt regs 0) f] none
  | .fadds _ _ _ rc =>
    let r := Config.faddSingle (fprAt s regs 1) (fprAt s regs 2) s.fpscr
    if r.trap then .trap .fpEnabled
    else .done ([.fpr (regAt regs 0) (singleToDouble r.value), .fpscr r.fpscr] ++ recordFp rc r.fpscr) none
  | .fmadd _ _ _ _ rc =>
    let r := Config.fmaddDouble (fprAt s regs 1) (fprAt s regs 2) (fprAt s regs 3) s.fpscr
    if r.trap then .trap .fpEnabled
    else .done ([.fpr (regAt regs 0) r.value, .fpscr r.fpscr] ++ recordFp rc r.fpscr) none
  | .maddedu _ _ _ _ => Config.otherExec be ins regs s
  | .divmod2du _ _ _ _ => Config.otherExec be ins regs s
  | .load k false _ ra d => loadFrom be s k (gprOrZero s regs 1 ra + d.signExtend 64) fun v => [k.write (regAt regs 0) v]
  | .load k true _ _ d =>
    let ea := gprAt s regs 1 + d.signExtend 64
    loadFrom be s k ea fun v => updateWrites k (regAt regs 0) (regAt regs 2) v ea
  | .loadX k false _ ra _ => loadFrom be s k (gprOrZero s regs 1 ra + gprAt s regs 2) fun v => [k.write (regAt regs 0) v]
  | .loadX k true _ _ _ =>
    let ea := gprAt s regs 1 + gprAt s regs 2
    loadFrom be s k ea fun v => updateWrites k (regAt regs 0) (regAt regs 1) v ea
  | .store k false _ ra d =>
    .done (storeBytes (gprOrZero s regs 1 ra + d.signExtend 64) (k.bytes be (k.source s regs 0))) none
  | .store k true _ _ d =>
    let ea := gprAt s regs 2 + d.signExtend 64
    .done (storeBytes ea (k.bytes be (k.source s regs 1)) ++ [.gpr (regAt regs 0) ea]) none
  | .storeX k false _ ra _ =>
    .done (storeBytes (gprOrZero s regs 1 ra + gprAt s regs 2) (k.bytes be (k.source s regs 0))) none
  | .storeX k true _ _ _ =>
    let ea := gprAt s regs 2 + gprAt s regs 3
    .done (storeBytes ea (k.bytes be (k.source s regs 1)) ++ [.gpr (regAt regs 0) ea]) none
  | .crlogic fn _ _ _ =>
    .done [.crBit (crBitField regs 0) (crBitPart regs 0) (crLogicBit fn (crBitAt s regs 1) (crBitAt s regs 2))] none
  | .mcrf _ _ => .done [.crField (regAt regs 0) (readCr s (regAt regs 1))] none
  | .branch li aa =>
    let disp := (li ++ 0#2).signExtend 64
    .done [] (some (if aa then disp else s.cia + disp))
  | .sync => .done [] none
  | .mtspr n _ =>
    if n = 1#10 then .done [.xer (gprAt s regs 0)] none
    else if n = 8#10 then .done [.lr (gprAt s regs 0)] none
    else if n = 9#10 then .done [.ctr (gprAt s regs 0)] none
    else Config.otherExec be ins regs s
  | .mfspr _ n =>
    if n = 1#10 then .done [.gpr (regAt regs 0) s.xer] none
    else if n = 8#10 then .done [.gpr (regAt regs 0) s.lr] none
    else if n = 9#10 then .done [.gpr (regAt regs 0) s.ctr] none
    else Config.otherExec be ins regs s

/-- The reference suffix ISA's `exec1` (R240). -/
def referenceExec1 (be : Bool) (ins : Suffix) (regs : List Nat) (s : State) : ScalarResult :=
  match s.mode with
  | .bits32 => Config.otherExec be ins regs s
  | .bits64 =>
    match scalarOp ins.word with
    | some op => execOp be op ins regs s
    | none => Config.otherExec be ins regs s

/-- The reference suffix ISA's execution of a prefixed instruction of another class (R79, D23: it "may implement v3.1 prefixed
instructions or trap"). DESIGN CHOICE: it implements them, with a free effect (log entry 9). -/
def referenceV31 (be : Bool) (w0 w1 : Word32) (s : State) : ScalarResult :=
  .done (Config.v31Writes be w0 w1 s) (Config.v31Target be w0 w1 s)

/-- Whether the reference suffix ISA has an instruction for a pair of a row the source's map does not print (R79). DESIGN CHOICE: it
has one unless the second word is itself an EXT01 word, where it is free whether it has (log entry 9). -/
def referenceHasUnprinted (w0 w1 : Word32) : Bool := primary w1 != 1#6 || Config.otherUnprinted w0 w1

/-- The reference suffix ISA's fetch faults beside absent memory: none, no word lacks execute permission (R58; DESIGN CHOICE, log
entry 28). -/
def referenceFetchTrap (_ : State) (_ : DWord) : Option SuffixTrap := none

/-- SPR numbers that name SVP64 SPRs: none of XER, LR and CTR; of the others it is free which (log entry 8). -/
def referenceIsSvSpr (n : BitVec 10) : Bool :=
  if n = 1#10 ∨ n = 8#10 ∨ n = 9#10 then false else Config.otherSvSpr n

/-- The parameters of the runnable machine (R4): the spec's defaults, and the reference suffix ISA for `ScalarISA`. -/
def machine : Params where
  suffixes := referenceIsa
  exec1 := referenceExec1
  execV31 := referenceV31
  hasUnprinted := referenceHasUnprinted
  fetchTrap := referenceFetchTrap
  bigEndian := Config.bigEndian
  vlMax := Config.vlMax
  hwSupports := Config.hwSupports
  rc1CrBase := Config.rc1CrBase
  scalarDestPolicy := Config.scalarDestPolicy
  vl0ChecksReserved := Config.vl0ChecksReserved
  isSvSpr := referenceIsSvSpr
  svSprHeld := Config.svSprHeld
  svSprValueOk := Config.svSprValueOk

end Machine
end Sys2Proof
end

