-- ==== Sys2Proof/Machine/Ext01.lean ====
section
/-! DEFINITION. The meanings of the rows of the opcode table that are EXT01 words and not SVP64 (R79): seven handed to the suffix
ISA with their second word, three of them illegal where it has no such instruction, and the ten groups of empty cells, which raise the
illegal instruction trap (R271 cause 1). -/

namespace Sys2Proof
namespace Machine

/-- Class 8LS, row 000 of the map (R77): handed to the suffix ISA (R79). -/
def execExt018LS (payload : BitVec 23) (second : Word32) (s : State) : Host.Outcome State Fault Refusal :=
  executeV31 machine (0b000001000#9 ++ payload) second s

/-- Class 8RR, cell 010000 (column PRESUMED, G4) (R77): handed to the suffix ISA (R79). -/
def execExt018RR (payload : BitVec 20) (second : Word32) (s : State) : Host.Outcome State Fault Refusal :=
  executeV31 machine (0b000001010000#12 ++ payload) second s

/-- Class MRR, cell 110000 (column PRESUMED, G4) (R77): handed to the suffix ISA (R79). -/
def execExt01MRR (payload : BitVec 20) (second : Word32) (s : State) : Host.Outcome State Fault Refusal :=
  executeV31 machine (0b000001110000#12 ++ payload) second s

/-- Class MMIRR, cell 111001 (column PRESUMED, G4) (R77): handed to the suffix ISA (R79). -/
def execExt01MMIRR (payload : BitVec 20) (second : Word32) (s : State) : Host.Outcome State Fault Refusal :=
  executeV31 machine (0b000001111001#12 ++ payload) second s

/-- Row 100, absent from the source's map (R77): handed to the suffix ISA, otherwise illegal (R79). -/
def execExt01Row100 (payload : BitVec 23) (second : Word32) (s : State) : Host.Outcome State Fault Refusal :=
  executeUnprinted machine (0b000001100#9 ++ payload) second s

/-- Row 001, absent from the source's map (R77): handed to the suffix ISA, otherwise illegal (R79). -/
def execExt01Row001 (payload : BitVec 23) (second : Word32) (s : State) : Host.Outcome State Fault Refusal :=
  executeUnprinted machine (0b000001001#9 ++ payload) second s

/-- Row 101, absent from the source's map (R77): handed to the suffix ISA, otherwise illegal (R79). -/
def execExt01Row101 (payload : BitVec 23) (second : Word32) (s : State) : Host.Outcome State Fault Refusal :=
  executeUnprinted machine (0b000001101#9 ++ payload) second s

/-- Empty cells of row 011 (R77, R79): `IllegalInstruction(unallocated prefix)`. -/
def execExt01Unallocated011 (payload : BitVec 22) (s : State) : Host.Outcome State Fault Refusal :=
  executeUnallocated (0b0000010110#10 ++ payload) s

/-- Empty cell 010001 (R77, R79): `IllegalInstruction(unallocated prefix)`. -/
def execExt01Unallocated010001 (payload : BitVec 20) (s : State) : Host.Outcome State Fault Refusal :=
  executeUnallocated (0b000001010001#12 ++ payload) s

/-- Empty cell 010010 (R77, R79): `IllegalInstruction(unallocated prefix)`. -/
def execExt01Unallocated010010 (payload : BitVec 20) (s : State) : Host.Outcome State Fault Refusal :=
  executeUnallocated (0b000001010010#12 ++ payload) s

/-- Empty cell 010011 (R77, R79): `IllegalInstruction(unallocated prefix)`. -/
def execExt01Unallocated010011 (payload : BitVec 20) (s : State) : Host.Outcome State Fault Refusal :=
  executeUnallocated (0b000001010011#12 ++ payload) s

/-- Empty cell 110001 (R77, R79): `IllegalInstruction(unallocated prefix)`. -/
def execExt01Unallocated110001 (payload : BitVec 20) (s : State) : Host.Outcome State Fault Refusal :=
  executeUnallocated (0b000001110001#12 ++ payload) s

/-- Empty cell 110010 (R77, R79): `IllegalInstruction(unallocated prefix)`. -/
def execExt01Unallocated110010 (payload : BitVec 20) (s : State) : Host.Outcome State Fault Refusal :=
  executeUnallocated (0b000001110010#12 ++ payload) s

/-- Empty cell 110011 (R77, R79): `IllegalInstruction(unallocated prefix)`. -/
def execExt01Unallocated110011 (payload : BitVec 20) (s : State) : Host.Outcome State Fault Refusal :=
  executeUnallocated (0b000001110011#12 ++ payload) s

/-- Empty cell 111000 (R77, R79): `IllegalInstruction(unallocated prefix)`. -/
def execExt01Unallocated111000 (payload : BitVec 20) (s : State) : Host.Outcome State Fault Refusal :=
  executeUnallocated (0b000001111000#12 ++ payload) s

/-- Empty cell 111010 (R77, R79): `IllegalInstruction(unallocated prefix)`. -/
def execExt01Unallocated111010 (payload : BitVec 20) (s : State) : Host.Outcome State Fault Refusal :=
  executeUnallocated (0b000001111010#12 ++ payload) s

/-- Empty cell 111011 (R77, R79): `IllegalInstruction(unallocated prefix)`. -/
def execExt01Unallocated111011 (payload : BitVec 20) (s : State) : Host.Outcome State Fault Refusal :=
  executeUnallocated (0b000001111011#12 ++ payload) s

end Machine
end Sys2Proof
end

