-- ==== Sys2Proof/Machine/Prefixed.lean ====
section
/-! DEFINITION. The meanings of the eight SVP64 rows of the opcode table: each packs its own fields into `RM` and runs the shared
`executePrefixed` (R108). -/

namespace Sys2Proof
namespace Machine

/-- `svp64-prefix` (R100 to R103): the pair as its words give it. R108 decodes the suffix, finds its category and runs it. What
the decoder leaves unsplit has no category; the meaning is R108 for any suffix. -/
def execSvp64Prefix (rm : Rm) (suffix : Word32) (s : State) :
    Host.Outcome State Fault Refusal :=
  executePrefixed machine none rm suffix s

/-- RM-1P-3S1D (R181, R182): single predicate, three sources, one destination, four EXTRA2 sub-fields and EXTRA2_MODE. -/
def execRm1P3S1D (c : CommonRm) (rdest rsrc1 rsrc2 rsrc3 : BitVec 2) (extra2Mode : BitVec 1) (suffix : Word32) (s : State) :
    Host.Outcome State Fault Refusal :=
  executePrefixed machine (some .rm1P3S1D) (packRm c (rdest ++ rsrc1 ++ rsrc2 ++ rsrc3 ++ extra2Mode)) suffix s

/-- RM-1P-2S1D (R183, R184): single predicate, two sources, one destination, three EXTRA3 sub-fields. -/
def execRm1P2S1D (c : CommonRm) (rdest rsrc1 rsrc2 : BitVec 3) (suffix : Word32) (s : State) :
    Host.Outcome State Fault Refusal :=
  executePrefixed machine (some .rm1P2S1D) (packRm c (rdest ++ rsrc1 ++ rsrc2)) suffix s

/-- RM-2P-1S1D (R185): twin predicate, one source, one destination, two EXTRA3 sub-fields and MASK_SRC. -/
def execRm2P1S1D (c : CommonRm) (rdest rsrc1 maskSrc : BitVec 3) (suffix : Word32) (s : State) :
    Host.Outcome State Fault Refusal :=
  executePrefixed machine (some .rm2P1S1D) (packRm c (rdest ++ rsrc1 ++ maskSrc)) suffix s

/-- RM-2P-2S (R186): twin predicate, two sources, no register destination. -/
def execRm2P2S (c : CommonRm) (rsrc1 rsrc2 maskSrc : BitVec 3) (suffix : Word32) (s : State) :
    Host.Outcome State Fault Refusal :=
  executePrefixed machine (some .rm2P2S) (packRm c (rsrc1 ++ rsrc2 ++ maskSrc)) suffix s

/-- RM-2P-2S1D (R187, R188): twin predicate, two sources, one destination, three EXTRA2 sub-fields and MASK_SRC. -/
def execRm2P2S1D (c : CommonRm) (rdest rsrc1 rsrc2 : BitVec 2) (maskSrc : BitVec 3) (suffix : Word32) (s : State) :
    Host.Outcome State Fault Refusal :=
  executePrefixed machine (some .rm2P2S1D) (packRm c (rdest ++ rsrc1 ++ rsrc2 ++ maskSrc)) suffix s

/-- RM-2P-1S2D (R189): twin predicate, one source, two destinations, three EXTRA2 sub-fields and MASK_SRC. -/
def execRm2P1S2D (c : CommonRm) (rsrc rdest1 rdest2 : BitVec 2) (maskSrc : BitVec 3) (suffix : Word32) (s : State) :
    Host.Outcome State Fault Refusal :=
  executePrefixed machine (some .rm2P1S2D) (packRm c (rsrc ++ rdest1 ++ rdest2 ++ maskSrc)) suffix s

/-- RM-2P-3S (R190): twin predicate, three sources, no register destination, three EXTRA2 sub-fields and MASK_SRC. -/
def execRm2P3S (c : CommonRm) (rsrc1 rsrc2 rsrc3 : BitVec 2) (maskSrc : BitVec 3) (suffix : Word32) (s : State) :
    Host.Outcome State Fault Refusal :=
  executePrefixed machine (some .rm2P3S) (packRm c (rsrc1 ++ rsrc2 ++ rsrc3 ++ maskSrc)) suffix s

end Machine
end Sys2Proof
end

