-- ==== Sys2Proof/Machine/Dispatch.lean ====
section
/-! DEFINITION. One arm for each constructor of Instr, each a direct call of its meaning. -/

namespace Sys2Proof
namespace Machine

def exec (i : Instr) (s : State) : Host.Outcome State Fault Refusal :=
  match i with
  | .svp64Prefix rm suffix => Sys2Proof.Machine.execSvp64Prefix rm suffix s
  | .rm1P3S1D c rdest rsrc1 rsrc2 rsrc3 extra2Mode suffix => Sys2Proof.Machine.execRm1P3S1D c rdest rsrc1 rsrc2 rsrc3 extra2Mode suffix s
  | .rm1P2S1D c rdest rsrc1 rsrc2 suffix => Sys2Proof.Machine.execRm1P2S1D c rdest rsrc1 rsrc2 suffix s
  | .rm2P1S1D c rdest rsrc1 maskSrc suffix => Sys2Proof.Machine.execRm2P1S1D c rdest rsrc1 maskSrc suffix s
  | .rm2P2S c rsrc1 rsrc2 maskSrc suffix => Sys2Proof.Machine.execRm2P2S c rsrc1 rsrc2 maskSrc suffix s
  | .rm2P2S1D c rdest rsrc1 rsrc2 maskSrc suffix => Sys2Proof.Machine.execRm2P2S1D c rdest rsrc1 rsrc2 maskSrc suffix s
  | .rm2P1S2D c rsrc rdest1 rdest2 maskSrc suffix => Sys2Proof.Machine.execRm2P1S2D c rsrc rdest1 rdest2 maskSrc suffix s
  | .rm2P3S c rsrc1 rsrc2 rsrc3 maskSrc suffix => Sys2Proof.Machine.execRm2P3S c rsrc1 rsrc2 rsrc3 maskSrc suffix s
  | .ext01_8LS payload second => Sys2Proof.Machine.execExt018LS payload second s
  | .ext01_8RR payload second => Sys2Proof.Machine.execExt018RR payload second s
  | .ext01_MRR payload second => Sys2Proof.Machine.execExt01MRR payload second s
  | .ext01_MMIRR payload second => Sys2Proof.Machine.execExt01MMIRR payload second s
  | .ext01_row100 payload second => Sys2Proof.Machine.execExt01Row100 payload second s
  | .ext01_row001 payload second => Sys2Proof.Machine.execExt01Row001 payload second s
  | .ext01_row101 payload second => Sys2Proof.Machine.execExt01Row101 payload second s
  | .ext01_unallocated_011 payload => Sys2Proof.Machine.execExt01Unallocated011 payload s
  | .ext01_unallocated_010001 payload => Sys2Proof.Machine.execExt01Unallocated010001 payload s
  | .ext01_unallocated_010010 payload => Sys2Proof.Machine.execExt01Unallocated010010 payload s
  | .ext01_unallocated_010011 payload => Sys2Proof.Machine.execExt01Unallocated010011 payload s
  | .ext01_unallocated_110001 payload => Sys2Proof.Machine.execExt01Unallocated110001 payload s
  | .ext01_unallocated_110010 payload => Sys2Proof.Machine.execExt01Unallocated110010 payload s
  | .ext01_unallocated_110011 payload => Sys2Proof.Machine.execExt01Unallocated110011 payload s
  | .ext01_unallocated_111000 payload => Sys2Proof.Machine.execExt01Unallocated111000 payload s
  | .ext01_unallocated_111010 payload => Sys2Proof.Machine.execExt01Unallocated111010 payload s
  | .ext01_unallocated_111011 payload => Sys2Proof.Machine.execExt01Unallocated111011 payload s

end Machine
end Sys2Proof
end

