-- ==== Sys2Proof/Machine/Fetch.lean ====
section
/-! DEFINITION. Instruction fetch (R51 to R54, R56, R61): the words at `CIA`, read from the memory that stores write, in the order of
R273 (1) to (4). -/

namespace Sys2Proof
namespace Machine

/-- What stands at `CIA`. -/
inductive Fetched where
  | stopped (st : Stop)
  /-- a 32-bit instruction of the suffix ISA (R52, R243) -/
  | unprefixed (w0 : Word32)
  /-- an instruction of the opcode table -/
  | instr (i : Instr)
deriving DecidableEq, Repr

/-- The prefix word and its suffix lie in different 64-byte blocks (R54). -/
def crossesBlock (cia : DWord) : Bool := cia.extractLsb' 0 6 == 60#6

/-- One instruction word, a read of four bytes (R52, R56), or the trap of fetching it: the suffix ISA's own (R58, R286), then absent
memory (the order of the two is the model's, log entry 28). -/
def fetchWord (p : Params) (s : State) (a : DWord) : Except SuffixTrap Word32 :=
  match p.fetchTrap s a with
  | some t => .error t
  | none =>
    match readWord p.bigEndian s a with
    | .error x => .error (.fetchAbsent x)
    | .ok w => .ok w

/-- A fault of fetching either word, "reported at `CIA` of the first word" (R286). -/
def fetchStop (s : State) (t : SuffixTrap) : Fetched := .stopped (.fault (.fetchTrap s.cia t s))

/-- The second word of an instruction, a separate read at `CIA+4` (R52, R56). -/
def fetchSecond (p : Params) (s : State) (k : Word32 → Instr) : Fetched :=
  match fetchWord p s (s.cia + 4#64) with
  | .error t => fetchStop s t
  | .ok w1 => .instr (k w1)

/-- Fetch and decode at `CIA` (R52, R71, R79, R100, R273). The second word is fetched only for a 64-bit instruction, and not for
an empty cell of the opcode map. That a `CIA` which is not a multiple of 4 is a fault, and before the first read, is the model's
DESIGN CHOICE: R53 gives no outcome (log entry 27). -/
def fetchNext (p : Params) (s : State) : Fetched :=
  if s.cia.extractLsb' 0 2 ≠ 0#2 then .stopped (.fault .misalignedCia)
  else
    match fetchWord p s s.cia with
    | .error t => fetchStop s t
    | .ok w0 =>
      match classify w0 with
      | .unprefixed => .unprefixed w0
      | .unallocated cell => .instr (decodeEmpty cell w0)
      | .v31 row => fetchSecond p s (decodeV31 row w0)
      | .svp64 =>
        if crossesBlock s.cia then .stopped (.refuse .crosses64ByteBoundary)
        else fetchSecond p s (decodePair p.suffixes w0)

end Machine
end Sys2Proof
end

