-- ==== Sys2Proof/Machine/Step.lean ====
section
/-! DEFINITION. One step of the machine: fetch at `CIA`, decode, execute (R52, R100, R250). -/

namespace Sys2Proof
namespace Machine

/-- One step: what `fetchNext` finds at `CIA`, executed. -/
def step (s : State) : Host.Outcome State Fault Refusal :=
  match fetchNext machine s with
  | .stopped st => st.outcome
  | .unprefixed w0 => executeUnprefixed machine w0 s
  | .instr i => exec i s

/-- `s` with an instruction of the opcode table stored where `step` fetches next: its words at `CIA` and `CIA+4`, in the
machine's byte order (log entry 3). -/
def State.withFetchWord (s : State) (nbits w : Nat) : State := applyWrites s (storeBytes s.cia (tableBytes nbits w))

end Machine
end Sys2Proof
end

