-- ==== Sys2Proof/Machine/General.lean ====
section
/-! DEFINITION. The machine for any parameters (R4): an instruction of the opcode table and one step, with every open parameter as an
argument. `exec` and `step`, whose types are fixed, are these at `machine`. -/

namespace Sys2Proof
namespace Machine

/-- An instruction of the opcode table under the parameters `p`: an empty cell (R271 cause 1), an SVP64 pair (R108), a pair of a row the
source's map does not print, a pair of another class (R79). -/
def execFor (p : Params) (i : Instr) (s : State) : Host.Outcome State Fault Refusal :=
  match i.secondWord? with
  | none => executeUnallocated i.firstWord s
  | some w1 =>
    match i.rm? with
    | some rm => executePrefixed p i.category? rm w1 s
    | none =>
      match classify i.firstWord with
      | .v31 .row100 => executeUnprinted p i.firstWord w1 s
      | .v31 .row001 => executeUnprinted p i.firstWord w1 s
      | .v31 .row101 => executeUnprinted p i.firstWord w1 s
      | _ => executeV31 p i.firstWord w1 s

/-- One step under the parameters `p` (R52, R100, R250). -/
def stepFor (p : Params) (s : State) : Host.Outcome State Fault Refusal :=
  match fetchNext p s with
  | .stopped st => st.outcome
  | .unprefixed w0 => executeUnprefixed p w0 s
  | .instr i => execFor p i s

end Machine
end Sys2Proof
end

