-- ==== Sys2Proof/Safety.lean ====
section
/-! DEFINITION. What the claims speak of: the invariant of the machine, an outcome that is a next state, and the words in
which the effect of a prefixed instruction is stated beside the element loop of Machine/Loop.lean: the elements in order, and
the register an element uses. -/

namespace Sys2Proof
namespace Machine

/-- `CIA` is a multiple of 4 (R28, R53). -/
def State.ciaAligned (s : State) : Bool := s.cia.extractLsb' 0 2 == 0#2

/-- The invariant: memory and the suffix ISA's own registers in canonical form, `CIA` aligned. -/
def State.Inv (s : State) : Prop := Memory.wf s.mem = true ∧ sparseRising s.own = true ∧ s.ciaAligned = true

/-- The outcome is a next state. -/
def completes (o : Host.Outcome State Fault Refusal) : Bool :=
  match o with
  | .next _ => true
  | .fault _ => false
  | .refused _ => false

/-- ELWIDTH, ELWIDTH_SRC, SUBVL and MODE all zero, "no augmentation" (R131; R244 lines 1 to 3). -/
def plain (c : CommonRm) : Bool := c.elwidth == 0#2 && c.elwidthSrc == 0#2 && c.subvl == 0#2 && c.mode == 0#5

/-- A mask of `vl` elements can be read: an integer bit test of at most 64 elements (R154), CR fields up to CR127 (R156). -/
def maskReadable (maskmode : BitVec 1) (sel : BitVec 3) (vl : Nat) : Bool :=
  if maskmode = 0#1 then decide (sel = 0#3) || decide (sel = 1#3) || decide (vl ≤ 64) else decide (vl ≤ 96)

/-- A mask that is ALWAYS (R151). -/
def always (maskmode : BitVec 1) (sel : BitVec 3) : Bool := maskmode == 0#1 && sel == 0#3

/-- Twin predication is admitted (R248): a single element, or both masks ALWAYS. -/
def twinAdmitted (c : CommonRm) (maskSrc : BitVec 3) (vl : Nat) : Bool :=
  decide (vl = 1) || (always c.maskmode c.mask && always c.maskmode maskSrc)

/-- The mask of a single-predicate category (R121). -/
def singleMask (s : State) (c : CommonRm) (i : Nat) : Bool := enabled s c.maskmode c.mask i

/-- The mask of a twin-predicate category where it is admitted: both predicates hold (R157, R248). -/
def twinMask (s : State) (c : CommonRm) (maskSrc : BitVec 3) (i : Nat) : Bool :=
  enabled s c.maskmode maskSrc i && enabled s c.maskmode c.mask i

/-- Elements `0` to `n - 1` in ascending order, each enabled one applied to the state the ones before it leave (R59, R245,
R246). -/
def overElements (n : Nat) (on : Nat → Bool) (f : Nat → State → State) (s : State) : State :=
  (List.range n).foldl (fun t i => if on i then f i t else t) s

/-- The number of the register element `i` uses for a register field and its sub-field (R211, R222). -/
def regNo (field : BitVec 5) (sub : SubValue) (i : Nat) : Nat :=
  (extendReg field sub).2.toNat + if (extendReg field sub).1 then i else 0

/-- The number of the CR field element `i` uses for a 3-bit field number and its sub-field (R219, R222). -/
def crNo (field : BitVec 3) (sub : SubValue) (i : Nat) : Nat :=
  (extendCr field sub).2.toNat + if (extendCr field sub).1 then i else 0

/-- A register number as the number of a register that exists. -/
def reg (n : Nat) : RegNum := Fin.ofNat 128 n

/-- The frame of an instruction: everything but the program counter is as before, except the GPRs, FPRs, CR bits and bytes of
memory named, and FPSCR where `fp` says so. -/
def keepsAllBut (gprs fprs : RegNum → Prop) (crBits : RegNum → Fin 4 → Prop) (bytes : DWord → Prop) (fp : Bool)
    (s u : State) : Prop :=
  (∀ n, ¬gprs n → readGpr u n = readGpr s n) ∧ (∀ n, ¬fprs n → readFpr u n = readFpr s n) ∧
  (∀ n b, ¬crBits n b → crFieldBit (readCr u n) b = crFieldBit (readCr s n) b) ∧
  (∀ a, ¬bytes a → readByte u a = readByte s a) ∧ u.svstate = s.svstate ∧ u.mode = s.mode ∧ u.xer = s.xer ∧
  u.lr = s.lr ∧ u.ctr = s.ctr ∧ (fp = false → u.fpscr = s.fpscr) ∧ u.own = s.own

/-- The `n` bytes from address `a`, modulo 2^64 (R7, R28). -/
def bytesAt (a : DWord) (n : Nat) (x : DWord) : Prop := ∃ k, k < n ∧ x = a + BitVec.ofNat 64 k

/-- A load's destination written (R191). -/
def loaded (s : State) (k : LoadKind) (rt : RegNum) (v : DWord) : State := if k.fp then writeFpr s rt v else writeGpr s rt v

/-- What a load with update leaves: the loaded value in RT and the address in RA, or, where the two are one GPR, a free value (R188,
R189; log entry 25). -/
def afterUpdate (s : State) (k : LoadKind) (rt ra : RegNum) (v ea : DWord) : State :=
  if k.fp = false ∧ rt = ra then writeGpr s rt (Config.updateCollision v ea) else writeGpr (loaded s k rt v) ra ea

/-- The register a store takes its bytes from (R191). -/
def stored (s : State) (k : StoreKind) (rs : RegNum) : DWord := if k.fp then readFpr s rs else readGpr s rs

/-- A store at an address in the machine's byte order. -/
def afterStore (s : State) (k : StoreKind) (rs : RegNum) (ea : DWord) : State :=
  applyWrites s (storeBytes ea (k.bytes Config.bigEndian (stored s k rs)))

/-- The three outcomes of a load with one element that is enabled if `on`: nothing but the program counter; `after` of the value its
bytes make; the storage trap at the first absent byte, with nothing written (R241, R246, R249, R252). -/
def loadsOrTraps (i : Instr) (s : State) (on : Bool) (k : LoadKind) (ea : DWord) (after : DWord → State) : Prop :=
  (on = false → exec i s = .next (setCia s (s.cia + 8#64))) ∧
  (∀ bs, on = true → readBytes s k.width ea = .ok bs →
    exec i s = .next (setCia (after (k.value Config.bigEndian bs)) (s.cia + 8#64))) ∧
  (∀ x, on = true → readBytes s k.width ea = .error x → exec i s = .fault (.suffixTrap 0 (.dataAbsent x) s))

/-- VL is a legal length of at least one element (R30). -/
def vlLegal (s : State) : Prop := 1 ≤ s.vl ∧ s.vl ≤ Config.vlMax

end Machine
end Sys2Proof
end

