-- ==== Sys2Proof/WellFormed.lean ====
section
/-! DEFINITION. Well-formed instructions: those a pair of words decodes to. A constructor that names a category is
well formed only if its suffix has that category (R103), and the unsplit `svp64Prefix` only if its suffix has none. The widths of
all fields are in the types of Sys2Proof/Syntax.lean. -/

namespace Sys2Proof

/-- Well-formedness for a suffix ISA. -/
def Instr.wfFor (isa : SuffixIsa) : Instr → Bool
  | .svp64Prefix _ w => categoryOf isa w == none
  | .rm1P3S1D _ _ _ _ _ _ w => categoryOf isa w == some .rm1P3S1D
  | .rm1P2S1D _ _ _ _ w => categoryOf isa w == some .rm1P2S1D
  | .rm2P1S1D _ _ _ _ w => categoryOf isa w == some .rm2P1S1D
  | .rm2P2S _ _ _ _ w => categoryOf isa w == some .rm2P2S
  | .rm2P2S1D _ _ _ _ _ w => categoryOf isa w == some .rm2P2S1D
  | .rm2P1S2D _ _ _ _ _ w => categoryOf isa w == some .rm2P1S2D
  | .rm2P3S _ _ _ _ _ w => categoryOf isa w == some .rm2P3S
  | .ext01_8LS _ _ => true
  | .ext01_8RR _ _ => true
  | .ext01_MRR _ _ => true
  | .ext01_MMIRR _ _ => true
  | .ext01_row100 _ _ => true
  | .ext01_row001 _ _ => true
  | .ext01_row101 _ _ => true
  | .ext01_unallocated_011 _ => true
  | .ext01_unallocated_010001 _ => true
  | .ext01_unallocated_010010 _ => true
  | .ext01_unallocated_010011 _ => true
  | .ext01_unallocated_110001 _ => true
  | .ext01_unallocated_110010 _ => true
  | .ext01_unallocated_110011 _ => true
  | .ext01_unallocated_111000 _ => true
  | .ext01_unallocated_111010 _ => true
  | .ext01_unallocated_111011 _ => true

/-- Well-formedness for the machine's own suffix ISA. -/
def Instr.wf (i : Instr) : Bool := i.wfFor referenceIsa

end Sys2Proof
end

