-- ==== Sys2Proof/Certificates/Slice0/Obligations.lean ====
section
/-! DEFINITION. The statements for the provers. Each docstring names the rule of spec/ it rests on. The suffix instructions they
name (`add`, `maddld`, `extsb`, `stw`, ...) are those of the reference suffix ISA (log entry 4); the operands, masks,
stepping, checks and the program counter are the spec's. Where a rule named carries "[decision: D<n>]" or "[derived: ...]" in spec/,
that clause is the spec's own inference and not its source's words; OBLIGATIONS.json says which, and its basis is then 'derived'. -/

open Sys2Proof
open Sys2Proof.Machine

/-! ### Results: the enabled elements in order, and `CIA + 8` -/

/-- `sv.add` (R183, R195, R245, R246, R249), also from the unsplit pair (R103): the next state is that of the enabled elements in
ascending order, each adding its two source registers in the state the ones before it leave, under the mask as it is before
element 0. Holds for every `RM` whose fields are admitted, `RM = 0` with VL = 1 included. -/
def Obligations.SvAddRunsItsEnabledElements : Prop :=
  ∀ (c : CommonRm) (rd ra rb : BitVec 3) (t a b : BitVec 5) (s : State),
    s.mode = .bits64 → vlLegal s → plain c = true → maskReadable c.maskmode c.mask s.vl = true →
    ((SubValue.extra3 rd).isVector = true ∨ s.vl = 1) →
    (∀ i, i < s.vl → singleMask s c i = true →
      regNo t (.extra3 rd) i ≤ 127 ∧ regNo a (.extra3 ra) i ≤ 127 ∧ regNo b (.extra3 rb) i ≤ 127) →
    ∀ i ∈ [Instr.rm1P2S1D c rd ra rb (ScalarOp.add t a b false).word,
        Instr.svp64Prefix (packRm c (rd ++ ra ++ rb)) (ScalarOp.add t a b false).word],
      exec i s = .next (setCia
        (overElements s.vl (singleMask s c)
          (fun i u => writeGpr u (reg (regNo t (.extra3 rd) i))
            (readGpr u (reg (regNo a (.extra3 ra) i)) + readGpr u (reg (regNo b (.extra3 rb) i)))) s)
        (s.cia + 8#64))

/-- `sv.rlwimi` (R184): the RA field is extended twice, by Rdest for the register written and by Rsrc2 for the one read. -/
def Obligations.SvRlwimiExtendsRaTwice : Prop :=
  ∀ (c : CommonRm) (rd r1 r2 : BitVec 3) (a t sh mb me : BitVec 5) (s : State),
    s.mode = .bits64 → vlLegal s → plain c = true → maskReadable c.maskmode c.mask s.vl = true →
    ((SubValue.extra3 rd).isVector = true ∨ s.vl = 1) →
    (∀ i, i < s.vl → singleMask s c i = true →
      regNo a (.extra3 rd) i ≤ 127 ∧ regNo t (.extra3 r1) i ≤ 127 ∧ regNo a (.extra3 r2) i ≤ 127) →
    exec (.rm1P2S1D c rd r1 r2 (ScalarOp.rlwimi a t sh mb me false).word) s = .next (setCia
      (overElements s.vl (singleMask s c)
        (fun i u => writeGpr u (reg (regNo a (.extra3 rd) i))
          (insertRotated (readGpr u (reg (regNo t (.extra3 r1) i))) (readGpr u (reg (regNo a (.extra3 r2) i))) sh mb me)) s)
      (s.cia + 8#64))

/-- `sv.cmp` (R216, R222, R245): element `i` writes CR field `crNo i`, its compare field extended as a CR field number. Under CR
predication no enabled element may write the predicate field of a later one (R159). -/
def Obligations.SvCmpWritesAVectorOfCrFields : Prop :=
  ∀ (c : CommonRm) (rd ra rb bf : BitVec 3) (l : Bool) (a b : BitVec 5) (s : State),
    s.mode = .bits64 → vlLegal s → plain c = true → maskReadable c.maskmode c.mask s.vl = true →
    ((SubValue.extra3 rd).isVector = true ∨ s.vl = 1) →
    (∀ i, i < s.vl → singleMask s c i = true →
      crNo bf (.extra3 rd) i ≤ 127 ∧ regNo a (.extra3 ra) i ≤ 127 ∧ regNo b (.extra3 rb) i ≤ 127 ∧
      (c.maskmode = 1#1 → crNo bf (.extra3 rd) i ≤ 32 + i ∨ 32 + s.vl ≤ crNo bf (.extra3 rd) i)) →
    exec (.rm1P2S1D c rd ra rb (ScalarOp.cmp bf l a b).word) s = .next (setCia
      (overElements s.vl (singleMask s c)
        (fun i u => writeCr u (reg (crNo bf (.extra3 rd) i))
          (let x := readGpr u (reg (regNo a (.extra3 ra) i))
           let y := readGpr u (reg (regNo b (.extra3 rb) i))
           if l then crOfCompare u x.toInt y.toInt
           else crOfCompare u (x.extractLsb' 0 32).toInt (y.extractLsb' 0 32).toInt)) s)
      (s.cia + 8#64))

/-- The CR logical instructions (R215, R222): the field part of a 5-bit CR operand is extended and steps, the bit part stays. -/
def Obligations.SvCrLogicStepsFieldsAndKeepsBits : Prop :=
  ∀ (c : CommonRm) (rd r1 r2 : BitVec 3) (fn : CrLogic) (bt ba bb : BitVec 5) (s : State),
    s.mode = .bits64 → vlLegal s → plain c = true → maskReadable c.maskmode c.mask s.vl = true →
    ((SubValue.extra3 rd).isVector = true ∨ s.vl = 1) →
    (∀ i, i < s.vl → singleMask s c i = true →
      crNo (bt.extractLsb' 2 3) (.extra3 rd) i ≤ 127 ∧ crNo (ba.extractLsb' 2 3) (.extra3 r1) i ≤ 127 ∧
      crNo (bb.extractLsb' 2 3) (.extra3 r2) i ≤ 127 ∧
      (c.maskmode = 1#1 → crNo (bt.extractLsb' 2 3) (.extra3 rd) i ≤ 32 + i ∨
        32 + s.vl ≤ crNo (bt.extractLsb' 2 3) (.extra3 rd) i)) →
    exec (.rm1P2S1D c rd r1 r2 (ScalarOp.crlogic fn bt ba bb).word) s = .next (setCia
      (overElements s.vl (singleMask s c)
        (fun i u => writeCrBit u (reg (crNo (bt.extractLsb' 2 3) (.extra3 rd) i)) (bt.extractLsb' 0 2).toFin
          (crLogicBit fn
            (crFieldBit (readCr u (reg (crNo (ba.extractLsb' 2 3) (.extra3 r1) i))) (ba.extractLsb' 0 2).toFin)
            (crFieldBit (readCr u (reg (crNo (bb.extractLsb' 2 3) (.extra3 r2) i))) (bb.extractLsb' 0 2).toFin))) s)
      (s.cia + 8#64))

/-- `sv.maddld` and `sv.isel` (R181, R195), four EXTRA2 operands; EXTRA2_MODE must be 0 (R182). The third source of `isel` is a CR bit
operand: its field part is extended by EXTRA2 and steps, its bit part stays (R217, R222); its RA field 0 is the constant 0 and must
have sub-field 0 (R256). -/
def Obligations.SvMaddldAndIselRunTheirEnabledElements : Prop :=
  ∀ (c : CommonRm) (rd r1 r2 r3 : BitVec 2) (t a b d : BitVec 5) (s : State),
    s.mode = .bits64 → vlLegal s → plain c = true → maskReadable c.maskmode c.mask s.vl = true →
    ((SubValue.extra2 rd).isVector = true ∨ s.vl = 1) →
    (∀ i, i < s.vl → singleMask s c i = true →
      regNo t (.extra2 rd) i ≤ 127 ∧ regNo a (.extra2 r1) i ≤ 127 ∧ regNo b (.extra2 r2) i ≤ 127) →
    ((∀ i, i < s.vl → singleMask s c i = true → regNo d (.extra2 r3) i ≤ 127) →
      exec (.rm1P3S1D c rd r1 r2 r3 0#1 (ScalarOp.maddld t a b d).word) s = .next (setCia
        (overElements s.vl (singleMask s c)
          (fun i u => writeGpr u (reg (regNo t (.extra2 rd) i))
            (readGpr u (reg (regNo a (.extra2 r1) i)) * readGpr u (reg (regNo b (.extra2 r2) i)) +
              readGpr u (reg (regNo d (.extra2 r3) i)))) s)
        (s.cia + 8#64))) ∧
    ((a ≠ 0#5 ∨ r1 = 0#2) →
      (∀ i, i < s.vl → singleMask s c i = true → crNo (d.extractLsb' 2 3) (.extra2 r3) i ≤ 127) →
      exec (.rm1P3S1D c rd r1 r2 r3 0#1 (ScalarOp.isel t a b d).word) s = .next (setCia
        (overElements s.vl (singleMask s c)
          (fun i u => writeGpr u (reg (regNo t (.extra2 rd) i))
            (if crFieldBit (readCr u (reg (crNo (d.extractLsb' 2 3) (.extra2 r3) i))) (d.extractLsb' 0 2).toFin then
              (if a = 0#5 then 0#64 else readGpr u (reg (regNo a (.extra2 r1) i)))
             else readGpr u (reg (regNo b (.extra2 r2) i)))) s)
        (s.cia + 8#64)))

/-- `sv.extsb` and `sv.mcrf` (R185, R216, R248): twin predication in the two admitted cases. With VL = 1 the element runs if both
predicates hold. -/
def Obligations.SvExtsbAndMcrfRunUnderBothMasks : Prop :=
  ∀ (c : CommonRm) (rd r1 m : BitVec 3) (a t : BitVec 5) (bf bfa : BitVec 3) (s : State),
    s.mode = .bits64 → vlLegal s → plain c = true → twinAdmitted c m s.vl = true →
    ((SubValue.extra3 rd).isVector = true ∨ s.vl = 1) →
    ((∀ i, i < s.vl → twinMask s c m i = true → regNo a (.extra3 rd) i ≤ 127 ∧ regNo t (.extra3 r1) i ≤ 127) →
      exec (.rm2P1S1D c rd r1 m (ScalarOp.extsb a t false).word) s = .next (setCia
        (overElements s.vl (twinMask s c m)
          (fun i u => writeGpr u (reg (regNo a (.extra3 rd) i))
            (((readGpr u (reg (regNo t (.extra3 r1) i))).extractLsb' 0 8).signExtend 64)) s)
        (s.cia + 8#64))) ∧
    ((∀ i, i < s.vl → twinMask s c m i = true → crNo bf (.extra3 rd) i ≤ 127 ∧ crNo bfa (.extra3 r1) i ≤ 127) →
      exec (.rm2P1S1D c rd r1 m (ScalarOp.mcrf bf bfa).word) s = .next (setCia
        (overElements s.vl (twinMask s c m)
          (fun i u => writeCr u (reg (crNo bf (.extra3 rd) i)) (readCr u (reg (crNo bfa (.extra3 r1) i)))) s)
        (s.cia + 8#64)))

/-- `sv.addi` (R256): RA field 0 with sub-field 0 is the constant 0 in every element; with a field that is not 0 the operand is an
ordinary register. -/
def Obligations.SvAddiKeepsRaZeroAsZero : Prop :=
  ∀ (c : CommonRm) (rd r1 m : BitVec 3) (t a : BitVec 5) (si : BitVec 16) (s : State),
    s.mode = .bits64 → vlLegal s → plain c = true → twinAdmitted c m s.vl = true →
    ((SubValue.extra3 rd).isVector = true ∨ s.vl = 1) → (a ≠ 0#5 ∨ r1 = 0#3) →
    (∀ i, i < s.vl → twinMask s c m i = true → regNo t (.extra3 rd) i ≤ 127 ∧ regNo a (.extra3 r1) i ≤ 127) →
    exec (.rm2P1S1D c rd r1 m (ScalarOp.addi t a si).word) s = .next (setCia
      (overElements s.vl (twinMask s c m)
        (fun i u => writeGpr u (reg (regNo t (.extra3 rd) i))
          ((if a = 0#5 then 0#64 else readGpr u (reg (regNo a (.extra3 r1) i))) + si.signExtend 64)) s)
      (s.cia + 8#64))

/-- The stores with a displacement, `stw` "etc.", with VL = 1 (R186, R195, R244 line 4, R248): if both predicates hold, the bytes of RS are
stored at `(RA|0) + D` and nothing else changes; else nothing is stored. With update, which R195 does not list, the address goes to RA
too, extended by Rdest where it is written and by Rsrc2 where it is read, under one mask: two sources and one destination, RM-1P-2S1D
(R194, R184; log entry 25). -/
def Obligations.SvDisplacementStoresStoreTheirBytes : Prop :=
  (∀ (k : StoreKind) (c : CommonRm) (r1 r2 m : BitVec 3) (t a : BitVec 5) (d : BitVec 16) (s : State),
    s.mode = .bits64 → s.vl = 1 → plain c = true → (ScalarOp.store k false t a d).valid = true → (a ≠ 0#5 ∨ r2 = 0#3) →
    let ea := (if a = 0#5 then 0#64 else readGpr s (reg (regNo a (.extra3 r2) 0))) + d.signExtend 64
    exec (.rm2P2S c r1 r2 m (ScalarOp.store k false t a d).word) s = .next (setCia
      (if twinMask s c m 0 then afterStore s k (reg (regNo t (.extra3 r1) 0)) ea else s) (s.cia + 8#64))) ∧
  ∀ (k : StoreKind) (c : CommonRm) (rd r1 r2 : BitVec 3) (t a : BitVec 5) (d : BitVec 16) (s : State),
    s.mode = .bits64 → s.vl = 1 → plain c = true → (ScalarOp.store k true t a d).valid = true →
    let ea := readGpr s (reg (regNo a (.extra3 r2) 0)) + d.signExtend 64
    exec (.rm1P2S1D c rd r1 r2 (ScalarOp.store k true t a d).word) s = .next (setCia
      (if singleMask s c 0 then
        writeGpr (afterStore s k (reg (regNo t (.extra3 r1) 0)) ea) (reg (regNo a (.extra3 rd) 0)) ea
       else s)
      (s.cia + 8#64))

/-- The indexed stores, `stdx` "etc.", with VL = 1 (R190, R195, R244 line 4, R248): as the stores with a displacement, at `(RA|0) + RB`.
With update, which R195 does not list, Rdest extends RA where it is written and Rsrc2 where it is read, under one mask: three sources
and one destination, RM-1P-3S1D (R194; log entry 25), whose EXTRA2_MODE must be 0 (R182). -/
def Obligations.SvIndexedStoresStoreTheirBytes : Prop :=
  (∀ (k : StoreKind) (c : CommonRm) (r1 r2 r3 : BitVec 2) (m : BitVec 3) (t a b : BitVec 5) (s : State),
    s.mode = .bits64 → s.vl = 1 → plain c = true → (ScalarOp.storeX k false t a b).valid = true → (a ≠ 0#5 ∨ r2 = 0#2) →
    let ea := (if a = 0#5 then 0#64 else readGpr s (reg (regNo a (.extra2 r2) 0))) + readGpr s (reg (regNo b (.extra2 r3) 0))
    exec (.rm2P3S c r1 r2 r3 m (ScalarOp.storeX k false t a b).word) s = .next (setCia
      (if twinMask s c m 0 then afterStore s k (reg (regNo t (.extra2 r1) 0)) ea else s) (s.cia + 8#64))) ∧
  ∀ (k : StoreKind) (c : CommonRm) (rd r1 r2 r3 : BitVec 2) (t a b : BitVec 5) (s : State),
    s.mode = .bits64 → s.vl = 1 → plain c = true → (ScalarOp.storeX k true t a b).valid = true →
    let ea := readGpr s (reg (regNo a (.extra2 r2) 0)) + readGpr s (reg (regNo b (.extra2 r3) 0))
    exec (.rm1P3S1D c rd r1 r2 r3 0#1 (ScalarOp.storeX k true t a b).word) s = .next (setCia
      (if singleMask s c 0 then
        writeGpr (afterStore s k (reg (regNo t (.extra2 r1) 0)) ea) (reg (regNo a (.extra2 rd) 0)) ea
       else s)
      (s.cia + 8#64))

/-- The loads without update with VL = 1, `lwz`, `lwzx` and every other (R185, R187, R195, R244 line 4, R252): the value of the bytes at
`(RA|0) + D`, or `(RA|0) + RB`, in RT; the storage trap if a byte of it is absent, with nothing written; nothing at all if a predicate
does not hold. What value the bytes make is the statement on bytes. -/
def Obligations.SvLoadsLoadOrTrap : Prop :=
  (∀ (k : LoadKind) (c : CommonRm) (rd r1 m : BitVec 3) (t a : BitVec 5) (d : BitVec 16) (s : State),
    s.mode = .bits64 → s.vl = 1 → plain c = true → (ScalarOp.load k false t a d).valid = true → (a ≠ 0#5 ∨ r1 = 0#3) →
    loadsOrTraps (.rm2P1S1D c rd r1 m (ScalarOp.load k false t a d).word) s (twinMask s c m 0) k
      ((if a = 0#5 then 0#64 else readGpr s (reg (regNo a (.extra3 r1) 0))) + d.signExtend 64)
      (loaded s k (reg (regNo t (.extra3 rd) 0)))) ∧
  ∀ (k : LoadKind) (c : CommonRm) (rd r1 r2 : BitVec 2) (m : BitVec 3) (t a b : BitVec 5) (s : State),
    s.mode = .bits64 → s.vl = 1 → plain c = true → (ScalarOp.loadX k false t a b).valid = true → (a ≠ 0#5 ∨ r1 = 0#2) →
    loadsOrTraps (.rm2P2S1D c rd r1 r2 m (ScalarOp.loadX k false t a b).word) s (twinMask s c m 0) k
      ((if a = 0#5 then 0#64 else readGpr s (reg (regNo a (.extra2 r1) 0))) + readGpr s (reg (regNo b (.extra2 r2) 0)))
      (loaded s k (reg (regNo t (.extra2 rd) 0)))

/-- The indexed loads with update with VL = 1, `lhaux` and every other (R188, R195, R252): Rsrc1 extends RA both where the base is read and
where the updated address is written. What one GPR that is both RT and RA holds is free (log entry 25). The invalid forms with an RA
field of 0 or RT are not the reference's (log entry 4). -/
def Obligations.SvIndexedLoadsWithUpdateWriteTheBaseTheyRead : Prop :=
  ∀ (k : LoadKind) (c : CommonRm) (rd r1 r2 : BitVec 2) (m : BitVec 3) (t a b : BitVec 5) (s : State),
    s.mode = .bits64 → s.vl = 1 → plain c = true → (ScalarOp.loadX k true t a b).valid = true →
    let ea := readGpr s (reg (regNo a (.extra2 r1) 0)) + readGpr s (reg (regNo b (.extra2 r2) 0))
    loadsOrTraps (.rm2P2S1D c rd r1 r2 m (ScalarOp.loadX k true t a b).word) s (twinMask s c m 0) k ea
      (fun v => afterUpdate s k (reg (regNo t (.extra2 rd) 0)) (reg (regNo a (.extra2 r1) 0)) v ea)

/-- The loads with displacement and update with VL = 1, `lwzu` and every other (R189, R195, R252): the source sub-field stands first; RT
and the updated RA are two destinations of their own. That RT is Rdest1 and RA Rdest2 is the model's choice, and what one GPR that is
both holds is free (log entry 25). The invalid forms with an RA field of 0 or RT are not the reference's (log entry 4). -/
def Obligations.SvLoadsWithUpdateHaveTwoDestinations : Prop :=
  ∀ (k : LoadKind) (c : CommonRm) (r1 d1 d2 : BitVec 2) (m : BitVec 3) (t a : BitVec 5) (d : BitVec 16) (s : State),
    s.mode = .bits64 → s.vl = 1 → plain c = true → (ScalarOp.load k true t a d).valid = true →
    let ea := readGpr s (reg (regNo a (.extra2 r1) 0)) + d.signExtend 64
    loadsOrTraps (.rm2P1S2D c r1 d1 d2 m (ScalarOp.load k true t a d).word) s (twinMask s c m 0) k ea
      (fun v => afterUpdate s k (reg (regNo t (.extra2 d1) 0)) (reg (regNo a (.extra2 d2) 0)) v ea)

/-- `sv.fadds` and `sv.fmadd` with VL = 1 (R23, R125, R181, R191, R195, R252): FP register fields are extended as integer ones; the
binary32 sum of `fadds` is a free value (log entry 7), stored in double format with the FPSCR beside it, the result of `fmadd` a
free value, or the enabled exception is taken with nothing written. -/
def Obligations.SvFaddsAndFmaddExtendFpRegisters : Prop :=
  (∀ (c : CommonRm) (rd r1 r2 r3 : BitVec 2) (t a d b : BitVec 5) (s : State),
    s.mode = .bits64 → s.vl = 1 → plain c = true → singleMask s c 0 = true →
    let r := Config.fmaddDouble (readFpr s (reg (regNo a (.extra2 r1) 0))) (readFpr s (reg (regNo d (.extra2 r2) 0)))
      (readFpr s (reg (regNo b (.extra2 r3) 0))) s.fpscr
    exec (.rm1P3S1D c rd r1 r2 r3 0#1 (ScalarOp.fmadd t a d b false).word) s =
      if r.trap then .fault (.suffixTrap 0 .fpEnabled s)
      else .next (setCia { writeFpr s (reg (regNo t (.extra2 rd) 0)) r.value with fpscr := r.fpscr } (s.cia + 8#64))) ∧
  ∀ (c : CommonRm) (rd r1 r2 : BitVec 3) (t a b : BitVec 5) (s : State),
    s.mode = .bits64 → s.vl = 1 → plain c = true → singleMask s c 0 = true →
    let r := Config.faddSingle (readFpr s (reg (regNo a (.extra3 r1) 0))) (readFpr s (reg (regNo b (.extra3 r2) 0))) s.fpscr
    exec (.rm1P2S1D c rd r1 r2 (ScalarOp.fadds t a b false).word) s =
      if r.trap then .fault (.suffixTrap 0 .fpEnabled s)
      else .next (setCia { writeFpr s (reg (regNo t (.extra3 rd) 0)) (singleToDouble r.value) with fpscr := r.fpscr }
        (s.cia + 8#64))

/-! ### Frames: what a next state leaves as it was -/

/-- The frame of the forms that write integer registers only (R246; R26: the prefix subsystem itself never writes a CR field;
R30: nor VL): `sv.add`, `sv.rlwimi`, `sv.maddld`, `sv.isel`, `sv.extsb`, `sv.addi`, without Rc=1. Only the destination registers of enabled
elements may change, and the program counter. -/
def Obligations.IntegerFormsChangeOnlyTheirDestinations : Prop :=
  (∀ (c : CommonRm) (rd ra rb : BitVec 3) (t a b : BitVec 5) (s u : State), s.mode = .bits64 →
    exec (.rm1P2S1D c rd ra rb (ScalarOp.add t a b false).word) s = .next u →
    keepsAllBut (fun n => ∃ i, i < s.vl ∧ singleMask s c i = true ∧ n = reg (regNo t (.extra3 rd) i))
      (fun _ => False) (fun _ _ => False) (fun _ => False) false s u) ∧
  (∀ (c : CommonRm) (rd r1 r2 : BitVec 3) (a t sh mb me : BitVec 5) (s u : State), s.mode = .bits64 →
    exec (.rm1P2S1D c rd r1 r2 (ScalarOp.rlwimi a t sh mb me false).word) s = .next u →
    keepsAllBut (fun n => ∃ i, i < s.vl ∧ singleMask s c i = true ∧ n = reg (regNo a (.extra3 rd) i))
      (fun _ => False) (fun _ _ => False) (fun _ => False) false s u) ∧
  (∀ (c : CommonRm) (rd r1 r2 r3 : BitVec 2) (e : BitVec 1) (t a b d : BitVec 5) (s u : State), s.mode = .bits64 →
    exec (.rm1P3S1D c rd r1 r2 r3 e (ScalarOp.maddld t a b d).word) s = .next u →
    keepsAllBut (fun n => ∃ i, i < s.vl ∧ singleMask s c i = true ∧ n = reg (regNo t (.extra2 rd) i))
      (fun _ => False) (fun _ _ => False) (fun _ => False) false s u) ∧
  (∀ (c : CommonRm) (rd r1 r2 r3 : BitVec 2) (e : BitVec 1) (t a b d : BitVec 5) (s u : State), s.mode = .bits64 →
    exec (.rm1P3S1D c rd r1 r2 r3 e (ScalarOp.isel t a b d).word) s = .next u →
    keepsAllBut (fun n => ∃ i, i < s.vl ∧ singleMask s c i = true ∧ n = reg (regNo t (.extra2 rd) i))
      (fun _ => False) (fun _ _ => False) (fun _ => False) false s u) ∧
  (∀ (c : CommonRm) (rd r1 m : BitVec 3) (a t : BitVec 5) (s u : State), s.mode = .bits64 →
    exec (.rm2P1S1D c rd r1 m (ScalarOp.extsb a t false).word) s = .next u →
    keepsAllBut (fun n => ∃ i, i < s.vl ∧ twinMask s c m i = true ∧ n = reg (regNo a (.extra3 rd) i))
      (fun _ => False) (fun _ _ => False) (fun _ => False) false s u) ∧
  (∀ (c : CommonRm) (rd r1 m : BitVec 3) (t a : BitVec 5) (si : BitVec 16) (s u : State), s.mode = .bits64 →
    exec (.rm2P1S1D c rd r1 m (ScalarOp.addi t a si).word) s = .next u →
    keepsAllBut (fun n => ∃ i, i < s.vl ∧ twinMask s c m i = true ∧ n = reg (regNo t (.extra3 rd) i))
      (fun _ => False) (fun _ _ => False) (fun _ => False) false s u)

/-- The frame of the forms that write CR fields or FP registers only (R25, R23): `sv.cmp` and `sv.mcrf` change the fields their
destination names, a CR logical instruction one bit of each, `sv.fadds` and `sv.fmadd` their FP destinations and the FPSCR. -/
def Obligations.CrAndFpFormsChangeOnlyTheirDestinations : Prop :=
  (∀ (c : CommonRm) (rd ra rb bf : BitVec 3) (l : Bool) (a b : BitVec 5) (s u : State), s.mode = .bits64 →
    exec (.rm1P2S1D c rd ra rb (ScalarOp.cmp bf l a b).word) s = .next u →
    keepsAllBut (fun _ => False) (fun _ => False)
      (fun n _ => ∃ i, i < s.vl ∧ singleMask s c i = true ∧ n = reg (crNo bf (.extra3 rd) i)) (fun _ => False) false s u) ∧
  (∀ (c : CommonRm) (rd r1 r2 : BitVec 3) (fn : CrLogic) (bt ba bb : BitVec 5) (s u : State), s.mode = .bits64 →
    exec (.rm1P2S1D c rd r1 r2 (ScalarOp.crlogic fn bt ba bb).word) s = .next u →
    keepsAllBut (fun _ => False) (fun _ => False)
      (fun n b => b = (bt.extractLsb' 0 2).toFin ∧
        ∃ i, i < s.vl ∧ singleMask s c i = true ∧ n = reg (crNo (bt.extractLsb' 2 3) (.extra3 rd) i))
      (fun _ => False) false s u) ∧
  (∀ (c : CommonRm) (rd r1 m : BitVec 3) (bf bfa : BitVec 3) (s u : State), s.mode = .bits64 →
    exec (.rm2P1S1D c rd r1 m (ScalarOp.mcrf bf bfa).word) s = .next u →
    keepsAllBut (fun _ => False) (fun _ => False)
      (fun n _ => ∃ i, i < s.vl ∧ twinMask s c m i = true ∧ n = reg (crNo bf (.extra3 rd) i)) (fun _ => False) false s u) ∧
  (∀ (c : CommonRm) (rd r1 r2 r3 : BitVec 2) (e : BitVec 1) (t a d b : BitVec 5) (s u : State), s.mode = .bits64 →
    exec (.rm1P3S1D c rd r1 r2 r3 e (ScalarOp.fmadd t a d b false).word) s = .next u →
    keepsAllBut (fun _ => False) (fun n => ∃ i, i < s.vl ∧ singleMask s c i = true ∧ n = reg (regNo t (.extra2 rd) i))
      (fun _ _ => False) (fun _ => False) true s u) ∧
  (∀ (c : CommonRm) (rd r1 r2 : BitVec 3) (t a b : BitVec 5) (s u : State), s.mode = .bits64 →
    exec (.rm1P2S1D c rd r1 r2 (ScalarOp.fadds t a b false).word) s = .next u →
    keepsAllBut (fun _ => False) (fun n => ∃ i, i < s.vl ∧ singleMask s c i = true ∧ n = reg (regNo t (.extra3 rd) i))
      (fun _ _ => False) (fun _ => False) true s u)

/-- The frame of the loads and stores, of every kind (R244 line 4, R246): a store changes only the bytes of its own width from the
address it computes, and with update its base, and nothing where its element is not enabled; a load changes no byte of memory and no
register but its destinations, RT in the file of its kind and with update RA. -/
def Obligations.LoadsAndStoresChangeOnlyTheirDestinations : Prop :=
  (∀ (k : StoreKind) (c : CommonRm) (r1 r2 m : BitVec 3) (t a : BitVec 5) (d : BitVec 16) (s u : State), s.mode = .bits64 →
    (ScalarOp.store k false t a d).valid = true →
    exec (.rm2P2S c r1 r2 m (ScalarOp.store k false t a d).word) s = .next u →
    keepsAllBut (fun _ => False) (fun _ => False) (fun _ _ => False)
      (fun x => s.vl = 1 ∧ twinMask s c m 0 = true ∧
        bytesAt ((if a = 0#5 then 0#64 else readGpr s (reg (regNo a (.extra3 r2) 0))) + d.signExtend 64) k.width x) false s u) ∧
  (∀ (k : StoreKind) (c : CommonRm) (rd r1 r2 : BitVec 3) (t a : BitVec 5) (d : BitVec 16) (s u : State), s.mode = .bits64 →
    (ScalarOp.store k true t a d).valid = true →
    exec (.rm1P2S1D c rd r1 r2 (ScalarOp.store k true t a d).word) s = .next u →
    keepsAllBut (fun n => s.vl = 1 ∧ singleMask s c 0 = true ∧ n = reg (regNo a (.extra3 rd) 0)) (fun _ => False)
      (fun _ _ => False)
      (fun x => s.vl = 1 ∧ singleMask s c 0 = true ∧
        bytesAt (readGpr s (reg (regNo a (.extra3 r2) 0)) + d.signExtend 64) k.width x) false s u) ∧
  (∀ (k : StoreKind) (c : CommonRm) (r1 r2 r3 : BitVec 2) (m : BitVec 3) (t a b : BitVec 5) (s u : State), s.mode = .bits64 →
    (ScalarOp.storeX k false t a b).valid = true →
    exec (.rm2P3S c r1 r2 r3 m (ScalarOp.storeX k false t a b).word) s = .next u →
    keepsAllBut (fun _ => False) (fun _ => False) (fun _ _ => False)
      (fun x => s.vl = 1 ∧ twinMask s c m 0 = true ∧
        bytesAt ((if a = 0#5 then 0#64 else readGpr s (reg (regNo a (.extra2 r2) 0))) +
          readGpr s (reg (regNo b (.extra2 r3) 0))) k.width x) false s u) ∧
  (∀ (k : StoreKind) (c : CommonRm) (rd r1 r2 r3 : BitVec 2) (e : BitVec 1) (t a b : BitVec 5) (s u : State),
    s.mode = .bits64 → (ScalarOp.storeX k true t a b).valid = true →
    exec (.rm1P3S1D c rd r1 r2 r3 e (ScalarOp.storeX k true t a b).word) s = .next u →
    keepsAllBut (fun n => s.vl = 1 ∧ singleMask s c 0 = true ∧ n = reg (regNo a (.extra2 rd) 0)) (fun _ => False)
      (fun _ _ => False)
      (fun x => s.vl = 1 ∧ singleMask s c 0 = true ∧
        bytesAt (readGpr s (reg (regNo a (.extra2 r2) 0)) + readGpr s (reg (regNo b (.extra2 r3) 0))) k.width x) false s u) ∧
  (∀ (k : LoadKind) (c : CommonRm) (rd r1 m : BitVec 3) (t a : BitVec 5) (d : BitVec 16) (s u : State), s.mode = .bits64 →
    (ScalarOp.load k false t a d).valid = true →
    exec (.rm2P1S1D c rd r1 m (ScalarOp.load k false t a d).word) s = .next u →
    keepsAllBut (fun n => k.fp = false ∧ s.vl = 1 ∧ twinMask s c m 0 = true ∧ n = reg (regNo t (.extra3 rd) 0))
      (fun n => k.fp = true ∧ s.vl = 1 ∧ twinMask s c m 0 = true ∧ n = reg (regNo t (.extra3 rd) 0))
      (fun _ _ => False) (fun _ => False) false s u) ∧
  (∀ (k : LoadKind) (c : CommonRm) (r1 d1 d2 : BitVec 2) (m : BitVec 3) (t a : BitVec 5) (d : BitVec 16) (s u : State),
    s.mode = .bits64 → (ScalarOp.load k true t a d).valid = true →
    exec (.rm2P1S2D c r1 d1 d2 m (ScalarOp.load k true t a d).word) s = .next u →
    keepsAllBut (fun n => s.vl = 1 ∧ twinMask s c m 0 = true ∧
        (k.fp = false ∧ n = reg (regNo t (.extra2 d1) 0) ∨ n = reg (regNo a (.extra2 d2) 0)))
      (fun n => k.fp = true ∧ s.vl = 1 ∧ twinMask s c m 0 = true ∧ n = reg (regNo t (.extra2 d1) 0))
      (fun _ _ => False) (fun _ => False) false s u) ∧
  (∀ (k : LoadKind) (c : CommonRm) (rd r1 r2 : BitVec 2) (m : BitVec 3) (t a b : BitVec 5) (s u : State), s.mode = .bits64 →
    (ScalarOp.loadX k false t a b).valid = true →
    exec (.rm2P2S1D c rd r1 r2 m (ScalarOp.loadX k false t a b).word) s = .next u →
    keepsAllBut (fun n => k.fp = false ∧ s.vl = 1 ∧ twinMask s c m 0 = true ∧ n = reg (regNo t (.extra2 rd) 0))
      (fun n => k.fp = true ∧ s.vl = 1 ∧ twinMask s c m 0 = true ∧ n = reg (regNo t (.extra2 rd) 0))
      (fun _ _ => False) (fun _ => False) false s u) ∧
  (∀ (k : LoadKind) (c : CommonRm) (rd r1 r2 : BitVec 2) (m : BitVec 3) (t a b : BitVec 5) (s u : State), s.mode = .bits64 →
    (ScalarOp.loadX k true t a b).valid = true →
    exec (.rm2P2S1D c rd r1 r2 m (ScalarOp.loadX k true t a b).word) s = .next u →
    keepsAllBut (fun n => s.vl = 1 ∧ twinMask s c m 0 = true ∧
        (k.fp = false ∧ n = reg (regNo t (.extra2 rd) 0) ∨ n = reg (regNo a (.extra2 r1) 0)))
      (fun n => k.fp = true ∧ s.vl = 1 ∧ twinMask s c m 0 = true ∧ n = reg (regNo t (.extra2 rd) 0))
      (fun _ _ => False) (fun _ => False) false s u)

/-! ### Encoding -/

/-- Decoding the encoding of a well-formed instruction gives it back, whatever follows it, for every suffix ISA and in both byte
orders (R70, R73, R74, R76, R79). -/
def Obligations.DecodeAfterEncodeGivesBackTheInstruction : Prop :=
  ∀ (isa : SuffixIsa) (i : Instr), i.wfFor isa = true →
    (∀ rest, decodeWords isa (encode i ++ rest) = .ok i) ∧
    ∀ be rest, decodeBytes isa be ((encode i).flatMap (bytesOfWord be) ++ rest) = .ok i

/-- What decodes is well formed, and its encoding is the words it was decoded from: no bit is dropped (R73, R76, R79). -/
def Obligations.EncodeAfterDecodeGivesBackTheWords : Prop :=
  ∀ (isa : SuffixIsa) (ws : List Word32) (i : Instr), decodeWords isa ws = .ok i →
    i.wfFor isa = true ∧ ∃ rest, ws = encode i ++ rest

/-- R72, R73, R101: the SVP64 test, the two integer formulas, the bits MSB0, and the bijection. The integer test, the formulas and the
bijection are marked derived by the spec. -/
def Obligations.PrefixWordAndRmAreABijection : Prop :=
  (∀ w : Word32, classify w = .svp64 ↔ w &&& 0xFD400000#32 = 0x05400000#32) ∧
  (∀ w : Word32, (rmOf w).toNat =
    ((w.toNat >>> 25) &&& 1) <<< 23 ||| ((w.toNat >>> 23) &&& 1) <<< 22 ||| (w.toNat &&& 0x003FFFFF)) ∧
  (∀ rm : Rm, (prefixWord rm).toNat =
    0x05400000 ||| ((rm.toNat >>> 23) &&& 1) <<< 25 ||| ((rm.toNat >>> 22) &&& 1) <<< 23 ||| (rm.toNat &&& 0x003FFFFF)) ∧
  (∀ w : Word32, (rmOf w).getMsbD 0 = w.getMsbD 6 ∧ (rmOf w).getMsbD 1 = w.getMsbD 8 ∧
    ∀ k, 2 ≤ k → k ≤ 23 → (rmOf w).getMsbD k = w.getMsbD (k + 8)) ∧
  (∀ rm : Rm, classify (prefixWord rm) = .svp64 ∧ rmOf (prefixWord rm) = rm) ∧
  (∀ w : Word32, classify w = .svp64 → prefixWord (rmOf w) = w)

/-- R75: every common field, from `RM` and from the prefix word. -/
def Obligations.RmFieldsStandAtTheirPositions : Prop :=
  (∀ rm : Rm, (commonOf rm).maskmode.toNat = (rm.toNat >>> 23) &&& 1 ∧ (commonOf rm).mask.toNat = (rm.toNat >>> 20) &&& 7 ∧
    (commonOf rm).elwidth.toNat = (rm.toNat >>> 18) &&& 3 ∧ (commonOf rm).elwidthSrc.toNat = (rm.toNat >>> 16) &&& 3 ∧
    (commonOf rm).subvl.toNat = (rm.toNat >>> 14) &&& 3 ∧ (extraOf rm).toNat = (rm.toNat >>> 5) &&& 0x1FF ∧
    (commonOf rm).mode.toNat = rm.toNat &&& 0x1F) ∧
  (∀ w : Word32, (commonOf (rmOf w)).maskmode.toNat = (w.toNat >>> 25) &&& 1 ∧
    (commonOf (rmOf w)).mask.toNat = ((w.toNat >>> 23) &&& 1) <<< 2 ||| ((w.toNat >>> 20) &&& 3) ∧
    (commonOf (rmOf w)).elwidth.toNat = (w.toNat >>> 18) &&& 3 ∧
    (commonOf (rmOf w)).elwidthSrc.toNat = (w.toNat >>> 16) &&& 3 ∧
    (commonOf (rmOf w)).subvl.toNat = (w.toNat >>> 14) &&& 3 ∧ (extraOf (rmOf w)).toNat = (w.toNat >>> 5) &&& 0x1FF ∧
    (commonOf (rmOf w)).mode.toNat = w.toNat &&& 0x1F)

/-- R76: the category of the suffix alone says how EXTRA is split, and the seven splits, each field `(RM >> s) & mask`, as the
decoder gives them and as execution reads them. R4, R193, R195: every mapping a suffix ISA can give names one sub-field of its category
for each operand; a load or store has the category of its class, by its sources and destinations; one sub-field serves a read and a
write only outside RM-1P-2S1D (R184) and, of a load, only as Rsrc1 of RM-2P-2S1D (R188) or Rsrc of RM-2P-1S2D (R189); the instructions of
the rows of R195 have their rows, by their Power ISA words (log entry 4). A load with displacement and update whose RA is one operand, read
and written, is in RM-2P-1S2D and in no other category. A store with update, which R195 does not list, has the category the suffix ISA gives it, RM-1P-2S1D or RM-2P-2S1D (R194). Of the reference
suffix ISA the categories are those of the table of R195, of its stores with update those of R194. -/
def Obligations.ExtraSplitsByCategory : Prop :=
  (∀ (isa : SuffixIsa) (w0 w1 : Word32) (rest : List Word32) (cat : Category), classify w0 = .svp64 →
    categoryOf isa w1 = some cat → decodeWords isa (w0 :: w1 :: rest) = .ok (splitInstr cat (rmOf w0) w1)) ∧
  (∀ (rm : Rm) (w : Word32),
    let f1 := fun s => BitVec.ofNat 1 (rm.toNat >>> s)
    let f2 := fun s => BitVec.ofNat 2 (rm.toNat >>> s)
    let f3 := fun s => BitVec.ofNat 3 (rm.toNat >>> s)
    let e2 := fun s => some (SubValue.extra2 (f2 s))
    let e3 := fun s => some (SubValue.extra3 (f3 s))
    splitInstr .rm1P3S1D rm w = .rm1P3S1D (commonOf rm) (f2 12) (f2 10) (f2 8) (f2 6) (f1 5) w ∧
    splitInstr .rm1P2S1D rm w = .rm1P2S1D (commonOf rm) (f3 11) (f3 8) (f3 5) w ∧
    splitInstr .rm2P1S1D rm w = .rm2P1S1D (commonOf rm) (f3 11) (f3 8) (f3 5) w ∧
    splitInstr .rm2P2S rm w = .rm2P2S (commonOf rm) (f3 11) (f3 8) (f3 5) w ∧
    splitInstr .rm2P2S1D rm w = .rm2P2S1D (commonOf rm) (f2 12) (f2 10) (f2 8) (f3 5) w ∧
    splitInstr .rm2P1S2D rm w = .rm2P1S2D (commonOf rm) (f2 12) (f2 10) (f2 8) (f3 5) w ∧
    splitInstr .rm2P3S rm w = .rm2P3S (commonOf rm) (f2 12) (f2 10) (f2 8) (f3 5) w ∧
    extra2ModeOf rm = f1 5 ∧ maskSrcOf rm = f3 5 ∧
    [SubField.rdest, .rsrc1, .rsrc2, .rsrc3].map (subField .rm1P3S1D rm) = [e2 12, e2 10, e2 8, e2 6] ∧
    [SubField.rdest, .rsrc1, .rsrc2].map (subField .rm1P2S1D rm) = [e3 11, e3 8, e3 5] ∧
    [SubField.rdest, .rsrc1].map (subField .rm2P1S1D rm) = [e3 11, e3 8] ∧
    [SubField.rsrc1, .rsrc2].map (subField .rm2P2S rm) = [e3 11, e3 8] ∧
    [SubField.rdest, .rsrc1, .rsrc2].map (subField .rm2P2S1D rm) = [e2 12, e2 10, e2 8] ∧
    [SubField.rsrc1, .rdest, .rdest2].map (subField .rm2P1S2D rm) = [e2 12, e2 10, e2 8] ∧
    [SubField.rsrc1, .rsrc2, .rsrc3].map (subField .rm2P3S rm) = [e2 12, e2 10, e2 8]) ∧
  (∀ (isa : SuffixIsa) (ins : Suffix) (m : RmMap), isa.mapping ins = some m →
    isa.rmCategory ins = some m ∧ m.subs.length = ins.slots.length ∧ m.subs.Nodup ∧
    (∀ f ∈ m.subs, ∀ rm, (subField m.cat rm f).isSome = true) ∧
    (∀ e ∈ m.subs.zip ins.slots,
      if e.1 = .rdest ∨ e.1 = .rdest2 then e.2.writes = true ∧ e.2.reads = false else e.2.reads = true) ∧
    (ins.cls = .ldst →
      let sources := ins.slots.countP Slot.reads
      let dests := ins.slots.countP Slot.writes
      (ins.isStore = true → dests = 0 → (sources = 2 → m.cat = .rm2P2S) ∧ (sources = 3 → m.cat = .rm2P3S)) ∧
      (ins.isStore = false → (sources = 2 → dests = 1 ∨ dests = 2 → m.cat = .rm2P2S1D) ∧
        (sources = 1 → dests = 2 → m.cat = .rm2P1S2D))) ∧
    (∀ e ∈ m.subs.zip ins.slots, e.2.reads = true → e.2.writes = true → m.cat ≠ .rm1P2S1D ∧
      (ins.cls = .ldst → ins.isStore = false → (m.cat = .rm2P2S1D ∨ m.cat = .rm2P1S2D) ∧ e.1 = .rsrc1))) ∧
  (∀ (isa : SuffixIsa) (ins : Suffix) (m : RmMap) (k : LoadKind) (l : StoreKind) (t a b d x : BitVec 5) (n : BitVec 16) (rc : Bool),
    isa.mapping ins = some m →
    let row := fun (op : ScalarOp) (cat : Category) (l : List (SubField × Slot)) =>
      op.valid = true → ins.word = op.word → m.cat = cat ∧ ∀ e ∈ l, e ∈ m.subs.zip ins.slots
    row (.maddld t a b d) .rm1P3S1D
      [(.rdest, dstSlot .gpr t), (.rsrc1, srcSlot .gpr a), (.rsrc2, srcSlot .gpr b), (.rsrc3, srcSlot .gpr d)] ∧
    row (.fmadd t a b d rc) .rm1P3S1D [(.rdest, dstSlot .fpr t)] ∧
    row (.isel t a b d) .rm1P3S1D [(.rdest, dstSlot .gpr t), (.rsrc3, srcSlot .crBit d)] ∧
    row (.maddedu t a b d) .rm1P3S1D [] ∧ row (.divmod2du t a b d) .rm1P3S1D [] ∧
    row (.add t a b rc) .rm1P2S1D [(.rdest, dstSlot .gpr t), (.rsrc1, srcSlot .gpr a), (.rsrc2, srcSlot .gpr b)] ∧
    row (.rlwimi a t b d x rc) .rm1P2S1D [(.rsrc1, srcSlot .gpr t), (.rsrc2, srcSlot .gpr a), (.rdest, dstSlot .gpr a)] ∧
    row (.store l false t a n) .rm2P2S [] ∧ row (.storeX l false t a b) .rm2P3S [] ∧
    row (.loadX k true t a b) .rm2P2S1D
      [(.rdest, dstSlot k.file t), (.rsrc1, ⟨.gpr, a, true, true⟩), (.rsrc2, srcSlot .gpr b)] ∧
    row (.loadX k false t a b) .rm2P2S1D [] ∧ row (.load k true t a n) .rm2P1S2D []) ∧
  (∀ (isa : SuffixIsa) (k : LoadKind) (t a : BitVec 5) (n : BitVec 16) (cat : Category), (ScalarOp.load k true t a n).valid = true →
    let op := ScalarOp.load k true t a n
    let ins : Suffix := { op.suffix op.word with slots := [dstSlot k.file t, ⟨.gpr, a, true, true⟩] }
    isa.rmCategory ins = some ⟨cat, [.rdest, .rsrc1]⟩ →
      isa.mapping ins = if cat = .rm2P1S2D then some ⟨.rm2P1S2D, [.rdest, .rsrc1]⟩ else none) ∧
  (∀ (isa : SuffixIsa) (l : StoreKind) (t a : BitVec 5) (n : BitVec 16), (ScalarOp.store l true t a n).valid = true →
    let ins := (ScalarOp.store l true t a n).suffix (ScalarOp.store l true t a n).word
    ∀ cat ∈ [Category.rm1P2S1D, .rm2P2S1D], isa.rmCategory ins = some ⟨cat, [.rdest, .rsrc1, .rsrc2]⟩ →
      isa.mapping ins = some ⟨cat, [.rdest, .rsrc1, .rsrc2]⟩) ∧
  ∀ (k : LoadKind) (l : StoreKind) (u : Bool) (t a b d x : BitVec 5) (n : BitVec 16) (rc : Bool),
    let cat := fun op : ScalarOp => categoryOf referenceIsa op.word
    cat (.maddld t a b d) = some .rm1P3S1D ∧ cat (.fmadd t a b d rc) = some .rm1P3S1D ∧ cat (.isel t a b d) = some .rm1P3S1D ∧
    cat (.maddedu t a b d) = some .rm1P3S1D ∧ cat (.divmod2du t a b d) = some .rm1P3S1D ∧
    cat (.add t a b rc) = some .rm1P2S1D ∧ cat (.rlwimi t a b d x rc) = some .rm1P2S1D ∧
    ((ScalarOp.store l false t a n).valid = true → cat (.store l false t a n) = some .rm2P2S) ∧
    ((ScalarOp.storeX l false t a b).valid = true → cat (.storeX l false t a b) = some .rm2P3S) ∧
    ((ScalarOp.loadX k u t a b).valid = true → cat (.loadX k u t a b) = some .rm2P2S1D) ∧
    ((ScalarOp.load k true t a n).valid = true → cat (.load k true t a n) = some .rm2P1S2D) ∧
    ((ScalarOp.store l true t a n).valid = true → cat (.store l true t a n) = some .rm1P2S1D) ∧
    ((ScalarOp.storeX l true t a b).valid = true → cat (.storeX l true t a b) = some .rm1P3S1D)

/-- The length rule and the opcode map (R71, R72, R77, R79), by row and column. Which cell of rows 010, 110 and 111 is taken is
the model's choice (PRESUMED, log entry 9). -/
def Obligations.OpcodeMapClassifiesFirstWords : Prop :=
  (∀ w : Word32, classify w = .unprefixed ↔ w.toNat >>> 26 ≠ 1) ∧
  ∀ (row col : BitVec 3) (rest : BitVec 20),
    classify (1#6 ++ row ++ col ++ rest) =
      if row.getLsbD 1 && col.getLsbD 2 then .svp64
      else if row = 0#3 then .v31 .ls8
      else if row = 1#3 then .v31 .row001
      else if row = 4#3 then .v31 .row100
      else if row = 5#3 then .v31 .row101
      else if row = 3#3 then .unallocated .c011
      else if row = 2#3 then
        if col = 0#3 then .v31 .rr8
        else .unallocated (if col = 1#3 then .c010001 else if col = 2#3 then .c010010 else .c010011)
      else if row = 6#3 then
        if col = 0#3 then .v31 .mrr
        else .unallocated (if col = 1#3 then .c110001 else if col = 2#3 then .c110010 else .c110011)
      else
        if col = 1#3 then .v31 .mmirr
        else .unallocated (if col = 0#3 then .c111000 else if col = 2#3 then .c111010 else .c111011)

/-- Words written out from the encodings of the spec (95_test_vectors.md parts 2.1, 2.4, 2.6) decode to their instructions. -/
def Obligations.WordsOfTheSpecDecode : Prop :=
  decodeWords referenceIsa [0x05602400#32, 0x7C221A14#32] =
    .ok (.rm1P2S1D ⟨0#1, 2#3, 0#2, 0#2, 0#2, 0#5⟩ 4#3 4#3 0#3 (ScalarOp.add 1#5 2#5 3#5 false).word) ∧
  decodeWords referenceIsa [0x05402D00#32, 0x10221933#32] =
    .ok (.rm1P3S1D ⟨0#1, 0#3, 0#2, 0#2, 0#2, 0#5⟩ 2#2 3#2 1#2 0#2 0#1 (ScalarOp.maddld 1#5 2#5 3#5 4#5).word) ∧
  decodeWords referenceIsa [0x05402460#32, 0x7CC50774#32] =
    .ok (.rm2P1S1D ⟨0#1, 0#3, 0#2, 0#2, 0#2, 0#5⟩ 4#3 4#3 3#3 (ScalarOp.extsb 5#5 6#5 false).word) ∧
  decodeWords referenceIsa [0x07402800#32, 0x7D242800#32] =
    .ok (.rm1P2S1D ⟨1#1, 0#3, 0#2, 0#2, 0#2, 0#5⟩ 5#3 0#3 0#3 (ScalarOp.cmp 2#3 true 4#5 5#5).word) ∧
  decodeWords referenceIsa [0x04000000#32, 0x00000000#32] = .ok (.ext01_8LS 0#23 0#32) ∧
  decodeWords referenceIsa [0x05800000#32] = .ok (.ext01_unallocated_011 0#22) ∧
  decodeWords referenceIsa [0x05100000#32] = .ok (.ext01_unallocated_010001 0#20) ∧
  decodeWords referenceIsa [0x7C221A14#32] = .error (.unprefixed 0x7C221A14#32)

/-- R51: `word(b0, b1, b2, b3)` in both byte orders, applied to each word on its own, the prefix the word at the lower address. R4: one
parameter says the byte order of instruction fetch and of data, whatever it is; what the loads and stores of the reference suffix ISA
(log entry 4) make of bytes, and bytes of registers, in either order. -/
def Obligations.BytesMakeWordsInEitherOrder : Prop :=
  (∀ b0 b1 b2 b3 : Byte,
    (wordOfBytes true b0 b1 b2 b3).toNat = b0.toNat <<< 24 ||| b1.toNat <<< 16 ||| b2.toNat <<< 8 ||| b3.toNat ∧
    (wordOfBytes false b0 b1 b2 b3).toNat = b3.toNat <<< 24 ||| b2.toNat <<< 16 ||| b1.toNat <<< 8 ||| b0.toNat) ∧
  (∀ (be : Bool) (w0 w1 : Word32), wordsOfBytes be (bytesOfWord be w0 ++ bytesOfWord be w1) = [w0, w1]) ∧
  (∀ (be : Bool) (s : State) (a : DWord) (b0 b1 b2 b3 : Byte), readByte s a = some b0 → readByte s (a + 1#64) = some b1 →
    readByte s (a + 2#64) = some b2 → readByte s (a + 3#64) = some b3 → readWord be s a = .ok (wordOfBytes be b0 b1 b2 b3)) ∧
  (∀ (be : Bool) (s : State) (x : DWord) (w : Word32) (t a : BitVec 5) (d : BitVec 16),
    let p : Params := { machine with bigEndian := be }
    let ea := (if a = 0#5 then 0#64 else readGpr s (reg a.toNat)) + d.signExtend 64
    (readWord be s x = .ok w → fetchWord p s x = .ok w) ∧
    (s.mode = .bits64 → executeUnprefixed p (ScalarOp.store .stw false t a d).word s = .next (setCia
      (applyWrites s (storeBytes ea (bytesOfWord be ((readGpr s (reg t.toNat)).extractLsb' 0 32)))) (s.cia + 4#64))) ∧
    (s.mode = .bits64 → readWord be s ea = .ok w →
      executeUnprefixed p (ScalarOp.load .lwz false t a d).word s =
        .next (setCia (writeGpr s (reg t.toNat) (w.zeroExtend 64)) (s.cia + 4#64)))) ∧
  (∀ (be : Bool) (b0 b1 b2 b3 b4 b5 b6 b7 : Byte),
    let half := fun be : Bool => if be then b0 ++ b1 else b1 ++ b0
    let word := fun be => wordOfBytes be b0 b1 b2 b3
    let dword := fun be : Bool => if be then wordOfBytes be b0 b1 b2 b3 ++ wordOfBytes be b4 b5 b6 b7
      else wordOfBytes be b4 b5 b6 b7 ++ wordOfBytes be b0 b1 b2 b3
    let value := fun k : LoadKind => k.value be ([b0, b1, b2, b3, b4, b5, b6, b7].take k.width)
    value .lbz = b0.zeroExtend 64 ∧ value .lhz = (half be).zeroExtend 64 ∧ value .lha = (half be).signExtend 64 ∧
    value .lwz = (word be).zeroExtend 64 ∧ value .lwa = (word be).signExtend 64 ∧ value .ld = dword be ∧
    value .lhbr = (half (!be)).zeroExtend 64 ∧ value .lwbr = (word (!be)).zeroExtend 64 ∧ value .ldbr = dword (!be) ∧
    value .lfs = singleToDouble (word be) ∧ value .lfd = dword be ∧ value .lfiwa = (word be).signExtend 64 ∧
    value .lfiwz = (word be).zeroExtend 64) ∧
  ∀ (be : Bool) (v : DWord),
    let half := fun be : Bool => if be then [v.extractLsb' 8 8, v.extractLsb' 0 8] else [v.extractLsb' 0 8, v.extractLsb' 8 8]
    let word := fun be => bytesOfWord be (v.extractLsb' 0 32)
    let dword := fun be : Bool => if be then bytesOfWord be (v.extractLsb' 32 32) ++ bytesOfWord be (v.extractLsb' 0 32)
      else bytesOfWord be (v.extractLsb' 0 32) ++ bytesOfWord be (v.extractLsb' 32 32)
    let bytes := fun k : StoreKind => k.bytes be v
    bytes .stb = [v.extractLsb' 0 8] ∧ bytes .sth = half be ∧ bytes .stw = word be ∧ bytes .std = dword be ∧
    bytes .sthbr = half (!be) ∧ bytes .stwbr = word (!be) ∧ bytes .stdbr = dword (!be) ∧
    bytes .stfs = bytesOfWord be (doubleToSingle v) ∧ bytes .stfd = dword be ∧ bytes .stfiw = word be

/-! ### State, memory and the step -/

/-- The values of `State.reset`: all the model's own choice, log entries 1 and 2; the spec gives none (R38, R300). -/
def Obligations.ResetHoldsTheNamedValues : Prop :=
  (∀ n, readGpr State.reset n = 0#64 ∧ readFpr State.reset n = 0#64 ∧ readCr State.reset n = 0#4) ∧
  (∀ a, readByte State.reset a = none) ∧ State.reset.cia = 0#64 ∧ State.reset.vl = 0 ∧ State.reset.svstate.rest = [] ∧
  State.reset.mode = .bits64 ∧ State.reset.xer = 0#64 ∧ State.reset.lr = 0#64 ∧ State.reset.ctr = 0#64 ∧
  State.reset.fpscr = 0#64 ∧ State.reset.own = []

/-- The invariant holds right after reset. -/
def Obligations.ResetMeetsTheInvariant : Prop := State.reset.Inv

/-- Every step keeps the invariant: memory and the suffix ISA's own registers stay in canonical form, and `CIA` a multiple of 4
(R28, R53), whatever the free values of Config are, and for every value of the open parameters (R4). -/
def Obligations.EveryStepKeepsTheInvariant : Prop :=
  (∀ s u : State, s.Inv → step s = .next u → u.Inv) ∧
  ∀ (p : Params) (s u : State), s.Inv → stepFor p s = .next u → u.Inv

/-- Memory (R7, R28, R50): bytes stored are read back, addresses modulo 2^64, every other byte is as before, the canonical form is
kept, and two canonical memories that read alike are equal. -/
def Obligations.MemoryReadsWhatWasWrittenLast : Prop :=
  (∀ (s : State) (a : DWord) (bs : List Byte), bs.length ≤ 18446744073709551616 →
    readBytes (applyWrites s (storeBytes a bs)) bs.length a = .ok bs) ∧
  (∀ (s : State) (a x : DWord) (bs : List Byte), ¬bytesAt a bs.length x →
    readByte (applyWrites s (storeBytes a bs)) x = readByte s x) ∧
  (∀ (s : State) (a : DWord) (bs : List Byte), Memory.wf s.mem = true →
    Memory.wf (applyWrites s (storeBytes a bs)).mem = true) ∧
  (∀ s t : State, Memory.wf s.mem = true → Memory.wf t.mem = true → (∀ a, readByte s a = readByte t a) → s.mem = t.mem)

/-- The three register files are flat: no aliases, inside a file or between files (R20, R23, R25); one bit of a CR field is
written alone (R26). -/
def Obligations.RegisterFilesAreFlat : Prop :=
  ∀ (s : State) (n m : RegNum),
    (∀ v, readGpr (writeGpr s n v) m = (if m = n then v else readGpr s m) ∧ readFpr (writeGpr s n v) m = readFpr s m ∧
      readCr (writeGpr s n v) m = readCr s m) ∧
    (∀ v, readFpr (writeFpr s n v) m = (if m = n then v else readFpr s m) ∧ readGpr (writeFpr s n v) m = readGpr s m ∧
      readCr (writeFpr s n v) m = readCr s m) ∧
    (∀ v, readCr (writeCr s n v) m = (if m = n then v else readCr s m) ∧ readGpr (writeCr s n v) m = readGpr s m ∧
      readFpr (writeCr s n v) m = readFpr s m) ∧
    (∀ b c v, crFieldBit (readCr (writeCrBit s n b v) m) c = if m = n ∧ c = b then v else crFieldBit (readCr s m) c)

/-- A step runs the decoded instruction (R52, R100, R250): one word for an empty cell of the map, two words for the others, an
unprefixed word by the suffix ISA. An SVP64 pair must not cross a 64-byte block (R54); that a prefixed instruction of another class
may is the model's reading of R54 (DEDUCED, log entry 11). It does so for every value of the open parameters (R4), of which `machine` is
the one that `step` and `exec` are for. -/
def Obligations.StepRunsTheDecodedInstruction : Prop :=
  (∀ (s : State) (w0 : Word32), s.ciaAligned = true → readWord Config.bigEndian s s.cia = .ok w0 →
    (∀ i, decodeWords referenceIsa [w0] = .ok i → step s = exec i s) ∧
    (∀ w1 i, (classify w0 = .svp64 → s.cia.toNat % 64 ≠ 60) → readWord Config.bigEndian s (s.cia + 4#64) = .ok w1 →
      decodeWords referenceIsa [w0, w1] = .ok i → step s = exec i s) ∧
    (decodeWords referenceIsa [w0] = .error (.unprefixed w0) → step s = executeUnprefixed machine w0 s)) ∧
  (∀ (i : Instr) (s : State), exec i s = execFor machine i s ∧ step s = stepFor machine s) ∧
  ∀ (p : Params) (s : State) (w0 : Word32), s.ciaAligned = true → fetchWord p s s.cia = .ok w0 →
    (∀ i, decodeWords p.suffixes [w0] = .ok i → stepFor p s = execFor p i s) ∧
    (∀ w1 i, (classify w0 = .svp64 → s.cia.toNat % 64 ≠ 60) → fetchWord p s (s.cia + 4#64) = .ok w1 →
      decodeWords p.suffixes [w0, w1] = .ok i → stepFor p s = execFor p i s) ∧
    (decodeWords p.suffixes [w0] = .error (.unprefixed w0) → stepFor p s = executeUnprefixed p w0 s)

/-- R54: an SVP64 prefix at `CIA mod 64 == 60` is refused, whatever the second word is or whether it is there (R273). -/
def Obligations.StepRefusesAPairAcrossA64ByteBoundary : Prop :=
  ∀ (s : State) (w0 : Word32), s.cia.toNat % 64 = 60 → readWord Config.bigEndian s s.cia = .ok w0 → classify w0 = .svp64 →
    step s = .refused .crosses64ByteBoundary

/-- The faults of fetching, in the order of R273 (1), (2), (4), "reported at `CIA` of the first word" (R286): the first word absent; an
empty cell of the map traps with no second word fetched (R79); the second word of a 64-bit instruction absent (R100). The suffix
ISA's own fetch faults (no execute permission, R58, R286) are those of any `Params`; that they come before absent memory is log
entry 28. That a misaligned `CIA` is a fault, before the first read, is the model's choice (log entry 27), and that only an SVP64 pair
is refused at a 64-byte boundary its reading of R54 (log entry 11). -/
def Obligations.FetchFaultsComeInOrder : Prop :=
  ∀ s : State,
    (s.ciaAligned = false → step s = .fault .misalignedCia) ∧
    (∀ x, s.ciaAligned = true → readWord Config.bigEndian s s.cia = .error x →
      step s = .fault (.fetchTrap s.cia (.fetchAbsent x) s)) ∧
    (∀ w0 cell, s.ciaAligned = true → readWord Config.bigEndian s s.cia = .ok w0 → classify w0 = .unallocated cell →
      step s = .fault (.illegalInstruction ⟨s.cia, w0, none, .unallocatedPrefix⟩ s)) ∧
    (∀ w0 x, s.ciaAligned = true → readWord Config.bigEndian s s.cia = .ok w0 →
      decodeWords referenceIsa [w0] = .error (.noSecondWord w0) → (classify w0 = .svp64 → s.cia.toNat % 64 ≠ 60) →
      readWord Config.bigEndian s (s.cia + 4#64) = .error x → step s = .fault (.fetchTrap s.cia (.fetchAbsent x) s)) ∧
    (∀ (p : Params) (t : SuffixTrap), s.ciaAligned = true →
      (p.fetchTrap s s.cia = some t → fetchNext p s = .stopped (.fault (.fetchTrap s.cia t s))) ∧
      (∀ w0, p.fetchTrap s s.cia = none → readWord p.bigEndian s s.cia = .ok w0 →
        decodeWords p.suffixes [w0] = .error (.noSecondWord w0) → (classify w0 = .svp64 → s.cia.toNat % 64 ≠ 60) →
        p.fetchTrap s (s.cia + 4#64) = some t → fetchNext p s = .stopped (.fault (.fetchTrap s.cia t s))))

/-! ### Register numbers -/

/-- R212, R213: the rows of the INT/FP tables, for GPR and FPR operands alike: the tag and the number, from the field. -/
def Obligations.IntAndFpNumbersFollowTheirTables : Prop :=
  ∀ (f : BitVec 5) (r w : Bool) (k : RegKind), k = .gpr ∨ k = .fpr →
    let row := fun v => ((resolve ⟨k, f, r, w⟩ v).vector, (resolve ⟨k, f, r, w⟩ v).base)
    [0#3, 1#3, 2#3, 3#3, 4#3, 5#3, 6#3, 7#3].map (fun v => row (.extra3 v)) =
      [(false, f.toNat), (false, 32 + f.toNat), (false, 64 + f.toNat), (false, 96 + f.toNat),
        (true, 4 * f.toNat), (true, 4 * f.toNat + 1), (true, 4 * f.toNat + 2), (true, 4 * f.toNat + 3)] ∧
    [0#2, 1#2, 2#2, 3#2].map (fun v => row (.extra2 v)) =
      [(false, f.toNat), (false, 32 + f.toNat), (true, 4 * f.toNat), (true, 4 * f.toNat + 2)]

/-- R215 to R218: the rows of the four CR tables. A 5-bit operand with field part `f` and bit part `b` gives the CR bit number
`4 * field + b`, a 3-bit operand the field number. -/
def Obligations.CrNumbersFollowTheirTables : Prop :=
  ∀ (f : BitVec 3) (b : BitVec 2) (r w : Bool),
    let n := f.toNat
    let bitRow := fun v => ((resolve ⟨.crBit, f ++ b, r, w⟩ v).vector, (resolve ⟨.crBit, f ++ b, r, w⟩ v).register 0)
    let fieldRow := fun v =>
      ((resolve ⟨.crField, f.zeroExtend 5, r, w⟩ v).vector, (resolve ⟨.crField, f.zeroExtend 5, r, w⟩ v).register 0)
    let bit := fun e : Bool × Nat => (e.1, 4 * e.2 + b.toNat)
    let extra3Rows := [(false, n), (false, 8 + n), (false, 16 + n), (false, 24 + n),
      (true, 16 * n), (true, 16 * n + 4), (true, 16 * n + 8), (true, 16 * n + 12)]
    let extra2Rows := [(false, n), (false, 8 + n), (true, 16 * n), (true, 16 * n + 8)]
    [0#3, 1#3, 2#3, 3#3, 4#3, 5#3, 6#3, 7#3].map (fun v => bitRow (.extra3 v)) = extra3Rows.map bit ∧
    [0#3, 1#3, 2#3, 3#3, 4#3, 5#3, 6#3, 7#3].map (fun v => fieldRow (.extra3 v)) = extra3Rows ∧
    [0#2, 1#2, 2#2, 3#2].map (fun v => bitRow (.extra2 v)) = extra2Rows.map bit ∧
    [0#2, 1#2, 2#2, 3#2].map (fun v => fieldRow (.extra2 v)) = extra2Rows

/-- R220: a sub-field of 0 leaves any operand scalar with its own number, for every element. -/
def Obligations.ZeroSubFieldLeavesTheOperandUnextended : Prop :=
  ∀ (slot : Slot) (i : Nat), ∀ v ∈ [SubValue.extra2 0#2, SubValue.extra3 0#3],
    (resolve slot v).vector = false ∧ (resolve slot v).register i = slot.ownNumber

/-- R222: a scalar operand names one register for every element; a vector steps by one register or one CR field, and of a CR bit
number only the field part steps. -/
def Obligations.VectorOperandsStepByOne : Prop :=
  ∀ (slot : Slot) (v : SubValue) (i : Nat),
    ((resolve slot v).vector = false → (resolve slot v).register i = (resolve slot v).register 0) ∧
    ((resolve slot v).vector = true → slot.kind ≠ .crBit → (resolve slot v).register i = (resolve slot v).register 0 + i) ∧
    ((resolve slot v).vector = true → slot.kind = .crBit →
      (resolve slot v).register i / 4 = (resolve slot v).register 0 / 4 + i ∧
      (resolve slot v).register i % 4 = (slot.field.extractLsb' 0 2).toNat)

/-! ### Predication -/

/-- R160 (with R26, R151, R152, R155): the complete enable function, in numbers. -/
def Obligations.EnabledIsTheCompleteFunction : Prop :=
  ∀ (s : State) (sel : BitVec 3) (i : Nat),
    let inv := sel.toNat % 2 == 1
    (sel = 0#3 → enabled s 0#1 sel i = true) ∧
    (sel = 1#3 → enabled s 0#1 sel i = decide (i = (readGpr s 3).toNat)) ∧
    (2 ≤ sel.toNat → i < 64 →
      let r := if sel.toNat / 2 = 1 then readGpr s 3 else if sel.toNat / 2 = 2 then readGpr s 10 else readGpr s 30
      enabled s 0#1 sel i = (((r.toNat >>> i) &&& 1 == 1) != inv)) ∧
    (32 + i ≤ 127 → enabled s 1#1 sel i = ((((readCr s (reg (32 + i))).toNat >>> (3 - sel.toNat / 2)) &&& 1 == 1) != inv))

/-- R153: `1 << R3` enables exactly the element whose index is r3, compared whole; at r3 ≥ VL the instruction only advances the
program counter. Here for `sv.add`. -/
def Obligations.OneHotMaskEnablesOneElement : Prop :=
  ∀ (c : CommonRm) (rd ra rb : BitVec 3) (t a b : BitVec 5) (s : State),
    s.mode = .bits64 → vlLegal s → plain c = true → c.maskmode = 0#1 → c.mask = 1#3 →
    ((SubValue.extra3 rd).isVector = true ∨ s.vl = 1) →
    let k := (readGpr s 3).toNat
    (s.vl ≤ k → exec (.rm1P2S1D c rd ra rb (ScalarOp.add t a b false).word) s = .next (setCia s (s.cia + 8#64))) ∧
    (k < s.vl → regNo t (.extra3 rd) k ≤ 127 → regNo a (.extra3 ra) k ≤ 127 → regNo b (.extra3 rb) k ≤ 127 →
      exec (.rm1P2S1D c rd ra rb (ScalarOp.add t a b false).word) s = .next (setCia
        (writeGpr s (reg (regNo t (.extra3 rd) k))
          (readGpr s (reg (regNo a (.extra3 ra) k)) + readGpr s (reg (regNo b (.extra3 rb) k)))) (s.cia + 8#64)))

/-- The bounds on VL (R30, R154, R156), for `sv.add`: beyond `VL_MAX`, whatever it is (R4; log entry 6 says what it is in `machine`);
an integer bit-test mask with VL > 64; a CR mask past CR127. -/
def Obligations.LengthsBeyondTheirBoundsAreRefused : Prop :=
  ∀ (c : CommonRm) (rd ra rb : BitVec 3) (t a b : BitVec 5) (s : State), plain c = true →
    let i := Instr.rm1P2S1D c rd ra rb (ScalarOp.add t a b false).word
    (∀ m, m < s.vl → execFor { machine with vlMax := m } i s = .refused .vlAboveMax) ∧
    (Config.vlMax < s.vl → exec i s = .refused .vlAboveMax) ∧
    (vlLegal s → (SubValue.extra3 rd).isVector = true → c.maskmode = 0#1 → c.mask ≠ 0#3 → c.mask ≠ 1#3 → 64 < s.vl →
      exec i s = .refused .integerPredicateBeyond63) ∧
    (vlLegal s → (SubValue.extra3 rd).isVector = true → c.maskmode = 1#1 → 96 < s.vl →
      exec i s = .refused .crPredicatePast127)

/-! ### A prefixed instruction as a whole -/

/-- R103, R108: a pair split by the category of its suffix runs as its two words do. -/
def Obligations.ASplitPairRunsAsItsWords : Prop :=
  ∀ (i : Instr) (rm : Rm) (w : Word32) (s : State), i.wf = true → i.rm? = some rm → i.secondWord? = some w →
    exec i s = exec (.svp64Prefix rm w) s

/-- R242: at VL = 0 every pair that passes R108 steps 1 to 7 is a nop, whatever its prefix and its suffix: nothing is read or
written, and `NIA = CIA + 8`. -/
def Obligations.VlZeroIsANop : Prop :=
  ∀ (rm : Rm) (w : Word32) (q : Pair) (s : State), s.vl = 0 → identify machine none rm w s = .ok q →
    reservedCause q = none → valueStop q = none → exec (.svp64Prefix rm w) s = .next (setCia s (s.cia + 8#64))

/-- R241: with `RM = 0` and VL = 1 the pair does what the unprefixed suffix does, its trap included, within the reach of an unprefixed
instruction, read (`scalarView`) and written (`scalarReach`) (R22; log entry 20); only its length is 8. `maddedu` and `divmod2du`
(R182) and SVP64 SPRs (R31) have rules of their own. -/
def Obligations.ScalarIdentityActsAsTheUnprefixedInstruction : Prop :=
  ∀ (w : Word32) (ins : Suffix) (s : State), s.vl = 1 → primary w ≠ 1#6 → referenceDecode w = some ins →
    referenceIsa.mapping ins ≠ none → ins.implicitRs = false → (∀ x, ins.spr = some x → referenceIsSvSpr x.num = false) →
    (∀ ws target, referenceExec1 Config.bigEndian ins (identityMap ins) (scalarView s) = .done ws target →
      executeUnprefixed machine w s = .next (setCia (applyWrites s (scalarReach ws)) (nextAddress s 4#64 target)) ∧
      exec (.svp64Prefix 0#24 w) s = .next (setCia (applyWrites s (scalarReach ws)) (nextAddress s 8#64 target))) ∧
    (∀ x, referenceExec1 Config.bigEndian ins (identityMap ins) (scalarView s) = .trap x →
      executeUnprefixed machine w s = .fault (.suffixTrap 0 x s) ∧
      exec (.svp64Prefix 0#24 w) s = .fault (.suffixTrap 0 x s))

/-- R241, R251, R253, R60: under scalar identity an Rc=1 form records in CR0, a CR operation and a load or store do what they do
unprefixed, a branch goes to a target computed from the prefix word's address, a fence only advances, and LR, XER and CTR, which
are no SVP64 SPRs (PRESUMED, log entry 8), are moved to and from a register. -/
def Obligations.ScalarIdentityAdmitsEveryClass : Prop :=
  ∀ (t a b : BitVec 5) (d : BitVec 16) (fn : CrLogic) (bf bfa : BitVec 3) (li : BitVec 24) (s : State),
    s.mode = .bits64 → s.vl = 1 → s.ciaAligned = true →
    let r := fun n : BitVec 5 => reg n.toNat
    let sum := readGpr s (r a) + readGpr s (r b)
    let nia := s.cia + 8#64
    let bit := fun n : BitVec 5 => crFieldBit (readCr s (reg (n.toNat / 4))) (n.extractLsb' 0 2).toFin
    let ea := (if a = 0#5 then 0#64 else readGpr s (r a)) + d.signExtend 64
    exec (.svp64Prefix 0#24 (ScalarOp.add t a b true).word) s =
      .next (setCia (writeCr (writeGpr s (r t) sum) 0 (crOfResult s sum)) nia) ∧
    exec (.svp64Prefix 0#24 (ScalarOp.crlogic fn t a b).word) s =
      .next (setCia (writeCrBit s (reg (t.toNat / 4)) (t.extractLsb' 0 2).toFin (crLogicBit fn (bit a) (bit b))) nia) ∧
    exec (.svp64Prefix 0#24 (ScalarOp.mcrf bf bfa).word) s =
      .next (setCia (writeCr s (reg bf.toNat) (readCr s (reg bfa.toNat))) nia) ∧
    exec (.svp64Prefix 0#24 (ScalarOp.store .stw false t a d).word) s =
      .next (setCia (applyWrites s (storeBytes ea (bytesOfWord Config.bigEndian ((readGpr s (r t)).extractLsb' 0 32)))) nia) ∧
    (∀ w, readWord Config.bigEndian s ea = .ok w →
      exec (.svp64Prefix 0#24 (ScalarOp.load .lwz false t a d).word) s = .next (setCia (writeGpr s (r t) (w.zeroExtend 64)) nia)) ∧
    exec (.svp64Prefix 0#24 (ScalarOp.branch li false).word) s = .next (setCia s (s.cia + (li ++ 0#2).signExtend 64)) ∧
    exec (.svp64Prefix 0#24 (ScalarOp.branch li true).word) s = .next (setCia s ((li ++ 0#2).signExtend 64)) ∧
    exec (.svp64Prefix 0#24 ScalarOp.sync.word) s = .next (setCia s nia) ∧
    exec (.svp64Prefix 0#24 (ScalarOp.mtspr 1#10 a).word) s = .next (setCia { s with xer := readGpr s (r a) } nia) ∧
    exec (.svp64Prefix 0#24 (ScalarOp.mtspr 8#10 a).word) s = .next (setCia { s with lr := readGpr s (r a) } nia) ∧
    exec (.svp64Prefix 0#24 (ScalarOp.mtspr 9#10 a).word) s = .next (setCia { s with ctr := readGpr s (r a) } nia) ∧
    exec (.svp64Prefix 0#24 (ScalarOp.mfspr t 1#10).word) s = .next (setCia (writeGpr s (r t) s.xer) nia) ∧
    exec (.svp64Prefix 0#24 (ScalarOp.mfspr t 8#10).word) s = .next (setCia (writeGpr s (r t) s.lr) nia) ∧
    exec (.svp64Prefix 0#24 (ScalarOp.mfspr t 9#10).word) s = .next (setCia (writeGpr s (r t) s.ctr) nia)

/-- R249: `NIA = CIA + 8` for every SVP64 instruction that gives a next state; the only other value is a branch target under scalar
identity. -/
def Obligations.PrefixedInstructionsAdvanceByEight : Prop :=
  ∀ (i : Instr) (rm : Rm) (w : Word32) (s u : State), i.rm? = some rm → i.secondWord? = some w → exec i s = .next u →
    u.cia = s.cia + 8#64 ∨
    (rm = 0#24 ∧ s.vl = 1 ∧ ∃ ins ws target, referenceDecode w = some ins ∧
      referenceExec1 Config.bigEndian ins (identityMap ins) (scalarView s) = .done ws (some target) ∧ u.cia = alignTarget target)

/-- R30, R26, for every suffix ISA: an SVP64 instruction changes nothing but by the writes of its suffix's scalar executions, and the
program counter. So VL, SVSTATE and CR change only where the suffix writes them. Over a suffix the reference writes out (log
entry 4) neither VL, SVSTATE nor the mode changes, nor, unless the suffix names one, a special register of the suffix ISA; one whose
suffix neither names a CR operand nor has Rc=1 changes no CR field. -/
def Obligations.ThePrefixNeverWritesVlOrCr : Prop :=
  (∀ (p : Params) (want : Option Category) (rm : Rm) (w : Word32) (s u : State), executePrefixed p want rm w s = .next u →
    ∃ ins ws, p.suffixes.decode w = some ins ∧
      (∀ x ∈ ws, ∃ regs t vs target, p.run ins regs t = .done vs target ∧ x ∈ vs) ∧
      u = setCia (applyWrites s ws) u.cia) ∧
  (∀ (p : Params) (want : Option Category) (rm : Rm) (w : Word32) (ins : Suffix) (s u : State),
    executePrefixed p want rm w s = .next u → p.suffixes.decode w = some ins →
    ((∀ regs t vs target v, p.run ins regs t = .done vs target → Write.svstate v ∉ vs) → u.svstate = s.svstate) ∧
    ((∀ regs t vs target, p.run ins regs t = .done vs target → vs.filterMap Write.crField? = []) → u.cr = s.cr)) ∧
  ∀ (i : Instr) (op : ScalarOp) (s u : State), s.mode = .bits64 → op.valid = true → op.spr = none → i.rm? ≠ none →
    i.secondWord? = some op.word → exec i s = .next u →
    u.svstate = s.svstate ∧ u.mode = s.mode ∧ u.own = s.own ∧ u.xer = s.xer ∧ u.lr = s.lr ∧ u.ctr = s.ctr ∧
    (op.rc = false → (∀ sl ∈ op.slots, sl.kind ≠ .crField ∧ sl.kind ≠ .crBit) → u.cr = s.cr)

/-! ### Traps -/

/-- R270, R272: the illegal instruction trap is precise, for every instruction: it carries the state before the instruction, `CIA`,
and the two words (one for an empty cell). -/
def Obligations.TheIllegalInstructionTrapIsPrecise : Prop :=
  ∀ (i : Instr) (s t : State) (r : IllegalRecord), exec i s = .fault (.illegalInstruction r t) →
    t = s ∧ r.cia = s.cia ∧ r.w0 = i.firstWord ∧ r.w1 = i.secondWord?

/-- R102, R103, R108 steps 1 to 3, for every suffix ISA: a suffix that is an EXT01 word is refused, one the suffix ISA finds illegal
traps for the pair, one without a category is refused, and so is one whose mapping R181 to R195 exclude (R4, log entry 29). R107: a pair
that passes these and the reserved fields, with values the hardware does not implement, traps with cause 5, where VL is not 0 or
reserved values trap at VL = 0. -/
def Obligations.SuffixesWithoutAMeaningStop : Prop :=
  ∀ (p : Params) (rm : Rm) (w : Word32) (s : State),
    exec (.svp64Prefix rm w) s = executePrefixed machine none rm w s ∧
    (primary w = 1#6 → executePrefixed p none rm w s = .refused .suffixIsPrefixWord) ∧
    (primary w ≠ 1#6 → p.suffixes.decode w = none → executePrefixed p none rm w s =
      .fault (.illegalInstruction ⟨s.cia, prefixWord rm, some w, .illegalSuffix⟩ s)) ∧
    (∀ ins, primary w ≠ 1#6 → p.suffixes.decode w = some ins →
      (p.suffixes.rmCategory ins = none ∨ ∃ m, p.suffixes.rmCategory ins = some m ∧ m.fits ins = false) →
      executePrefixed p none rm w s = .refused .noRmCategory) ∧
    (∀ q, identify p none rm w s = .ok q → reservedCause q = none → p.hwSupports rm q.map.cat = false →
      (s.vl ≠ 0 ∨ p.vl0ChecksReserved = true) →
      executePrefixed p none rm w s = .fault (.illegalInstruction ⟨s.cia, prefixWord rm, some w, .unsupported⟩ s))

/-- R79, R271 cause 1, R272: every empty cell of the opcode map raises the illegal instruction trap, in every state. -/
def Obligations.UnallocatedPrefixesTrap : Prop :=
  ∀ (x : BitVec 20) (y : BitVec 22) (s : State),
    ∀ i ∈ [Instr.ext01_unallocated_011 y, .ext01_unallocated_010001 x, .ext01_unallocated_010010 x,
        .ext01_unallocated_010011 x, .ext01_unallocated_110001 x, .ext01_unallocated_110010 x, .ext01_unallocated_110011 x,
        .ext01_unallocated_111000 x, .ext01_unallocated_111010 x, .ext01_unallocated_111011 x],
      exec i s = .fault (.illegalInstruction ⟨s.cia, i.firstWord, none, .unallocatedPrefix⟩ s)

/-- R79, R243: a prefixed instruction of another class is handed to the suffix ISA, whatever VL is. It completes with the free effect
of log entry 9 (the model's choice, D23 also lets it trap), at `CIA + 8` or a branch target, and reaches r0 to r31, fp0 to fp31
and CR0 to CR7 only, read or written. In a row the source's map does not print it is "otherwise illegal" (R79): for every suffix ISA
that has no such instruction; the machine's has one unless the second word is an EXT01 word, where it is free (log entry 9). -/
def Obligations.OtherPrefixClassesComplete : Prop :=
  (∀ (x : BitVec 20) (y : BitVec 23) (w1 : Word32) (s : State),
    let completed := fun i : Instr =>
      .next (setCia (applyWrites s (scalarReach (Config.v31Writes Config.bigEndian i.firstWord w1 (scalarView s))))
        (nextAddress s 8#64 (Config.v31Target Config.bigEndian i.firstWord w1 (scalarView s))))
    (∀ i ∈ [Instr.ext01_8LS y w1, .ext01_8RR x w1, .ext01_MRR x w1, .ext01_MMIRR x w1], exec i s = completed i) ∧
    (∀ i ∈ [Instr.ext01_row100 y w1, .ext01_row001 y w1, .ext01_row101 y w1],
      exec i s = executeUnprinted machine i.firstWord w1 s ∧ (primary w1 ≠ 1#6 → exec i s = completed i))) ∧
  (∀ (p : Params) (w0 w1 : Word32) (s : State),
    executeUnprinted p w0 w1 s =
      if p.hasUnprinted w0 w1 then executeV31 p w0 w1 s
      else .fault (.illegalInstruction ⟨s.cia, w0, some w1, .unallocatedPrefix⟩ s)) ∧
  (∀ (p : Params) (w0 w1 : Word32) (s u : State), executeV31 p w0 w1 s = .next u →
    (∀ n : RegNum, 32 ≤ n.val → readGpr u n = readGpr s n ∧ readFpr u n = readFpr s n) ∧
    (∀ n : RegNum, 8 ≤ n.val → readCr u n = readCr s n))

/-- R22, R28, R243: an unprefixed instruction reaches the low registers only, read or written, and runs whatever VL is: two states that
differ in the registers above alone have outcomes that differ there alone; `add` writes the sum and advances by 4. -/
def Obligations.UnprefixedInstructionsAreNotInfluenced : Prop :=
  (∀ (w : Word32) (s u : State), executeUnprefixed machine w s = .next u →
    (∀ n : RegNum, 32 ≤ n.val → readGpr u n = readGpr s n ∧ readFpr u n = readFpr s n) ∧
    (∀ n : RegNum, 8 ≤ n.val → readCr u n = readCr s n)) ∧
  (∀ (w : Word32) (s t u : State), scalarView s = scalarView t → executeUnprefixed machine w s = .next u →
    ∃ v, executeUnprefixed machine w t = .next v ∧ scalarView u = scalarView v) ∧
  (∀ (t a b : BitVec 5) (s : State), s.mode = .bits64 →
    executeUnprefixed machine (ScalarOp.add t a b false).word s = .next (setCia
      (writeGpr s (reg t.toNat) (readGpr s (reg a.toNat) + readGpr s (reg b.toNat))) (s.cia + 4#64)))

/-- R124, R125, R271 causes 2 and 3, R273 (8): the reserved FP widths trap in ELWIDTH and in ELWIDTH_SRC, ELWIDTH first, at every VL
(at VL = 0 by D14 and the parameter of log entry 17) and whatever the other fields are. Where cause 2 and cause 3 both apply, bf16 on
`fadds`, the trap carries one of the two: which is the model's order (log entry 11) and is not stated (U28). `fmadd` does not end
in 's': f16 is refused for it, not trapped. -/
def Obligations.ReservedFpWidthsTrap : Prop :=
  ∀ (c : CommonRm) (rd r1 r2 : BitVec 3) (t a b : BitVec 5) (d e f g : BitVec 2) (y : BitVec 1) (x : BitVec 5) (s : State),
    let single := Instr.rm1P2S1D c rd r1 r2 (ScalarOp.fadds t a b false).word
    let double := Instr.rm1P3S1D c d e f g y (ScalarOp.fmadd t a x b false).word
    let traps := fun (i : Instr) (cause : IllegalCause) =>
      exec i s = .fault (.illegalInstruction ⟨s.cia, i.firstWord, i.secondWord?, cause⟩ s)
    (c.elwidth = 3#2 →
      (∃ cause ∈ [IllegalCause.reservedElwidth .elwidth, .narrowSingle .elwidth 3#2], traps single cause) ∧
      traps double (.reservedElwidth .elwidth)) ∧
    (c.elwidth = 2#2 → traps single (.narrowSingle .elwidth 2#2)) ∧
    (c.elwidth ≠ 2#2 → c.elwidth ≠ 3#2 → c.elwidthSrc = 2#2 → traps single (.narrowSingle .elwidthSrc 2#2)) ∧
    (c.elwidth ≠ 2#2 → c.elwidth ≠ 3#2 → c.elwidthSrc = 3#2 →
      ∃ cause ∈ [IllegalCause.reservedElwidth .elwidthSrc, .narrowSingle .elwidthSrc 3#2], traps single cause) ∧
    (c.elwidth ≠ 3#2 → c.elwidthSrc = 3#2 → traps double (.reservedElwidth .elwidthSrc)) ∧
    (c.elwidth = 2#2 → c.elwidthSrc ≠ 3#2 → c.mode = 0#5 → c.subvl = 0#2 → y = 0#1 →
      exec double s = .refused .elwidthNotSpecified) ∧
    (c.elwidth = 1#2 → c.elwidthSrc.toNat < 2 → c.mode = 0#5 → c.subvl = 0#2 → exec single s = .refused .elwidthNotSpecified)

/-- R105, R271 cause 4, U4, at every VL (at VL = 0 by D14 and the parameter of log entry 17): a field with no use for the suffix must be
zero. A branch and a fence have no register operand, `mfspr` no source, `mtspr` no destination; which suffixes have a width for
ELWIDTH or ELWIDTH_SRC to override is log entry 13. -/
def Obligations.UnusedFieldsTrap : Prop :=
  ∀ (c : CommonRm) (rd r1 r2 : BitVec 3) (li : BitVec 24) (aa : Bool) (n : BitVec 10) (t : BitVec 5) (s : State),
    let branch := Instr.rm1P2S1D c rd r1 r2 (ScalarOp.branch li aa).word
    let fence := Instr.rm1P2S1D c rd r1 r2 ScalarOp.sync.word
    let toSpr := Instr.rm2P1S1D c rd r1 r2 (ScalarOp.mtspr n t).word
    let fromSpr := Instr.rm2P1S1D c rd r1 r2 (ScalarOp.mfspr t n).word
    let traps := fun (i : Instr) (cause : IllegalCause) =>
      exec i s = .fault (.illegalInstruction ⟨s.cia, i.firstWord, i.secondWord?, cause⟩ s)
    (c.elwidth ≠ 0#2 → ∀ i ∈ [branch, fence, toSpr], traps i (.unusedWidth .elwidth c.elwidth)) ∧
    (c.elwidth = 0#2 → c.elwidthSrc ≠ 0#2 → ∀ i ∈ [branch, fence], traps i (.unusedWidth .elwidthSrc c.elwidthSrc)) ∧
    (c.elwidthSrc ≠ 0#2 → traps fromSpr (.unusedWidth .elwidthSrc c.elwidthSrc)) ∧
    (c.elwidth = 0#2 → c.elwidthSrc = 0#2 → ∀ i ∈ [branch, fence],
      (rd ≠ 0#3 → traps i (.unusedSubField .rdest (.extra3 rd))) ∧
      (rd = 0#3 → r1 ≠ 0#3 → traps i (.unusedSubField .rsrc1 (.extra3 r1))) ∧
      (rd = 0#3 → r1 = 0#3 → r2 ≠ 0#3 → traps i (.unusedSubField .rsrc2 (.extra3 r2)))) ∧
    (c.elwidthSrc = 0#2 → r1 ≠ 0#3 → traps fromSpr (.unusedSubField .rsrc1 (.extra3 r1))) ∧
    (c.elwidth = 0#2 → rd ≠ 0#3 → traps toSpr (.unusedSubField .rdest (.extra3 rd)))

/-- R182: EXTRA2_MODE must be 0 for every suffix of RM-1P-3S1D but `maddedu` and `divmod2du`, else the trap, at every VL (at VL = 0 by
D14 and the parameter of log entry 17); those two are refused whatever the bit, before MODE and whatever VL is (DEDUCED, log
entry 11). -/
def Obligations.Extra2ModeBelongsToTwoInstructions : Prop :=
  ∀ (c : CommonRm) (rd r1 r2 r3 : BitVec 2) (y : BitVec 1) (s : State),
    (∀ (w : Word32) (ins : Suffix) (map : RmMap), primary w ≠ 1#6 → referenceDecode w = some ins →
      referenceIsa.mapping ins = some map → map.cat = .rm1P3S1D → ins.implicitRs = false → ∃ cause,
        exec (.rm1P3S1D c rd r1 r2 r3 1#1 w) s = .fault (.illegalInstruction
          ⟨s.cia, (Instr.rm1P3S1D c rd r1 r2 r3 1#1 w).firstWord, some w, cause⟩ s)) ∧
    (∀ t a b d : BitVec 5, exec (.rm1P3S1D c rd r1 r2 r3 1#1 (ScalarOp.maddld t a b d).word) s = .fault (.illegalInstruction
      ⟨s.cia, (Instr.rm1P3S1D c rd r1 r2 r3 1#1 (ScalarOp.maddld t a b d).word).firstWord,
        some (ScalarOp.maddld t a b d).word, .unusedExtra2Mode⟩ s)) ∧
    (∀ t a b d : BitVec 5,
      exec (.rm1P3S1D c rd r1 r2 r3 y (ScalarOp.maddedu t a b d).word) s = .refused .rsSelectionNotSpecified ∧
      exec (.rm1P3S1D c rd r1 r2 r3 y (ScalarOp.divmod2du t a b d).word) s = .refused .rsSelectionNotSpecified)

/-! ### Refusals -/

/-- R244 lines 1 to 3, R129, R254, R122, R126: field values without a meaning are refused, in this order, at every VL. Here for an
integer suffix, which has no reserved width, and for the CR operations, whose RM[4:7] has "other purposes"; no suffix of CR operands
alone, of any suffix ISA, traps for a width. -/
def Obligations.FieldValuesWithoutAMeaningAreRefused : Prop :=
  (∀ (c : CommonRm) (rd ra rb : BitVec 3) (t a b : BitVec 5) (fn : CrLogic) (bf bfa : BitVec 3) (s : State),
    ∀ i ∈ [Instr.rm1P2S1D c rd ra rb (ScalarOp.add t a b false).word,
        .rm1P2S1D c rd ra rb (ScalarOp.crlogic fn t a b).word, .rm2P1S1D c rd ra rb (ScalarOp.mcrf bf bfa).word],
      (c.mode ≠ 0#5 → exec i s = .refused .modeNotSpecified) ∧
      (c.mode = 0#5 → c.subvl ≠ 0#2 → exec i s = .refused .subvlNotSpecified) ∧
      (c.mode = 0#5 → c.subvl = 0#2 → (c.elwidth ≠ 0#2 ∨ c.elwidthSrc ≠ 0#2) → exec i s = .refused .elwidthNotSpecified)) ∧
  (∀ q : Pair, q.ins.slots ≠ [] → (∀ sl ∈ q.ins.slots, sl.kind = .crField ∨ sl.kind = .crBit) → q.ins.single = false →
    ∀ c ∈ widthCauses q.ins (commonOf q.rm), c = none)

/-- R244 lines 4 and 5, R251, R253: what is admitted under scalar identity only (Rc=1, branches, fences, SPR moves) and what with one
element only (loads and stores). -/
def Obligations.ClassesOutsideTheLoopAreRefused : Prop :=
  ∀ (c : CommonRm) (r1 r2 r3 m : BitVec 3) (e f g h : BitVec 2) (t a b : BitVec 5) (d : BitVec 16) (li : BitVec 24)
      (aa : Bool) (n : BitVec 10) (s : State), vlLegal s → plain c = true →
    ((s.vl ≠ 1 ∨ packRm c (r1 ++ r2 ++ r3) ≠ 0#24) →
      exec (.rm1P2S1D c r1 r2 r3 (ScalarOp.add t a b true).word) s = .refused .vectorisedRc1 ∧
      exec (.rm2P1S1D c r1 r2 r3 (ScalarOp.extsb t a true).word) s = .refused .vectorisedRc1) ∧
    ((s.vl ≠ 1 ∨ packRm c 0#9 ≠ 0#24) →
      exec (.rm1P2S1D c 0#3 0#3 0#3 (ScalarOp.branch li aa).word) s = .refused .vectorisedBranch ∧
      exec (.rm1P2S1D c 0#3 0#3 0#3 ScalarOp.sync.word) s = .refused .vectorisedSync) ∧
    ((s.vl ≠ 1 ∨ packRm c (0#3 ++ r1 ++ m) ≠ 0#24) →
      exec (.rm2P1S1D c 0#3 r1 m (ScalarOp.mtspr n t).word) s = .refused .vectorisedOther) ∧
    ((s.vl ≠ 1 ∨ packRm c (r1 ++ 0#3 ++ m) ≠ 0#24) →
      exec (.rm2P1S1D c r1 0#3 m (ScalarOp.mfspr t n).word) s = .refused .vectorisedOther) ∧
    (s.vl ≠ 1 →
      ∀ (k : LoadKind) (l : StoreKind) (u : Bool),
        ((ScalarOp.load k false t a d).valid = true →
          exec (.rm2P1S1D c r1 r2 m (ScalarOp.load k false t a d).word) s = .refused .vectorisedLdst) ∧
        ((ScalarOp.load k true t a d).valid = true →
          exec (.rm2P1S2D c e f g m (ScalarOp.load k true t a d).word) s = .refused .vectorisedLdst) ∧
        ((ScalarOp.loadX k u t a b).valid = true →
          exec (.rm2P2S1D c e f g m (ScalarOp.loadX k u t a b).word) s = .refused .vectorisedLdst) ∧
        ((ScalarOp.store l false t a d).valid = true →
          exec (.rm2P2S c r1 r2 m (ScalarOp.store l false t a d).word) s = .refused .vectorisedLdst) ∧
        ((ScalarOp.store l true t a d).valid = true →
          exec (.rm1P2S1D c r1 r2 r3 (ScalarOp.store l true t a d).word) s = .refused .vectorisedLdst) ∧
        ((ScalarOp.storeX l false t a b).valid = true →
          exec (.rm2P3S c e f g m (ScalarOp.storeX l false t a b).word) s = .refused .vectorisedLdst) ∧
        ((ScalarOp.storeX l true t a b).valid = true →
          exec (.rm1P3S1D c e f g h 0#1 (ScalarOp.storeX l true t a b).word) s = .refused .vectorisedLdst))

/-- R244 lines 6 to 8, R247 (default policy), R248, R256: a scalar destination with VL > 1; two masks with VL > 1 that are not both
ALWAYS; RA field 0 with a sub-field that is not 0. -/
def Obligations.OpenCombinationsAreRefused : Prop :=
  ∀ (c : CommonRm) (rd r1 r2 m : BitVec 3) (e f g h : BitVec 2) (t a b : BitVec 5) (d : BitVec 16) (s : State),
    vlLegal s → plain c = true →
    (s.vl ≠ 1 → (SubValue.extra3 rd).isVector = false →
      exec (.rm1P2S1D c rd r1 r2 (ScalarOp.add t a b false).word) s = .refused .scalarDestination) ∧
    (s.vl ≠ 1 → (SubValue.extra3 rd).isVector = true → twinAdmitted c m s.vl = false →
      exec (.rm2P1S1D c rd r1 m (ScalarOp.extsb t a false).word) s = .refused .twinSteppingNotSpecified) ∧
    (((SubValue.extra3 rd).isVector = true ∨ s.vl = 1) → twinAdmitted c m s.vl = true → r1 ≠ 0#3 →
      exec (.rm2P1S1D c rd r1 m (ScalarOp.addi t 0#5 d).word) s = .refused .ra0WithExtra) ∧
    (((SubValue.extra2 e).isVector = true ∨ s.vl = 1) → f ≠ 0#2 →
      exec (.rm1P3S1D c e f g h 0#1 (ScalarOp.isel t 0#5 a b).word) s = .refused .ra0WithExtra) ∧
    (s.vl = 1 → ∀ (k : LoadKind) (l : StoreKind),
      ((ScalarOp.store l false t 0#5 d).valid = true → r2 ≠ 0#3 →
        exec (.rm2P2S c rd r2 m (ScalarOp.store l false t 0#5 d).word) s = .refused .ra0WithExtra) ∧
      ((ScalarOp.storeX l false t 0#5 b).valid = true → f ≠ 0#2 →
        exec (.rm2P3S c e f g m (ScalarOp.storeX l false t 0#5 b).word) s = .refused .ra0WithExtra) ∧
      ((ScalarOp.load k false t 0#5 d).valid = true → r1 ≠ 0#3 →
        exec (.rm2P1S1D c rd r1 m (ScalarOp.load k false t 0#5 d).word) s = .refused .ra0WithExtra) ∧
      ((ScalarOp.loadX k false t 0#5 b).valid = true → f ≠ 0#2 →
        exec (.rm2P2S1D c e f g m (ScalarOp.loadX k false t 0#5 b).word) s = .refused .ra0WithExtra))

/-! ### Stops inside the loop -/

/-- R223, for `sv.add`: the first enabled element with a register number past 127 is refused, with the state the elements before it
leave; a disabled element cannot run off the end. -/
def Obligations.ARegisterPast127StopsAtItsElement : Prop :=
  ∀ (c : CommonRm) (rd ra rb : BitVec 3) (t a b : BitVec 5) (s : State) (k : Nat),
    s.mode = .bits64 → vlLegal s → plain c = true → maskReadable c.maskmode c.mask s.vl = true →
    ((SubValue.extra3 rd).isVector = true ∨ s.vl = 1) → k < s.vl → singleMask s c k = true →
    (127 < regNo t (.extra3 rd) k ∨ 127 < regNo a (.extra3 ra) k ∨ 127 < regNo b (.extra3 rb) k) →
    (∀ i, i < k → singleMask s c i = true →
      regNo t (.extra3 rd) i ≤ 127 ∧ regNo a (.extra3 ra) i ≤ 127 ∧ regNo b (.extra3 rb) i ≤ 127) →
    exec (.rm1P2S1D c rd ra rb (ScalarOp.add t a b false).word) s = .refused (.registerPast127 k
      (overElements k (singleMask s c)
        (fun i u => writeGpr u (reg (regNo t (.extra3 rd) i))
          (readGpr u (reg (regNo a (.extra3 ra) i)) + readGpr u (reg (regNo b (.extra3 rb) i)))) s))

/-- R159, R285, for `sv.cmp` under CR predication: the first enabled element that would write the predicate field of an element not
yet executed raises the UNDEFINED fault, with the state the elements before it leave. -/
def Obligations.OverwritingALaterPredicateIsAFault : Prop :=
  ∀ (c : CommonRm) (rd ra rb bf : BitVec 3) (a b : BitVec 5) (s : State) (k : Nat),
    s.mode = .bits64 → vlLegal s → plain c = true → c.maskmode = 1#1 → s.vl ≤ 96 →
    ((SubValue.extra3 rd).isVector = true ∨ s.vl = 1) → k < s.vl → singleMask s c k = true →
    32 + k < crNo bf (.extra3 rd) k → crNo bf (.extra3 rd) k < 32 + s.vl →
    (∀ i, i ≤ k → singleMask s c i = true →
      crNo bf (.extra3 rd) i ≤ 127 ∧ regNo a (.extra3 ra) i ≤ 127 ∧ regNo b (.extra3 rb) i ≤ 127) →
    (∀ i, i < k → singleMask s c i = true → crNo bf (.extra3 rd) i ≤ 32 + i ∨ 32 + s.vl ≤ crNo bf (.extra3 rd) i) →
    exec (.rm1P2S1D c rd ra rb (ScalarOp.cmp bf true a b).word) s = .fault (.undefinedCRPredicateOverwrite k
      (overElements k (singleMask s c)
        (fun i u => writeCr u (reg (crNo bf (.extra3 rd) i))
          (crOfCompare u (readGpr u (reg (regNo a (.extra3 ra) i))).toInt (readGpr u (reg (regNo b (.extra3 rb) i))).toInt)) s))

/-- R252, R286, for every scalar execution `x` of the suffix ISA, the machine's own included, on an operand form of three
registers: a trap in element `k` ends the instruction there, with the results of the elements before it. Under scalar identity the one
element sees what an unprefixed instruction can read (R22; log entry 20). -/
def Obligations.AFaultInsideAnElementKeepsTheEarlierOnes : Prop :=
  ∀ (x : Suffix → List Nat → State → ScalarResult) (ws : Nat → State → List Write) (c : CommonRm) (rd r1 r2 : BitVec 3)
      (t a b : BitVec 5) (s : State) (k : Nat) (trap : SuffixTrap),
    vlLegal s → plain c = true → maskReadable c.maskmode c.mask s.vl = true →
    ((SubValue.extra3 rd).isVector = true ∨ s.vl = 1) → k < s.vl → singleMask s c k = true →
    let word := (ScalarOp.fadds t a b false).word
    let sees := fun u => if packRm c (rd ++ r1 ++ r2) = 0#24 ∧ s.vl = 1 then scalarView u else u
    let element := fun i u => x ((ScalarOp.fadds t a b false).suffix word)
      [regNo t (.extra3 rd) i, regNo a (.extra3 r1) i, regNo b (.extra3 r2) i] (sees u)
    let after := fun n => overElements n (singleMask s c) (fun i u => applyWrites u (ws i u)) s
    (∀ i, i ≤ k → singleMask s c i = true →
      regNo t (.extra3 rd) i ≤ 127 ∧ regNo a (.extra3 r1) i ≤ 127 ∧ regNo b (.extra3 r2) i ≤ 127) →
    (∀ i, i < k → singleMask s c i = true → element i (after i) = .done (ws i (after i)) none ∧
      (ws i (after i)).filterMap Write.crField? = []) →
    element k (after k) = .trap trap →
    executePrefixed { machine with exec1 := fun _ => x } (some .rm1P2S1D) (packRm c (rd ++ r1 ++ r2)) word s =
      .fault (.suffixTrap k trap (after k))

/-- R31, R33, R271 cause 6, for every choice of which SPRs are SVP64 SPRs, of what they hold and of which values are supported: under
scalar identity and unprefixed, an access with a supported value is refused, one with an unsupported value is an illegal instruction.
The value written is the register's, the value read is the one the SPR holds in the state. -/
def Obligations.SvSprAccessesNeverComplete : Prop :=
  ∀ (p : Params) (n : BitVec 10) (t : BitVec 5) (s : State), p.suffixes = referenceIsa →
    (∀ rm cat, p.hwSupports rm cat = true) → 1 ≤ p.vlMax → p.isSvSpr n = true → s.vl = 1 →
    let write := (ScalarOp.mtspr n t).word
    let read := (ScalarOp.mfspr t n).word
    let outcome := fun (w0 : Word32) (w1 : Option Word32) (v : Option DWord) =>
      if p.svSprValueOk n v then Host.Outcome.refused Refusal.svstateAccess
      else .fault (Fault.illegalInstruction ⟨s.cia, w0, w1, .svSprValue n⟩ s)
    executePrefixed p none 0#24 write s = outcome (prefixWord 0#24) (some write) (some (readGpr s (reg t.toNat))) ∧
    executePrefixed p none 0#24 read s = outcome (prefixWord 0#24) (some read) (some (p.svSprHeld n s.svstate)) ∧
    executeUnprefixed p write s = outcome write none (some (readGpr s (reg t.toNat))) ∧
    executeUnprefixed p read s = outcome read none (some (p.svSprHeld n s.svstate))
end

