-- ==== Sys2Proof/Laws/PerInstr.lean ====
section
/-! SUPPORT. The per-instruction family FixedBits: the first word of every instruction has the fixed bits of its row of
spec/opcode_table.json (R72, R77). -/

namespace Sys2Proof
namespace Laws

/-- The mask of an instruction's row of the opcode table. -/
def rowMask : Instr → Word32
  | .svp64Prefix _ _ => 0xFD400000#32
  | .rm1P3S1D _ _ _ _ _ _ _ => 0xFD400000#32
  | .rm1P2S1D _ _ _ _ _ => 0xFD400000#32
  | .rm2P1S1D _ _ _ _ _ => 0xFD400000#32
  | .rm2P2S _ _ _ _ _ => 0xFD400000#32
  | .rm2P2S1D _ _ _ _ _ _ => 0xFD400000#32
  | .rm2P1S2D _ _ _ _ _ _ => 0xFD400000#32
  | .rm2P3S _ _ _ _ _ _ => 0xFD400000#32
  | .ext01_8LS _ _ => 0xFF800000#32
  | .ext01_8RR _ _ => 0xFFF00000#32
  | .ext01_MRR _ _ => 0xFFF00000#32
  | .ext01_MMIRR _ _ => 0xFFF00000#32
  | .ext01_row100 _ _ => 0xFF800000#32
  | .ext01_row001 _ _ => 0xFF800000#32
  | .ext01_row101 _ _ => 0xFF800000#32
  | .ext01_unallocated_011 _ => 0xFFC00000#32
  | .ext01_unallocated_010001 _ => 0xFFF00000#32
  | .ext01_unallocated_010010 _ => 0xFFF00000#32
  | .ext01_unallocated_010011 _ => 0xFFF00000#32
  | .ext01_unallocated_110001 _ => 0xFFF00000#32
  | .ext01_unallocated_110010 _ => 0xFFF00000#32
  | .ext01_unallocated_110011 _ => 0xFFF00000#32
  | .ext01_unallocated_111000 _ => 0xFFF00000#32
  | .ext01_unallocated_111010 _ => 0xFFF00000#32
  | .ext01_unallocated_111011 _ => 0xFFF00000#32

/-- The fixed bits of an instruction's row of the opcode table. -/
def rowMatch : Instr → Word32
  | .svp64Prefix _ _ => 0x05400000#32
  | .rm1P3S1D _ _ _ _ _ _ _ => 0x05400000#32
  | .rm1P2S1D _ _ _ _ _ => 0x05400000#32
  | .rm2P1S1D _ _ _ _ _ => 0x05400000#32
  | .rm2P2S _ _ _ _ _ => 0x05400000#32
  | .rm2P2S1D _ _ _ _ _ _ => 0x05400000#32
  | .rm2P1S2D _ _ _ _ _ _ => 0x05400000#32
  | .rm2P3S _ _ _ _ _ _ => 0x05400000#32
  | .ext01_8LS _ _ => 0x04000000#32
  | .ext01_8RR _ _ => 0x05000000#32
  | .ext01_MRR _ _ => 0x07000000#32
  | .ext01_MMIRR _ _ => 0x07900000#32
  | .ext01_row100 _ _ => 0x06000000#32
  | .ext01_row001 _ _ => 0x04800000#32
  | .ext01_row101 _ _ => 0x06800000#32
  | .ext01_unallocated_011 _ => 0x05800000#32
  | .ext01_unallocated_010001 _ => 0x05100000#32
  | .ext01_unallocated_010010 _ => 0x05200000#32
  | .ext01_unallocated_010011 _ => 0x05300000#32
  | .ext01_unallocated_110001 _ => 0x07100000#32
  | .ext01_unallocated_110010 _ => 0x07200000#32
  | .ext01_unallocated_110011 _ => 0x07300000#32
  | .ext01_unallocated_111000 _ => 0x07800000#32
  | .ext01_unallocated_111010 _ => 0x07A00000#32
  | .ext01_unallocated_111011 _ => 0x07B00000#32

/-- A word is an SVP64 prefix word's fixed bits under the mask of R72. -/
theorem prefixWord_fixed (rm : Rm) : prefixWord rm &&& 0xFD400000#32 = 0x05400000#32 := by
  apply BitVec.eq_of_getLsbD_eq
  intro i hi
  simp only [prefixWord, BitVec.getLsbD_and, BitVec.getLsbD_append]
  interval_cases i <;> simp

/-- The first word has the fixed bits of the instruction's row. -/
def FixedBits.Statement (i : Instr) : Prop := i.firstWord &&& rowMask i = rowMatch i

theorem FixedBits.svp64Prefix (rm : Rm) (suffix : Word32) :
    FixedBits.Statement (.svp64Prefix rm suffix) :=
  prefixWord_fixed _

theorem FixedBits.rm1P3S1D (c : CommonRm) (rdest rsrc1 rsrc2 rsrc3 : BitVec 2) (extra2Mode : BitVec 1) (suffix : Word32) :
    FixedBits.Statement (.rm1P3S1D c rdest rsrc1 rsrc2 rsrc3 extra2Mode suffix) :=
  prefixWord_fixed _

theorem FixedBits.rm1P2S1D (c : CommonRm) (rdest rsrc1 rsrc2 : BitVec 3) (suffix : Word32) :
    FixedBits.Statement (.rm1P2S1D c rdest rsrc1 rsrc2 suffix) :=
  prefixWord_fixed _

theorem FixedBits.rm2P1S1D (c : CommonRm) (rdest rsrc1 maskSrc : BitVec 3) (suffix : Word32) :
    FixedBits.Statement (.rm2P1S1D c rdest rsrc1 maskSrc suffix) :=
  prefixWord_fixed _

theorem FixedBits.rm2P2S (c : CommonRm) (rsrc1 rsrc2 maskSrc : BitVec 3) (suffix : Word32) :
    FixedBits.Statement (.rm2P2S c rsrc1 rsrc2 maskSrc suffix) :=
  prefixWord_fixed _

theorem FixedBits.rm2P2S1D (c : CommonRm) (rdest rsrc1 rsrc2 : BitVec 2) (maskSrc : BitVec 3) (suffix : Word32) :
    FixedBits.Statement (.rm2P2S1D c rdest rsrc1 rsrc2 maskSrc suffix) :=
  prefixWord_fixed _

theorem FixedBits.rm2P1S2D (c : CommonRm) (rsrc rdest1 rdest2 : BitVec 2) (maskSrc : BitVec 3) (suffix : Word32) :
    FixedBits.Statement (.rm2P1S2D c rsrc rdest1 rdest2 maskSrc suffix) :=
  prefixWord_fixed _

theorem FixedBits.rm2P3S (c : CommonRm) (rsrc1 rsrc2 rsrc3 : BitVec 2) (maskSrc : BitVec 3) (suffix : Word32) :
    FixedBits.Statement (.rm2P3S c rsrc1 rsrc2 rsrc3 maskSrc suffix) :=
  prefixWord_fixed _

theorem FixedBits.ext01_8LS (payload : BitVec 23) (second : Word32) :
    FixedBits.Statement (.ext01_8LS payload second) := by
  simp only [FixedBits.Statement, Instr.firstWord, rowMask, rowMatch]
  apply BitVec.eq_of_getLsbD_eq
  intro i hi
  simp only [BitVec.getLsbD_and, BitVec.getLsbD_append]
  interval_cases i <;> simp

theorem FixedBits.ext01_8RR (payload : BitVec 20) (second : Word32) :
    FixedBits.Statement (.ext01_8RR payload second) := by
  simp only [FixedBits.Statement, Instr.firstWord, rowMask, rowMatch]
  apply BitVec.eq_of_getLsbD_eq
  intro i hi
  simp only [BitVec.getLsbD_and, BitVec.getLsbD_append]
  interval_cases i <;> simp

theorem FixedBits.ext01_MRR (payload : BitVec 20) (second : Word32) :
    FixedBits.Statement (.ext01_MRR payload second) := by
  simp only [FixedBits.Statement, Instr.firstWord, rowMask, rowMatch]
  apply BitVec.eq_of_getLsbD_eq
  intro i hi
  simp only [BitVec.getLsbD_and, BitVec.getLsbD_append]
  interval_cases i <;> simp

theorem FixedBits.ext01_MMIRR (payload : BitVec 20) (second : Word32) :
    FixedBits.Statement (.ext01_MMIRR payload second) := by
  simp only [FixedBits.Statement, Instr.firstWord, rowMask, rowMatch]
  apply BitVec.eq_of_getLsbD_eq
  intro i hi
  simp only [BitVec.getLsbD_and, BitVec.getLsbD_append]
  interval_cases i <;> simp

theorem FixedBits.ext01_row100 (payload : BitVec 23) (second : Word32) :
    FixedBits.Statement (.ext01_row100 payload second) := by
  simp only [FixedBits.Statement, Instr.firstWord, rowMask, rowMatch]
  apply BitVec.eq_of_getLsbD_eq
  intro i hi
  simp only [BitVec.getLsbD_and, BitVec.getLsbD_append]
  interval_cases i <;> simp

theorem FixedBits.ext01_row001 (payload : BitVec 23) (second : Word32) :
    FixedBits.Statement (.ext01_row001 payload second) := by
  simp only [FixedBits.Statement, Instr.firstWord, rowMask, rowMatch]
  apply BitVec.eq_of_getLsbD_eq
  intro i hi
  simp only [BitVec.getLsbD_and, BitVec.getLsbD_append]
  interval_cases i <;> simp

theorem FixedBits.ext01_row101 (payload : BitVec 23) (second : Word32) :
    FixedBits.Statement (.ext01_row101 payload second) := by
  simp only [FixedBits.Statement, Instr.firstWord, rowMask, rowMatch]
  apply BitVec.eq_of_getLsbD_eq
  intro i hi
  simp only [BitVec.getLsbD_and, BitVec.getLsbD_append]
  interval_cases i <;> simp

theorem FixedBits.ext01_unallocated_011 (payload : BitVec 22) :
    FixedBits.Statement (.ext01_unallocated_011 payload) := by
  simp only [FixedBits.Statement, Instr.firstWord, rowMask, rowMatch]
  apply BitVec.eq_of_getLsbD_eq
  intro i hi
  simp only [BitVec.getLsbD_and, BitVec.getLsbD_append]
  interval_cases i <;> simp

theorem FixedBits.ext01_unallocated_010001 (payload : BitVec 20) :
    FixedBits.Statement (.ext01_unallocated_010001 payload) := by
  simp only [FixedBits.Statement, Instr.firstWord, rowMask, rowMatch]
  apply BitVec.eq_of_getLsbD_eq
  intro i hi
  simp only [BitVec.getLsbD_and, BitVec.getLsbD_append]
  interval_cases i <;> simp

theorem FixedBits.ext01_unallocated_010010 (payload : BitVec 20) :
    FixedBits.Statement (.ext01_unallocated_010010 payload) := by
  simp only [FixedBits.Statement, Instr.firstWord, rowMask, rowMatch]
  apply BitVec.eq_of_getLsbD_eq
  intro i hi
  simp only [BitVec.getLsbD_and, BitVec.getLsbD_append]
  interval_cases i <;> simp

theorem FixedBits.ext01_unallocated_010011 (payload : BitVec 20) :
    FixedBits.Statement (.ext01_unallocated_010011 payload) := by
  simp only [FixedBits.Statement, Instr.firstWord, rowMask, rowMatch]
  apply BitVec.eq_of_getLsbD_eq
  intro i hi
  simp only [BitVec.getLsbD_and, BitVec.getLsbD_append]
  interval_cases i <;> simp

theorem FixedBits.ext01_unallocated_110001 (payload : BitVec 20) :
    FixedBits.Statement (.ext01_unallocated_110001 payload) := by
  simp only [FixedBits.Statement, Instr.firstWord, rowMask, rowMatch]
  apply BitVec.eq_of_getLsbD_eq
  intro i hi
  simp only [BitVec.getLsbD_and, BitVec.getLsbD_append]
  interval_cases i <;> simp

theorem FixedBits.ext01_unallocated_110010 (payload : BitVec 20) :
    FixedBits.Statement (.ext01_unallocated_110010 payload) := by
  simp only [FixedBits.Statement, Instr.firstWord, rowMask, rowMatch]
  apply BitVec.eq_of_getLsbD_eq
  intro i hi
  simp only [BitVec.getLsbD_and, BitVec.getLsbD_append]
  interval_cases i <;> simp

theorem FixedBits.ext01_unallocated_110011 (payload : BitVec 20) :
    FixedBits.Statement (.ext01_unallocated_110011 payload) := by
  simp only [FixedBits.Statement, Instr.firstWord, rowMask, rowMatch]
  apply BitVec.eq_of_getLsbD_eq
  intro i hi
  simp only [BitVec.getLsbD_and, BitVec.getLsbD_append]
  interval_cases i <;> simp

theorem FixedBits.ext01_unallocated_111000 (payload : BitVec 20) :
    FixedBits.Statement (.ext01_unallocated_111000 payload) := by
  simp only [FixedBits.Statement, Instr.firstWord, rowMask, rowMatch]
  apply BitVec.eq_of_getLsbD_eq
  intro i hi
  simp only [BitVec.getLsbD_and, BitVec.getLsbD_append]
  interval_cases i <;> simp

theorem FixedBits.ext01_unallocated_111010 (payload : BitVec 20) :
    FixedBits.Statement (.ext01_unallocated_111010 payload) := by
  simp only [FixedBits.Statement, Instr.firstWord, rowMask, rowMatch]
  apply BitVec.eq_of_getLsbD_eq
  intro i hi
  simp only [BitVec.getLsbD_and, BitVec.getLsbD_append]
  interval_cases i <;> simp

theorem FixedBits.ext01_unallocated_111011 (payload : BitVec 20) :
    FixedBits.Statement (.ext01_unallocated_111011 payload) := by
  simp only [FixedBits.Statement, Instr.firstWord, rowMask, rowMatch]
  apply BitVec.eq_of_getLsbD_eq
  intro i hi
  simp only [BitVec.getLsbD_and, BitVec.getLsbD_append]
  interval_cases i <;> simp

end Laws
end Sys2Proof
end

