-- ==== Sys2Proof/Laws/Encoding.lean ====
section
/-! SUPPORT. The fields of `RM`, of the prefix word and of the first words of the other rows: packing and reading back. -/

namespace Sys2Proof

/-! ### `RM` -/

/-- The common fields read back (R74). -/
theorem commonOf_packRm (c : CommonRm) (e : BitVec 9) : commonOf (packRm c e) = c := by
  obtain ⟨mm, m, ew, es, sv, mo⟩ := c
  simp only [commonOf, packRm, CommonRm.mk.injEq]
  refine ⟨?_, ?_, ?_, ?_, ?_, ?_⟩ <;> (ext i hi; simp [BitVec.getElem_extractLsb']; grind)

/-- EXTRA reads back (R74). -/
theorem extraOf_packRm (c : CommonRm) (e : BitVec 9) : extraOf (packRm c e) = e := by
  simp only [extraOf, packRm]
  ext i hi; simp [BitVec.getElem_extractLsb']; grind

/-- The seven fields tile the 24 bits (R74). -/
theorem packRm_commonOf (rm : Rm) : packRm (commonOf rm) (extraOf rm) = rm := by
  simp only [extraOf, packRm, commonOf]
  ext i hi; simp; grind

/-- Three EXTRA3 sub-fields, or two and a source mask, read back (R76). -/
theorem extra3_packRm (c : CommonRm) (x y z : BitVec 3) :
    (packRm c (x ++ y ++ z)).extractLsb' 11 3 = x ∧ (packRm c (x ++ y ++ z)).extractLsb' 8 3 = y ∧
      (packRm c (x ++ y ++ z)).extractLsb' 5 3 = z := by
  simp only [packRm]
  refine ⟨?_, ?_, ?_⟩ <;> (ext i hi; simp [BitVec.getElem_extractLsb']; grind)

/-- Four EXTRA2 sub-fields and EXTRA2_MODE read back (R76). -/
theorem extra2Mode_packRm (c : CommonRm) (x y z u : BitVec 2) (m : BitVec 1) :
    (packRm c (x ++ y ++ z ++ u ++ m)).extractLsb' 12 2 = x ∧ (packRm c (x ++ y ++ z ++ u ++ m)).extractLsb' 10 2 = y ∧
      (packRm c (x ++ y ++ z ++ u ++ m)).extractLsb' 8 2 = z ∧ (packRm c (x ++ y ++ z ++ u ++ m)).extractLsb' 6 2 = u ∧
      (packRm c (x ++ y ++ z ++ u ++ m)).extractLsb' 5 1 = m := by
  simp only [packRm]
  refine ⟨?_, ?_, ?_, ?_, ?_⟩ <;> (ext i hi; simp [BitVec.getElem_extractLsb']; grind)

/-- Three EXTRA2 sub-fields and a source mask read back (R76). -/
theorem extra2Mask_packRm (c : CommonRm) (x y z : BitVec 2) (m : BitVec 3) :
    (packRm c (x ++ y ++ z ++ m)).extractLsb' 12 2 = x ∧ (packRm c (x ++ y ++ z ++ m)).extractLsb' 10 2 = y ∧
      (packRm c (x ++ y ++ z ++ m)).extractLsb' 8 2 = z ∧ (packRm c (x ++ y ++ z ++ m)).extractLsb' 5 3 = m := by
  simp only [packRm]
  refine ⟨?_, ?_, ?_, ?_⟩ <;> (ext i hi; simp [BitVec.getElem_extractLsb']; grind)

/-- `RM` of its prefix word (R101). -/
theorem rmOf_prefixWord (rm : Rm) : rmOf (prefixWord rm) = rm := by
  simp only [rmOf, prefixWord]
  ext i hi; simp; grind

/-- A prefix word is an SVP64 word (R72). -/
theorem classify_prefixWord (rm : Rm) : classify (prefixWord rm) = .svp64 := by
  have h1 : primary (prefixWord rm) = 1#6 := by
    simp only [primary, prefixWord]; ext i hi; simp [BitVec.getElem_extractLsb']; grind
  have h2 : (prefixWord rm).getLsbD 24 = true := by simp only [prefixWord, BitVec.getLsbD_append]; simp
  have h3 : (prefixWord rm).getLsbD 22 = true := by simp only [prefixWord, BitVec.getLsbD_append]; simp
  simp only [classify, h1, h2, h3]; simp

/-- The classification is by the fixed bits of R72. -/
theorem classify_eq_svp64 (w : Word32) : classify w = .svp64 ↔ primary w = 1#6 ∧ w.getLsbD 24 = true ∧ w.getLsbD 22 = true := by
  unfold classify
  constructor
  · intro h
    split at h
    · cases h
    · next hp =>
      split at h
      · next hb => simp only [Bool.and_eq_true] at hb; exact ⟨Decidable.not_not.mp hp, hb.1, hb.2⟩
      · split at h <;> cases h
  · rintro ⟨hp, h24, h22⟩
    simp [hp, h24, h22]

/-- The prefix word of an SVP64 word's `RM` is the word (R101: the map is a bijection). -/
theorem prefixWord_rmOf (w : Word32) (h : classify w = .svp64) : prefixWord (rmOf w) = w := by
  obtain ⟨hp, h24, h22⟩ := (classify_eq_svp64 w).mp h
  have bit : ∀ i, i < 6 → w.getLsbD (26 + i) = (1#6).getLsbD i := by
    intro i hi
    have := congrArg (fun x : BitVec 6 => x.getLsbD i) hp
    simpa [primary, BitVec.getLsbD_extractLsb', hi] using this
  apply BitVec.eq_of_getLsbD_eq
  intro i hi
  have b0 := bit 0 (by decide)
  have b1 := bit 1 (by decide)
  have b2 := bit 2 (by decide)
  have b3 := bit 3 (by decide)
  have b4 := bit 4 (by decide)
  have b5 := bit 5 (by decide)
  simp only [prefixWord, rmOf, BitVec.getLsbD_append, BitVec.getLsbD_extractLsb']
  interval_cases i <;> simp_all

/-! ### The opcode map -/

/-- The classification reads the twelve top bits. -/
theorem classify_top (w : Word32) (k : BitVec 12) (h : w.extractLsb' 20 12 = k) : classify w = classify (k ++ 0#20) := by
  subst h
  have hp : primary (w.extractLsb' 20 12 ++ 0#20) = primary w := by
    simp only [primary]; ext i hi; simp [BitVec.getElem_extractLsb']; grind
  have hr : mapRow (w.extractLsb' 20 12 ++ 0#20) = mapRow w := by
    simp only [mapRow]; ext i hi; simp [BitVec.getElem_extractLsb']; grind
  have hc : mapCol (w.extractLsb' 20 12 ++ 0#20) = mapCol w := by
    simp only [mapCol]; ext i hi; simp [BitVec.getElem_extractLsb']; grind
  have h24 : (w.extractLsb' 20 12 ++ 0#20).getLsbD 24 = w.getLsbD 24 := by
    simp only [BitVec.getLsbD_append, BitVec.getLsbD_extractLsb']; simp
  have h22 : (w.extractLsb' 20 12 ++ 0#20).getLsbD 22 = w.getLsbD 22 := by
    simp only [BitVec.getLsbD_append, BitVec.getLsbD_extractLsb']; simp
  simp only [classify, hp, hr, hc, h24, h22]

/-- A first word given by its twelve top bits. -/
theorem classify_cell (k : BitVec 12) (x : BitVec 20) : classify (k ++ x) = classify (k ++ 0#20) := by
  refine classify_top _ _ ?_
  ext i hi; simp [BitVec.getElem_extractLsb']; grind

/-- A first word given by its nine top bits: it lies in one of eight cells. -/
theorem classify_row (k : BitVec 9) (x : BitVec 23) : ∃ c : BitVec 3, classify (k ++ x) = classify (k ++ c ++ 0#20) := by
  refine ⟨x.extractLsb' 20 3, classify_top _ _ ?_⟩
  ext i hi; simp [BitVec.getElem_extractLsb']; grind

/-- A first word given by its ten top bits: it lies in one of four cells. -/
theorem classify_half (k : BitVec 10) (x : BitVec 22) : ∃ c : BitVec 2, classify (k ++ x) = classify (k ++ c ++ 0#20) := by
  refine ⟨x.extractLsb' 20 2, classify_top _ _ ?_⟩
  ext i hi; simp [BitVec.getElem_extractLsb']; grind

/-- What the first word of each instruction is. -/
def Instr.firstKind : Instr → FirstWord
  | .ext01_8LS _ _ => .v31 .ls8
  | .ext01_8RR _ _ => .v31 .rr8
  | .ext01_MRR _ _ => .v31 .mrr
  | .ext01_MMIRR _ _ => .v31 .mmirr
  | .ext01_row100 _ _ => .v31 .row100
  | .ext01_row001 _ _ => .v31 .row001
  | .ext01_row101 _ _ => .v31 .row101
  | .ext01_unallocated_011 _ => .unallocated .c011
  | .ext01_unallocated_010001 _ => .unallocated .c010001
  | .ext01_unallocated_010010 _ => .unallocated .c010010
  | .ext01_unallocated_010011 _ => .unallocated .c010011
  | .ext01_unallocated_110001 _ => .unallocated .c110001
  | .ext01_unallocated_110010 _ => .unallocated .c110010
  | .ext01_unallocated_110011 _ => .unallocated .c110011
  | .ext01_unallocated_111000 _ => .unallocated .c111000
  | .ext01_unallocated_111010 _ => .unallocated .c111010
  | .ext01_unallocated_111011 _ => .unallocated .c111011
  | _ => .svp64

/-- The first word of an instruction is classified as the instruction's row (R79). -/
theorem classify_firstWord (i : Instr) : classify i.firstWord = i.firstKind := by
  have row : ∀ (k : BitVec 9) (x : BitVec 23) (f : FirstWord), (∀ c : BitVec 3, classify (k ++ c ++ 0#20) = f) →
      classify (k ++ x) = f := fun k x f h => by obtain ⟨c, e⟩ := classify_row k x; rw [e, h c]
  have half : ∀ (k : BitVec 10) (x : BitVec 22) (f : FirstWord), (∀ c : BitVec 2, classify (k ++ c ++ 0#20) = f) →
      classify (k ++ x) = f := fun k x f h => by obtain ⟨c, e⟩ := classify_half k x; rw [e, h c]
  cases i with
  | svp64Prefix rm w => exact classify_prefixWord _
  | rm1P3S1D c d a b e y w => exact classify_prefixWord _
  | rm1P2S1D c d a b w => exact classify_prefixWord _
  | rm2P1S1D c d a p w => exact classify_prefixWord _
  | rm2P2S c a b p w => exact classify_prefixWord _
  | rm2P2S1D c d a b p w => exact classify_prefixWord _
  | rm2P1S2D c a d f p w => exact classify_prefixWord _
  | rm2P3S c a b e p w => exact classify_prefixWord _
  | ext01_8LS x w => exact row _ _ _ (by simp only [Instr.firstKind]; decide)
  | ext01_row100 x w => exact row _ _ _ (by simp only [Instr.firstKind]; decide)
  | ext01_row001 x w => exact row _ _ _ (by simp only [Instr.firstKind]; decide)
  | ext01_row101 x w => exact row _ _ _ (by simp only [Instr.firstKind]; decide)
  | ext01_unallocated_011 x => exact half _ _ _ (by simp only [Instr.firstKind]; decide)
  | ext01_8RR x w => exact (classify_cell _ _).trans (by simp only [Instr.firstKind]; decide)
  | ext01_MRR x w => exact (classify_cell _ _).trans (by simp only [Instr.firstKind]; decide)
  | ext01_MMIRR x w => exact (classify_cell _ _).trans (by simp only [Instr.firstKind]; decide)
  | ext01_unallocated_010001 x => exact (classify_cell _ _).trans (by simp only [Instr.firstKind]; decide)
  | ext01_unallocated_010010 x => exact (classify_cell _ _).trans (by simp only [Instr.firstKind]; decide)
  | ext01_unallocated_010011 x => exact (classify_cell _ _).trans (by simp only [Instr.firstKind]; decide)
  | ext01_unallocated_110001 x => exact (classify_cell _ _).trans (by simp only [Instr.firstKind]; decide)
  | ext01_unallocated_110010 x => exact (classify_cell _ _).trans (by simp only [Instr.firstKind]; decide)
  | ext01_unallocated_110011 x => exact (classify_cell _ _).trans (by simp only [Instr.firstKind]; decide)
  | ext01_unallocated_111000 x => exact (classify_cell _ _).trans (by simp only [Instr.firstKind]; decide)
  | ext01_unallocated_111010 x => exact (classify_cell _ _).trans (by simp only [Instr.firstKind]; decide)
  | ext01_unallocated_111011 x => exact (classify_cell _ _).trans (by simp only [Instr.firstKind]; decide)

/-- The payload of a first word reads back. -/
theorem payload23 (c : BitVec 9) (x : BitVec 23) : BitVec.extractLsb' 0 23 (show Word32 from c ++ x) = x := by
  ext i hi; simp [BitVec.getElem_extractLsb']; grind

theorem payload22 (c : BitVec 10) (x : BitVec 22) : BitVec.extractLsb' 0 22 (show Word32 from c ++ x) = x := by
  ext i hi; simp [BitVec.getElem_extractLsb']; grind

theorem payload20 (c : BitVec 12) (x : BitVec 20) : BitVec.extractLsb' 0 20 (show Word32 from c ++ x) = x := by
  ext i hi; simp [BitVec.getElem_extractLsb']; grind

/-- Splitting `RM` by a category loses no bit (R76). -/
theorem splitInstr_packs (cat : Category) (rm : Rm) (w : Word32) :
    (splitInstr cat rm w).rm? = some rm ∧ (splitInstr cat rm w).secondWord? = some w := by
  refine ⟨?_, by cases cat <;> rfl⟩
  have h := packRm_commonOf rm
  simp only [extraOf] at h
  have e3 : rm.extractLsb' 11 3 ++ rm.extractLsb' 8 3 ++ rm.extractLsb' 5 3 = rm.extractLsb' 5 9 := by
    ext i hi; simp; grind
  have e2m : rm.extractLsb' 12 2 ++ rm.extractLsb' 10 2 ++ rm.extractLsb' 8 2 ++ rm.extractLsb' 6 2 ++
      rm.extractLsb' 5 1 = rm.extractLsb' 5 9 := by
    ext i hi; simp; grind
  have e2 : rm.extractLsb' 12 2 ++ rm.extractLsb' 10 2 ++ rm.extractLsb' 8 2 ++ rm.extractLsb' 5 3 =
      rm.extractLsb' 5 9 := by
    ext i hi; simp; grind
  cases cat <;> simp only [splitInstr, Instr.rm?, e3, e2m, e2, h]

/-! ### Bytes (R51) -/

/-- A word's bytes make the word, in either byte order. -/
theorem wordsOfBytes_bytesOfWord (be : Bool) (w : Word32) (rest : List Byte) :
    wordsOfBytes be (bytesOfWord be w ++ rest) = w :: wordsOfBytes be rest := by
  have hw : w.extractLsb' 24 8 ++ w.extractLsb' 16 8 ++ w.extractLsb' 8 8 ++ w.extractLsb' 0 8 = w := by
    ext i hi; simp; grind
  cases be <;> simp [bytesOfWord, wordsOfBytes, wordOfBytes, hw]

end Sys2Proof
end

