-- ==== Sys2Proof/Laws/Scalar.lean ====
section
/-! SUPPORT. The reference suffix ISA: the fields of each shape of word, that the word of an instruction decodes to it, and the
profile and category the decoder then gives. -/

namespace Sys2Proof
namespace Machine

/-! ### The fields of a word, shape by shape -/

theorem xForm_fields (p : BitVec 6) (t a b : BitVec 5) (x : BitVec 10) (r : BitVec 1) (w : Word32)
    (hw : w = p ++ t ++ a ++ b ++ x ++ r) :
    primary w = p ∧ field5 w 21 = t ∧ field5 w 16 = a ∧ field5 w 11 = b ∧ w.extractLsb' 1 10 = x ∧
      w.getLsbD 0 = r.getLsbD 0 := by
  subst hw
  refine ⟨?_, ?_, ?_, ?_, ?_, ?_⟩
  · unfold primary; ext i hi; simp [BitVec.getElem_extractLsb']; grind
  · unfold field5; ext i hi; simp [BitVec.getElem_extractLsb']; grind
  · unfold field5; ext i hi; simp [BitVec.getElem_extractLsb']; grind
  · unfold field5; ext i hi; simp [BitVec.getElem_extractLsb']; grind
  · ext i hi; simp [BitVec.getElem_extractLsb']; grind
  · simp only [BitVec.getLsbD_append]; simp

theorem dForm_fields (p : BitVec 6) (t a : BitVec 5) (d : BitVec 16) (w : Word32) (hw : w = p ++ t ++ a ++ d) :
    primary w = p ∧ field5 w 21 = t ∧ field5 w 16 = a ∧ w.extractLsb' 0 16 = d := by
  subst hw
  refine ⟨?_, ?_, ?_, ?_⟩
  · unfold primary; ext i hi; simp [BitVec.getElem_extractLsb']; grind
  · unfold field5; ext i hi; simp [BitVec.getElem_extractLsb']; grind
  · unfold field5; ext i hi; simp [BitVec.getElem_extractLsb']; grind
  · ext i hi; simp [BitVec.getElem_extractLsb']; grind

theorem aForm_fields (p : BitVec 6) (t a b c x : BitVec 5) (r : BitVec 1) (w : Word32)
    (hw : w = p ++ t ++ a ++ b ++ c ++ x ++ r) :
    primary w = p ∧ field5 w 21 = t ∧ field5 w 16 = a ∧ field5 w 11 = b ∧ field5 w 6 = c ∧ field5 w 1 = x ∧
      w.extractLsb' 1 5 = x ∧ w.extractLsb' 1 10 = c ++ x ∧ w.getLsbD 0 = r.getLsbD 0 := by
  subst hw
  refine ⟨?_, ?_, ?_, ?_, ?_, ?_, ?_, ?_, ?_⟩
  · unfold primary; ext i hi; simp [BitVec.getElem_extractLsb']; grind
  · unfold field5; ext i hi; simp [BitVec.getElem_extractLsb']; grind
  · unfold field5; ext i hi; simp [BitVec.getElem_extractLsb']; grind
  · unfold field5; ext i hi; simp [BitVec.getElem_extractLsb']; grind
  · unfold field5; ext i hi; simp [BitVec.getElem_extractLsb']; grind
  · unfold field5; ext i hi; simp [BitVec.getElem_extractLsb']; grind
  · ext i hi; simp [BitVec.getElem_extractLsb']; grind
  · ext i hi; simp [BitVec.getElem_extractLsb']; grind
  · simp only [BitVec.getLsbD_append]; simp

theorem vaForm_fields (p : BitVec 6) (t a b c : BitVec 5) (x : BitVec 6) (w : Word32)
    (hw : w = p ++ t ++ a ++ b ++ c ++ x) :
    primary w = p ∧ field5 w 21 = t ∧ field5 w 16 = a ∧ field5 w 11 = b ∧ field5 w 6 = c ∧ w.extractLsb' 0 6 = x := by
  subst hw
  refine ⟨?_, ?_, ?_, ?_, ?_, ?_⟩
  · unfold primary; ext i hi; simp [BitVec.getElem_extractLsb']; grind
  · unfold field5; ext i hi; simp [BitVec.getElem_extractLsb']; grind
  · unfold field5; ext i hi; simp [BitVec.getElem_extractLsb']; grind
  · unfold field5; ext i hi; simp [BitVec.getElem_extractLsb']; grind
  · unfold field5; ext i hi; simp [BitVec.getElem_extractLsb']; grind
  · ext i hi; simp [BitVec.getElem_extractLsb']; grind

theorem cmpForm_fields (bf : BitVec 3) (z l : BitVec 1) (a b : BitVec 5) (x : BitVec 10) (r : BitVec 1) (w : Word32)
    (hw : w = 31#6 ++ bf ++ z ++ l ++ a ++ b ++ x ++ r) :
    primary w = 31#6 ∧ w.extractLsb' 23 3 = bf ∧ w.getLsbD 22 = z.getLsbD 0 ∧ w.getLsbD 21 = l.getLsbD 0 ∧
      field5 w 16 = a ∧ field5 w 11 = b ∧ w.extractLsb' 1 10 = x ∧ w.getLsbD 0 = r.getLsbD 0 := by
  subst hw
  refine ⟨?_, ?_, ?_, ?_, ?_, ?_, ?_, ?_⟩
  · unfold primary; ext i hi; simp [BitVec.getElem_extractLsb']; grind
  · ext i hi; simp [BitVec.getElem_extractLsb']; grind
  · simp only [BitVec.getLsbD_append]; simp
  · simp only [BitVec.getLsbD_append]; simp
  · unfold field5; ext i hi; simp [BitVec.getElem_extractLsb']; grind
  · unfold field5; ext i hi; simp [BitVec.getElem_extractLsb']; grind
  · ext i hi; simp [BitVec.getElem_extractLsb']; grind
  · simp only [BitVec.getLsbD_append]; simp

theorem mcrfForm_fields (p : BitVec 6) (bf bfa : BitVec 3) (y : BitVec 2) (z : BitVec 7) (x : BitVec 10) (r : BitVec 1)
    (w : Word32) (hw : w = p ++ bf ++ y ++ bfa ++ z ++ x ++ r) :
    primary w = p ∧ w.extractLsb' 23 3 = bf ∧ w.extractLsb' 21 2 = y ∧ w.extractLsb' 18 3 = bfa ∧
      w.extractLsb' 11 7 = z ∧ w.extractLsb' 1 10 = x ∧ w.getLsbD 0 = r.getLsbD 0 := by
  subst hw
  refine ⟨?_, ?_, ?_, ?_, ?_, ?_, ?_⟩
  · unfold primary; ext i hi; simp [BitVec.getElem_extractLsb']; grind
  · ext i hi; simp [BitVec.getElem_extractLsb']; grind
  · ext i hi; simp [BitVec.getElem_extractLsb']; grind
  · ext i hi; simp [BitVec.getElem_extractLsb']; grind
  · ext i hi; simp [BitVec.getElem_extractLsb']; grind
  · ext i hi; simp [BitVec.getElem_extractLsb']; grind
  · simp only [BitVec.getLsbD_append]; simp

theorem iForm_fields (li : BitVec 24) (aa lk : BitVec 1) (w : Word32) (hw : w = 18#6 ++ li ++ aa ++ lk) :
    primary w = 18#6 ∧ w.extractLsb' 2 24 = li ∧ w.getLsbD 1 = aa.getLsbD 0 ∧ w.getLsbD 0 = lk.getLsbD 0 := by
  subst hw
  refine ⟨?_, ?_, ?_, ?_⟩
  · unfold primary; ext i hi; simp [BitVec.getElem_extractLsb']; grind
  · ext i hi; simp [BitVec.getElem_extractLsb']; grind
  · simp only [BitVec.getLsbD_append]; simp
  · simp only [BitVec.getLsbD_append]; simp

/-! ### Loads and stores -/

/-- The fields of a word with a displacement: the displacement decodes to the operand's, and in a DS form the low two bits to the
opcode's. -/
theorem dWord_fields {p : BitVec 6} {x : BitVec 2} {t a : BitVec 5} {d : BitVec 16} {w : Word32} (hw : w = dWord (some (p, x)) t a d)
    (hd : dFits (some (p, x)) d = true) (hx : p = 58#6 ∨ p = 62#6 ∨ x = 0#2) :
    primary w = p ∧ field5 w 21 = t ∧ field5 w 16 = a ∧ displacement p.toNat w = d ∧
      (p = 58#6 ∨ p = 62#6 → w.extractLsb' 0 2 = x) := by
  have hlo : ∀ y : BitVec 2, (d.extractLsb' 2 14 ++ y).extractLsb' 0 2 = y := by
    intro y; ext i hi; simp; grind
  have hhi : ∀ y : BitVec 2, (d.extractLsb' 2 14 ++ y).extractLsb' 2 14 = d.extractLsb' 2 14 := by
    intro y; ext i hi; simp [BitVec.getElem_extractLsb']; grind
  have hall : d.extractLsb' 2 14 ++ d.extractLsb' 0 2 = d := by ext i hi; simp; grind
  obtain ⟨hp, ht, ha, h16⟩ := dForm_fields p t a (d.extractLsb' 2 14 ++ (d.extractLsb' 0 2 ||| x)) w hw
  have h2 : w.extractLsb' 0 2 = d.extractLsb' 0 2 ||| x := by
    rw [← hlo (d.extractLsb' 0 2 ||| x), ← h16]; ext i hi; simp
  have h14 : w.extractLsb' 2 14 = d.extractLsb' 2 14 := by
    rw [← hhi (d.extractLsb' 0 2 ||| x), ← h16]; ext i hi; simp
  have hn : (p.toNat = 58 ∨ p.toNat = 62) ↔ (p = 58#6 ∨ p = 62#6) := by
    simp only [← BitVec.toNat_inj]; rfl
  have h0 : p = 58#6 ∨ p = 62#6 → d.extractLsb' 0 2 = 0#2 := fun h => by
    rcases h with rfl | rfl <;> simpa [dFits] using hd
  refine ⟨hp, ht, ha, ?_, fun h => by rw [h2, h0 h, BitVec.zero_or]⟩
  simp only [displacement, hn]
  split
  · next h => rw [h14, ← h0 h, hall]
  · next h =>
    have hx0 : x = 0#2 := by
      rcases hx with h' | h' | h'
      · exact absurd (.inl h') h
      · exact absurd (.inr h') h
      · exact h'
    rw [h16, hx0, BitVec.or_zero, hall]

/-- An opcode that is none of the other instructions' is that of a load or store with a displacement. -/
theorem scalarOp_displacement {w : Word32} {n : Nat} (hp : (primary w).toNat = n) (h : n ∉ [4, 14, 18, 19, 20, 31, 59, 63]) :
    scalarOp w = displacementOp n w := by
  simp only [scalarOp, hp]
  split <;> first | rfl | simp at h

/-- An extended opcode that is none of the other instructions' is that of an indexed load or store. -/
theorem scalarOp_indexed {w : Word32} {n : Nat} (hp : primary w = 31#6) (hr : w.getLsbD 0 = false)
    (hx : (w.extractLsb' 1 10).toNat = n) (h : n ∉ [266, 40, 28, 444, 316, 954, 0, 598, 467, 339] ∧ n % 32 ≠ 15) :
    scalarOp w = indexedOp n (field5 w 21) (field5 w 16) (field5 w 11) := by
  have h5 : w.extractLsb' 1 5 ≠ 15#5 := fun e => h.2 (by
    have h1 : (w.extractLsb' 1 10).extractLsb' 0 5 = w.extractLsb' 1 5 := by ext i hi; simp; grind
    have := congrArg BitVec.toNat (h1.trans e)
    simpa [hx] using this)
  simp only [scalarOp, hp]
  simp only [scalarOp31, hx, hr]
  simp only [show (31#6).toNat = 31 from rfl]
  split <;> first | (simp at h; done) | simp [h5]

/-- What an opcode of a load with a displacement decodes to. -/
theorem loadOfD_codeD {k : LoadKind} {u : Bool} {p : BitVec 6} {x : BitVec 2} (h : k.codeD u = some (p, x)) :
    (p = 58#6 ∨ p = 62#6 ∨ x = 0#2) ∧ p.toNat ∉ [4, 14, 18, 19, 20, 31, 59, 63] ∧
      ∀ y : BitVec 2, (p = 58#6 ∨ p = 62#6 → y = x) → loadOfD p.toNat y.toNat = some (k, u) := by
  cases k <;> cases u <;> simp only [LoadKind.codeD, reduceCtorEq] at h <;> (cases h; decide)

/-- What an opcode of a store with a displacement decodes to. -/
theorem storeOfD_codeD {k : StoreKind} {u : Bool} {p : BitVec 6} {x : BitVec 2} (h : k.codeD u = some (p, x)) :
    (p = 58#6 ∨ p = 62#6 ∨ x = 0#2) ∧ p.toNat ∉ [4, 14, 18, 19, 20, 31, 59, 63] ∧
      ∀ y : BitVec 2, (p = 58#6 ∨ p = 62#6 → y = x) →
        loadOfD p.toNat y.toNat = none ∧ storeOfD p.toNat y.toNat = some (k, u) := by
  cases k <;> cases u <;> simp only [StoreKind.codeD, reduceCtorEq] at h <;> (cases h; decide)

/-- What an extended opcode of an indexed load decodes to. -/
theorem loadOfX_codeX {k : LoadKind} {u : Bool} {x : BitVec 10} (h : k.codeX u = some x) :
    (x.toNat ∉ [266, 40, 28, 444, 316, 954, 0, 598, 467, 339] ∧ x.toNat % 32 ≠ 15) ∧ loadOfX x.toNat = some (k, u) := by
  cases k <;> cases u <;> simp only [LoadKind.codeX, reduceCtorEq] at h <;> (cases h; decide)

/-- What an extended opcode of an indexed store decodes to. -/
theorem storeOfX_codeX {k : StoreKind} {u : Bool} {x : BitVec 10} (h : k.codeX u = some x) :
    (x.toNat ∉ [266, 40, 28, 444, 316, 954, 0, 598, 467, 339] ∧ x.toNat % 32 ≠ 15) ∧ loadOfX x.toNat = none ∧
      storeOfX x.toNat = some (k, u) := by
  cases k <;> cases u <;> simp only [StoreKind.codeX, reduceCtorEq] at h <;> (cases h; decide)

/-! ### A word and the instruction it stands for -/

/-- The word of an instruction of the reference suffix ISA decodes to it, every operand at every value (log entry 4). -/
theorem scalarOp_word (op : ScalarOp) (h : op.valid = true) : scalarOp op.word = some op := by
  generalize hw : op.word = w
  cases op with
  | add t a b rc =>
    obtain ⟨hp, ht, ha, hb, hx, hr⟩ := xForm_fields _ _ _ _ _ _ _ hw.symm
    simp at hr
    simp [scalarOp, scalarOp31, hp, ht, ha, hb, hx, hr]
  | subf t a b rc =>
    obtain ⟨hp, ht, ha, hb, hx, hr⟩ := xForm_fields _ _ _ _ _ _ _ hw.symm
    simp at hr
    simp [scalarOp, scalarOp31, hp, ht, ha, hb, hx, hr]
  | logic fn a t b rc =>
    obtain ⟨hp, ht, ha, hb, hx, hr⟩ := xForm_fields _ _ _ _ _ _ _ hw.symm
    simp at hr
    cases fn <;> simp [scalarOp, scalarOp31, GprLogic.xo, hp, ht, ha, hb, hx, hr]
  | addi t a d =>
    obtain ⟨hp, ht, ha, hd⟩ := dForm_fields _ _ _ _ _ hw.symm
    simp [scalarOp, hp, ht, ha, hd]
  | extsb a t rc =>
    obtain ⟨hp, ht, ha, hb, hx, hr⟩ := xForm_fields _ _ _ _ _ _ _ hw.symm
    simp at hr
    simp [scalarOp, scalarOp31, hp, ht, ha, hb, hx, hr]
  | rlwimi a t sh mb me rc =>
    obtain ⟨hp, ht, ha, hb, hc, hf, he, hx, hr⟩ := aForm_fields _ _ _ _ _ _ _ _ hw.symm
    simp at hr
    simp [scalarOp, hp, ht, ha, hb, hc, hf, hr]
  | maddld t a b c =>
    obtain ⟨hp, ht, ha, hb, hc, hx⟩ := vaForm_fields _ _ _ _ _ _ _ hw.symm
    simp [scalarOp, hp, ht, ha, hb, hc, hx]
  | isel t a b bc =>
    obtain ⟨hp, ht, ha, hb, hc, hf, he, hx, hr⟩ := aForm_fields _ _ _ _ _ _ _ _ hw.symm
    simp at hr
    have h15 : (bc ++ 15#5).toNat % 32 = 15 := by
      rw [BitVec.toNat_append, ← Nat.shiftLeft_add_eq_or_of_lt (by decide), Nat.shiftLeft_eq]; simp
    simp only [scalarOp, scalarOp31, hp, ht, ha, hb, hx, hc, he]
    simp [hr]
    generalize (bc ++ 15#5).toNat = n at h15
    split <;> simp_all
  | cmp bf l a b =>
    obtain ⟨hp, hbf, hz, hl, ha, hb, hx, hr⟩ := cmpForm_fields _ _ _ _ _ _ _ _ hw.symm
    simp at hr
    simp at hz hl
    simp [scalarOp, scalarOp31, hp, hbf, hz, hl, ha, hb, hx, hr]
  | fadds t a b rc =>
    obtain ⟨hp, ht, ha, hb, hc, hf, he, hx, hr⟩ := aForm_fields _ _ _ _ _ _ _ _ hw.symm
    simp at hr
    simp [scalarOp, hp, ht, ha, hb, hc, he, hr]
  | fmadd t a c b rc =>
    obtain ⟨hp, ht, ha, hb, hc, hf, he, hx, hr⟩ := aForm_fields _ _ _ _ _ _ _ _ hw.symm
    simp at hr
    simp [scalarOp, hp, ht, ha, hb, hc, he, hr]
  | maddedu t a b c =>
    obtain ⟨hp, ht, ha, hb, hc, hx⟩ := vaForm_fields _ _ _ _ _ _ _ hw.symm
    simp [scalarOp, hp, ht, ha, hb, hc, hx]
  | divmod2du t a b c =>
    obtain ⟨hp, ht, ha, hb, hc, hx⟩ := vaForm_fields _ _ _ _ _ _ _ hw.symm
    simp [scalarOp, hp, ht, ha, hb, hc, hx]
  | load k u t a d =>
    simp only [ScalarOp.valid, Bool.and_eq_true] at h
    obtain ⟨⟨p, x⟩, hc⟩ : ∃ c, k.codeD u = some c := by
      cases hc : k.codeD u with
      | none => simp [hc, dFits] at h
      | some c => exact ⟨c, rfl⟩
    obtain ⟨hx, hn, hk⟩ := loadOfD_codeD hc
    obtain ⟨hp, ht, ha, hd, hlow⟩ := dWord_fields (w := w) (t := t) (a := a) (by rw [← hc, ← hw]; rfl) (hc ▸ h.1) hx
    rw [scalarOp_displacement (congrArg BitVec.toNat hp) hn]
    simp only [displacementOp, ht, ha, hd, hk _ hlow, h.2, if_true]
  | loadX k u t a b =>
    simp only [ScalarOp.valid, Bool.and_eq_true, Option.isSome_iff_exists] at h
    obtain ⟨⟨x, hc⟩, hv⟩ := h
    obtain ⟨hn, hk⟩ := loadOfX_codeX hc
    obtain ⟨hp, ht, ha, hb, hx, hr⟩ := xForm_fields _ _ _ _ _ _ _ hw.symm
    rw [scalarOp_indexed hp (hr.trans rfl) (by rw [hx, hc]; rfl) hn]
    simp [indexedOp, ht, ha, hb, hk, hv]
  | store k u t a d =>
    simp only [ScalarOp.valid, Bool.and_eq_true] at h
    obtain ⟨⟨p, x⟩, hc⟩ : ∃ c, k.codeD u = some c := by
      cases hc : k.codeD u with
      | none => simp [hc, dFits] at h
      | some c => exact ⟨c, rfl⟩
    obtain ⟨hx, hn, hk⟩ := storeOfD_codeD hc
    obtain ⟨hp, ht, ha, hd, hlow⟩ := dWord_fields (w := w) (t := t) (a := a) (by rw [← hc, ← hw]; rfl) (hc ▸ h.1) hx
    rw [scalarOp_displacement (congrArg BitVec.toNat hp) hn]
    simp only [displacementOp, ht, ha, hd, hk _ hlow, h.2, if_true]
  | storeX k u t a b =>
    simp only [ScalarOp.valid, Bool.and_eq_true, Option.isSome_iff_exists] at h
    obtain ⟨⟨x, hc⟩, hv⟩ := h
    obtain ⟨hn, hk⟩ := storeOfX_codeX hc
    obtain ⟨hp, ht, ha, hb, hx, hr⟩ := xForm_fields _ _ _ _ _ _ _ hw.symm
    rw [scalarOp_indexed hp (hr.trans rfl) (by rw [hx, hc]; rfl) hn]
    simp [indexedOp, ht, ha, hb, hk, hv]
  | crlogic fn t a b =>
    obtain ⟨hp, ht, ha, hb, hx, hr⟩ := xForm_fields _ _ _ _ _ _ _ hw.symm
    simp at hr
    cases fn <;> simp [scalarOp, scalarOp19, CrLogic.xo, crLogicOf, hp, ht, ha, hb, hx, hr]
  | mcrf bf bfa =>
    obtain ⟨hp, hbf, hy, hbfa, hz, hx, hr⟩ := mcrfForm_fields _ _ _ _ _ _ _ _ hw.symm
    simp at hr
    simp [scalarOp, scalarOp19, hp, hbf, hy, hbfa, hz, hx, hr]
  | branch li aa =>
    obtain ⟨hp, hli, haa, hr⟩ := iForm_fields _ _ _ _ hw.symm
    simp at hr haa
    simp [scalarOp, hp, hli, haa, hr]
  | sync => subst hw; decide
  | mtspr n t =>
    obtain ⟨hp, ht, ha, hb, hx, hr⟩ := xForm_fields _ _ _ _ _ _ _ hw.symm
    simp at hr
    have : n.extractLsb' 5 5 ++ n.extractLsb' 0 5 = n := by ext i hi; simp; grind
    simp [scalarOp, scalarOp31, hp, ht, ha, hb, hx, hr, this]
  | mfspr t n =>
    obtain ⟨hp, ht, ha, hb, hx, hr⟩ := xForm_fields _ _ _ _ _ _ _ hw.symm
    simp at hr
    have : n.extractLsb' 5 5 ++ n.extractLsb' 0 5 = n := by ext i hi; simp; grind
    simp [scalarOp, scalarOp31, hp, ht, ha, hb, hx, hr, this]

/-- No word of the reference suffix ISA is the all-zero word. -/
theorem word_ne_zero (op : ScalarOp) (h : op.valid = true) : op.word ≠ 0#32 := by
  intro e
  have := scalarOp_word op h
  rw [e] at this
  revert this
  rw [show scalarOp 0#32 = none by decide]
  simp

/-- The profile the decoder gives (R240). -/
theorem referenceDecode_word (op : ScalarOp) (h : op.valid = true) :
    referenceIsa.decode op.word = some (op.suffix op.word) := by
  simp [referenceIsa, referenceDecode, word_ne_zero op h, scalarOp_word op h]

/-- The category and mapping (R193). -/
theorem referenceRmCategory_word (op : ScalarOp) (h : op.valid = true) :
    referenceIsa.rmCategory (op.suffix op.word) = op.rmMap := by
  simp [referenceIsa, referenceRmCategory, ScalarOp.suffix, scalarOp_word op h]

/-- No word of the reference suffix ISA is an EXT01 word (R102). -/
theorem primary_word_ne (op : ScalarOp) (h : op.valid = true) : primary op.word ≠ 1#6 := by
  intro e
  have := scalarOp_word op h
  simp [scalarOp, e, displacementOp, loadOfD, storeOfD] at this

/-- The reference's mapping of an instruction that stands in a row of R195 says what the row says. -/
theorem rmMap_namedRow {op : ScalarOp} {m : RmMap} (h : op.rmMap = some m) :
    (op.namedRow.all fun row => row.1 == m.cat && row.2.all fun e => (m.subs.zip op.slots).contains e) = true := by
  cases op with
  | load k u => cases u <;> (cases h; rfl)
  | loadX k u => cases u <;> (cases h; simp [ScalarOp.namedRow, ScalarOp.slots])
  | store k u => cases u <;> (cases h; rfl)
  | storeX k u => cases u <;> (cases h; rfl)
  | _ => cases h; simp [ScalarOp.namedRow, ScalarOp.slots]

/-- The mapping of every instruction of the reference suffix ISA is one that R181 to R195 allow. -/
theorem rmMap_fits {op : ScalarOp} (hv : op.valid = true) {m : RmMap} (h : op.rmMap = some m) :
    m.fits (op.suffix op.word) = true := by
  have hn : m.meetsNamedRow (op.suffix op.word) = true := by
    rw [RmMap.meetsNamedRow, show (op.suffix op.word).word = op.word from rfl, scalarOp_word op hv]
    exact rmMap_namedRow h
  rw [RmMap.fits, hn, Bool.and_true]
  clear hn hv
  cases op with
  | load k u => cases u <;> (cases h; cases k <;> rfl)
  | loadX k u => cases u <;> (cases h; cases k <;> rfl)
  | store k u => cases u <;> (cases h; cases k <;> rfl)
  | storeX k u => cases u <;> (cases h; cases k <;> rfl)
  | _ => cases h; rfl

/-- A mapping is what `rmCategory` says, where R181 to R195 allow it (R4). -/
theorem mapping_eq_some {isa : SuffixIsa} {ins : Suffix} {m : RmMap} :
    isa.mapping ins = some m ↔ isa.rmCategory ins = some m ∧ m.fits ins = true := by
  simp [SuffixIsa.mapping, Option.filter_eq_some_iff]

/-- The mapping the machine reads. -/
theorem mapping_word (op : ScalarOp) (h : op.valid = true) : referenceIsa.mapping (op.suffix op.word) = op.rmMap := by
  rw [SuffixIsa.mapping, referenceRmCategory_word op h]
  cases hm : op.rmMap with
  | none => rfl
  | some m => simp [Option.filter, rmMap_fits h hm]

/-- The category of a word of the reference suffix ISA. -/
theorem categoryOf_word (op : ScalarOp) (h : op.valid = true) :
    categoryOf referenceIsa op.word = op.rmMap.map RmMap.cat := by
  simp [categoryOf, primary_word_ne op h, referenceDecode_word op h, mapping_word op h]

end Machine
end Sys2Proof
end

