-- ==== Sys2Proof/Laws/State.lean ====
section
/-! SUPPORT. One lemma for each field of State under each update, true by rfl, and the reads after the writes. -/

namespace Sys2Proof
namespace Machine

@[simp] theorem writeGpr_gpr (s : State) (n : RegNum) (v : DWord) : (writeGpr s n v).gpr = s.gpr.set n v := rfl
@[simp] theorem writeGpr_fpr (s : State) (n : RegNum) (v : DWord) : (writeGpr s n v).fpr = s.fpr := rfl
@[simp] theorem writeGpr_cr (s : State) (n : RegNum) (v : DWord) : (writeGpr s n v).cr = s.cr := rfl
@[simp] theorem writeGpr_cia (s : State) (n : RegNum) (v : DWord) : (writeGpr s n v).cia = s.cia := rfl
@[simp] theorem writeGpr_svstate (s : State) (n : RegNum) (v : DWord) : (writeGpr s n v).svstate = s.svstate := rfl
@[simp] theorem writeGpr_mode (s : State) (n : RegNum) (v : DWord) : (writeGpr s n v).mode = s.mode := rfl
@[simp] theorem writeGpr_mem (s : State) (n : RegNum) (v : DWord) : (writeGpr s n v).mem = s.mem := rfl
@[simp] theorem writeGpr_xer (s : State) (n : RegNum) (v : DWord) : (writeGpr s n v).xer = s.xer := rfl
@[simp] theorem writeGpr_lr (s : State) (n : RegNum) (v : DWord) : (writeGpr s n v).lr = s.lr := rfl
@[simp] theorem writeGpr_ctr (s : State) (n : RegNum) (v : DWord) : (writeGpr s n v).ctr = s.ctr := rfl
@[simp] theorem writeGpr_fpscr (s : State) (n : RegNum) (v : DWord) : (writeGpr s n v).fpscr = s.fpscr := rfl
@[simp] theorem writeGpr_own (s : State) (n : RegNum) (v : DWord) : (writeGpr s n v).own = s.own := rfl

@[simp] theorem writeFpr_gpr (s : State) (n : RegNum) (v : DWord) : (writeFpr s n v).gpr = s.gpr := rfl
@[simp] theorem writeFpr_fpr (s : State) (n : RegNum) (v : DWord) : (writeFpr s n v).fpr = s.fpr.set n v := rfl
@[simp] theorem writeFpr_cr (s : State) (n : RegNum) (v : DWord) : (writeFpr s n v).cr = s.cr := rfl
@[simp] theorem writeFpr_cia (s : State) (n : RegNum) (v : DWord) : (writeFpr s n v).cia = s.cia := rfl
@[simp] theorem writeFpr_svstate (s : State) (n : RegNum) (v : DWord) : (writeFpr s n v).svstate = s.svstate := rfl
@[simp] theorem writeFpr_mode (s : State) (n : RegNum) (v : DWord) : (writeFpr s n v).mode = s.mode := rfl
@[simp] theorem writeFpr_mem (s : State) (n : RegNum) (v : DWord) : (writeFpr s n v).mem = s.mem := rfl
@[simp] theorem writeFpr_xer (s : State) (n : RegNum) (v : DWord) : (writeFpr s n v).xer = s.xer := rfl
@[simp] theorem writeFpr_lr (s : State) (n : RegNum) (v : DWord) : (writeFpr s n v).lr = s.lr := rfl
@[simp] theorem writeFpr_ctr (s : State) (n : RegNum) (v : DWord) : (writeFpr s n v).ctr = s.ctr := rfl
@[simp] theorem writeFpr_fpscr (s : State) (n : RegNum) (v : DWord) : (writeFpr s n v).fpscr = s.fpscr := rfl
@[simp] theorem writeFpr_own (s : State) (n : RegNum) (v : DWord) : (writeFpr s n v).own = s.own := rfl

@[simp] theorem writeCr_gpr (s : State) (n : RegNum) (v : BitVec 4) : (writeCr s n v).gpr = s.gpr := rfl
@[simp] theorem writeCr_fpr (s : State) (n : RegNum) (v : BitVec 4) : (writeCr s n v).fpr = s.fpr := rfl
@[simp] theorem writeCr_cr (s : State) (n : RegNum) (v : BitVec 4) : (writeCr s n v).cr = s.cr.set n v := rfl
@[simp] theorem writeCr_cia (s : State) (n : RegNum) (v : BitVec 4) : (writeCr s n v).cia = s.cia := rfl
@[simp] theorem writeCr_svstate (s : State) (n : RegNum) (v : BitVec 4) : (writeCr s n v).svstate = s.svstate := rfl
@[simp] theorem writeCr_mode (s : State) (n : RegNum) (v : BitVec 4) : (writeCr s n v).mode = s.mode := rfl
@[simp] theorem writeCr_mem (s : State) (n : RegNum) (v : BitVec 4) : (writeCr s n v).mem = s.mem := rfl
@[simp] theorem writeCr_xer (s : State) (n : RegNum) (v : BitVec 4) : (writeCr s n v).xer = s.xer := rfl
@[simp] theorem writeCr_lr (s : State) (n : RegNum) (v : BitVec 4) : (writeCr s n v).lr = s.lr := rfl
@[simp] theorem writeCr_ctr (s : State) (n : RegNum) (v : BitVec 4) : (writeCr s n v).ctr = s.ctr := rfl
@[simp] theorem writeCr_fpscr (s : State) (n : RegNum) (v : BitVec 4) : (writeCr s n v).fpscr = s.fpscr := rfl
@[simp] theorem writeCr_own (s : State) (n : RegNum) (v : BitVec 4) : (writeCr s n v).own = s.own := rfl

@[simp] theorem writeCrBit_gpr (s : State) (n : RegNum) (b : Fin 4) (v : Bool) : (writeCrBit s n b v).gpr = s.gpr := rfl
@[simp] theorem writeCrBit_fpr (s : State) (n : RegNum) (b : Fin 4) (v : Bool) : (writeCrBit s n b v).fpr = s.fpr := rfl
@[simp] theorem writeCrBit_cr (s : State) (n : RegNum) (b : Fin 4) (v : Bool) : (writeCrBit s n b v).cr = s.cr.set n (setCrFieldBit (readCr s n) b v) := rfl
@[simp] theorem writeCrBit_cia (s : State) (n : RegNum) (b : Fin 4) (v : Bool) : (writeCrBit s n b v).cia = s.cia := rfl
@[simp] theorem writeCrBit_svstate (s : State) (n : RegNum) (b : Fin 4) (v : Bool) : (writeCrBit s n b v).svstate = s.svstate := rfl
@[simp] theorem writeCrBit_mode (s : State) (n : RegNum) (b : Fin 4) (v : Bool) : (writeCrBit s n b v).mode = s.mode := rfl
@[simp] theorem writeCrBit_mem (s : State) (n : RegNum) (b : Fin 4) (v : Bool) : (writeCrBit s n b v).mem = s.mem := rfl
@[simp] theorem writeCrBit_xer (s : State) (n : RegNum) (b : Fin 4) (v : Bool) : (writeCrBit s n b v).xer = s.xer := rfl
@[simp] theorem writeCrBit_lr (s : State) (n : RegNum) (b : Fin 4) (v : Bool) : (writeCrBit s n b v).lr = s.lr := rfl
@[simp] theorem writeCrBit_ctr (s : State) (n : RegNum) (b : Fin 4) (v : Bool) : (writeCrBit s n b v).ctr = s.ctr := rfl
@[simp] theorem writeCrBit_fpscr (s : State) (n : RegNum) (b : Fin 4) (v : Bool) : (writeCrBit s n b v).fpscr = s.fpscr := rfl
@[simp] theorem writeCrBit_own (s : State) (n : RegNum) (b : Fin 4) (v : Bool) : (writeCrBit s n b v).own = s.own := rfl

@[simp] theorem writeByte_gpr (s : State) (a : DWord) (v : Byte) : (writeByte s a v).gpr = s.gpr := rfl
@[simp] theorem writeByte_fpr (s : State) (a : DWord) (v : Byte) : (writeByte s a v).fpr = s.fpr := rfl
@[simp] theorem writeByte_cr (s : State) (a : DWord) (v : Byte) : (writeByte s a v).cr = s.cr := rfl
@[simp] theorem writeByte_cia (s : State) (a : DWord) (v : Byte) : (writeByte s a v).cia = s.cia := rfl
@[simp] theorem writeByte_svstate (s : State) (a : DWord) (v : Byte) : (writeByte s a v).svstate = s.svstate := rfl
@[simp] theorem writeByte_mode (s : State) (a : DWord) (v : Byte) : (writeByte s a v).mode = s.mode := rfl
@[simp] theorem writeByte_mem (s : State) (a : DWord) (v : Byte) : (writeByte s a v).mem = sparseSet s.mem a.toNat v := rfl
@[simp] theorem writeByte_xer (s : State) (a : DWord) (v : Byte) : (writeByte s a v).xer = s.xer := rfl
@[simp] theorem writeByte_lr (s : State) (a : DWord) (v : Byte) : (writeByte s a v).lr = s.lr := rfl
@[simp] theorem writeByte_ctr (s : State) (a : DWord) (v : Byte) : (writeByte s a v).ctr = s.ctr := rfl
@[simp] theorem writeByte_fpscr (s : State) (a : DWord) (v : Byte) : (writeByte s a v).fpscr = s.fpscr := rfl
@[simp] theorem writeByte_own (s : State) (a : DWord) (v : Byte) : (writeByte s a v).own = s.own := rfl

@[simp] theorem writeOwn_gpr (s : State) (k : Nat) (v : DWord) : (writeOwn s k v).gpr = s.gpr := rfl
@[simp] theorem writeOwn_fpr (s : State) (k : Nat) (v : DWord) : (writeOwn s k v).fpr = s.fpr := rfl
@[simp] theorem writeOwn_cr (s : State) (k : Nat) (v : DWord) : (writeOwn s k v).cr = s.cr := rfl
@[simp] theorem writeOwn_cia (s : State) (k : Nat) (v : DWord) : (writeOwn s k v).cia = s.cia := rfl
@[simp] theorem writeOwn_svstate (s : State) (k : Nat) (v : DWord) : (writeOwn s k v).svstate = s.svstate := rfl
@[simp] theorem writeOwn_mode (s : State) (k : Nat) (v : DWord) : (writeOwn s k v).mode = s.mode := rfl
@[simp] theorem writeOwn_mem (s : State) (k : Nat) (v : DWord) : (writeOwn s k v).mem = s.mem := rfl
@[simp] theorem writeOwn_xer (s : State) (k : Nat) (v : DWord) : (writeOwn s k v).xer = s.xer := rfl
@[simp] theorem writeOwn_lr (s : State) (k : Nat) (v : DWord) : (writeOwn s k v).lr = s.lr := rfl
@[simp] theorem writeOwn_ctr (s : State) (k : Nat) (v : DWord) : (writeOwn s k v).ctr = s.ctr := rfl
@[simp] theorem writeOwn_fpscr (s : State) (k : Nat) (v : DWord) : (writeOwn s k v).fpscr = s.fpscr := rfl
@[simp] theorem writeOwn_own (s : State) (k : Nat) (v : DWord) : (writeOwn s k v).own = sparseSet s.own k v := rfl

@[simp] theorem setCia_gpr (s : State) (a : DWord) : (setCia s a).gpr = s.gpr := rfl
@[simp] theorem setCia_fpr (s : State) (a : DWord) : (setCia s a).fpr = s.fpr := rfl
@[simp] theorem setCia_cr (s : State) (a : DWord) : (setCia s a).cr = s.cr := rfl
@[simp] theorem setCia_cia (s : State) (a : DWord) : (setCia s a).cia = a := rfl
@[simp] theorem setCia_svstate (s : State) (a : DWord) : (setCia s a).svstate = s.svstate := rfl
@[simp] theorem setCia_mode (s : State) (a : DWord) : (setCia s a).mode = s.mode := rfl
@[simp] theorem setCia_mem (s : State) (a : DWord) : (setCia s a).mem = s.mem := rfl
@[simp] theorem setCia_xer (s : State) (a : DWord) : (setCia s a).xer = s.xer := rfl
@[simp] theorem setCia_lr (s : State) (a : DWord) : (setCia s a).lr = s.lr := rfl
@[simp] theorem setCia_ctr (s : State) (a : DWord) : (setCia s a).ctr = s.ctr := rfl
@[simp] theorem setCia_fpscr (s : State) (a : DWord) : (setCia s a).fpscr = s.fpscr := rfl
@[simp] theorem setCia_own (s : State) (a : DWord) : (setCia s a).own = s.own := rfl

/-! ### Reads after writes -/

theorem readGpr_writeGpr (s : State) (n m : RegNum) (v : DWord) :
    readGpr (writeGpr s n v) m = if m = n then v else readGpr s m := by
  by_cases h : m = n
  · subst h; simp [readGpr]
  · have h' : n.val ≠ m.val := fun e => h (Fin.ext e.symm)
    simp [readGpr, h, h']

theorem readFpr_writeFpr (s : State) (n m : RegNum) (v : DWord) :
    readFpr (writeFpr s n v) m = if m = n then v else readFpr s m := by
  by_cases h : m = n
  · subst h; simp [readFpr]
  · have h' : n.val ≠ m.val := fun e => h (Fin.ext e.symm)
    simp [readFpr, h, h']

theorem readCr_writeCr (s : State) (n m : RegNum) (v : BitVec 4) :
    readCr (writeCr s n v) m = if m = n then v else readCr s m := by
  by_cases h : m = n
  · subst h; simp [readCr]
  · have h' : n.val ≠ m.val := fun e => h (Fin.ext e.symm)
    simp [readCr, h, h']

@[simp] theorem readGpr_setCia (s : State) (a : DWord) (n : RegNum) : readGpr (setCia s a) n = readGpr s n := rfl
@[simp] theorem readFpr_setCia (s : State) (a : DWord) (n : RegNum) : readFpr (setCia s a) n = readFpr s n := rfl
@[simp] theorem readCr_setCia (s : State) (a : DWord) (n : RegNum) : readCr (setCia s a) n = readCr s n := rfl
@[simp] theorem readByte_setCia (s : State) (a x : DWord) : readByte (setCia s a) x = readByte s x := rfl
@[simp] theorem readByte_writeGpr (s : State) (n : RegNum) (v x : DWord) : readByte (writeGpr s n v) x = readByte s x := rfl
@[simp] theorem readGpr_writeByte (s : State) (a : DWord) (v : Byte) (n : RegNum) :
    readGpr (writeByte s a v) n = readGpr s n := rfl
@[simp] theorem readFpr_writeGpr (s : State) (n m : RegNum) (v : DWord) : readFpr (writeGpr s n v) m = readFpr s m := rfl
@[simp] theorem readCr_writeGpr (s : State) (n m : RegNum) (v : DWord) : readCr (writeGpr s n v) m = readCr s m := rfl
@[simp] theorem readGpr_writeCr (s : State) (n m : RegNum) (v : BitVec 4) : readGpr (writeCr s n v) m = readGpr s m := rfl

/-! ### The state within the reach of an unprefixed instruction (R22, R243) -/

@[simp] theorem scalarView_cia (s : State) : (scalarView s).cia = s.cia := rfl
@[simp] theorem scalarView_svstate (s : State) : (scalarView s).svstate = s.svstate := rfl
@[simp] theorem scalarView_mode (s : State) : (scalarView s).mode = s.mode := rfl
@[simp] theorem scalarView_mem (s : State) : (scalarView s).mem = s.mem := rfl
@[simp] theorem scalarView_xer (s : State) : (scalarView s).xer = s.xer := rfl
@[simp] theorem scalarView_lr (s : State) : (scalarView s).lr = s.lr := rfl
@[simp] theorem scalarView_ctr (s : State) : (scalarView s).ctr = s.ctr := rfl
@[simp] theorem scalarView_fpscr (s : State) : (scalarView s).fpscr = s.fpscr := rfl
@[simp] theorem scalarView_own (s : State) : (scalarView s).own = s.own := rfl

theorem readGpr_scalarView (s : State) (n : RegNum) : readGpr (scalarView s) n = if n.val < 32 then readGpr s n else 0#64 := by
  simp [readGpr, scalarView, firstRegs]

theorem readFpr_scalarView (s : State) (n : RegNum) : readFpr (scalarView s) n = if n.val < 32 then readFpr s n else 0#64 := by
  simp [readFpr, scalarView, firstRegs]

theorem readCr_scalarView (s : State) (n : RegNum) : readCr (scalarView s) n = if n.val < 8 then readCr s n else 0#4 := by
  simp [readCr, scalarView, firstRegs]

@[simp] theorem readByte_scalarView (s : State) (a : DWord) : readByte (scalarView s) a = readByte s a := rfl

@[simp] theorem readBytes_scalarView (s : State) (n : Nat) (a : DWord) : readBytes (scalarView s) n a = readBytes s n a := by
  induction n generalizing a with
  | zero => rfl
  | succ n ih => simp [readBytes, ih]

@[simp] theorem readWord_scalarView (be : Bool) (s : State) (a : DWord) : readWord be (scalarView s) a = readWord be s a := by
  simp [readWord]

/-! ### The outcome of a stop -/

@[simp] theorem fault_outcome (f : Fault) : (Stop.fault f).outcome = .fault f := rfl
@[simp] theorem refuse_outcome (r : Refusal) : (Stop.refuse r).outcome = .refused r := rfl

/-- A stop never answers a next state. -/
theorem outcome_ne_next (st : Stop) (s : State) : st.outcome ≠ .next s := by
  cases st <;> simp

@[simp] theorem firstStop_nil : firstStop [] = none := rfl
@[simp] theorem firstStop_some (st : Stop) (l : List (Option Stop)) : firstStop (some st :: l) = some st := rfl
@[simp] theorem firstStop_none (l : List (Option Stop)) : firstStop (none :: l) = firstStop l := rfl

/-- A list of checks passes exactly when every check of it passes. -/
theorem firstStop_eq_none (l : List (Option Stop)) : firstStop l = none ↔ ∀ x ∈ l, x = none := by
  induction l with
  | nil => simp
  | cons x l ih => cases x <;> simp [ih]

@[simp] theorem stopIf_true (st : Stop) : stopIf true st = some st := rfl
@[simp] theorem stopIf_false (st : Stop) : stopIf false st = none := rfl
theorem stopIf_eq_none (c : Bool) (st : Stop) : stopIf c st = none ↔ c = false := by cases c <;> simp

end Machine
end Sys2Proof
end

