-- ==== Sys2Proof/Laws/Memory.lean ====
section
/-! SUPPORT. Sparse data and memory: a read after a write, and that every operation keeps the canonical form. -/

namespace Sys2Proof
namespace Machine

variable {α : Type}

theorem sparseGet_none_of_lt (m : List (Nat × α)) (a : Nat) (h : (m.all fun e => decide (a < e.1)) = true) :
    sparseGet m a = none := by
  induction m with
  | nil => rfl
  | cons e m ih =>
    obtain ⟨k, v⟩ := e
    simp only [List.all_cons, Bool.and_eq_true, decide_eq_true_eq] at h
    simp [sparseGet, ih h.2, Nat.ne_of_lt h.1]

/-- What a number holds after a write. -/
theorem sparseGet_set (m : List (Nat × α)) (a b : Nat) (x : α) :
    sparseGet (sparseSet m a x) b = if b = a then some x else sparseGet m b := by
  induction m with
  | nil => simp [sparseSet, sparseGet]
  | cons e m ih =>
    obtain ⟨k, v⟩ := e
    simp only [sparseSet]
    split
    · simp [sparseGet]
    · split
      · next h => subst h; simp [sparseGet]; split <;> simp_all
      · next h1 h2 =>
        simp only [sparseGet, ih]
        by_cases hb : b = k
        · subst hb; simp [Ne.symm h2]
        · simp [hb]

theorem all_lt_sparseSet (m : List (Nat × α)) (k a : Nat) (x : α) (h : (m.all fun e => decide (k < e.1)) = true)
    (hk : k < a) : ((sparseSet m a x).all fun e => decide (k < e.1)) = true := by
  induction m with
  | nil => simpa [sparseSet] using hk
  | cons e m ih =>
    obtain ⟨k', v⟩ := e
    simp only [List.all_cons, Bool.and_eq_true, decide_eq_true_eq] at h
    simp only [sparseSet]
    split
    · simp [hk, h]
    · split
      · simp [hk, h.2]
      · simp [h.1, ih h.2]

/-- A write keeps the numbers strictly rising. -/
theorem sparseRising_set (m : List (Nat × α)) (a : Nat) (x : α) (h : sparseRising m = true) :
    sparseRising (sparseSet m a x) = true := by
  induction m with
  | nil => rfl
  | cons e m ih =>
    obtain ⟨k, v⟩ := e
    simp only [sparseRising, Bool.and_eq_true] at h
    simp only [sparseSet]
    split
    · next hlt =>
      simp only [sparseRising, Bool.and_eq_true, List.all_cons, decide_eq_true_eq]
      refine ⟨⟨hlt, ?_⟩, h⟩
      have := h.1
      simp only [List.all_eq_true, decide_eq_true_eq] at this ⊢
      exact fun e he => Nat.lt_trans hlt (this e he)
    · split
      · next heq => subst heq; simp [sparseRising, h]
      · next h1 h2 =>
        simp only [sparseRising, Bool.and_eq_true]
        exact ⟨all_lt_sparseSet m k a x h.1 (by omega), ih h.2⟩

theorem all_below_sparseSet (m : List (Nat × α)) (n a : Nat) (x : α) (h : (m.all fun e => decide (e.1 < n)) = true)
    (ha : a < n) : ((sparseSet m a x).all fun e => decide (e.1 < n)) = true := by
  induction m with
  | nil => simpa [sparseSet] using ha
  | cons e m ih =>
    obtain ⟨k', v⟩ := e
    simp only [List.all_cons, Bool.and_eq_true, decide_eq_true_eq] at h
    simp only [sparseSet]
    split
    · simp [ha, h]
    · split
      · simp [ha, h.2]
      · simp [h.1, ih h.2]

/-- Storing a byte keeps memory in its canonical form. -/
theorem Memory.wf_writeByte (s : State) (a : DWord) (v : Byte) (h : Memory.wf s.mem = true) :
    Memory.wf (writeByte s a v).mem = true := by
  simp only [Memory.wf, Bool.and_eq_true] at h ⊢
  exact ⟨sparseRising_set _ _ _ h.1, all_below_sparseSet _ _ _ _ h.2 a.isLt⟩

/-- Reading a byte after storing one. -/
theorem readByte_writeByte (s : State) (a b : DWord) (v : Byte) :
    readByte (writeByte s a v) b = if b = a then some v else readByte s b := by
  simp only [readByte, writeByte_mem, sparseGet_set]
  congr 1
  exact propext ⟨fun h => BitVec.eq_of_toNat_eq h, fun h => by rw [h]⟩

/-- Reset memory is canonical. -/
theorem Memory.wf_reset : Memory.wf State.reset.mem = true := rfl

end Machine
end Sys2Proof
end

