-- ==== Sys2Proof/Laws/Writes.lean ====
section
/-! SUPPORT. The writes of a scalar execution: what a list of writes can change, and that it keeps the invariant. -/

namespace Sys2Proof
namespace Machine

@[simp] theorem applyWrites_nil (s : State) : applyWrites s [] = s := rfl
@[simp] theorem applyWrites_cons (s : State) (w : Write) (ws : List Write) :
    applyWrites s (w :: ws) = applyWrites (w.apply s) ws := rfl

theorem applyWrites_append (s : State) (ws vs : List Write) :
    applyWrites s (ws ++ vs) = applyWrites (applyWrites s ws) vs := by
  induction ws generalizing s with
  | nil => rfl
  | cons w ws ih => exact ih (w.apply s)

/-- No write moves the program counter (R240, R249). -/
@[simp] theorem Write.apply_cia (s : State) (w : Write) : (w.apply s).cia = s.cia := by cases w <;> rfl

@[simp] theorem applyWrites_cia (s : State) (ws : List Write) : (applyWrites s ws).cia = s.cia := by
  induction ws generalizing s with
  | nil => rfl
  | cons w ws ih => rw [applyWrites_cons, ih, Write.apply_cia]

/-- One write keeps the canonical forms. -/
theorem Write.apply_canonical (s : State) (w : Write) (hm : Memory.wf s.mem = true) (ho : sparseRising s.own = true) :
    Memory.wf (w.apply s).mem = true ∧ sparseRising (w.apply s).own = true := by
  cases w with
  | mem a v => exact ⟨Memory.wf_writeByte s a v hm, ho⟩
  | own k v => exact ⟨hm, sparseRising_set s.own k v ho⟩
  | gpr n v => exact ⟨hm, ho⟩
  | fpr n v => exact ⟨hm, ho⟩
  | crField n v => exact ⟨hm, ho⟩
  | crBit n b v => exact ⟨hm, ho⟩
  | xer v => exact ⟨hm, ho⟩
  | lr v => exact ⟨hm, ho⟩
  | ctr v => exact ⟨hm, ho⟩
  | fpscr v => exact ⟨hm, ho⟩
  | svstate v => exact ⟨hm, ho⟩
  | mode m => exact ⟨hm, ho⟩

/-- Any list of writes keeps the invariant. -/
theorem applyWrites_inv (s : State) (ws : List Write) (h : s.Inv) : (applyWrites s ws).Inv := by
  induction ws generalizing s with
  | nil => exact h
  | cons w ws ih =>
    have hc := Write.apply_canonical s w h.1 h.2.1
    exact ih _ ⟨hc.1, hc.2, by simpa [State.ciaAligned] using h.2.2⟩

/-- A register no write names keeps its value. -/
theorem readGpr_applyWrites (s : State) (ws : List Write) (n : RegNum) (h : ∀ v, Write.gpr n v ∉ ws) :
    readGpr (applyWrites s ws) n = readGpr s n := by
  induction ws generalizing s with
  | nil => rfl
  | cons w ws ih =>
    have hw : ∀ v, w ≠ .gpr n v := fun v e => h v (by simp [e])
    rw [applyWrites_cons, ih _ fun v hv => h v (List.mem_cons_of_mem _ hv)]
    cases w with
    | gpr m v =>
      rw [Write.apply, readGpr_writeGpr, if_neg]
      exact fun e => hw v (by rw [e])
    | fpr m v => rfl
    | crField m v => rfl
    | crBit m b v => rfl
    | mem a v => rfl
    | xer v => rfl
    | lr v => rfl
    | ctr v => rfl
    | fpscr v => rfl
    | own k v => rfl
    | svstate v => rfl
    | mode m => rfl

/-- What an unprefixed instruction cannot reach keeps its value (R243). -/
theorem scalarReach_keeps_gpr (s : State) (ws : List Write) (n : RegNum) (h : 32 ≤ n.val) :
    readGpr (applyWrites s (scalarReach ws)) n = readGpr s n := by
  refine readGpr_applyWrites s _ n fun v hv => ?_
  have := (List.mem_filter.mp hv).2
  simp [Write.inScalarReach] at this
  omega

/-! ### Within the reach of an unprefixed instruction (R22, R243) -/

/-- Setting one of the first registers commutes with hiding the others. -/
theorem firstRegs_set {α : Type} (k : Nat) (hidden : α) (v : Vector α 128) (n : RegNum) (x : α) (h : n.val < k) :
    firstRegs k hidden (v.set n x) = (firstRegs k hidden v).set n x := by
  ext i hi
  simp only [firstRegs, Vector.getElem_mapIdx, Vector.getElem_set]
  split <;> split <;> first | rfl | omega

/-- A write within the reach of an unprefixed instruction is the same write on what such an instruction can read. -/
theorem scalarView_apply (s : State) (w : Write) (h : w.inScalarReach = true) :
    scalarView (w.apply s) = w.apply (scalarView s) := by
  cases w <;> simp only [Write.inScalarReach, decide_eq_true_eq] at h
  case gpr n v => simp [Write.apply, writeGpr, scalarView, firstRegs_set 32 _ _ _ _ h]
  case fpr n v => simp [Write.apply, writeFpr, scalarView, firstRegs_set 32 _ _ _ _ h]
  case crField n v => simp [Write.apply, writeCr, scalarView, firstRegs_set 8 _ _ _ _ h]
  case crBit n b v =>
    simp only [Write.apply, writeCrBit, readCr_scalarView, if_pos h]
    simp [writeCr, scalarView, firstRegs_set 8 _ _ _ _ h]
  all_goals rfl

/-- What an unprefixed instruction writes changes what such an instruction can read by the same writes. -/
theorem scalarView_applyWrites (s : State) (ws : List Write) :
    scalarView (applyWrites s (scalarReach ws)) = applyWrites (scalarView s) (scalarReach ws) := by
  have key : ∀ l : List Write, (∀ w ∈ l, w.inScalarReach = true) → ∀ s,
      scalarView (applyWrites s l) = applyWrites (scalarView s) l := by
    intro l
    induction l with
    | nil => exact fun _ _ => rfl
    | cons w l ih =>
      intro h s
      rw [applyWrites_cons, applyWrites_cons, ih (fun x hx => h x (List.mem_cons_of_mem _ hx)),
        scalarView_apply s w (h w (by simp))]
  exact key _ (fun w hw => (List.mem_filter.mp hw).2) s

end Machine
end Sys2Proof
end

