-- ==== Sys2Proof/Laws/Loop.lean ====
section
/-! SUPPORT. The element loop: what `runElement` and `runLoop` can answer, that they keep the program counter and the
invariant, and the loop as a fold over the enabled elements. -/

namespace Sys2Proof
namespace Machine

/-! ### One element -/

/-- All that an element can do when it completes: the writes of its scalar execution. -/
theorem runElement_ok {p : Params} {q : Pair} {ops : List Operand} {vl i : Nat} {s t : State}
    (h : runElement p q ops vl i s = .ok t) :
    ∃ ws target, runsOffEnd ops i = false ∧ p.run q.ins (ops.map fun o => o.register i) s = .done ws target ∧
      overwritesPredicate (commonOf q.rm).maskmode ops i vl (.done ws target) = false ∧ t = applyWrites s ws := by
  unfold runElement at h
  split at h
  · cases h
  · next hoff =>
    simp only at h
    split at h
    · cases h
    · next hover =>
      split at h
      · next ws target he =>
        cases h
        exact ⟨ws, target, by simpa using hoff, he, by simpa [he] using hover, rfl⟩
      · cases h

/-- The stops of an element, in the order of R273 (11), each with the state it found. -/
theorem runElement_error {p : Params} {q : Pair} {ops : List Operand} {vl i : Nat} {s : State} {st : Stop}
    (h : runElement p q ops vl i s = .error st) :
    st = .refuse (.registerPast127 i s) ∨ st = .fault (.undefinedCRPredicateOverwrite i s) ∨
      ∃ t, st = .fault (.suffixTrap i t s) := by
  unfold runElement at h
  split at h
  · cases h; exact .inl rfl
  · simp only at h
    split at h
    · cases h; exact .inr (.inl rfl)
    · split at h
      · cases h
      · cases h; exact .inr (.inr ⟨_, rfl⟩)

/-- An element whose numbers fit, whose writes leave the predicate alone and whose scalar execution completes. -/
theorem runElement_done {p : Params} {q : Pair} {ops : List Operand} {vl i : Nat} {s : State} {ws : List Write}
    {target : Option DWord} (hoff : runsOffEnd ops i = false)
    (he : p.run q.ins (ops.map fun o => o.register i) s = .done ws target)
    (hover : overwritesPredicate (commonOf q.rm).maskmode ops i vl (.done ws target) = false) :
    runElement p q ops vl i s = .ok (applyWrites s ws) := by
  simp [runElement, hoff, he, hover]

/-! ### The loop -/

/-- What every completed element keeps, the completed loop keeps. -/
theorem runLoop_keeps (P : State → Prop) (p : Params) (q : Pair) (ops : List Operand) (vl : Nat) (stop : Bool)
    (hstep : ∀ i s t, P s → runElement p q ops vl i s = .ok t → P t) :
    ∀ (mask : List Bool) (i : Nat) (s t : State), P s → runLoop p q ops vl stop i mask s = .ok t → P t := by
  intro mask
  induction mask with
  | nil => intro i s t hs h; cases h; exact hs
  | cons b mask ih =>
    intro i s t hs h
    cases b with
    | false => exact ih _ _ _ hs h
    | true =>
      simp only [runLoop] at h
      split at h
      · cases h
      · next s' he =>
        have hs' := hstep i s s' hs he
        split at h
        · cases h; exact hs'
        · exact ih _ _ _ hs' h

/-- The loop does not move the program counter (R249). -/
theorem runLoop_cia {p : Params} {q : Pair} {ops : List Operand} {vl : Nat} {stop : Bool} {mask : List Bool} {i : Nat}
    {s t : State} (h : runLoop p q ops vl stop i mask s = .ok t) : t.cia = s.cia :=
  runLoop_keeps (fun u => u.cia = s.cia) p q ops vl stop
    (fun i u t hu he => by obtain ⟨ws, target, -, -, -, rfl⟩ := runElement_ok he; rw [applyWrites_cia, hu])
    mask i s t rfl h

/-- The loop keeps the invariant. -/
theorem runLoop_inv {p : Params} {q : Pair} {ops : List Operand} {vl : Nat} {stop : Bool} {mask : List Bool} {i : Nat}
    {s t : State} (hs : s.Inv) (h : runLoop p q ops vl stop i mask s = .ok t) : t.Inv :=
  runLoop_keeps State.Inv p q ops vl stop
    (fun i u t hu he => by obtain ⟨ws, target, -, -, -, rfl⟩ := runElement_ok he; exact applyWrites_inv u ws hu)
    mask i s t hs h

/-- One more element at the end. -/
theorem overElements_succ (n : Nat) (on : Nat → Bool) (f : Nat → State → State) (s : State) :
    overElements (n + 1) on f s =
      if on n then f n (overElements n on f s) else overElements n on f s := by
  simp [overElements, List.range_succ]

@[simp] theorem overElements_zero (on : Nat → Bool) (f : Nat → State → State) (s : State) :
    overElements 0 on f s = s := rfl

/-- What every element keeps, the elements in order keep. -/
theorem overElements_keeps (P : State → Prop) (n : Nat) (on : Nat → Bool) (f : Nat → State → State) (s : State)
    (hf : ∀ i u, i < n → on i = true → P u → P (f i u)) (hs : P s) : P (overElements n on f s) := by
  induction n with
  | zero => exact hs
  | succ n ih =>
    have := ih fun i u hi => hf i u (by omega)
    rw [overElements_succ]
    split
    · next h => exact hf n _ (by omega) h this
    · exact this

/-- The loop over a mask cut in two. -/
theorem runLoop_append {p : Params} {q : Pair} {ops : List Operand} {vl : Nat} {mask mask' : List Bool} {i : Nat}
    {s t : State} (h : runLoop p q ops vl false i mask s = .ok t) :
    runLoop p q ops vl false i (mask ++ mask') s = runLoop p q ops vl false (i + mask.length) mask' t := by
  induction mask generalizing i s with
  | nil => cases h; rfl
  | cons b mask ih =>
    cases b with
    | false =>
      rw [List.cons_append, runLoop, ih h, List.length_cons]; congr 1; omega
    | true =>
      simp only [runLoop, Bool.false_eq_true, if_false] at h
      simp only [List.cons_append, runLoop, Bool.false_eq_true, if_false, List.length_cons]
      split at h
      · cases h
      · next s' he => rw [ih h]; congr 1; omega

/-- The loop as a fold: if every enabled element completes with the effect `f` in the state the ones before it leave, the
loop over the first `n` elements leaves the effects of the enabled elements in order. -/
theorem runLoop_fold_at {p : Params} {q : Pair} {ops : List Operand} {vl n : Nat} {on : Nat → Bool}
    {f : Nat → State → State} {s : State}
    (hel : ∀ i, i < n → on i = true →
      runElement p q ops vl i (overElements i on f s) = .ok (f i (overElements i on f s))) :
    runLoop p q ops vl false 0 ((List.range n).map on) s = .ok (overElements n on f s) := by
  induction n with
  | zero => rfl
  | succ n ih =>
    have h := ih fun i hi => hel i (by omega)
    rw [List.range_succ, List.map_append, runLoop_append h, overElements_succ]
    simp only [List.length_map, List.length_range, Nat.zero_add, List.map_cons, List.map_nil]
    cases hn : on n with
    | false => rfl
    | true => simp [runLoop, hel n (by omega) hn]

/-- The same where every element completes from every state that satisfies `P`. -/
theorem runLoop_fold (P : State → Prop) (p : Params) (q : Pair) (ops : List Operand) (vl n : Nat) (on : Nat → Bool)
    (f : Nat → State → State) (s : State) (hs : P s) (hP : ∀ i u, P u → P (f i u))
    (hel : ∀ i u, i < n → on i = true → P u → runElement p q ops vl i u = .ok (f i u)) :
    runLoop p q ops vl false 0 ((List.range n).map on) s = .ok (overElements n on f s) :=
  runLoop_fold_at fun i hi hoi => hel i _ hi hoi (overElements_keeps P i on f s (fun i u _ _ hu => hP i u hu) hs)

/-- The loop stops at the first enabled element that does, with that element's stop (R223, R252, R285). -/
theorem runLoop_stops_at {p : Params} {q : Pair} {ops : List Operand} {vl n k : Nat} {on : Nat → Bool}
    {f : Nat → State → State} {s : State} {st : Stop} (hk : k < n)
    (hel : ∀ i, i < k → on i = true →
      runElement p q ops vl i (overElements i on f s) = .ok (f i (overElements i on f s))) (hon : on k = true)
    (hst : runElement p q ops vl k (overElements k on f s) = .error st) :
    runLoop p q ops vl false 0 ((List.range n).map on) s = .error st := by
  have h := runLoop_fold_at hel
  obtain ⟨tail, hr⟩ : ∃ tail, (List.range n).map on = (List.range k).map on ++ on k :: tail := by
    obtain ⟨m, rfl⟩ : ∃ m, n = k + (m + 1) := ⟨n - k - 1, by omega⟩
    exact ⟨((List.range m).map Nat.succ).map fun j => on (k + j), by
      simp [List.range_add, List.range_succ_eq_map, Function.comp_def]⟩
  rw [hr, runLoop_append h]
  simp only [List.length_map, List.length_range, Nat.zero_add, hon, runLoop, hst]

/-- The same where the elements before it complete from every state that satisfies `P`. -/
theorem runLoop_stops (P : State → Prop) (p : Params) (q : Pair) (ops : List Operand) (vl n k : Nat) (on : Nat → Bool)
    (f : Nat → State → State) (s : State) (st : Stop) (hs : P s) (hP : ∀ i u, P u → P (f i u)) (hk : k < n)
    (hel : ∀ i u, i < k → on i = true → P u → runElement p q ops vl i u = .ok (f i u)) (hon : on k = true)
    (hst : runElement p q ops vl k (overElements k on f s) = .error st) :
    runLoop p q ops vl false 0 ((List.range n).map on) s = .error st :=
  runLoop_stops_at hk
    (fun i hi hoi => hel i _ hi hoi (overElements_keeps P i on f s (fun i u _ _ hu => hP i u hu) hs)) hon hst

end Machine
end Sys2Proof
end

