-- ==== Sys2Proof/Laws/Execute.lean ====
section
/-! SUPPORT. A prefixed instruction as a whole: all that `executePrefixed` can answer, what it keeps, and, for the instructions of
the reference suffix ISA, the result as the enabled elements in order. -/

namespace Sys2Proof
namespace Machine

/-! ### All it can do -/

/-- All that a prefixed instruction can do when it answers a next state (R241, R242, R245): the checks pass, and it is a nop,
the scalar instruction, or the loop. -/
theorem executePrefixed_next {p : Params} {want : Option Category} {rm : Rm} {w1 : Word32} {s t : State}
    (h : executePrefixed p want rm w1 s = .next t) :
    ∃ q, identify p want rm w1 s = .ok q ∧ decodeStop p q s = none ∧
      ((s.vl = 0 ∧ t = setCia s (s.cia + 8#64)) ∨
       (q.rm = 0#24 ∧ s.vl = 1 ∧ runScalar p q.ins q.w0 (some q.w1) 8#64 s = .next t) ∨
       (s.vl ≠ 0 ∧ ¬(q.rm = 0#24 ∧ s.vl = 1) ∧
         admissionStop p q (resolveAll q.ins q.map q.rm) s.vl = none ∧ masksStop q.map.cat q.rm s.vl = none ∧
         ∃ u, runLoop p q (resolveAll q.ins q.map q.rm) s.vl (endsAfterFirst p (resolveAll q.ins q.map q.rm) s.vl) 0
             (elementMask s q.map.cat q.rm s.vl) s = .ok u ∧ t = setCia u (s.cia + 8#64))) := by
  unfold executePrefixed at h
  split at h
  · next st _ => exact absurd h (outcome_ne_next st t)
  · next q hq =>
    refine ⟨q, hq, ?_⟩
    split at h
    · next st _ => exact absurd h (outcome_ne_next st t)
    · next hd =>
      refine ⟨hd, ?_⟩
      unfold executeChecked at h
      split at h
      · next hv => cases h; exact .inl ⟨hv, rfl⟩
      · next hv =>
        split at h
        · next hid => exact .inr (.inl ⟨hid.1, hid.2, h⟩)
        · next hid =>
          refine .inr (.inr ⟨hv, hid, ?_⟩)
          unfold executeLoop at h
          simp only at h
          split at h
          · next st _ => exact absurd h (outcome_ne_next st t)
          · next hf =>
            have ha := (firstStop_eq_none _).mp hf
            refine ⟨ha _ (by simp), ha _ (by simp), ?_⟩
            split at h
            · next st _ => exact absurd h (outcome_ne_next st t)
            · next u hu => cases h; exact ⟨u, hu, rfl⟩

/-- All that stops an access to an SVP64 SPR: the refusal where its value is supported, else the trap (R31, R33). -/
theorem sprStop_eq_some {p : Params} {ins : Suffix} {regs : List Nat} {w0 : Word32} {w1 : Option Word32} {s : State} {st : Stop}
    (h : sprStop p ins regs w0 w1 s = some st) :
    ∃ acc, ins.spr = some acc ∧ p.isSvSpr acc.num = true ∧
      st = if p.svSprValueOk acc.num (svSprValue p ins acc regs s) then .refuse .svstateAccess
        else raiseIllegal w0 w1 (.svSprValue acc.num) s := by
  unfold sprStop at h
  split at h
  · cases h
  · next acc ha =>
    split at h
    · next hs => exact ⟨acc, ha, hs, by split at h <;> cases h <;> simp [*]⟩
    · cases h

/-- All that a scalar execution can do when it answers a next state. -/
theorem runScalar_next {p : Params} {ins : Suffix} {w0 : Word32} {w1 : Option Word32} {len : DWord} {s t : State}
    (h : runScalar p ins w0 w1 len s = .next t) :
    ∃ ws target, sprStop p ins (identityMap ins) w0 w1 s = none ∧
      p.run ins (identityMap ins) (scalarView s) = .done ws target ∧
      t = setCia (applyWrites s (scalarReach ws)) (nextAddress s len target) := by
  unfold runScalar at h
  split at h
  · next st _ => exact absurd h (outcome_ne_next st t)
  · next hs =>
    split at h
    · next ws target he => cases h; exact ⟨ws, target, hs, he, rfl⟩
    · cases h

/-! ### The invariant -/

theorem aligned_add (a k : DWord) (ha : a.extractLsb' 0 2 = 0#2) (hk : k.extractLsb' 0 2 = 0#2) :
    (a + k).extractLsb' 0 2 = 0#2 := by
  have h1 := congrArg BitVec.toNat ha
  have h2 := congrArg BitVec.toNat hk
  apply BitVec.eq_of_toNat_eq
  simp only [BitVec.extractLsb'_toNat, Nat.shiftRight_zero, BitVec.toNat_add, BitVec.toNat_ofNat] at *
  omega

theorem aligned_target (t : DWord) : (alignTarget t).extractLsb' 0 2 = 0#2 := by
  apply BitVec.eq_of_getLsbD_eq
  intro i hi
  simp only [alignTarget, BitVec.getLsbD_extractLsb', BitVec.getLsbD_and, BitVec.getLsbD_not]
  interval_cases i <;> simp

/-- The next address is a multiple of 4 (R28, R53). -/
theorem nextAddress_aligned (s : State) (len : DWord) (target : Option DWord) (hs : s.ciaAligned = true)
    (hl : len.extractLsb' 0 2 = 0#2) : (nextAddress s len target).extractLsb' 0 2 = 0#2 := by
  cases target with
  | none => exact aligned_add _ _ (by simpa [State.ciaAligned] using hs) hl
  | some t => exact aligned_target t

theorem setCia_inv {s : State} {a : DWord} (h : s.Inv) (ha : a.extractLsb' 0 2 = 0#2) : (setCia s a).Inv :=
  ⟨h.1, h.2.1, by simp [State.ciaAligned, ha]⟩

theorem runScalar_inv {p : Params} {ins : Suffix} {w0 : Word32} {w1 : Option Word32} {len : DWord} {s t : State} (hs : s.Inv)
    (hl : len.extractLsb' 0 2 = 0#2) (h : runScalar p ins w0 w1 len s = .next t) : t.Inv := by
  obtain ⟨ws, target, -, -, rfl⟩ := runScalar_next h
  exact setCia_inv (applyWrites_inv s _ hs) (nextAddress_aligned s len target hs.2.2 hl)

theorem executeUnprefixed_inv {p : Params} {w0 : Word32} {s t : State} (hs : s.Inv)
    (h : executeUnprefixed p w0 s = .next t) : t.Inv := by
  unfold executeUnprefixed at h
  split at h
  · exact absurd h (outcome_ne_next _ t)
  · exact runScalar_inv hs (by decide) h

theorem executeV31_inv {p : Params} {w0 w1 : Word32} {s t : State} (hs : s.Inv)
    (h : executeV31 p w0 w1 s = .next t) : t.Inv := by
  unfold executeV31 at h
  split at h
  · cases h; exact setCia_inv (applyWrites_inv s _ hs) (nextAddress_aligned s _ _ hs.2.2 (by decide))
  · cases h

theorem executeUnprinted_inv {p : Params} {w0 w1 : Word32} {s t : State} (hs : s.Inv)
    (h : executeUnprinted p w0 w1 s = .next t) : t.Inv := by
  unfold executeUnprinted at h
  split at h
  · exact executeV31_inv hs h
  · exact absurd h (outcome_ne_next _ t)

theorem executePrefixed_inv {p : Params} {want : Option Category} {rm : Rm} {w1 : Word32} {s t : State} (hs : s.Inv)
    (h : executePrefixed p want rm w1 s = .next t) : t.Inv := by
  have h8 : ∀ u : State, u.Inv → (u.cia + 8#64).extractLsb' 0 2 = 0#2 := fun u hu =>
    aligned_add _ _ (by simpa [State.ciaAligned] using hu.2.2) (by decide)
  obtain ⟨q, -, -, ⟨-, rfl⟩ | ⟨-, -, hr⟩ | ⟨-, -, -, -, u, hu, rfl⟩⟩ := executePrefixed_next h
  · exact setCia_inv hs (h8 s hs)
  · exact runScalar_inv hs (by decide) hr
  · exact setCia_inv (runLoop_inv hs hu) (h8 s hs)

/-! ### The machine for any parameters -/

/-- `exec` is the opcode table's meaning at the parameters of the runnable machine (R4). -/
theorem exec_eq_execFor (i : Instr) (s : State) : exec i s = execFor machine i s := by
  have h := classify_firstWord i
  cases i <;> first
    | rfl
    | (simp only [Instr.firstKind] at h; simp only [execFor, exec, Instr.secondWord?, Instr.rm?, h]; rfl)

/-- `step` is the step at those parameters (R4). -/
theorem step_eq_stepFor (s : State) : step s = stepFor machine s := by
  unfold step stepFor
  cases fetchNext machine s <;> first | rfl | exact exec_eq_execFor _ _

/-! ### The reference suffix ISA -/

/-- The decoded pair of a word of the reference suffix ISA. -/
def pairOf (op : ScalarOp) (m : RmMap) (rm : Rm) : Pair := ⟨prefixWord rm, op.word, rm, op.suffix op.word, m⟩

/-- A word of the reference suffix ISA is identified (R108 steps 1 to 3). -/
theorem identify_word {op : ScalarOp} {m : RmMap} (hv : op.valid = true) (hm : op.rmMap = some m) {want : Option Category}
    (hw : want = none ∨ want = some m.cat) (rm : Rm) (s : State) :
    identify machine want rm op.word s = .ok (pairOf op m rm) := by
  have hd : machine.suffixes.decode op.word = some (op.suffix op.word) := referenceDecode_word op hv
  have hc : machine.suffixes.mapping (op.suffix op.word) = some m := (mapping_word op hv).trans hm
  simp only [identify, primary_word_ne op hv, if_false, hd, hc]
  rcases hw with rfl | rfl <;> simp [pairOf]

/-- In 64-bit mode its scalar execution is the reference's, in the byte order of the machine, whatever that is (R4). -/
theorem run_word {p : Params} (hp : p.exec1 = referenceExec1) {op : ScalarOp} (hv : op.valid = true) (regs : List Nat) {s : State}
    (hm : s.mode = .bits64) : p.run (op.suffix op.word) regs s = execOp p.bigEndian op (op.suffix op.word) regs s := by
  have hw : (op.suffix op.word).word = op.word := rfl
  simp [Params.run, hp, referenceExec1, hm, hw, scalarOp_word op hv]

/-- The same for the runnable machine, which is big endian (log entry 5). -/
theorem exec1_word {op : ScalarOp} (hv : op.valid = true) (regs : List Nat) {s : State} (hm : s.mode = .bits64) :
    machine.run (op.suffix op.word) regs s = execOp true op (op.suffix op.word) regs s :=
  run_word (p := machine) rfl hv regs hm

/-- Under the identity map every number is a 5-bit one (R240). -/
theorem identityMap_lt (ins : Suffix) (k : Nat) : (identityMap ins).getD k 0 < 32 := by
  have h : ∀ sl : Slot, sl.ownNumber < 32 := by
    intro sl
    have h5 := sl.field.isLt
    have h3 := (sl.field.extractLsb' 0 3).isLt
    unfold Slot.ownNumber
    split <;> omega
  simp only [identityMap, List.getD_eq_getElem?_getD, List.getElem?_map]
  cases ins.slots[k]? with
  | none => simp
  | some sl => simpa using h sl

/-- What the reference writes out reads r0 to r31, fp0 to fp31 and CR0 to CR7 under the identity map (R22). -/
theorem execOp_scalarView (be : Bool) {op : ScalarOp} (hi : op.implicitRs = false) (hspr : op.spr = none) (w : Word32)
    (s : State) : execOp be op (op.suffix w) (identityMap (op.suffix w)) (scalarView s) =
      execOp be op (op.suffix w) (identityMap (op.suffix w)) s := by
  have hlt := identityMap_lt (op.suffix w)
  have hmcrf : ∀ bf bfa, op = .mcrf bf bfa → (regAt (identityMap (op.suffix w)) 1).val < 8 := by
    rintro bf bfa rfl
    have : ∀ f : BitVec 3, ((f.zeroExtend 5).extractLsb' 0 3).toNat % 128 < 8 := by decide
    exact this bfa
  generalize identityMap (op.suffix w) = regs at hlt hmcrf
  have hv : ∀ k, (regAt regs k).val < 32 := fun k => by
    have := hlt k; simp only [regAt, Fin.ofNat]; omega
  have hc : ∀ k, (crBitField regs k).val < 8 := fun k => by
    have := hlt k; simp only [crBitField, Fin.ofNat]; omega
  have hg : ∀ k, gprAt (scalarView s) regs k = gprAt s regs k := fun k => by
    rw [gprAt, readGpr_scalarView, if_pos (hv k), gprAt]
  have hf : ∀ k, fprAt (scalarView s) regs k = fprAt s regs k := fun k => by
    rw [fprAt, readFpr_scalarView, if_pos (hv k), fprAt]
  have hb : ∀ k, crBitAt (scalarView s) regs k = crBitAt s regs k := fun k => by
    rw [crBitAt, readCr_scalarView, if_pos (hc k), crBitAt]
  have hz : ∀ k f, gprOrZero (scalarView s) regs k f = gprOrZero s regs k f := fun k f => by
    rw [gprOrZero, hg, gprOrZero]
  have hr : ∀ rc v, recordInt (scalarView s) rc v = recordInt s rc v := fun _ _ => rfl
  have hcmp : ∀ a b, crOfCompare (scalarView s) a b = crOfCompare s a b := fun _ _ => rfl
  cases op with
  | maddedu => simp [ScalarOp.implicitRs] at hi
  | divmod2du => simp [ScalarOp.implicitRs] at hi
  | mtspr => simp [ScalarOp.spr] at hspr
  | mfspr => simp [ScalarOp.spr] at hspr
  | mcrf bf bfa => simp only [execOp, readCr_scalarView, if_pos (hmcrf bf bfa rfl)]
  | load k u => cases u <;> simp only [execOp, hg, hz, loadFrom, readBytes_scalarView]
  | loadX k u => cases u <;> simp only [execOp, hg, hz, loadFrom, readBytes_scalarView]
  | store k u => cases u <;> simp only [execOp, hg, hf, hz, StoreKind.source]
  | storeX k u => cases u <;> simp only [execOp, hg, hf, hz, StoreKind.source]
  | _ => simp only [execOp, hg, hf, hb, hz, hr, hcmp, scalarView_fpscr, scalarView_cia]

/-- The hardware is a full implementation: no cause 5. -/
theorem illegalStop_word {op : ScalarOp} {m : RmMap} {rm : Rm} {s : State} (h : reservedCause (pairOf op m rm) = none) :
    illegalStop machine (pairOf op m rm) s = none := by
  simp [illegalStop, h, machine, Config.hwSupports]

/-- The decode checks pass. -/
theorem decodeStop_word {op : ScalarOp} {m : RmMap} {rm : Rm} {s : State} (h : reservedCause (pairOf op m rm) = none)
    (hval : valueStop (pairOf op m rm) = none) (hvl : s.vl ≤ Config.vlMax) :
    decodeStop machine (pairOf op m rm) s = none := by
  have : decide (machine.vlMax < s.vl) = false := decide_eq_false (Nat.not_lt.mpr hvl)
  simp [decodeStop, illegalStop_word h, hval, this]

/-- `valueStop` passes on plain fields. -/
theorem valueStop_plain {q : Pair} (h : plain (commonOf q.rm) = true) (hi : q.ins.implicitRs = false) : valueStop q = none := by
  simp only [plain, Bool.and_eq_true, beq_iff_eq] at h
  simp [valueStop, hi, h.1.1.1, h.1.1.2, h.1.2, h.2]

/-- The masks of a single-predicate category. -/
theorem elementMask_single {s : State} {cat : Category} {rm : Rm} {vl : Nat} (h : cat.isTwin = false) :
    elementMask s cat rm vl =
      (List.range vl).map fun i => enabled s (commonOf rm).maskmode (commonOf rm).mask i := by
  simp [elementMask, h, latchMask]

/-- The masks of a twin-predicate category. -/
theorem elementMask_twin {s : State} {cat : Category} {rm : Rm} {vl : Nat} (h : cat.isTwin = true) :
    elementMask s cat rm vl =
      (List.range vl).map fun i =>
        enabled s (commonOf rm).maskmode (maskSrcOf rm) i && enabled s (commonOf rm).maskmode (commonOf rm).mask i := by
  simp [elementMask, h, latchMask, List.zipWith_map_left, List.zipWith_map_right, List.zipWith_self]

theorem maskStop_readable {mm : BitVec 1} {sel : BitVec 3} {vl : Nat} (h : maskReadable mm sel vl = true) :
    maskStop mm sel vl = none := by
  have h01 : ∀ x : BitVec 1, x = 0#1 ∨ x = 1#1 := by decide
  rcases h01 mm with rfl | rfl
  · simp only [maskReadable, if_true, Bool.or_eq_true, decide_eq_true_eq] at h
    rcases h with (rfl | rfl) | h
    · simp [maskStop]
    · simp [maskStop]
    · have : decide (64 < vl) = false := by simpa using h
      simp [maskStop, this]
  · simp only [maskReadable, show ¬(1#1 = 0#1) by decide, if_false, decide_eq_true_eq] at h
    have : decide (128 < Config.crPredOffs + vl) = false :=
      decide_eq_false (by simp only [show Config.crPredOffs = 32 from rfl]; omega)
    simp [maskStop, this]

theorem always_readable {mm : BitVec 1} {sel : BitVec 3} {vl : Nat} (h : always mm sel = true) :
    maskReadable mm sel vl = true := by
  simp only [always, Bool.and_eq_true, beq_iff_eq] at h
  simp [maskReadable, h.1, h.2]

theorem maskReadable_one (mm : BitVec 1) (sel : BitVec 3) : maskReadable mm sel 1 = true := by
  simp [maskReadable]

/-- An ALWAYS mask enables every element (R151). -/
theorem enabled_always {s : State} {mm : BitVec 1} {sel : BitVec 3} {i : Nat} (h : always mm sel = true) :
    enabled s mm sel i = true := by
  simp only [always, Bool.and_eq_true, beq_iff_eq] at h
  simp [enabled, intEnabled, h.1, h.2]

/-- The result of a prefixed instruction of the reference suffix ISA: the enabled elements in order, and `CIA + 8` (R245,
R249); scalar identity, `RM = 0` with VL = 1, included (R241). `f` is what one element does. -/
theorem executePrefixed_word {op : ScalarOp} {m : RmMap} (hv : op.valid = true) (hm : op.rmMap = some m)
    {want : Option Category} (hw : want = none ∨ want = some m.cat) {rm : Rm} {s : State} (hvl : vlLegal s)
    (hres : reservedCause (pairOf op m rm) = none) (hval : valueStop (pairOf op m rm) = none)
    (hadm : admissionStop machine (pairOf op m rm) (resolveAll (op.suffix op.word) m rm) s.vl = none)
    (hmask : masksStop m.cat rm s.vl = none)
    (on : Nat → Bool) (hon : elementMask s m.cat rm s.vl = (List.range s.vl).map on)
    (P : State → Prop) (hs : P s) (f : Nat → State → State) (hP : ∀ i u, P u → P (f i u))
    (hel : ∀ i u, i < s.vl → on i = true → P u →
      runElement machine (pairOf op m rm) (resolveAll (op.suffix op.word) m rm) s.vl i u = .ok (f i u))
    (hcia : ∀ i u, (f i u).cia = u.cia) (hspr : op.spr = none)
    (hid : rm = 0#24 → s.vl = 1 → on 0 = true ∧
      ∃ ws, machine.run (op.suffix op.word) (identityMap (op.suffix op.word)) (scalarView s) = .done ws none ∧
        scalarReach ws = ws ∧ applyWrites s ws = f 0 s) :
    executePrefixed machine want rm op.word s = .next (setCia (overElements s.vl on f s) (s.cia + 8#64)) := by
  have hc : (overElements s.vl on f s).cia = s.cia :=
    overElements_keeps (fun u => u.cia = s.cia) s.vl on f s (fun i u _ _ hu => (hcia i u).trans hu) rfl
  have h0 : s.vl ≠ 0 := by have := hvl.1; omega
  simp only [executePrefixed, identify_word hv hm hw, decodeStop_word hres hval hvl.2, executeChecked, h0, if_false]
  split
  · next hi =>
    have hi' : rm = 0#24 ∧ s.vl = 1 := hi
    obtain ⟨hon0, ws, he, hr, ha⟩ := hid hi'.1 hi'.2
    have hspr' : (op.suffix op.word).spr = none := hspr
    have : runScalar machine (op.suffix op.word) (prefixWord rm) (some op.word) 8#64 s =
        .next (setCia (overElements s.vl on f s) (s.cia + 8#64)) := by
      simp only [runScalar, sprStop, hspr', he, hr, ha, nextAddress, hi'.2]
      simp [overElements, hon0]
    exact this
  · have hend : ∀ ops, endsAfterFirst machine ops s.vl = false := fun ops => by
      simp [endsAfterFirst, machine, Config.scalarDestPolicy]
    have hl := runLoop_fold P machine (pairOf op m rm) (resolveAll (op.suffix op.word) m rm) s.vl s.vl on f s hs hP hel
    rw [← hon] at hl
    simp only [executeLoop]
    show (match firstStop [admissionStop machine (pairOf op m rm) (resolveAll (op.suffix op.word) m rm) s.vl,
        masksStop m.cat rm s.vl] with
      | some st => st.outcome
      | none => _) = _
    simp only [hadm, hmask, firstStop_none, firstStop_nil, hend]
    show (match runLoop machine (pairOf op m rm) (resolveAll (op.suffix op.word) m rm) s.vl false 0
        (elementMask s m.cat rm s.vl) s with
      | .error st => st.outcome
      | .ok s' => .next (setCia s' (nextAddress s 8#64 none))) = _
    rw [hl]
    rfl

end Machine
end Sys2Proof
end

