-- ==== Sys2Proof/Laws/Results.lean ====
section
/-! SUPPORT. What stands between a reference instruction and its result, once for all of them: the operands of each category,
the checks that pass, scalar identity as the one-element loop, and the result as the writes of the enabled elements. -/

namespace Sys2Proof
namespace Machine

/-! ### Operands -/

theorem resolve_gpr_number {slot : Slot} (hk : slot.kind = .gpr) (sub : SubValue) (i : Nat) :
    (resolve slot sub).number i = regNo slot.field sub i := by
  simp only [resolve, hk, Operand.number, regNo]
  split <;> simp

theorem resolve_fpr_number {slot : Slot} (hk : slot.kind = .fpr) (sub : SubValue) (i : Nat) :
    (resolve slot sub).number i = regNo slot.field sub i := by
  simp only [resolve, hk, Operand.number, regNo]
  split <;> simp

theorem resolve_crField_number {slot : Slot} (hk : slot.kind = .crField) (sub : SubValue) (i : Nat) :
    (resolve slot sub).number i = crNo (slot.field.extractLsb' 0 3) sub i := by
  simp only [resolve, hk, Operand.number, crNo]
  split <;> simp

theorem resolve_slot (slot : Slot) (sub : SubValue) : (resolve slot sub).slot = slot := by
  unfold resolve; split <;> rfl

theorem resolve_vector (slot : Slot) (sub : SubValue) : (resolve slot sub).vector = sub.isVector := by
  unfold resolve
  split <;> simp only [extendReg, extendCr, extendCrBit] <;> (split <;> simp_all)

theorem resolve_gpr_register {slot : Slot} (hk : slot.kind = .gpr) (sub : SubValue) (i : Nat) :
    (resolve slot sub).register i = regNo slot.field sub i := by
  rw [← resolve_gpr_number hk sub i]
  simp [Operand.register, resolve_slot, hk]

theorem resolve_fpr_register {slot : Slot} (hk : slot.kind = .fpr) (sub : SubValue) (i : Nat) :
    (resolve slot sub).register i = regNo slot.field sub i := by
  rw [← resolve_fpr_number hk sub i]
  simp [Operand.register, resolve_slot, hk]

/-- The register operand of a load or a store, in either file (R191). -/
theorem resolve_file_register {slot : Slot} (hk : slot.kind = .gpr ∨ slot.kind = .fpr) (sub : SubValue) (i : Nat) :
    (resolve slot sub).register i = regNo slot.field sub i := by
  rcases hk with hk | hk
  · exact resolve_gpr_register hk sub i
  · exact resolve_fpr_register hk sub i

theorem loadKind_file (k : LoadKind) : k.file = .gpr ∨ k.file = .fpr := by unfold LoadKind.file; split <;> simp

theorem storeKind_file (k : StoreKind) : k.file = .gpr ∨ k.file = .fpr := by unfold StoreKind.file; split <;> simp

theorem resolve_crField_register {slot : Slot} (hk : slot.kind = .crField) (sub : SubValue) (i : Nat) :
    (resolve slot sub).register i = crNo (slot.field.extractLsb' 0 3) sub i := by
  rw [← resolve_crField_number hk sub i]
  simp [Operand.register, resolve_slot, hk]

/-- The field part of a 5-bit CR operand is extended as a field number (R219). -/
theorem resolve_crBit_number {slot : Slot} (hk : slot.kind = .crBit) (sub : SubValue) (i : Nat) :
    (resolve slot sub).number i = crNo (slot.field.extractLsb' 2 3) sub i := by
  have : ∀ (x : BitVec 7) (y : BitVec 2), (x ++ y).extractLsb' 2 7 = x := by
    intro x y; ext j hj; simp [BitVec.getElem_extractLsb']; grind
  simp only [resolve, hk, Operand.number, crNo, extendCrBit, this]
  split <;> simp

theorem resolve_crBit_register {slot : Slot} (hk : slot.kind = .crBit) (sub : SubValue) (i : Nat) :
    (resolve slot sub).register i =
      crNo (slot.field.extractLsb' 2 3) sub i * 4 + (slot.field.extractLsb' 0 2).toNat := by
  rw [← resolve_crBit_number hk sub i]
  simp [Operand.register, resolve_slot, hk]

/-- The operands of an instruction of three EXTRA3 sub-fields (R183). -/
theorem resolveAll_rm1P2S1D {ins : Suffix} {s0 s1 s2 : Slot} (h : ins.slots = [s0, s1, s2]) (c : CommonRm)
    (x y z : BitVec 3) :
    resolveAll ins ⟨.rm1P2S1D, [.rdest, .rsrc1, .rsrc2]⟩ (packRm c (x ++ y ++ z)) =
      [resolve s0 (.extra3 x), resolve s1 (.extra3 y), resolve s2 (.extra3 z)] := by
  obtain ⟨h1, h2, h3⟩ := extra3_packRm c x y z
  simp [resolveAll, h, slotSub, subField, layout, subAt, h1, h2, h3]

/-- The operands of an instruction of four EXTRA2 sub-fields (R181). -/
theorem resolveAll_rm1P3S1D {ins : Suffix} {s0 s1 s2 s3 : Slot} (h : ins.slots = [s0, s1, s2, s3]) (c : CommonRm)
    (x y z u : BitVec 2) (e : BitVec 1) :
    resolveAll ins ⟨.rm1P3S1D, [.rdest, .rsrc1, .rsrc2, .rsrc3]⟩ (packRm c (x ++ y ++ z ++ u ++ e)) =
      [resolve s0 (.extra2 x), resolve s1 (.extra2 y), resolve s2 (.extra2 z), resolve s3 (.extra2 u)] := by
  obtain ⟨h1, h2, h3, h4, h5⟩ := extra2Mode_packRm c x y z u e
  simp [resolveAll, h, slotSub, subField, layout, subAt, h1, h2, h3, h4]

/-- The operands of a twin-predicate instruction of two EXTRA3 sub-fields (R185). -/
theorem resolveAll_rm2P1S1D {ins : Suffix} {s0 s1 : Slot} (h : ins.slots = [s0, s1]) (c : CommonRm) (x y z : BitVec 3) :
    resolveAll ins ⟨.rm2P1S1D, [.rdest, .rsrc1]⟩ (packRm c (x ++ y ++ z)) =
      [resolve s0 (.extra3 x), resolve s1 (.extra3 y)] := by
  obtain ⟨h1, h2, h3⟩ := extra3_packRm c x y z
  simp [resolveAll, h, slotSub, subField, layout, subAt, h1, h2]

/-- The operands of a store with a displacement (R186). -/
theorem resolveAll_rm2P2S {ins : Suffix} {s0 s1 : Slot} (h : ins.slots = [s0, s1]) (c : CommonRm) (x y z : BitVec 3) :
    resolveAll ins ⟨.rm2P2S, [.rsrc1, .rsrc2]⟩ (packRm c (x ++ y ++ z)) =
      [resolve s0 (.extra3 x), resolve s1 (.extra3 y)] := by
  obtain ⟨h1, h2, h3⟩ := extra3_packRm c x y z
  simp [resolveAll, h, slotSub, subField, layout, subAt, h1, h2]

/-- The operands of an indexed load (R187). -/
theorem resolveAll_rm2P2S1D {ins : Suffix} {s0 s1 s2 : Slot} (h : ins.slots = [s0, s1, s2]) (c : CommonRm)
    (x y z : BitVec 2) (e : BitVec 3) :
    resolveAll ins ⟨.rm2P2S1D, [.rdest, .rsrc1, .rsrc2]⟩ (packRm c (x ++ y ++ z ++ e)) =
      [resolve s0 (.extra2 x), resolve s1 (.extra2 y), resolve s2 (.extra2 z)] := by
  obtain ⟨h1, h2, h3, h4⟩ := extra2Mask_packRm c x y z e
  simp [resolveAll, h, slotSub, subField, layout, subAt, h1, h2, h3]

/-- The operands of a load with update, in the order of its slots: RT, RA read, RA written (R189). -/
theorem resolveAll_rm2P1S2D {ins : Suffix} {s0 s1 s2 : Slot} (h : ins.slots = [s0, s1, s2]) (c : CommonRm)
    (x y z : BitVec 2) (e : BitVec 3) :
    resolveAll ins ⟨.rm2P1S2D, [.rdest, .rsrc1, .rdest2]⟩ (packRm c (x ++ y ++ z ++ e)) =
      [resolve s0 (.extra2 y), resolve s1 (.extra2 x), resolve s2 (.extra2 z)] := by
  obtain ⟨h1, h2, h3, h4⟩ := extra2Mask_packRm c x y z e
  simp [resolveAll, h, slotSub, subField, layout, subAt, h1, h2, h3]

/-- The operands of an indexed store (R190). -/
theorem resolveAll_rm2P3S {ins : Suffix} {s0 s1 s2 : Slot} (h : ins.slots = [s0, s1, s2]) (c : CommonRm)
    (x y z : BitVec 2) (e : BitVec 3) :
    resolveAll ins ⟨.rm2P3S, [.rsrc1, .rsrc2, .rsrc3]⟩ (packRm c (x ++ y ++ z ++ e)) =
      [resolve s0 (.extra2 x), resolve s1 (.extra2 y), resolve s2 (.extra2 z)] := by
  obtain ⟨h1, h2, h3, h4⟩ := extra2Mask_packRm c x y z e
  simp [resolveAll, h, slotSub, subField, layout, subAt, h1, h2, h3]

/-! ### `RM = 0` -/

theorem slotSub_zero (m : RmMap) (k : Nat) : (slotSub m 0#24 k).isZero = true := by
  simp only [slotSub]
  cases m.subs[k]? with
  | none => rfl
  | some f =>
    simp only [Option.bind_some, subField]
    cases (layout m.cat).find? fun e => e.1 == f with
    | none => rfl
    | some e =>
      obtain ⟨g, three, sh⟩ := e
      simp only [Option.map_some, Option.getD_some, subAt]
      cases three <;> simp [SubValue.isZero]

/-- An operand whose sub-field is zero is unextended (R24, R220). -/
theorem resolve_zero {slot : Slot} {sub : SubValue} (h : sub.isZero = true) (i : Nat) :
    (resolve slot sub).register i = slot.ownNumber ∧ (resolve slot sub).number i ≤ 127 := by
  have hz : sub.isVector = false ∧ sub.aug = 0#2 := by
    cases sub with
    | extra2 v => simp only [SubValue.isZero, beq_iff_eq] at h; subst h; decide
    | extra3 v => simp only [SubValue.isZero, beq_iff_eq] at h; subst h; decide
  have hr : ∀ f, extendReg f sub = (false, 0#2 ++ f) := fun f => by simp [extendReg, hz]
  have hc : ∀ f, extendCr f sub = (false, 0#2 ++ 0#2 ++ f) := fun f => by simp [extendCr, hz]
  have h32 := slot.field.isLt
  have h5 : ∀ f : BitVec 5, (0#2 ++ f).toNat = f.toNat := by decide
  have h3 : ∀ f : BitVec 3, (0#2 ++ 0#2 ++ f).toNat = f.toNat := by decide
  have hb : ∀ f : BitVec 5, (f.extractLsb' 2 3).toNat * 4 + (f.extractLsb' 0 2).toNat = f.toNat := by decide
  cases hk : slot.kind with
  | gpr =>
    rw [resolve_gpr_register hk, resolve_gpr_number hk]
    simp only [regNo, hr, h5, Slot.ownNumber, hk]; simp; omega
  | fpr =>
    rw [resolve_fpr_register hk, resolve_fpr_number hk]
    simp only [regNo, hr, h5, Slot.ownNumber, hk]; simp; omega
  | crField =>
    rw [resolve_crField_register hk, resolve_crField_number hk]
    have := (slot.field.extractLsb' 0 3).isLt
    simp only [crNo, hc, h3, Slot.ownNumber, hk]; simp; omega
  | crBit =>
    rw [resolve_crBit_register hk, resolve_crBit_number hk]
    have := (slot.field.extractLsb' 2 3).isLt
    simp only [crNo, hc, h3, Slot.ownNumber, hk]; simp only [Bool.false_eq_true, if_false, Nat.add_zero, hb]
    exact ⟨trivial, by omega⟩

/-- With `RM = 0` the numbers of element 0 are the fields' own (R220, R241). -/
theorem registers_zero (ins : Suffix) (m : RmMap) :
    (resolveAll ins m 0#24).map (fun o => o.register 0) = identityMap ins := by
  have h : ∀ (l : List Slot) (k : Nat),
      ((l.zipIdx k).map fun e => resolve e.1 (slotSub m 0#24 e.2)).map (fun o => o.register 0) = l.map Slot.ownNumber := by
    intro l
    induction l with
    | nil => intro k; rfl
    | cons sl l ih =>
      intro k
      rw [List.zipIdx_cons, List.map_cons, List.map_cons, ih, List.map_cons, (resolve_zero (slotSub_zero m k) 0).1]
  exact h ins.slots 0

theorem commonOf_zero : commonOf 0#24 = ⟨0#1, 0#3, 0#2, 0#2, 0#2, 0#5⟩ := by decide

/-- With `RM = 0` the mask of one element enables it (R131). -/
theorem elementMask_zero (s : State) (cat : Category) : elementMask s cat 0#24 1 = [true] := by
  cases cat <;> simp [elementMask, Category.isTwin, commonOf_zero, maskSrcOf, latchMask, enabled, intEnabled]

/-- A zero sub-field gives the field's own number (R220). -/
theorem regNo_zero (f : BitVec 5) {sub : SubValue} (h : sub.isZero = true) : regNo f sub 0 = f.toNat := by
  have h5 : ∀ f : BitVec 5, (0#2 ++ f).toNat = f.toNat := by decide
  cases sub with
  | extra2 v =>
    simp only [SubValue.isZero, beq_iff_eq] at h
    subst h; simp [regNo, extendReg, SubValue.isVector, SubValue.aug, ← h5 f]
  | extra3 v =>
    simp only [SubValue.isZero, beq_iff_eq] at h
    subst h; simp [regNo, extendReg, SubValue.isVector, SubValue.aug, ← h5 f]

/-- A zero sub-field gives the CR field's own number (R220). -/
theorem crNo_zero (f : BitVec 3) {sub : SubValue} (h : sub.isZero = true) : crNo f sub 0 = f.toNat := by
  have h5 : ∀ f : BitVec 3, (0#2 ++ 0#2 ++ f).toNat = f.toNat := by decide
  cases sub with
  | extra2 v =>
    simp only [SubValue.isZero, beq_iff_eq] at h
    subst h; simp [crNo, extendCr, SubValue.isVector, SubValue.aug, ← h5 f]
  | extra3 v =>
    simp only [SubValue.isZero, beq_iff_eq] at h
    subst h; simp [crNo, extendCr, SubValue.isVector, SubValue.aug, ← h5 f]

/-- It is within the reach of an unprefixed instruction (R22). -/
theorem reg_zero_reach (f : BitVec 5) {sub : SubValue} (h : sub.isZero = true) : (reg (regNo f sub 0)).val < 32 := by
  rw [regNo_zero f h]; have := f.isLt; simp only [reg, Fin.ofNat]; omega

/-- It is within the reach of an unprefixed instruction (R25). -/
theorem cr_zero_reach (f : BitVec 3) {sub : SubValue} (h : sub.isZero = true) : (reg (crNo f sub 0)).val < 8 := by
  rw [crNo_zero f h]; have := f.isLt; simp only [reg, Fin.ofNat]; omega

/-- With `RM = 0` every EXTRA3 sub-field is zero. -/
theorem extra3_zero {c : CommonRm} {x y z : BitVec 3} (h : packRm c (x ++ y ++ z) = 0#24) :
    x = 0#3 ∧ y = 0#3 ∧ z = 0#3 := by
  obtain ⟨h1, h2, h3⟩ := extra3_packRm c x y z
  rw [h] at h1 h2 h3
  exact ⟨h1.symm.trans (by decide), h2.symm.trans (by decide), h3.symm.trans (by decide)⟩

/-- With `RM = 0` every EXTRA2 sub-field is zero (R181). -/
theorem extra2Mode_zero {c : CommonRm} {x y z u : BitVec 2} {e : BitVec 1} (h : packRm c (x ++ y ++ z ++ u ++ e) = 0#24) :
    x = 0#2 ∧ y = 0#2 ∧ z = 0#2 ∧ u = 0#2 := by
  obtain ⟨h1, h2, h3, h4, -⟩ := extra2Mode_packRm c x y z u e
  rw [h] at h1 h2 h3 h4
  exact ⟨h1.symm.trans (by decide), h2.symm.trans (by decide), h3.symm.trans (by decide), h4.symm.trans (by decide)⟩

/-- With `RM = 0` every EXTRA2 sub-field is zero (R187). -/
theorem extra2Mask_zero {c : CommonRm} {x y z : BitVec 2} {e : BitVec 3} (h : packRm c (x ++ y ++ z ++ e) = 0#24) :
    x = 0#2 ∧ y = 0#2 ∧ z = 0#2 := by
  obtain ⟨h1, h2, h3, -⟩ := extra2Mask_packRm c x y z e
  rw [h] at h1 h2 h3
  exact ⟨h1.symm.trans (by decide), h2.symm.trans (by decide), h3.symm.trans (by decide)⟩

/-! ### Checks that pass -/

/-- No reserved value: no cause of the width fields, every sub-field in use, EXTRA2_MODE 0 where it must be. -/
theorem reservedCause_of_widths {q : Pair} (hw : ∀ c ∈ widthCauses q.ins (commonOf q.rm), c = none)
    (hsub : ((layout q.map.cat).all fun e => q.map.subs.contains e.1) = true)
    (he : q.map.cat ≠ .rm1P3S1D ∨ q.ins.implicitRs = true ∨ extra2ModeOf q.rm = 0#1) : reservedCause q = none := by
  have hfirst : ∀ l : List (Option IllegalCause), (∀ c ∈ l, c = none) → firstCause l = none := by
    intro l
    induction l with
    | nil => intro _; rfl
    | cons x l ih =>
      intro h
      rw [h x (by simp)]
      exact ih fun c hc => h c (List.mem_cons_of_mem _ hc)
  refine hfirst _ fun c hc => ?_
  rcases List.mem_append.mp hc with hc | hc
  · rcases List.mem_append.mp hc with hc | hc
    · exact hw c hc
    · obtain ⟨e, hmem, rfl⟩ := List.mem_map.mp hc
      simp only [List.all_eq_true.mp hsub e hmem, Bool.not_true, Bool.false_and, Bool.false_eq_true, if_false]
  · rw [List.mem_singleton.mp hc]
    rcases he with h | h | h <;> simp [extra2ModeCause, h]

/-- No reserved value: integer and CR operands only, a source and a destination width, every sub-field in use. -/
theorem reservedCause_none {q : Pair} (hfp : (q.ins.slots.any fun sl => sl.kind == .fpr) = false) (hs : q.ins.single = false)
    (hw : q.ins.srcWidth = true) (hd : q.ins.dstWidth = true) (hsub : ((layout q.map.cat).all fun e => q.map.subs.contains e.1) = true)
    (he : q.map.cat ≠ .rm1P3S1D ∨ q.ins.implicitRs = true ∨ extra2ModeOf q.rm = 0#1) : reservedCause q = none := by
  have hfpr : ∀ field, fpWidthApplies q.ins field = false := by
    intro field
    simp only [List.any_eq_false, beq_iff_eq] at hfp
    cases field <;> simp only [fpWidthApplies, List.any_eq_false, Bool.and_eq_true, beq_iff_eq] <;>
      exact fun sl hsl hk => hfp sl hsl hk.1
  exact reservedCause_of_widths
    (by simp [widthCauses, reservedWidth, narrowWidth, unusedWidth, hasWidth, hfpr, hs, hw, hd]) hsub he

/-- No reserved value: both width fields 0, every sub-field in use. -/
theorem reservedCause_plain {q : Pair} (h : plain (commonOf q.rm) = true)
    (hsub : ((layout q.map.cat).all fun e => q.map.subs.contains e.1) = true)
    (he : q.map.cat ≠ .rm1P3S1D ∨ q.ins.implicitRs = true ∨ extra2ModeOf q.rm = 0#1) : reservedCause q = none := by
  simp only [plain, Bool.and_eq_true, beq_iff_eq] at h
  refine reservedCause_of_widths ?_ hsub he
  simp [widthCauses, reservedWidth, narrowWidth, unusedWidth, fpWidth, singleWidths, h.1.1.1, h.1.1.2]

/-- The element loop admits the instruction (R244 lines 4 to 8). -/
theorem admissionStop_none {q : Pair} {ops : List Operand} {vl : Nat}
    (hc : q.ins.cls = .arith ∨ q.ins.cls = .crop ∨ (q.ins.cls = .ldst ∧ vl = 1)) (hr : q.ins.rc1 = false)
    (hd : hasScalarDest ops = false ∨ vl = 1)
    (ht : q.map.cat.isTwin = false ∨ twinAdmitted (commonOf q.rm) (maskSrcOf q.rm) vl = true)
    (h0 : ra0Stop q = none) : admissionStop machine q ops vl = none := by
  have h4 : classStop q.ins vl = none := by
    rcases hc with h | h | ⟨h, rfl⟩ <;> simp [classStop, h]
  have h6 : scalarDestStop machine ops vl = none := by
    rcases hd with h | rfl <;> simp [scalarDestStop, *]
  have h7 : twinStop q.map q.rm vl = none := by
    rcases ht with h | h
    · simp [twinStop, h]
    · simp only [twinAdmitted, always, Bool.or_eq_true, Bool.and_eq_true, decide_eq_true_eq, beq_iff_eq] at h
      rcases h with rfl | ⟨⟨ha, hb⟩, -, hd⟩
      · simp [twinStop]
      · simp [twinStop, ha, hb, hd]
  simp [admissionStop, h4, hr, h6, h7, h0]

/-- Both masks of a twin-predicate instruction can be read (R154, R156, R248). -/
theorem masksStop_twin {cat : Category} {rm : Rm} {vl : Nat}
    (h : twinAdmitted (commonOf rm) (maskSrcOf rm) vl = true) : masksStop cat rm vl = none := by
  have hm : maskReadable (commonOf rm).maskmode (commonOf rm).mask vl = true ∧
      maskReadable (commonOf rm).maskmode (maskSrcOf rm) vl = true := by
    simp only [twinAdmitted, Bool.or_eq_true, Bool.and_eq_true, decide_eq_true_eq] at h
    rcases h with rfl | ⟨h1, h2⟩
    · exact ⟨maskReadable_one _ _, maskReadable_one _ _⟩
    · exact ⟨always_readable h1, always_readable h2⟩
  simp [masksStop, maskStop_readable hm.1, maskStop_readable hm.2]

theorem masksStop_single {cat : Category} {rm : Rm} {vl : Nat} (hc : cat.isTwin = false)
    (h : maskReadable (commonOf rm).maskmode (commonOf rm).mask vl = true) : masksStop cat rm vl = none := by
  simp [masksStop, hc, maskStop_readable h]

/-- Elements that write no CR field never write the predicate (R159). -/
theorem overwritesPredicate_none {mm : BitVec 1} {ops : List Operand} {i vl : Nat} {ws : List Write} {target : Option DWord}
    (ho : (ops.any fun o => o.slot.writes && (o.slot.kind == .crField || o.slot.kind == .crBit)) = false)
    (hw : ws.filterMap Write.crField? = []) : overwritesPredicate mm ops i vl (.done ws target) = false := by
  have : ops.filter (fun o => o.slot.writes && (o.slot.kind == .crField || o.slot.kind == .crBit)) = [] := by
    rw [List.filter_eq_nil_iff]
    simpa [List.any_eq_false] using ho
  simp [overwritesPredicate, elementCrFields, this, hw]

/-- An element that writes one CR field, not the predicate of a later element (R159). -/
theorem overwritesPredicate_field {mm : BitVec 1} {ops : List Operand} {i vl n : Nat} {r : ScalarResult}
    (hn : ∀ k ∈ elementCrFields ops i r, k = n) (h : mm = 1#1 → n ≤ 32 + i ∨ 32 + vl ≤ n) :
    overwritesPredicate mm ops i vl r = false := by
  have h1 : ∀ x : BitVec 1, x = 0#1 ∨ x = 1#1 := by decide
  simp only [overwritesPredicate, Bool.and_eq_false_iff, List.any_eq_false, Bool.and_eq_true, decide_eq_true_eq, not_and]
  rcases h1 mm with hm | hm
  · simp [hm]
  · right
    intro k hk
    have := h hm
    rw [hn k hk, show Config.crPredOffs = 32 from rfl]
    omega

theorem reg_val {n : Nat} (h : n ≤ 127) : (reg n).val = n := by
  simp only [reg, Fin.ofNat]; omega

/-- MASK_SRC after three-bit sub-fields (R185). -/
theorem maskSrcOf_extra3 (c : CommonRm) (x y z : BitVec 3) : maskSrcOf (packRm c (x ++ y ++ z)) = z :=
  (extra3_packRm c x y z).2.2

/-- MASK_SRC after two-bit sub-fields (R187). -/
theorem maskSrcOf_extra2 (c : CommonRm) (x y z : BitVec 2) (e : BitVec 3) : maskSrcOf (packRm c (x ++ y ++ z ++ e)) = e :=
  (extra2Mask_packRm c x y z e).2.2.2

/-- With one element every operand of an instruction fits: its base is a 7-bit number (R211, R219, R223). -/
theorem fits_one (sl : Slot) (sub : SubValue) : (resolve sl sub).number 0 ≤ 127 := by
  have h7 : ∀ x : BitVec 7, x.toNat ≤ 127 := fun x => by have := x.isLt; omega
  have : (resolve sl sub).base ≤ 127 := by unfold resolve; split <;> exact h7 _
  simpa [Operand.number] using this

theorem twinAdmitted_one (c : CommonRm) (m : BitVec 3) : twinAdmitted c m 1 = true := by simp [twinAdmitted]

/-- A store is within the reach of an unprefixed instruction. -/
theorem storeBytes_reach (a : DWord) (l : List Byte) : scalarReach (storeBytes a l) = storeBytes a l := by
  induction l generalizing a with
  | nil => rfl
  | cons b l ih => simpa [storeBytes, scalarReach, Write.inScalarReach] using ih (a + 1#64)

/-- What the write of a load's destination leaves. -/
theorem write_apply (s : State) (k : LoadKind) (r : RegNum) (v : DWord) : (k.write r v).apply s = loaded s k r v := by
  unfold LoadKind.write loaded; split <;> rfl

/-- What the writes of a load with update leave. -/
theorem applyWrites_updateWrites (s : State) (k : LoadKind) (rt ra : RegNum) (v ea : DWord) :
    applyWrites s (updateWrites k rt ra v ea) = afterUpdate s k rt ra v ea := by
  unfold updateWrites afterUpdate
  split
  · rfl
  · rw [applyWrites_cons, write_apply]; rfl

/-- A load is within the reach of an unprefixed instruction where its destination is (R22). -/
theorem write_reach {r : RegNum} (h : r.val < 32) (k : LoadKind) (v : DWord) : scalarReach [k.write r v] = [k.write r v] := by
  unfold LoadKind.write; split <;> simp [scalarReach, Write.inScalarReach, h]

/-- A load with update is within the reach of an unprefixed instruction where its two destinations are (R22). -/
theorem updateWrites_reach {rt ra : RegNum} (ht : rt.val < 32) (ha : ra.val < 32) (k : LoadKind) (v ea : DWord) :
    scalarReach (updateWrites k rt ra v ea) = updateWrites k rt ra v ea := by
  unfold updateWrites LoadKind.write
  split
  · simp [scalarReach, Write.inScalarReach, ht]
  · split <;> simp [scalarReach, Write.inScalarReach, ht, ha]

/-- A store with update is within the reach of an unprefixed instruction where its base is. -/
theorem storeUpdate_reach {ra : RegNum} (ha : ra.val < 32) (a : DWord) (l : List Byte) (v : DWord) :
    scalarReach (storeBytes a l ++ [.gpr ra v]) = storeBytes a l ++ [.gpr ra v] := by
  rw [scalarReach, List.filter_append, ← scalarReach, storeBytes_reach]
  simp [Write.inScalarReach, ha]

/-! ### The result -/

/-- The result of a reference instruction as the writes of its enabled elements in order (R241, R245, R249). `ws i u` are the
writes of element `i` in the state `u` the elements before it leave. -/
theorem executePrefixed_writes {op : ScalarOp} {m : RmMap} (hv : op.valid = true) (hm : op.rmMap = some m)
    {want : Option Category} (hw : want = none ∨ want = some m.cat) {rm : Rm} {s : State} (hmode : s.mode = .bits64)
    (hvl : vlLegal s) (hres : reservedCause (pairOf op m rm) = none) (hplain : plain (commonOf rm) = true)
    (hi : op.implicitRs = false) (hspr : op.spr = none) (ops : List Operand)
    (hops : resolveAll (op.suffix op.word) m rm = ops) (hadm : admissionStop machine (pairOf op m rm) ops s.vl = none)
    (hmask : masksStop m.cat rm s.vl = none)
    (on : Nat → Bool) (hon : elementMask s m.cat rm s.vl = (List.range s.vl).map on)
    (ws : Nat → State → List Write)
    (hexec : ∀ i u, execOp true op (op.suffix op.word) (ops.map fun o => o.register i) u = .done (ws i u) none)
    (hwm : ∀ i u, (applyWrites u (ws i u)).mode = u.mode)
    (hfit : ∀ i, i < s.vl → on i = true → ∀ o ∈ ops, o.number i ≤ 127)
    (hover : ∀ i u, i < s.vl → on i = true →
      overwritesPredicate (commonOf rm).maskmode ops i s.vl (.done (ws i u) none) = false)
    (hreach : rm = 0#24 → scalarReach (ws 0 s) = ws 0 s) :
    executePrefixed machine want rm op.word s =
      .next (setCia (overElements s.vl on (fun i u => applyWrites u (ws i u)) s) (s.cia + 8#64)) := by
  refine executePrefixed_word hv hm hw hvl hres (valueStop_plain hplain hi) (by rw [hops]; exact hadm) hmask on hon
    (fun u => u.mode = .bits64) hmode (fun i u => applyWrites u (ws i u)) ?_ ?_ ?_ hspr ?_
  · intro i u hu; exact (hwm i u).trans hu
  · intro i u hlt hoi hu
    rw [hops]
    refine runElement_done ?_ ?_ (hover i u hlt hoi)
    · simp only [runsOffEnd, List.any_eq_false, decide_eq_true_eq, Nat.not_lt]
      exact hfit i hlt hoi
    · exact (exec1_word hv _ hu).trans (hexec i u)
  · intro i u; exact applyWrites_cia u _
  · rintro rfl h1
    refine ⟨?_, ws 0 s, ?_, hreach rfl, rfl⟩
    · rw [h1, elementMask_zero] at hon
      simpa using hon
    · rw [exec1_word hv _ (s := scalarView s) hmode, execOp_scalarView true hi hspr, ← registers_zero (op.suffix op.word) m, hops]
      exact hexec 0 s

/-- With one element no field of the predicate is left to overwrite (R159). -/
theorem overwritesPredicate_one (mm : BitVec 1) (ops : List Operand) (r : ScalarResult) :
    overwritesPredicate mm ops 0 1 r = false := by
  simp only [overwritesPredicate, Bool.and_eq_false_iff, List.any_eq_false, Bool.and_eq_true, decide_eq_true_eq, not_and]
  exact .inr fun n _ h => by omega

/-- What one element leaves, or the trap it stops with. -/
def oneEffect (s : State) : ScalarResult → Except Stop State
  | .done ws _ => .ok (applyWrites s ws)
  | .trap t => .error (.fault (.suffixTrap 0 t s))

/-- The outcome of an instruction of one element. -/
def oneOutcome (s : State) : ScalarResult → Host.Outcome State Fault Refusal
  | .done ws _ => .next (setCia (applyWrites s ws) (s.cia + 8#64))
  | .trap t => .fault (.suffixTrap 0 t s)

/-- The result of a reference instruction with VL = 1: one element, or none (R241, R245, R248, R252). -/
theorem executePrefixed_one {op : ScalarOp} {m : RmMap} (hv : op.valid = true) (hm : op.rmMap = some m)
    {want : Option Category} (hw : want = none ∨ want = some m.cat) {rm : Rm} {s : State} (hmode : s.mode = .bits64)
    (hvl : s.vl = 1) (hres : reservedCause (pairOf op m rm) = none) (hplain : plain (commonOf rm) = true)
    (hi : op.implicitRs = false) (hspr : op.spr = none) (ops : List Operand)
    (hops : resolveAll (op.suffix op.word) m rm = ops) (hadm : admissionStop machine (pairOf op m rm) ops 1 = none)
    (on : Bool) (hon : elementMask s m.cat rm 1 = [on]) (hfit : on = true → ∀ o ∈ ops, o.number 0 ≤ 127)
    (r : ScalarResult) (hr : execOp true op (op.suffix op.word) (ops.map fun o => o.register 0) s = r)
    (ht : ∀ ws target, r = .done ws target → target = none ∧ (rm = 0#24 → scalarReach ws = ws)) :
    executePrefixed machine want rm op.word s =
      if on then oneOutcome s r else .next (setCia s (s.cia + 8#64)) := by
  have hmask : masksStop m.cat rm 1 = none := by
    simp [masksStop, maskStop_readable (maskReadable_one _ _)]
  have hval : valueStop (pairOf op m rm) = none := valueStop_plain hplain hi
  have hmax : s.vl ≤ Config.vlMax := by rw [hvl]; decide
  simp only [executePrefixed, identify_word hv hm hw, decodeStop_word hres hval hmax, executeChecked,
    show ¬(s.vl = 0) by omega, if_false]
  split
  · next hid =>
    have hid' : rm = 0#24 ∧ s.vl = 1 := hid
    obtain ⟨rfl, -⟩ := hid'
    have hon1 : on = true := by rw [elementMask_zero] at hon; simpa using hon.symm
    have he : machine.run (op.suffix op.word) (identityMap (op.suffix op.word)) (scalarView s) = r := by
      rw [exec1_word hv _ (s := scalarView s) hmode, execOp_scalarView true hi hspr, ← registers_zero (op.suffix op.word) m, hops]; exact hr
    have hspr' : (op.suffix op.word).spr = none := hspr
    subst hon1
    have : runScalar machine (op.suffix op.word) (prefixWord 0#24) (some op.word) 8#64 s =
        oneOutcome s r := by
      simp only [runScalar, sprStop, hspr', he]
      cases r with
      | done ws target =>
        obtain ⟨rfl, hreach⟩ := ht ws target rfl
        simp only [hreach rfl, nextAddress, oneOutcome]
      | trap t => rfl
    exact this
  · have hend : ∀ ops, endsAfterFirst machine ops 1 = false := fun ops => by simp [endsAfterFirst]
    have hloop : runLoop machine (pairOf op m rm) ops 1 false 0 [on] s =
        if on then oneEffect s r else .ok s := by
      cases on with
      | false => rfl
      | true =>
        have hoff : runsOffEnd ops 0 = false := by
          simp only [runsOffEnd, List.any_eq_false, decide_eq_true_eq, Nat.not_lt]
          exact hfit rfl
        have he : machine.run (pairOf op m rm).ins (ops.map fun o => o.register 0) s = r :=
          (exec1_word hv _ hmode).trans hr
        simp only [runLoop, runElement, hoff, he, overwritesPredicate_one, Bool.false_eq_true, if_false, if_true]
        cases r <;> rfl
    have : executeLoop machine (pairOf op m rm) s =
        if on then oneOutcome s r else .next (setCia s (s.cia + 8#64)) := by
      simp only [executeLoop]
      rw [show resolveAll (pairOf op m rm).ins (pairOf op m rm).map (pairOf op m rm).rm = ops from hops, hvl, hadm,
        show masksStop (pairOf op m rm).map.cat (pairOf op m rm).rm 1 = none from hmask, hend,
        show elementMask s (pairOf op m rm).map.cat (pairOf op m rm).rm 1 = [on] from hon, hloop]
      cases on with
      | false => rfl
      | true => cases r <;> rfl
    exact this

/-- All operands of a suffix fit with one element (R223). -/
theorem resolveAll_fits_one (ins : Suffix) (m : RmMap) (rm : Rm) : ∀ o ∈ resolveAll ins m rm, o.number 0 ≤ 127 := by
  intro o ho
  obtain ⟨e, -, rfl⟩ := List.mem_map.mp ho
  exact fits_one _ _

/-- A load or store records nothing, names no SPR and has no implicit RS. -/
theorem ldst_plain {op : ScalarOp} (h : op.cls = .ldst) : op.rc = false ∧ op.implicitRs = false ∧ op.spr = none := by
  cases op <;> first | exact ⟨rfl, rfl, rfl⟩ | simp [ScalarOp.cls] at h

/-- The mask of a twin-predicate category with one element: both predicates (R157, R248). -/
theorem elementMask_twin_one {s : State} {cat : Category} {rm : Rm} (h : cat.isTwin = true) :
    elementMask s cat rm 1 = [twinMask s (commonOf rm) (maskSrcOf rm) 0] := by
  rw [elementMask_twin h]; rfl

/-- The mask of a single-predicate category with one element (R121). -/
theorem elementMask_single_one {s : State} {cat : Category} {rm : Rm} (h : cat.isTwin = false) :
    elementMask s cat rm 1 = [singleMask s (commonOf rm) 0] := by
  rw [elementMask_single h]; rfl

/-- The result of a load or store of the reference suffix ISA with VL = 1: its one execution, or none, by the mask of its category (R244
line 4, R248, R252). -/
theorem executePrefixed_ldst {op : ScalarOp} {m : RmMap} (hv : op.valid = true) (hm : op.rmMap = some m) {rm : Rm} {s : State}
    (hmode : s.mode = .bits64) (hvl : s.vl = 1) (hplain : plain (commonOf rm) = true) (hc : op.cls = .ldst)
    (on : Bool) (hon : elementMask s m.cat rm 1 = [on]) (he : m.cat ≠ .rm1P3S1D ∨ extra2ModeOf rm = 0#1)
    (hsub : ((layout m.cat).all fun e => m.subs.contains e.1) = true) (ops : List Operand)
    (hops : resolveAll (op.suffix op.word) m rm = ops) (h0 : ra0Stop (pairOf op m rm) = none) (r : ScalarResult)
    (hr : execOp true op (op.suffix op.word) (ops.map fun o => o.register 0) s = r)
    (ht : ∀ ws target, r = .done ws target → target = none ∧ (rm = 0#24 → scalarReach ws = ws)) :
    executePrefixed machine (some m.cat) rm op.word s =
      if on then oneOutcome s r else .next (setCia s (s.cia + 8#64)) := by
  obtain ⟨hrc, hi, hspr⟩ := ldst_plain hc
  exact executePrefixed_one hv hm (.inr rfl) hmode hvl (reservedCause_plain hplain hsub (he.imp_right .inr)) hplain hi hspr ops
    hops (admissionStop_none (.inr (.inr ⟨hc, rfl⟩)) hrc (.inr rfl) (.inr (twinAdmitted_one _ _)) h0) on hon
    (fun _ => hops ▸ resolveAll_fits_one _ _ _) r hr ht

/-- RA field 0 with a zero sub-field, or another field, is no refusal (R256). -/
theorem ra0Stop_none {op : ScalarOp} {m : RmMap} {rm : Rm} {a : BitVec 5} {x : SubValue} (h0 : op.ra0 = some 1)
    (hs : op.slots[1]? = some (srcSlot .gpr a)) (hx : slotSub m rm 1 = x) (h : a ≠ 0#5 ∨ x.isZero = true) :
    ra0Stop (pairOf op m rm) = none := by
  simp only [ra0Stop, pairOf, ScalarOp.suffix, h0, hs, hx, stopIf_eq_none]
  rcases h with h | h <;> simp [h, srcSlot]

/-- The outcomes of a load from those of its one execution. -/
theorem loadsOrTraps_of {i : Instr} {s : State} {on : Bool} {k : LoadKind} {ea : DWord} {after : DWord → State}
    {ws : DWord → List Write} (hw : ∀ v, applyWrites s (ws v) = after v)
    (h : exec i s = if on then oneOutcome s (loadFrom true s k ea ws) else .next (setCia s (s.cia + 8#64))) :
    loadsOrTraps i s on k ea after := by
  refine ⟨?_, ?_, ?_⟩
  · intro ho; rw [h, ho]; rfl
  · intro bs ho hb; rw [h, ho, if_pos rfl, loadFrom, hb]; simp only [oneOutcome, hw]; rfl
  · intro x ho hb; rw [h, ho, if_pos rfl, loadFrom, hb]; rfl

/-- A load branches nowhere, and is within the reach of an unprefixed instruction where its writes are (R22). -/
theorem loadFrom_reach {s : State} {k : LoadKind} {ea : DWord} {ws : DWord → List Write} {rm : Rm}
    (h : rm = 0#24 → ∀ v, scalarReach (ws v) = ws v) :
    ∀ l target, loadFrom true s k ea ws = .done l target → target = none ∧ (rm = 0#24 → scalarReach l = l) := by
  intro l target he
  unfold loadFrom at he
  split at he <;> cases he
  exact ⟨rfl, fun h0 => h h0 _⟩

end Machine
end Sys2Proof
end

