-- ==== Sys2Proof/Laws/Frame.lean ====
section
/-! SUPPORT. Frames: what a list of writes leaves alone, and that a prefixed reference instruction leaves alone all that none of its
enabled elements writes. -/

namespace Sys2Proof
namespace Machine

/-! ### Writes -/

/-- A write of what a frame names. -/
def Write.within (gprs fprs : RegNum → Prop) (crBits : RegNum → Fin 4 → Prop) (bytes : DWord → Prop) (fp : Bool) :
    Write → Prop
  | .gpr n _ => gprs n
  | .fpr n _ => fprs n
  | .crField n _ => ∀ b, crBits n b
  | .crBit n b _ => crBits n b
  | .mem a _ => bytes a
  | .fpscr _ => fp = true
  | _ => False

/-- The bits of a CR field after one is set (R26). -/
theorem crFieldBit_set (f : BitVec 4) (b c : Fin 4) (v : Bool) :
    crFieldBit (setCrFieldBit f b v) c = if c = b then v else crFieldBit f c := by
  have h : ∀ (x y z w : Bool) (c : Fin 4),
      crFieldBit (BitVec.ofBool x ++ BitVec.ofBool y ++ BitVec.ofBool z ++ BitVec.ofBool w) c =
        if c = 0 then x else if c = 1 then y else if c = 2 then z else w := by decide
  simp only [setCrFieldBit, h]
  have hc : c = 0 ∨ c = 1 ∨ c = 2 ∨ c = 3 := by omega
  rcases hc with rfl | rfl | rfl | rfl <;> simp [eq_comm]

variable {gprs fprs : RegNum → Prop} {crBits : RegNum → Fin 4 → Prop} {bytes : DWord → Prop} {fp : Bool}

theorem keepsAllBut_refl (s : State) : keepsAllBut gprs fprs crBits bytes fp s s :=
  ⟨fun _ _ => rfl, fun _ _ => rfl, fun _ _ _ => rfl, fun _ _ => rfl, rfl, rfl, rfl, rfl, rfl, fun _ => rfl, rfl⟩

theorem keepsAllBut_setCia {s u : State} (h : keepsAllBut gprs fprs crBits bytes fp s u) (a : DWord) :
    keepsAllBut gprs fprs crBits bytes fp s (setCia u a) := h

/-- A write within the frame keeps it. -/
theorem keepsAllBut_write {s u : State} (h : keepsAllBut gprs fprs crBits bytes fp s u) {w : Write}
    (hw : w.within gprs fprs crBits bytes fp) : keepsAllBut gprs fprs crBits bytes fp s (w.apply u) := by
  obtain ⟨hg, hf, hc, hb, h1, h2, h3, h4, h5, h6, h7⟩ := h
  cases w with
  | gpr n v =>
    refine ⟨fun m hm => ?_, hf, hc, hb, h1, h2, h3, h4, h5, h6, h7⟩
    rw [Write.apply, readGpr_writeGpr, if_neg (fun e => hm (by rw [e]; exact hw)), hg m hm]
  | fpr n v =>
    refine ⟨hg, fun m hm => ?_, hc, hb, h1, h2, h3, h4, h5, h6, h7⟩
    rw [Write.apply, readFpr_writeFpr, if_neg (fun e => hm (by rw [e]; exact hw)), hf m hm]
  | crField n v =>
    refine ⟨hg, hf, fun m b hm => ?_, hb, h1, h2, h3, h4, h5, h6, h7⟩
    rw [Write.apply, readCr_writeCr, if_neg (fun e => hm (by rw [e]; exact hw b)), hc m b hm]
  | crBit n b v =>
    refine ⟨hg, hf, fun m c hm => ?_, hb, h1, h2, h3, h4, h5, h6, h7⟩
    rw [Write.apply, writeCrBit, readCr_writeCr]
    split
    · next e =>
      subst e
      rw [crFieldBit_set, if_neg (fun e => hm (by rw [e]; exact hw)), hc m c hm]
    · exact hc m c hm
  | mem a v =>
    refine ⟨hg, hf, hc, fun x hx => ?_, h1, h2, h3, h4, h5, h6, h7⟩
    rw [Write.apply, readByte_writeByte, if_neg (fun e => hx (by rw [e]; exact hw)), hb x hx]
  | fpscr v => exact ⟨hg, hf, hc, hb, h1, h2, h3, h4, h5, fun e => absurd (hw.symm.trans e) (by decide), h7⟩
  | xer v => exact hw.elim
  | lr v => exact hw.elim
  | ctr v => exact hw.elim
  | own k v => exact hw.elim
  | svstate v => exact hw.elim
  | mode m => exact hw.elim

/-- Writes within the frame keep it. -/
theorem keepsAllBut_writes {s u : State} (h : keepsAllBut gprs fprs crBits bytes fp s u) {ws : List Write}
    (hw : ∀ w ∈ ws, w.within gprs fprs crBits bytes fp) : keepsAllBut gprs fprs crBits bytes fp s (applyWrites u ws) := by
  induction ws generalizing u with
  | nil => exact h
  | cons w ws ih =>
    exact ih (keepsAllBut_write h (hw w (by simp))) fun x hx => hw x (List.mem_cons_of_mem _ hx)

/-- The bytes of a store. -/
theorem storeBytes_within (a : DWord) (l : List Byte) (h : ∀ k, k < l.length → bytes (a + BitVec.ofNat 64 k)) :
    ∀ w ∈ storeBytes a l, w.within gprs fprs crBits bytes fp := by
  induction l generalizing a with
  | nil => intro w hw; cases hw
  | cons b l ih =>
    intro w hw
    rcases List.mem_cons.mp hw with rfl | hw
    · simpa [Write.within] using h 0 (by simp)
    · refine ih (a + 1#64) (fun k hk => ?_) w hw
      have := h (k + 1) (by simpa using hk)
      rwa [show a + 1#64 + BitVec.ofNat 64 k = a + BitVec.ofNat 64 (k + 1) by
        rw [BitVec.add_assoc, Nat.add_comm k 1, BitVec.ofNat_add]]

/-- The register a load writes. -/
theorem write_within {k : LoadKind} {r : RegNum} (h : if k.fp then fprs r else gprs r) (v : DWord) :
    (k.write r v).within gprs fprs crBits bytes fp := by
  unfold LoadKind.write
  split <;> rename_i hk <;> simpa [hk, Write.within] using h

/-- The registers a load with update writes. -/
theorem updateWrites_within {k : LoadKind} {rt ra : RegNum} (ht : if k.fp then fprs rt else gprs rt) (ha : gprs ra) (v ea : DWord) :
    ∀ w ∈ updateWrites k rt ra v ea, w.within gprs fprs crBits bytes fp := by
  unfold updateWrites
  split
  · next h => simp [Write.within, h.2, ha]
  · intro w hw
    rcases List.mem_cons.mp hw with rfl | hw
    · exact write_within ht v
    · simp at hw; subst hw; exact ha

/-! ### The loop -/

/-- What every enabled element keeps, the completed loop keeps; element 0 finds the state the loop starts from. -/
theorem runLoop_keeps_enabled (P : State → Prop) (p : Params) (q : Pair) (ops : List Operand) (vl : Nat) (stop : Bool)
    (n : Nat) (on : Nat → Bool) (s t : State)
    (hstep : ∀ i u v, i < n → on i = true → (i = 0 → u = s) → P u → runElement p q ops vl i u = .ok v → P v) (hs : P s)
    (h : runLoop p q ops vl stop 0 ((List.range n).map on) s = .ok t) : P t := by
  have key : ∀ (k i : Nat) (u v : State), i + k = n → (i = 0 → u = s) → P u →
      runLoop p q ops vl stop i ((List.range' i k).map on) u = .ok v → P v := by
    intro k
    induction k with
    | zero => intro i u v _ _ hu h; cases h; exact hu
    | succ k ih =>
      intro i u v hi h0 hu h
      rw [List.range'_succ, List.map_cons] at h
      cases hon : on i with
      | false =>
        rw [hon] at h
        exact ih (i + 1) u v (by omega) (by omega) hu h
      | true =>
        rw [hon] at h
        simp only [runLoop] at h
        split at h
        · cases h
        · next u' he =>
          have hu' := hstep i u u' (by omega) hon h0 hu he
          split at h
          · cases h; exact hu'
          · exact ih (i + 1) u' v (by omega) (by omega) hu' h
  rw [List.range_eq_range'] at h
  exact key n 0 s t (by omega) (fun _ => rfl) hs h

/-- A prefixed reference instruction that answers a next state leaves alone all that none of its enabled elements writes. -/
theorem executePrefixed_frame {op : ScalarOp} {m : RmMap} (hv : op.valid = true) (hm : op.rmMap = some m)
    {want : Option Category} (hw : want = none ∨ want = some m.cat) {rm : Rm} {s t : State} (hmode : s.mode = .bits64)
    (hi : op.implicitRs = false) (hspr : op.spr = none) (ops : List Operand) (hops : resolveAll (op.suffix op.word) m rm = ops)
    (on : Nat → Bool) (hon : elementMask s m.cat rm s.vl = (List.range s.vl).map on)
    (hel : ∀ i u ws target, i < s.vl → on i = true → (i = 0 → u = s) → keepsAllBut gprs fprs crBits bytes fp s u →
      (s.vl = 1 ∨ classStop (op.suffix op.word) s.vl = none) → (∀ o ∈ ops, o.number i ≤ 127) →
      execOp true op (op.suffix op.word) (ops.map fun o => o.register i) u = .done ws target →
      ∀ w ∈ ws, w.within gprs fprs crBits bytes fp)
    (hfit : rm = 0#24 → ∀ o ∈ ops, o.number 0 ≤ 127)
    (h : executePrefixed machine want rm op.word s = .next t) : keepsAllBut gprs fprs crBits bytes fp s t := by
  obtain ⟨q, hq, -, hcase⟩ := executePrefixed_next h
  rw [identify_word hv hm hw] at hq
  obtain rfl := (Except.ok.inj hq).symm
  rcases hcase with ⟨-, rfl⟩ | ⟨h0, h1, hr⟩ | ⟨-, -, ha, -, u, hu, rfl⟩
  · exact keepsAllBut_refl s
  · obtain ⟨ws, target, -, he, rfl⟩ := runScalar_next hr
    have h0' : rm = 0#24 := h0
    subst h0'
    have hon0 : on 0 = true := by
      rw [h1, elementMask_zero] at hon; simpa using hon.symm
    have he' : execOp true op (op.suffix op.word) (ops.map fun o => o.register 0) s = .done ws target := by
      rw [← hops, registers_zero, ← execOp_scalarView true hi hspr, ← exec1_word hv _ (s := scalarView s) hmode]; exact he
    refine keepsAllBut_setCia (keepsAllBut_writes (keepsAllBut_refl s) fun w hw => ?_) _
    exact hel 0 s ws target (by omega) hon0 (fun _ => rfl) (keepsAllBut_refl s) (.inl h1) (hfit rfl) he' w (List.mem_filter.mp hw).1
  · rw [show resolveAll (pairOf op m rm).ins (pairOf op m rm).map (pairOf op m rm).rm = ops from hops,
      show elementMask s (pairOf op m rm).map.cat (pairOf op m rm).rm s.vl = _ from hon] at hu
    refine keepsAllBut_setCia (runLoop_keeps_enabled (keepsAllBut gprs fprs crBits bytes fp s) machine _ ops s.vl _ s.vl on
      s u (fun i v v' hi hoi h0 hk he => ?_) (keepsAllBut_refl s) hu) _
    obtain ⟨ws, target, hoff, hx, -, rfl⟩ := runElement_ok he
    have hmv : v.mode = .bits64 := hk.2.2.2.2.2.1.trans hmode
    refine keepsAllBut_writes hk fun w hw => ?_
    refine hel i v ws target hi hoi h0 hk (.inr ?_) ?_ ((exec1_word hv _ hmv).symm.trans hx) w hw
    · exact (firstStop_eq_none _).mp ha _ (by simp [pairOf])
    · intro o ho
      simp only [runsOffEnd, List.any_eq_false, decide_eq_true_eq, Nat.not_lt] at hoff
      exact hoff o ho

/-- A load or store is executed with VL = 1 only (R244 line 4). -/
theorem ldst_vl {ins : Suffix} {vl : Nat} (hc : ins.cls = .ldst) (h : vl = 1 ∨ classStop ins vl = none) : vl = 1 := by
  rcases h with h | h
  · exact h
  · by_contra hne
    simp [classStop, hc, hne] at h

/-- A load or store of the reference suffix ISA that answers a next state leaves alone all that its one execution, if VL = 1 and its
element is enabled, does not write. -/
theorem executePrefixed_frame_ldst {op : ScalarOp} {m : RmMap} (hv : op.valid = true) (hm : op.rmMap = some m)
    {rm : Rm} {s t : State} (hmode : s.mode = .bits64) (hc : op.cls = .ldst) (on : Nat → Bool)
    (hon : elementMask s m.cat rm s.vl = (List.range s.vl).map on) (ops : List Operand)
    (hops : resolveAll (op.suffix op.word) m rm = ops)
    (hel : ∀ ws target, s.vl = 1 → on 0 = true →
      execOp true op (op.suffix op.word) (ops.map fun o => o.register 0) s = .done ws target →
      ∀ w ∈ ws, w.within gprs fprs crBits bytes fp)
    (h : executePrefixed machine (some m.cat) rm op.word s = .next t) : keepsAllBut gprs fprs crBits bytes fp s t := by
  obtain ⟨-, hi, hspr⟩ := ldst_plain hc
  refine executePrefixed_frame hv hm (.inr rfl) hmode hi hspr ops hops on hon
    (fun i u ws target hlt hon h0 _ hcls _ he => ?_) (fun _ => hops ▸ resolveAll_fits_one _ _ _) h
  have h1 : s.vl = 1 := ldst_vl hc hcls
  obtain rfl : i = 0 := by omega
  rw [h0 rfl] at he
  exact hel ws target h1 hon he

/-- A load that completes writes what the value of its bytes gives. -/
theorem loadFrom_within {be : Bool} {s : State} {k : LoadKind} {ea : DWord} {ws : DWord → List Write}
    (h : ∀ v, ∀ w ∈ ws v, w.within gprs fprs crBits bytes fp) {l : List Write} {target : Option DWord}
    (he : loadFrom be s k ea ws = .done l target) : ∀ w ∈ l, w.within gprs fprs crBits bytes fp := by
  unfold loadFrom at he
  split at he <;> cases he
  exact h _

/-- A store writes as many bytes as it is wide. -/
theorem bytes_length (be : Bool) (k : StoreKind) (v : DWord) : (k.bytes be v).length = k.width := by
  cases k <;> cases be <;> rfl

end Machine
end Sys2Proof
end

