-- ==== Sys2Proof/Tests/Slice0.lean ====
section
/-! SUPPORT. Tests. Expected results come from spec/95_test_vectors.md, by the number of the vector, or by hand from the rule named;
suffix words are written out from Power ISA v3.0B's encodings (log entry 4). The second half shows, for every obligation with
hypotheses, a state and operands that meet them. -/

namespace Sys2Proof
namespace Tests
open Sys2Proof.Machine

set_option Elab.async false

/-! ### A small state and one step -/

/-- Reset with VL, some GPRs and some CR fields set, `CIA` at 0x1000. -/
def start (vl : Nat) (gprs : List (RegNum × DWord)) (crs : List (RegNum × BitVec 4)) : State :=
  crs.foldl (fun s e => writeCr s e.1 e.2)
    (gprs.foldl (fun s e => writeGpr s e.1 e.2) { State.reset with svstate := ⟨vl, []⟩, cia := 0x1000#64 })

/-- A state with a word in memory, in the machine's byte order. -/
def withWord (s : State) (a : DWord) (w : Word32) : State := applyWrites s (storeBytes a (bytesOfWord Config.bigEndian w))

/-- One step over a pair of words at `CIA`. -/
def pair (w0 w1 : Nat) (s : State) : Host.Outcome State Fault Refusal := step (s.withFetchWord 64 (w0 + w1 * 2 ^ 32))

/-- `CIA` and some GPRs of a next state. -/
def seen (ns : List RegNum) : Host.Outcome State Fault Refusal → Option (DWord × List DWord)
  | .next t => some (t.cia, ns.map (readGpr t))
  | .fault _ => none
  | .refused _ => none

def refusal? : Host.Outcome State Fault Refusal → Option Refusal
  | .next _ => none
  | .fault _ => none
  | .refused r => some r

def fault? : Host.Outcome State Fault Refusal → Option Fault
  | .next _ => none
  | .fault f => some f
  | .refused _ => none

/-- The cause of an illegal instruction. -/
def cause? (o : Host.Outcome State Fault Refusal) : Option IllegalCause :=
  match fault? o with
  | some (.illegalInstruction r _) => some r.cause
  | _ => none

/-! ### Well-formedness: ill-formed terms are refused -/

/-- A category its suffix does not have: `add` is RM-1P-2S1D. -/
theorem test_wf_refuses_wrong_category :
    (Instr.rm1P3S1D ⟨0, 0, 0, 0, 0, 0⟩ 0 0 0 0 0 0x7C221A14#32).wf = false ∧
    (Instr.rm2P1S1D ⟨0, 0, 0, 0, 0, 0⟩ 0 0 0 0x7C221A14#32).wf = false ∧
    (Instr.rm2P2S ⟨0, 0, 0, 0, 0, 0⟩ 0 0 0 0x7C221A14#32).wf = false ∧
    (Instr.rm2P2S1D ⟨0, 0, 0, 0, 0, 0⟩ 0 0 0 0 0x7C221A14#32).wf = false ∧
    (Instr.rm2P1S2D ⟨0, 0, 0, 0, 0, 0⟩ 0 0 0 0 0x7C221A14#32).wf = false ∧
    (Instr.rm2P3S ⟨0, 0, 0, 0, 0, 0⟩ 0 0 0 0 0x7C221A14#32).wf = false ∧
    (Instr.rm1P2S1D ⟨0, 0, 0, 0, 0, 0⟩ 0 0 0 0x10221933#32).wf = false := by decide +kernel

/-- A pair left unsplit although its suffix has a category. -/
theorem test_wf_refuses_unsplit_pair : (Instr.svp64Prefix 0x002400#24 0x7C221A14#32).wf = false := by decide +kernel

/-- A category for a suffix that is a prefix word, or is illegal. -/
theorem test_wf_refuses_no_suffix :
    (Instr.rm1P2S1D ⟨0, 0, 0, 0, 0, 0⟩ 0 0 0 0x05400000#32).wf = false ∧
    (Instr.rm1P2S1D ⟨0, 0, 0, 0, 0, 0⟩ 0 0 0 0#32).wf = false := by decide +kernel

theorem test_wf_accepts :
    (Instr.rm1P2S1D ⟨0, 0, 0, 0, 0, 0⟩ 4 4 0 0x7C221A14#32).wf = true ∧
    (Instr.svp64Prefix 0x002400#24 0x05400000#32).wf = true ∧ (Instr.ext01_unallocated_011 0).wf = true := by
  decide +kernel

/-! ### Decoding: a word for every constructor -/

/-- What the decoder reads. -/
def decoded (ws : List Word32) : Option Instr := (decodeWords referenceIsa ws).toOption

/-- R102, R103: a pair whose suffix fixes no category. -/
theorem test_decode_svp64Prefix :
    decoded [0x05600000#32, 0x05400000#32] = some (.svp64Prefix 0x200000#24 0x05400000#32) ∧
    decoded [0x07FFFFFF#32, 0x00000000#32] = some (.svp64Prefix 0xFFFFFF#24 0#32) := by decide +kernel

/-- 95_test_vectors.md 2.4: 0x05402D00 under RM-1P-3S1D; `maddld r1,r2,r3,r4`. -/
theorem test_decode_rm1P3S1D :
    decoded [0x05402D00#32, 0b000100_00001_00010_00011_00100_110011#32] =
      some (.rm1P3S1D ⟨0, 0, 0, 0, 0, 0⟩ 2 3 1 0 0 0x10221933#32) ∧
    decoded [0x05400020#32, 0x10221933#32] = some (.rm1P3S1D ⟨0, 0, 0, 0, 0, 0⟩ 0 0 0 0 1 0x10221933#32) := by
  decide +kernel

/-- 2.4: 0x05602400, MASK=010, and 0x05403BA0; `add r1,r2,r3`. -/
theorem test_decode_rm1P2S1D :
    decoded [0x05602400#32, 0b011111_00001_00010_00011_0_100001010_0#32] =
      some (.rm1P2S1D ⟨0, 2, 0, 0, 0, 0⟩ 4 4 0 0x7C221A14#32) ∧
    decoded [0x05403BA0#32, 0x7C221A14#32] = some (.rm1P2S1D ⟨0, 0, 0, 0, 0, 0⟩ 7 3 5 0x7C221A14#32) := by decide +kernel

/-- 2.4: 0x05402460; `extsb r5,r6`. -/
theorem test_decode_rm2P1S1D :
    decoded [0x05402460#32, 0b011111_00110_00101_00000_1110111010_0#32] =
      some (.rm2P1S1D ⟨0, 0, 0, 0, 0, 0⟩ 4 4 3 0x7CC50774#32) ∧
    decoded [0x05400800#32, 0x80220008#32] = some (.rm2P1S1D ⟨0, 0, 0, 0, 0, 0⟩ 1 0 0 0x80220008#32) := by decide +kernel

/-- R186: EXTRA 001 010 011; `stw r1,8(r2)`. -/
theorem test_decode_rm2P2S :
    decoded [0b000001_0_1_0_1_00_00_00_00_001_010_011_00000#32, 0b100100_00001_00010_0000000000001000#32] =
      some (.rm2P2S ⟨0, 0, 0, 0, 0, 0⟩ 1 2 3 0x90220008#32) := by decide +kernel

/-- 2.4: 0x07C027A0, MASKMODE=1, MASK=100, under RM-2P-2S1D; `lwzx r1,r2,r3`. -/
theorem test_decode_rm2P2S1D :
    decoded [0x07C027A0#32, 0b011111_00001_00010_00011_0000010111_0#32] =
      some (.rm2P2S1D ⟨1, 4, 0, 0, 0, 0⟩ 2 1 3 5 0x7C22182E#32) := by decide +kernel

/-- R189: EXTRA 01 10 11 100; `lwzu r1,8(r2)`. -/
theorem test_decode_rm2P1S2D :
    decoded [0b000001_0_1_0_1_00_00_00_00_01_10_11_100_00000#32, 0b100001_00001_00010_0000000000001000#32] =
      some (.rm2P1S2D ⟨0, 0, 0, 0, 0, 0⟩ 1 2 3 4 0x84220008#32) := by decide +kernel

/-- R190: EXTRA 01 10 11 100; `stdx r1,r2,r3`. -/
theorem test_decode_rm2P3S :
    decoded [0b000001_0_1_0_1_00_00_00_00_01_10_11_100_00000#32, 0b011111_00001_00010_00011_0010010101_0#32] =
      some (.rm2P3S ⟨0, 0, 0, 0, 0, 0⟩ 1 2 3 4 0x7C22192A#32) := by decide +kernel

/-- The rows of the opcode table that are handed to the suffix ISA, each from its match bits (R77, R79). -/
theorem test_decode_v31_rows :
    decoded [0x04000001#32, 7#32] = some (.ext01_8LS 1 7) ∧ decoded [0x05000001#32, 7#32] = some (.ext01_8RR 1 7) ∧
    decoded [0x07000001#32, 7#32] = some (.ext01_MRR 1 7) ∧ decoded [0x07900001#32, 7#32] = some (.ext01_MMIRR 1 7) ∧
    decoded [0x06000001#32, 7#32] = some (.ext01_row100 1 7) ∧ decoded [0x04800001#32, 7#32] = some (.ext01_row001 1 7) ∧
    decoded [0x06800001#32, 7#32] = some (.ext01_row101 1 7) := by decide +kernel

/-- The empty cells, each from its match bits: one word is enough (R79). -/
theorem test_decode_empty_cells :
    decoded [0x05800001#32] = some (.ext01_unallocated_011 1) ∧
    decoded [0x05100001#32] = some (.ext01_unallocated_010001 1) ∧
    decoded [0x05200001#32] = some (.ext01_unallocated_010010 1) ∧
    decoded [0x05300001#32] = some (.ext01_unallocated_010011 1) ∧
    decoded [0x07100001#32] = some (.ext01_unallocated_110001 1) ∧
    decoded [0x07200001#32] = some (.ext01_unallocated_110010 1) ∧
    decoded [0x07300001#32] = some (.ext01_unallocated_110011 1) ∧
    decoded [0x07800001#32] = some (.ext01_unallocated_111000 1) ∧
    decoded [0x07A00001#32] = some (.ext01_unallocated_111010 1) ∧
    decoded [0x07B00001#32] = some (.ext01_unallocated_111011 1) := by decide +kernel

/-- P1's bytes in both byte orders, and the rejections of the decoder. -/
theorem test_decode_bytes :
    decodeBytes referenceIsa true [5, 0x40, 0x24, 0, 0x7C, 0x22, 0x1A, 0x14] =
      .ok (.rm1P2S1D ⟨0, 0, 0, 0, 0, 0⟩ 4 4 0 0x7C221A14#32) ∧
    decodeBytes referenceIsa false [0, 0x24, 0x40, 5, 0x14, 0x1A, 0x22, 0x7C] =
      .ok (.rm1P2S1D ⟨0, 0, 0, 0, 0, 0⟩ 4 4 0 0x7C221A14#32) ∧
    decodeBytes referenceIsa true [5, 0x40, 0] = .error .noWord ∧
    decodeBytes referenceIsa true [5, 0x40, 0, 0] = .error (.noSecondWord 0x05400000#32) ∧
    decodeBytes referenceIsa true [0x7C, 0x22, 0x1A, 0x14] = .error (.unprefixed 0x7C221A14#32) := by decide +kernel

/-- 95_test_vectors.md 2.1: `RM` of the first words. -/
theorem test_rm_of_words :
    [0x05400000#32, 0x07FFFFFF#32, 0x07400000#32, 0x05C00000#32, 0x05600000#32, 0x05400001#32].map rmOf =
      [0#24, 0xFFFFFF#24, 0x800000#24, 0x400000#24, 0x200000#24, 1#24] := by decide +kernel

/-- The suffix words of the spec and of the reference suffix ISA, written out from their encodings. -/
theorem test_suffix_words :
    scalarOp 0x7C221A15#32 = some (.add 1 2 3 true) ∧ scalarOp 0x38000007#32 = some (.addi 0 0 7) ∧
    scalarOp 0x7D242800#32 = some (.cmp 2 true 4 5) ∧ scalarOp 0xEC22182A#32 = some (.fadds 1 2 3 false) ∧
    scalarOp 0x48000010#32 = some (.branch 4 false) ∧ scalarOp 0x7C0004AC#32 = some .sync ∧
    scalarOp 0b010100_00001_00010_00011_00100_00101_1#32 = some (.rlwimi 2 1 3 4 5 true) ∧
    scalarOp 0b011111_00001_00010_00011_00100_01111_0#32 = some (.isel 1 2 3 4) ∧
    scalarOp 0b111111_00001_00010_00011_00100_11101_0#32 = some (.fmadd 1 2 4 3 false) ∧
    scalarOp 0b011111_00001_00010_00011_0101110111_0#32 = some (.loadX .lha true 1 2 3) ∧
    scalarOp 0b010011_00001_00010_00011_0011000001_0#32 = some (.crlogic .xor 1 2 3) ∧
    scalarOp 0x7C2903A6#32 = some (.mtspr 9 1) ∧ scalarOp 0x7C2802A6#32 = some (.mfspr 1 8) := by decide +kernel

/-- Loads and stores of every field layout, written out from their encodings: D, DS (the two low bits select), X, byte-reversed, FP. -/
theorem test_load_store_words :
    scalarOp 0b100011_00001_00010_0000000000001001#32 = some (.load .lbz true 1 2 9) ∧
    scalarOp 0b111010_00001_00010_00000000000010_01#32 = some (.load .ld true 1 2 8) ∧
    scalarOp 0b111010_00001_00010_11111111111110_10#32 = some (.load .lwa false 1 2 0xFFF8) ∧
    scalarOp 0b110000_00001_00010_0000000000001000#32 = some (.load .lfs false 1 2 8) ∧
    scalarOp 0b111110_00001_00010_00000000000010_00#32 = some (.store .std false 1 2 8) ∧
    scalarOp 0b110110_00001_00010_0000000000001000#32 = some (.store .stfd false 1 2 8) ∧
    scalarOp 0b011111_00001_00010_00011_0000110111_0#32 = some (.loadX .lwz true 1 2 3) ∧
    scalarOp 0b011111_00001_00010_00011_0000110101_0#32 = some (.loadX .ld true 1 2 3) ∧
    scalarOp 0b011111_00001_00010_00011_0000010101_0#32 = some (.loadX .ld false 1 2 3) ∧
    scalarOp 0b011111_00001_00010_00011_1100010110_0#32 = some (.loadX .lhbr false 1 2 3) ∧
    scalarOp 0b011111_00001_00010_00011_0010010111_0#32 = some (.storeX .stw false 1 2 3) ∧
    scalarOp 0b011111_00001_00010_00011_1010110111_0#32 = some (.storeX .stfs true 1 2 3) := by decide +kernel

/-- R188: with an RA field of 0, or of RT, a load with update is none of the reference's words; into an FPR the second is (log entry
4). -/
theorem test_invalid_updates :
    scalarOp 0b011111_00001_00001_00011_0000110111_0#32 = none ∧ scalarOp 0b011111_00001_00000_00011_0000110111_0#32 = none ∧
    scalarOp 0b100001_00010_00010_0000000000001000#32 = none ∧
    scalarOp 0b011111_00001_00001_00011_1000110111_0#32 = some (.loadX .lfs true 1 1 3) := by decide +kernel

/-- R195, R194 (R4): the categories of the class rows and of the stores with update, and mappings that R181 to R195 exclude: `stw` under
RM-1P-2S1D; `lwzu` with its source for the updated RA. -/
theorem test_rm_categories :
    [ScalarOp.loadX .ld false 1 2 3, .loadX .lwz true 1 2 3, .load .lbz true 1 2 8, .store .std false 1 2 8,
      .storeX .stw false 1 2 3, .store .stw true 1 2 8, .storeX .stw true 1 2 3].map
        (fun op => categoryOf referenceIsa op.word) =
      [some .rm2P2S1D, some .rm2P2S1D, some .rm2P1S2D, some .rm2P2S, some .rm2P3S, some .rm1P2S1D, some .rm1P3S1D] ∧
    (let op := ScalarOp.store .stw false 1 2 8
     RmMap.fits ⟨.rm1P2S1D, [.rdest, .rsrc1, .rsrc2]⟩ (op.suffix op.word) = false) ∧
    (let op := ScalarOp.load .lwz true 1 2 8
     RmMap.fits ⟨.rm2P2S1D, [.rdest, .rsrc1, .rsrc2]⟩ (op.suffix op.word) = false) := by decide +kernel

/-- Whether a mapping, by category and sub-fields, is one that R181 to R195 allow the instruction. -/
def allowed (op : ScalarOp) (cat : Category) (subs : List SubField) : Bool := RmMap.fits ⟨cat, subs⟩ (op.suffix op.word)

/-- R195, R184, R188 (R4): what the named rows exclude: `add` with two masks or its sources exchanged, `rlwimi` with RA as its first source,
`madd` in another order, `isel` with its CR bit as the second source, `lhaux` with RA under Rsrc2. -/
theorem test_named_rows :
    allowed (.add 1 2 3 false) .rm1P2S1D [.rdest, .rsrc1, .rsrc2] = true ∧
    allowed (.add 1 2 3 false) .rm2P2S1D [.rdest, .rsrc1, .rsrc2] = false ∧
    allowed (.add 1 2 3 false) .rm1P2S1D [.rdest, .rsrc2, .rsrc1] = false ∧
    allowed (.rlwimi 1 2 3 4 5 false) .rm1P2S1D [.rdest, .rsrc2, .rsrc1] = false ∧
    allowed (.maddld 1 2 3 4) .rm1P3S1D [.rdest, .rsrc1, .rsrc3, .rsrc2] = false ∧
    allowed (.isel 1 2 3 4) .rm1P3S1D [.rdest, .rsrc1, .rsrc3, .rsrc2] = false ∧
    allowed (.isel 1 2 3 4) .rm1P3S1D [.rdest, .rsrc2, .rsrc1, .rsrc3] = true ∧
    allowed (.fmadd 1 2 3 4 false) .rm1P3S1D [.rdest, .rsrc3, .rsrc2, .rsrc1] = true ∧
    allowed (.loadX .lha true 1 2 3) .rm2P2S1D [.rdest, .rsrc2, .rsrc1] = false := by decide +kernel

/-- R189, R195 (R4): `lwzu` is in LDST Update, RM-2P-1S2D, in no other category, with its RA listed as two operands or as one that is read
and written; `lwzux` in LDST (Indexed) only. The same of a load R195's words do not include (the all-zero word here). -/
theorem test_ldst_update :
    (let lwzu := (ScalarOp.load .lwz true 1 2 8).suffix (ScalarOp.load .lwz true 1 2 8).word
     let lwzux := (ScalarOp.loadX .lwz true 1 2 3).suffix (ScalarOp.loadX .lwz true 1 2 3).word
     let once : Suffix := { lwzu with slots := [dstSlot .gpr 1, ⟨.gpr, 2, true, true⟩] }
     let cats := [Category.rm1P3S1D, .rm1P2S1D, .rm2P1S1D, .rm2P2S, .rm2P2S1D, .rm2P1S2D, .rm2P3S]
     let fitting := fun (subs : List SubField) (ins : Suffix) => cats.filter fun c => RmMap.fits ⟨c, subs⟩ ins
     fitting [.rdest, .rsrc1, .rdest2] lwzu = [.rm2P1S2D] ∧ fitting [.rdest2, .rsrc1, .rdest] lwzu = [.rm2P1S2D] ∧
       fitting [.rdest, .rsrc1] once = [.rm2P1S2D] ∧ fitting [.rdest, .rsrc1] { once with word := 0 } = [.rm2P1S2D] ∧
       fitting [.rdest, .rsrc1, .rsrc2] lwzux = [.rm2P2S1D] ∧
       fitting [.rdest, .rsrc1, .rsrc2] { lwzux with word := 0 } = [.rm2P2S1D] ∧
       fitting [.rdest, .rsrc2, .rsrc1] { lwzux with word := 0 } = []) := by decide +kernel

/-- R194 (R4): what the spec leaves to `rmCategory`: `subf` and `stwu` in either category of their profile, `stdux` with the RA it reads
and writes as one operand or as two, the sources of `stw` in either order. R184: `stwu` with RA as one operand is not in RM-1P-2S1D. -/
theorem test_open_categories :
    allowed (.subf 1 2 3 false) .rm2P2S1D [.rdest, .rsrc2, .rsrc1] = true ∧
    allowed (.store .stw true 1 2 8) .rm1P2S1D [.rdest, .rsrc1, .rsrc2] = true ∧
    allowed (.store .stw true 1 2 8) .rm2P2S1D [.rdest, .rsrc2, .rsrc1] = true ∧
    allowed (.store .stw false 1 2 8) .rm2P2S [.rsrc2, .rsrc1] = true ∧
    (let op := ScalarOp.storeX .std true 1 2 3
     allowed op .rm1P3S1D [.rdest, .rsrc1, .rsrc2, .rsrc3] = true ∧
       RmMap.fits ⟨.rm2P3S, [.rsrc1, .rsrc2, .rsrc3]⟩
         { op.suffix op.word with slots := [srcSlot .gpr 1, ⟨.gpr, 2, true, true⟩, srcSlot .gpr 3] } = true) ∧
    (let op := ScalarOp.store .stw true 1 2 8
     RmMap.fits ⟨.rm1P2S1D, [.rsrc1, .rsrc2]⟩
       { op.suffix op.word with slots := [srcSlot .gpr 1, ⟨.gpr, 2, true, true⟩] } = false) := by decide +kernel

/-! ### Steps -/

/-- E1, E2: scalar identity, and VL = 0. -/
theorem test_E1_E2 :
    seen [1] (pair 0x05400000 0x7C221A14 (start 1 [(2, 5), (3, 7)] [])) = some (0x1008, [12]) ∧
    seen [1] (pair 0x05400000 0x7C221A14 (start 0 [(2, 5), (3, 7)] [])) = some (0x1008, [0]) := by decide +kernel

/-- E3, E5: a vector add, without and with a mask in the register that is also its scalar source. -/
theorem test_E3_E5 :
    seen [4, 5, 6, 7] (pair 0x05402400 0x7C221A14 (start 4 [(3, 10), (8, 1), (9, 2), (10, 3), (11, 4)] [])) =
      some (0x1008, [11, 12, 13, 14]) ∧
    seen [4, 5, 6, 7] (pair 0x05602400 0x7C221A14
      (start 4 [(3, 5), (8, 1), (9, 2), (10, 3), (11, 4), (4, 90), (5, 91), (6, 92), (7, 93)] [])) =
      some (0x1008, [6, 91, 8, 93]) := by decide +kernel

/-- E6, E7: MASK=001, and CR predication on EQ. -/
theorem test_E6_E7 :
    seen [4, 5, 6, 7] (pair 0x05502400 0x7C221A14 (start 4 [(3, 2), (8, 1), (9, 2), (10, 3), (11, 4)] [])) =
      some (0x1008, [0, 0, 5, 0]) ∧
    seen [4, 5, 6, 7] (pair 0x07C02400 0x7C221A14 (start 4 [(3, 10), (8, 1), (9, 2), (10, 3), (11, 4)]
      [(32, 2), (33, 0), (34, 2), (35, 3)])) = some (0x1008, [11, 0, 13, 14]) := by decide +kernel

/-- E9, E10: a scalar destination. -/
theorem test_E9_E10 :
    refusal? (pair 0x05400400 0x7C221A14 (start 4 [] [])) = some .scalarDestination ∧
    seen [1] (pair 0x05400400 0x7C221A14 (start 1 [(8, 1), (3, 2)] [])) = some (0x1008, [3]) := by decide +kernel

/-- E11: r126 and r127 are written, then element 2 runs off the end. -/
theorem test_E11 :
    (match pair 0x05403000 0x7FE21A14 (start 4 [(2, 1), (3, 2)] []) with
      | .refused (.registerPast127 k t) => some (k, readGpr t 126, readGpr t 127, t.cia)
      | _ => none) = some (2, 3, 3, 0x1000) := by decide +kernel

/-- E12, E13, E14: MODE, and Rc=1 outside and inside scalar identity. -/
theorem test_E12_E14 :
    refusal? (pair 0x05400015 0x7C221A14 (start 0 [] [])) = some .modeNotSpecified ∧
    refusal? (pair 0x05402400 0x7C221A15 (start 4 [] [])) = some .vectorisedRc1 ∧
    (match pair 0x05400000 0x7C221A15 (start 1 [(2, 5), (3, 7)] []) with
      | .next t => some (readGpr t 1, readCr t 0)
      | _ => none) = some (12, 4) := by decide +kernel

/-- E15, E16: `cmp` over the CR fields that predicate it. -/
theorem test_E15_E16 :
    (match pair 0x07402800 0x7D242800 (start 8 [] ((List.range 8).map fun k => (Fin.ofNat 128 (32 + k), 8))) with
      | .fault (.undefinedCRPredicateOverwrite k t) => some (k, readCr t 36)
      | _ => none) = some (0, 8) ∧
    (match pair 0x07402800 0x7D242800 (start 4 [(5, 1)] ((List.range 4).map fun k => (Fin.ofNat 128 (32 + k), 8))) with
      | .next t => some ([36, 37, 38, 39, 40].map (readCr t))
      | _ => none) = some [8, 8, 8, 8, 0] := by decide +kernel

/-- E17, E18, E19: twin predication. -/
theorem test_E17_E19 :
    seen [20] (pair 0x05402460 0x7CC50774 (start 1 [(3, 1), (24, 0x80)] [])) = some (0x1008, [0]) ∧
    seen [20] (pair 0x05402460 0x7CC50774 (start 1 [(3, 0), (24, 0x80)] [])) = some (0x1008, [0xFFFFFFFFFFFFFF80]) ∧
    refusal? (pair 0x05402460 0x7CC50774 (start 4 [] [])) = some .twinSteppingNotSpecified := by decide +kernel

/-- E20, E21: a load. -/
theorem test_E20_E21 :
    seen [33] (pair 0x05400800 0x80220008 (withWord (start 1 [(2, 0x2000)] []) 0x2008 0x11223344#32)) =
      some (0x1008, [0x11223344]) ∧
    refusal? (pair 0x05400800 0x80220008 (start 2 [(2, 0x2000)] [])) = some .vectorisedLdst := by decide +kernel

/-- E22, E23, and P2's last step at VL = 4: a branch. -/
theorem test_E22_E23 :
    seen [] (pair 0x05400000 0x48000010 (start 1 [] [])) = some (0x1010, []) ∧
    seen [] (pair 0x05400000 0x48000010 (start 0 [] [])) = some (0x1008, []) ∧
    refusal? (pair 0x05400000 0x48000010 (start 4 [] [])) = some .vectorisedBranch := by decide +kernel

/-- E24, E25. -/
theorem test_E24_E25 :
    refusal? (pair 0x05400000 0x05400000 (start 0 [] [])) = some .suffixIsPrefixWord ∧
    refusal? (pair 0x05402400 0x7C221A14 { start 4 [] [] with cia := 0x3C }) = some .crosses64ByteBoundary := by
  decide +kernel

/-- E26, E27, E28: RT = 0 and RA = 0. -/
theorem test_E26_E28 :
    seen [0, 1] (pair 0x05402400 0x7C021A14 (start 2 [(3, 1), (8, 5), (9, 6)] [])) = some (0x1008, [6, 7]) ∧
    refusal? (pair 0x05402400 0x38000007 (start 2 [] [])) = some .ra0WithExtra ∧
    seen [0, 1] (pair 0x05402000 0x38000007 (start 2 [] [])) = some (0x1008, [7, 7]) := by decide +kernel

/-- 2.2 and 2.7: reserved and unsupported widths of `fadds`, also with VL = 0; `maddld` with EXTRA2_MODE. -/
theorem test_reserved_fields :
    cause? (pair 0x054C0000 0xEC22182A (start 0 [] [])) = some (.reservedElwidth .elwidth) ∧
    cause? (pair 0x05480000 0xEC22182A (start 1 [] [])) = some (.narrowSingle .elwidth 2) ∧
    cause? (pair 0x05430000 0xEC22182A (start 1 [] [])) = some (.narrowSingle .elwidthSrc 3) ∧
    cause? (pair 0x05400020 0x10221933 (start 1 [] [])) = some .unusedExtra2Mode ∧
    refusal? (pair 0x054C0000 0x7C221A14 (start 1 [] [])) = some .elwidthNotSpecified ∧
    refusal? (pair 0x05420000 0x7C221A14 (start 1 [] [])) = some .elwidthNotSpecified ∧
    refusal? (pair 0x05408000 0x7C221A14 (start 1 [] [])) = some .subvlNotSpecified := by decide +kernel

/-- R105 (U4), R126: a width on a branch or a fence traps, at every VL; on a CR operation it is refused, and so it is on any suffix
whose operands are CR fields. -/
theorem test_unused_widths :
    cause? (pair 0x05440000 0x48000010 (start 1 [] [])) = some (.unusedWidth .elwidth 1) ∧
    cause? (pair 0x05420000 0x7C0004AC (start 0 [] [])) = some (.unusedWidth .elwidthSrc 2) ∧
    refusal? (pair 0x05410000 0b010011_00001_00010_00011_0011000001_0 (start 1 [] [])) = some .elwidthNotSpecified ∧
    unusedWidth { ScalarOp.suffix .sync 0 with slots := [dstSlot .crField 1] } .elwidthSrc 1 = none := by decide +kernel

/-- R240: a fence with L or a reserved bit set is none of the reference's words (log entry 4). -/
theorem test_sync_words :
    scalarOp 0x7C2004AC#32 = none ∧ scalarOp 0x7C0104AC#32 = none ∧ scalarOp 0x7C0004AC#32 = some .sync := by decide +kernel

/-- R79: row 100 with an instruction of the suffix ISA, and without one, "otherwise illegal". -/
theorem test_unprinted_rows :
    completes (pair 0x06000000 0x7C221A14 (start 4 [] [])) = true ∧
    (match executeUnprinted { machine with hasUnprinted := fun _ _ => false } 0x06000000 0x7C221A14 (start 1 [] []) with
      | .fault (.illegalInstruction r t) => some (r, t.cia)
      | _ => none) = some (⟨0x1000, 0x06000000, some 0x7C221A14, .unallocatedPrefix⟩, 0x1000) := by
  constructor
  · rfl
  · decide +kernel

/-- R22, R243: r32 is hidden from an unprefixed instruction, r31 is not. -/
theorem test_scalarView :
    [31, 32].map (readGpr (scalarView (start 1 [(31, 7), (32, 9)] []))) = [7, 0] ∧
    [7, 8].map (readCr (scalarView (start 1 [] [(7, 3), (8, 5)]))) = [3, 0] := by decide +kernel

/-- R286: no execute permission on the second word, reported at `CIA` of the first. -/
theorem test_noExecute :
    (match fetchNext { machine with fetchTrap := fun _ a => if a = 0x1004 then some (.noExecute a) else none }
        (withWord (start 1 [] []) 0x1000 0x05400000) with
      | .stopped (.fault (.fetchTrap a x t)) => some (a, x, t.cia)
      | _ => none) = some (0x1000, .noExecute 0x1004, 0x1000) := by decide +kernel

/-- R286: no byte at `CIA`. -/
theorem test_fetchAbsent :
    (match step (start 1 [] []) with
      | .fault (.fetchTrap a x t) => some (a, x, t.cia)
      | _ => none) = some (0x1000, .fetchAbsent 0x1000, 0x1000) := by decide +kernel

/-- P1's first step, unprefixed; and the illegal all-zero word. -/
theorem test_unprefixed :
    seen [3] (step (withWord (start 4 [] []) 0x1000 0x3860000A#32)) = some (0x1004, [10]) ∧
    cause? (step (withWord (start 4 [] []) 0x1000 0#32)) = some .illegalSuffix := by decide +kernel

/-- P4's second step: the word behind it is not there, and is not fetched. -/
theorem test_P4 :
    (match step (withWord (start 1 [] []) 0x1000 0x05800000#32) with
      | .fault (.illegalInstruction r t) => some (r, t.cia)
      | _ => none) = some (⟨0x1000, 0x05800000, none, .unallocatedPrefix⟩, 0x1000) := by decide +kernel

/-- R181, by hand: r1 <- r2 * r3 + r4 = 5 * 7 + 1. -/
theorem test_maddld :
    seen [1] (pair 0x05400000 0x10221933 (start 1 [(2, 5), (3, 7), (4, 1)] [])) = some (0x1008, [36]) := by decide +kernel

/-- R184, by hand: `rlwimi r2,r1,8,16,23` inserts 0xAB00 of r1 = 0xAB rotated by 8; here RA is written at r66 (sub-field 010) and
read at r2. -/
theorem test_rlwimi :
    seen [2, 66] (pair 0b000001_0_1_0_1_00_00_00_00_010_000_000_00000 0b010100_00001_00010_01000_10000_10111_0
      (start 1 [(1, 0xAB), (2, 0x11111111)] [])) = some (0x1008, [0x11111111, 0x1111AB11]) := by decide +kernel

/-- R186, by hand: `stw r1,8(r2)`, most significant byte first; the four bytes and no fifth. -/
theorem test_stw :
    (match pair 0x05400000 0x90220008 (start 1 [(1, 0xAABBCCDD11223344), (2, 0x2000)] []) with
      | .next t => some ((List.range 6).map fun k => readByte t (0x2007 + BitVec.ofNat 64 k))
      | _ => none) = some [none, some 0x11, some 0x22, some 0x33, some 0x44, none] := by decide +kernel

/-- R190, by hand: `stdx r1,r2,r3` at the top of memory wraps (R7). -/
theorem test_stdx :
    (match pair 0x05400000 0x7C22192A (start 1 [(1, 0x0102030405060708), (2, 0xFFFFFFFFFFFFFFF0), (3, 0xC)] []) with
      | .next t => some ([0xFFFFFFFFFFFFFFFC, 0xFFFFFFFFFFFFFFFF, 0, 3, 4].map (readByte t))
      | _ => none) = some [some 1, some 4, some 5, some 8, none] := by decide +kernel

/-- R188, by hand: `lhaux r1,r2,r3` sign extends, and writes the address to the RA it read, r34 (sub-field 01). -/
theorem test_lhaux :
    seen [1, 2, 34] (pair 0b000001_0_1_0_1_00_00_00_00_00_01_00_000_00000 0x7C221AEE
      (withWord (start 1 [(34, 0x2000), (3, 4)] []) 0x2004 0x80010000#32)) =
      some (0x1008, [0xFFFFFFFFFFFF8001, 0, 0x2004]) := by decide +kernel

/-- R189, by hand: `lwzu r1,8(r2)` reads RA at r34 (Rsrc 01), writes RT at r1 and RA at r2. -/
theorem test_lwzu :
    seen [1, 2, 34] (pair 0b000001_0_1_0_1_00_00_00_00_01_00_00_000_00000 0x84220008
      (withWord (start 1 [(34, 0x2000)] []) 0x2008 0x80010000#32)) =
      some (0x1008, [0x80010000, 0x2008, 0x2000]) := by decide +kernel

/-- R188, by hand: `ldux r1,r2,r3` with Rsrc1 01: RA is r34 both read and written; eight bytes, most significant first. -/
theorem test_ldux :
    seen [1, 2, 34] (pair 0b000001_0_1_0_1_00_00_00_00_00_01_00_000_00000 0x7C22186A
      (withWord (withWord (start 1 [(34, 0x2000), (3, 4)] []) 0x2004 0x80010000#32) 0x2008 5#32)) =
      some (0x1008, [0x8001000000000005, 0, 0x2004]) := by decide +kernel

/-- R194 (log entry 25), by hand: `stwux r1,r2,r3` with Rsrc2 01, `stwu r1,8(r2)` with Rsrc2 001: RA is read at r34 and written at
r2. -/
theorem test_stwux_stwu :
    (let after := fun (w0 w1 : Nat) => match pair w0 w1 (start 1 [(1, 0x11223344), (34, 0x2000), (3, 4)] []) with
      | .next t => some (readGpr t 2, readGpr t 34, (List.range 6).map fun k => readByte t (0x2003 + BitVec.ofNat 64 k))
      | _ => none
     after 0b000001_0_1_0_1_00_00_00_00_00_00_01_00_0_00000 0b011111_00001_00010_00011_0010110111_0 =
       some (0x2004, 0x2000, [none, some 0x11, some 0x22, some 0x33, some 0x44, none]) ∧
     after 0b000001_0_1_0_1_00_00_00_00_000_000_001_00000 0b100101_00001_00010_0000000000001000 =
       some (0x2008, 0x2000, [none, none, none, none, none, some 0x11])) := by decide +kernel

/-- R191, by hand: `lfs f1,8(r2)` and `lhbrx r1,r2,r3`: 1.5 in double format; the halfword's bytes swapped. -/
theorem test_lfs_lhbrx :
    (match pair 0x05400000 0xC0220008 (withWord (start 1 [(2, 0x2000)] []) 0x2008 0x3FC00000#32) with
      | .next t => some (readFpr t 1, readGpr t 1)
      | _ => none) = some (0x3FF8000000000000, 0) ∧
    seen [1] (pair 0x05400000 0x7C221E2C (withWord (start 1 [(2, 0x2000), (3, 8)] []) 0x2008 0x11223344#32)) =
      some (0x1008, [0x2211]) := by decide +kernel

/-- R125, log entry 7: what `stfs` stores of 1.5, an infinity and -0, and of 2^-149, the least denormal. -/
theorem test_doubleToSingle :
    [0x3FF8000000000000#64, 0xFFF0000000000000#64, 0x8000000000000000#64, 0x36A0000000000000#64].map doubleToSingle =
      [0x3FC00000#32, 0xFF800000#32, 0x80000000#32, 1#32] := by decide +kernel

/-- R4, R51: in a little endian machine fetch and data are both little endian: `lwz r1,8(r2)`. -/
theorem test_little_endian :
    seen [1] (stepFor { machine with bigEndian := false }
      (withWord (withWord (start 1 [(2, 0x2000)] []) 0x2008 0x11223344#32) 0x1000 0x08002280#32)) =
      some (0x1004, [0x44332211]) := by decide +kernel

/-- R187, R252: `lwzx` from an absent address; the trap, with the state before it. -/
theorem test_lwzx_absent :
    (match pair 0x05400000 0x7C22182E (start 1 [(1, 9), (2, 0x2000)] []) with
      | .fault (.suffixTrap k x t) => some (k, x, readGpr t 1)
      | _ => none) = some (0, .dataAbsent 0x2000, 9) := by decide +kernel

/-- R215: `crxor` of bits 2 and 3 of CR0 into bit 1 of CR10 (sub-field 001 on BT = 9, field 2 bit 1). -/
theorem test_crxor :
    (match pair 0b000001_0_1_0_1_00_00_00_00_001_000_000_00000 0b010011_01001_00010_00011_0011000001_0
        (start 1 [] [(0, 2), (10, 8)]) with
      | .next t => some (readCr t 10)
      | _ => none) = some 12 := by decide +kernel

/-- R125: 1.5, the least denormal 2^-149 and an infinity of binary32 in double format. -/
theorem test_singleToDouble :
    [0x3FC00000#32, 1#32, 0xFF800000#32].map singleToDouble =
      [0x3FF8000000000000#64, 0x36A0000000000000#64, 0xFFF0000000000000#64] := by decide +kernel

/-- 95_test_vectors.md 2.3: the integer rows. -/
theorem test_integer_predicates :
    ([(1, 2), (1, 4), (1, 0x100000000), (2, 5), (3, 5), (3, 0)].map fun e : BitVec 3 × DWord =>
      latchMask (start 4 [(3, e.2)] []) 0 e.1 4) =
      [[false, false, true, false], [false, false, false, false], [false, false, false, false], [true, false, true, false],
        [false, true, false, true], [true, true, true, true]] ∧
    latchMask (start 4 [(10, 8)] []) 0 4 4 = [false, false, false, true] ∧
    latchMask (start 4 [(30, 3)] []) 0 7 4 = [false, false, true, true] ∧
    (latchMask (start 65 [(3, 64)] []) 0 1 65).getLast? = some true := by decide +kernel

/-- 2.3: the CR rows. -/
theorem test_cr_predicates :
    ((List.range 8).map fun sel => latchMask (start 4 [] [(32, 8), (33, 4), (34, 2), (35, 3)]) 1 (BitVec.ofNat 3 sel) 4) =
      [[true, false, false, false], [false, true, true, true], [false, true, false, false], [true, false, true, true],
        [false, false, true, true], [true, true, false, false], [false, false, false, true], [true, true, true, false]] := by
  decide +kernel

/-- R103, log entry 10: the table's words, with a suffix of zeros. -/
theorem test_table_words :
    decodeTableWord 32 0x05400000 = some (.svp64Prefix 0 0) ∧ decodeTableWord 32 0x04000000 = some (.ext01_8LS 0 0) ∧
    decodeTableWord 32 0x05800000 = some (.ext01_unallocated_011 0) := by decide +kernel

/-! ### Witnesses: the hypotheses of the obligations are met together

Where a statement has several clauses, each has its own state; boundary values where a range has them. -/

/-- No field but the masks and EXTRA. -/
def fields (maskmode : BitVec 1) (mask : BitVec 3) : CommonRm := ⟨maskmode, mask, 0, 0, 0, 0⟩

/-- Four elements, r3 = 5 as a mask, all CR predicate fields EQ. -/
def four : State := start 4 [(3, 5)] [(32, 2), (33, 2), (34, 2), (35, 2)]

/-- One element. -/
def one : State := start 1 [(2, 0x2000)] []

/-- O1, O38, O57's common hypotheses: four elements under a bit test; the last register r127; scalar identity. -/
theorem witness_SvAddRunsItsEnabledElements :
    (four.mode = .bits64 ∧ vlLegal four ∧ plain (fields 0 2) = true ∧ maskReadable 0 2 four.vl = true ∧
      (SubValue.extra3 4).isVector = true ∧
      ∀ i, i < four.vl → singleMask four (fields 0 2) i = true →
        regNo 31 (.extra3 4) i ≤ 127 ∧ regNo 2 (.extra3 4) i ≤ 127 ∧ regNo 3 (.extra3 0) i ≤ 127) ∧
    (one.mode = .bits64 ∧ vlLegal one ∧ plain (fields 0 0) = true ∧ maskReadable 0 0 one.vl = true ∧ one.vl = 1 ∧
      packRm (fields 0 0) (0#3 ++ 0#3 ++ 0#3) = 0 ∧
      ∀ i, i < one.vl → singleMask one (fields 0 0) i = true →
        regNo 31 (.extra3 7) i ≤ 127 ∧ regNo 2 (.extra3 0) i ≤ 127 ∧ regNo 3 (.extra3 0) i ≤ 127) := by
  unfold vlLegal; decide +kernel

/-- The bound of an integer mask, 64 elements, and of a CR mask, 96. -/
theorem witness_maskReadable_bounds :
    maskReadable 0 2 64 = true ∧ maskReadable 0 2 65 = false ∧ maskReadable 0 1 65 = true ∧
    maskReadable 1 0 96 = true ∧ maskReadable 1 0 97 = false := by decide +kernel

theorem witness_SvRlwimiExtendsRaTwice :
    four.mode = .bits64 ∧ vlLegal four ∧ plain (fields 0 2) = true ∧ maskReadable 0 2 four.vl = true ∧
      (SubValue.extra3 4).isVector = true ∧
      ∀ i, i < four.vl → singleMask four (fields 0 2) i = true →
        regNo 1 (.extra3 4) i ≤ 127 ∧ regNo 2 (.extra3 5) i ≤ 127 ∧ regNo 1 (.extra3 0) i ≤ 127 := by
  unfold vlLegal; decide +kernel

/-- O3, O4: under CR predication with four elements, a field before the predicate, and the first one past it. -/
theorem witness_SvCmpWritesAVectorOfCrFields :
    (four.mode = .bits64 ∧ vlLegal four ∧ plain (fields 1 4) = true ∧ maskReadable 1 4 four.vl = true ∧
      (SubValue.extra3 5).isVector = true ∧
      ∀ i, i < four.vl → singleMask four (fields 1 4) i = true →
        crNo 2 (.extra3 5) i ≤ 127 ∧ regNo 4 (.extra3 0) i ≤ 127 ∧ regNo 5 (.extra3 0) i ≤ 127 ∧
        ((1#1 : BitVec 1) = 1#1 → crNo 2 (.extra3 5) i ≤ 32 + i ∨ 32 + four.vl ≤ crNo 2 (.extra3 5) i)) ∧
    (∀ i, i < four.vl → crNo 2 (.extra3 4) i ≤ 32 + i) ∧ crNo 2 (.extra3 5) 0 = 32 + four.vl := by
  unfold vlLegal; decide +kernel

theorem witness_SvCrLogicStepsFieldsAndKeepsBits :
    four.mode = .bits64 ∧ vlLegal four ∧ plain (fields 1 4) = true ∧ maskReadable 1 4 four.vl = true ∧
      (SubValue.extra3 5).isVector = true ∧
      ∀ i, i < four.vl → singleMask four (fields 1 4) i = true →
        crNo ((9#5).extractLsb' 2 3) (.extra3 5) i ≤ 127 ∧ crNo ((14#5).extractLsb' 2 3) (.extra3 0) i ≤ 127 ∧
        crNo ((3#5).extractLsb' 2 3) (.extra3 4) i ≤ 127 ∧
        ((1#1 : BitVec 1) = 1#1 → crNo ((9#5).extractLsb' 2 3) (.extra3 5) i ≤ 32 + i ∨
          32 + four.vl ≤ crNo ((9#5).extractLsb' 2 3) (.extra3 5) i) := by
  unfold vlLegal; decide +kernel

/-- O5: the hypotheses of `maddld`, and those of `isel`, with RA field 0 and with one that is not. -/
theorem witness_SvMaddldAndIselRunTheirEnabledElements :
    four.mode = .bits64 ∧ vlLegal four ∧ plain (fields 0 2) = true ∧ maskReadable 0 2 four.vl = true ∧
      (SubValue.extra2 2).isVector = true ∧
      (∀ i, i < four.vl → singleMask four (fields 0 2) i = true →
        regNo 1 (.extra2 2) i ≤ 127 ∧ regNo 2 (.extra2 3) i ≤ 127 ∧ regNo 3 (.extra2 1) i ≤ 127 ∧
        regNo 4 (.extra2 0) i ≤ 127 ∧ regNo 0 (.extra2 0) i ≤ 127 ∧ crNo ((14#5).extractLsb' 2 3) (.extra2 2) i ≤ 127) ∧
      ((2#5 : BitVec 5) ≠ 0#5 ∨ (3#2 : BitVec 2) = 0#2) ∧ ((0#5 : BitVec 5) ≠ 0#5 ∨ (0#2 : BitVec 2) = 0#2) := by
  unfold vlLegal; decide +kernel

/-- O6, O7: four elements with both masks ALWAYS; one element with two masks. O7's RA field 0, and not 0. -/
theorem witness_SvExtsbAndMcrfRunUnderBothMasks :
    (four.mode = .bits64 ∧ vlLegal four ∧ plain (fields 0 0) = true ∧ twinAdmitted (fields 0 0) 0 four.vl = true ∧
      (SubValue.extra3 4).isVector = true ∧
      ∀ i, i < four.vl → twinMask four (fields 0 0) 0 i = true →
        regNo 5 (.extra3 4) i ≤ 127 ∧ regNo 6 (.extra3 4) i ≤ 127 ∧ crNo 2 (.extra3 7) i ≤ 127 ∧ crNo 3 (.extra3 1) i ≤ 127) ∧
    (one.mode = .bits64 ∧ vlLegal one ∧ plain (fields 0 3) = true ∧ twinAdmitted (fields 0 3) 3 one.vl = true ∧
      one.vl = 1 ∧ twinMask one (fields 0 3) 3 0 = true ∧ twinMask one (fields 0 3) 2 0 = false ∧
      ∀ i, i < one.vl → twinMask one (fields 0 3) 3 i = true →
        regNo 31 (.extra3 7) i ≤ 127 ∧ regNo 6 (.extra3 1) i ≤ 127) := by
  unfold vlLegal; decide +kernel

theorem witness_SvAddiKeepsRaZeroAsZero :
    four.mode = .bits64 ∧ vlLegal four ∧ plain (fields 0 0) = true ∧ twinAdmitted (fields 0 0) 0 four.vl = true ∧
      (SubValue.extra3 4).isVector = true ∧ ((1#5 : BitVec 5) ≠ 0#5 ∨ (4#3 : BitVec 3) = 0#3) ∧
      ((0#5 : BitVec 5) ≠ 0#5 ∨ (0#3 : BitVec 3) = 0#3) ∧
      (∀ i, i < four.vl → twinMask four (fields 0 0) 0 i = true →
        regNo 1 (.extra3 4) i ≤ 127 ∧ regNo 1 (.extra3 4) i ≤ 127 ∧ regNo 0 (.extra3 0) i ≤ 127) := by
  unfold vlLegal; decide +kernel

/-- O8, O9: an element enabled and one not, for `stw`, `stdu`, `stfd`, `stwx` and `stdux`. -/
theorem witness_SvDisplacementStoresStoreTheirBytes :
    one.mode = .bits64 ∧ one.vl = 1 ∧ plain (fields 0 0) = true ∧ plain (fields 0 2) = true ∧
      ((2#5 : BitVec 5) ≠ 0#5 ∨ (1#3 : BitVec 3) = 0#3) ∧ ((0#5 : BitVec 5) ≠ 0#5 ∨ (0#3 : BitVec 3) = 0#3) ∧
      twinMask one (fields 0 0) 0 0 = true ∧ twinMask one (fields 0 0) 2 0 = false ∧
      singleMask one (fields 0 0) 0 = true ∧ singleMask one (fields 0 2) 0 = false ∧
      (ScalarOp.store .stw false 1 2 8).valid = true ∧ (ScalarOp.store .stfd false 1 0 8).valid = true ∧
      (ScalarOp.store .std true 1 2 8).valid = true := by decide +kernel

theorem witness_SvIndexedStoresStoreTheirBytes :
    one.mode = .bits64 ∧ one.vl = 1 ∧ plain (fields 0 0) = true ∧ ((0#5 : BitVec 5) ≠ 0#5 ∨ (0#2 : BitVec 2) = 0#2) ∧
      twinMask one (fields 0 0) 0 0 = true ∧ twinMask one (fields 0 0) 2 0 = false ∧
      singleMask one (fields 0 0) 0 = true ∧ singleMask one (fields 0 2) 0 = false ∧
      (ScalarOp.storeX .stw false 1 0 3).valid = true ∧ (ScalarOp.storeX .std true 1 2 3).valid = true := by decide +kernel

/-- The bytes of a read, or the absent byte's address. -/
def bytesOr (r : Except DWord (List Byte)) : List Byte × DWord :=
  match r with
  | .ok l => (l, 0)
  | .error x => ([], x)

/-- O10, its three clauses for each form: a disabled element; bytes that are there; a last byte that is not. -/
theorem witness_SvLoadsLoadOrTrap :
    (one.mode = .bits64 ∧ one.vl = 1 ∧ plain (fields 0 2) = true ∧ ((2#5 : BitVec 5) ≠ 0#5 ∨ (0#2 : BitVec 2) = 0#2) ∧
      ((0#5 : BitVec 5) ≠ 0#5 ∨ (0#3 : BitVec 3) = 0#3) ∧ twinMask one (fields 0 2) 0 0 = false ∧
      (ScalarOp.load .lwz false 1 0 8).valid = true ∧ (ScalarOp.load .ld false 1 2 8).valid = true ∧
      (ScalarOp.loadX .lfs false 1 2 3).valid = true) ∧
    (twinMask one (fields 0 0) 0 0 = true ∧
      bytesOr (readBytes (withWord one 0x2000 7) LoadKind.lfs.width (readGpr one 2 + readGpr one 3)) = ([0, 0, 0, 7], 0) ∧
      bytesOr (readBytes (withWord one 8 7) LoadKind.lwz.width (0#64 + (8#16).signExtend 64)) = ([0, 0, 0, 7], 0)) ∧
    bytesOr (readBytes (applyWrites one (storeBytes 0x2000 [1, 2, 3])) LoadKind.lfs.width (readGpr one 2 + readGpr one 3)) =
      ([], 0x2003) ∧
    bytesOr (readBytes (withWord one 0x2008 1) LoadKind.ld.width (readGpr one 2 + (8#16).signExtend 64)) = ([], 0x200C) := by
  decide +kernel

/-- O11 and O12, their three clauses; also with RT and RA of one register although their fields differ, r4 (RT field 1 vector, RA
field 4 scalar). -/
theorem witness_SvIndexedLoadsWithUpdateWriteTheBaseTheyRead :
    one.mode = .bits64 ∧ one.vl = 1 ∧ plain (fields 0 0) = true ∧ (ScalarOp.loadX .lha true 1 2 3).valid = true ∧
      (ScalarOp.loadX .ld true 1 2 3).valid = true ∧ (ScalarOp.loadX .lfs true 2 2 3).valid = true ∧
      twinMask one (fields 0 0) 0 0 = true ∧ twinMask one (fields 0 0) 2 0 = false ∧
      bytesOr (readBytes (applyWrites one (storeBytes 0x2000 [0x80, 1])) LoadKind.lha.width
        (readGpr one (reg (regNo 2 (.extra2 0) 0)) + readGpr one (reg (regNo 3 (.extra2 0) 0)))) = ([0x80, 1], 0) ∧
      bytesOr (readBytes one LoadKind.ld.width
        (readGpr one (reg (regNo 2 (.extra2 0) 0)) + readGpr one (reg (regNo 3 (.extra2 0) 0)))) = ([], 0x2000) ∧
      (ScalarOp.loadX .lha true 1 4 3).valid = true ∧ reg (regNo 1 (.extra2 2) 0) = reg (regNo 4 (.extra2 0) 0) := by
  decide +kernel

theorem witness_SvLoadsWithUpdateHaveTwoDestinations :
    one.mode = .bits64 ∧ one.vl = 1 ∧ plain (fields 0 0) = true ∧ (ScalarOp.load .lwz true 1 2 8).valid = true ∧
      (ScalarOp.load .ld true 1 2 8).valid = true ∧ (ScalarOp.load .lfd true 2 2 8).valid = true ∧
      twinMask one (fields 0 0) 0 0 = true ∧ twinMask one (fields 0 0) 2 0 = false ∧
      bytesOr (readBytes (withWord one 0x2008 7) LoadKind.lwz.width
        (readGpr one (reg (regNo 2 (.extra2 0) 0)) + (8#16).signExtend 64)) = ([0, 0, 0, 7], 0) ∧
      bytesOr (readBytes one LoadKind.lwz.width (readGpr one (reg (regNo 2 (.extra2 0) 0)) + (8#16).signExtend 64)) =
        ([], 0x2008) := by decide +kernel

theorem witness_SvFaddsAndFmaddExtendFpRegisters :
    one.mode = .bits64 ∧ one.vl = 1 ∧ plain (fields 0 0) = true ∧ singleMask one (fields 0 0) 0 = true := by
  decide +kernel

/-- O14, O15's first two clauses: the instructions named give a next state from `four` or `one`. -/
theorem witness_IntegerFormsChangeOnlyTheirDestinations :
    completes (exec (.rm1P2S1D (fields 0 2) 4 4 0 (ScalarOp.add 1 2 3 false).word) four) = true ∧
    completes (exec (.rm1P2S1D (fields 0 2) 4 4 0 (ScalarOp.rlwimi 1 2 8 16 23 false).word) four) = true ∧
    completes (exec (.rm1P3S1D (fields 0 2) 2 3 1 0 0 (ScalarOp.maddld 1 2 3 4).word) four) = true ∧
    completes (exec (.rm1P3S1D (fields 0 2) 2 3 1 0 0 (ScalarOp.isel 1 2 3 4).word) four) = true ∧
    completes (exec (.rm2P1S1D (fields 0 0) 4 4 0 (ScalarOp.extsb 5 6 false).word) four) = true ∧
    completes (exec (.rm2P1S1D (fields 0 0) 4 0 0 (ScalarOp.addi 1 0 7).word) four) = true := by decide +kernel

theorem witness_CrAndFpFormsChangeOnlyTheirDestinations :
    completes (exec (.rm1P2S1D (fields 1 4) 5 0 0 (ScalarOp.cmp 2 true 4 5).word) four) = true ∧
    completes (exec (.rm1P2S1D (fields 1 4) 5 0 4 (ScalarOp.crlogic .xor 9 14 3).word) four) = true ∧
    completes (exec (.rm2P1S1D (fields 0 0) 5 4 0 (ScalarOp.mcrf 2 3).word) four) = true := by decide +kernel

/-- O13, O15's FP clauses: with one element enabled `sv.fadds` and `sv.fmadd` give a next state unless the result, a free value, is
trapped; with none they do whatever the free value is. -/
theorem witness_fp_completes :
    completes (exec (.rm1P2S1D (fields 0 0) 0 0 0 (ScalarOp.fadds 1 2 3 false).word) one) =
      !(Config.faddSingle (readFpr (scalarView one) 2) (readFpr (scalarView one) 3) one.fpscr).trap ∧
    completes (exec (.rm1P3S1D (fields 0 0) 0 0 0 0 0 (ScalarOp.fmadd 1 2 4 3 false).word) one) =
      !(Config.fmaddDouble (readFpr (scalarView one) 2) (readFpr (scalarView one) 4) (readFpr (scalarView one) 3)
        one.fpscr).trap ∧
    completes (exec (.rm1P2S1D (fields 0 2) 4 4 4 (ScalarOp.fadds 1 2 3 false).word) (start 4 [] [])) = true ∧
    completes (exec (.rm1P3S1D (fields 0 2) 2 2 2 2 0 (ScalarOp.fmadd 1 2 4 3 false).word) (start 4 [] [])) = true := by
  refine ⟨?_, ?_, by decide +kernel, by decide +kernel⟩
  · have h : ∀ r : Config.FpResult 32, completes (match (if r.trap then .trap .fpEnabled else
          .done [.fpr 1 (singleToDouble r.value), .fpscr r.fpscr] none : ScalarResult) with
        | .done ws target => .next (setCia (applyWrites one (scalarReach ws)) (nextAddress one 8 target))
        | .trap t => .fault (.suffixTrap 0 t one)) = !r.trap := by
      intro r
      cases r.trap <;> rfl
    exact h _
  · have h : ∀ r : Config.FpResult 64, completes (match (if r.trap then .trap .fpEnabled else
          .done [.fpr 1 r.value, .fpscr r.fpscr] none : ScalarResult) with
        | .done ws target => .next (setCia (applyWrites one (scalarReach ws)) (nextAddress one 8 target))
        | .trap t => .fault (.suffixTrap 0 t one)) = !r.trap := by
      intro r
      cases r.trap <;> rfl
    exact h _

/-- O16: a form of each clause, into a GPR and an FPR where both stand in one. -/
theorem witness_LoadsAndStoresChangeOnlyTheirDestinations :
    ((ScalarOp.store .stw false 1 2 8).valid = true ∧
      completes (exec (.rm2P2S (fields 0 0) 0 0 0 (ScalarOp.store .stw false 1 2 8).word) one) = true) ∧
    ((ScalarOp.store .std true 1 2 8).valid = true ∧
      completes (exec (.rm1P2S1D (fields 0 0) 0 0 0 (ScalarOp.store .std true 1 2 8).word) one) = true) ∧
    ((ScalarOp.storeX .std false 1 2 3).valid = true ∧
      completes (exec (.rm2P3S (fields 0 0) 0 0 0 0 (ScalarOp.storeX .std false 1 2 3).word) one) = true) ∧
    ((ScalarOp.storeX .stw true 1 2 3).valid = true ∧
      completes (exec (.rm1P3S1D (fields 0 0) 0 0 0 0 0 (ScalarOp.storeX .stw true 1 2 3).word) one) = true) ∧
    ((ScalarOp.load .lwz false 1 2 8).valid = true ∧ (ScalarOp.load .lfs false 1 2 8).valid = true ∧
      completes (exec (.rm2P1S1D (fields 0 0) 0 0 0 (ScalarOp.load .lwz false 1 2 8).word) (withWord one 0x2008 7)) = true ∧
      completes (exec (.rm2P1S1D (fields 0 0) 0 0 0 (ScalarOp.load .lfs false 1 2 8).word) (withWord one 0x2008 7)) = true) ∧
    ((ScalarOp.load .lwz true 1 2 8).valid = true ∧
      completes (exec (.rm2P1S2D (fields 0 0) 0 0 0 0 (ScalarOp.load .lwz true 1 2 8).word) (withWord one 0x2008 7)) = true) ∧
    ((ScalarOp.loadX .lwz false 1 2 3).valid = true ∧
      completes (exec (.rm2P2S1D (fields 0 0) 0 0 0 0 (ScalarOp.loadX .lwz false 1 2 3).word) (withWord one 0x2000 7)) = true) ∧
    ((ScalarOp.loadX .lha true 1 2 3).valid = true ∧ (ScalarOp.loadX .lfs true 2 2 3).valid = true ∧
      completes (exec (.rm2P2S1D (fields 0 0) 0 0 0 0 (ScalarOp.loadX .lha true 1 2 3).word) (withWord one 0x2000 7)) = true ∧
      completes (exec (.rm2P2S1D (fields 0 0) 0 0 0 0 (ScalarOp.loadX .lfs true 2 2 3).word) (withWord one 0x2000 7)) =
        true) := by decide +kernel

/-- A suffix ISA that gives every suffix the same mapping. -/
def oneMapping (m : RmMap) : SuffixIsa := ⟨referenceDecode, fun _ => some m⟩

/-- O17, O18, O21, O40: a well-formed instruction, of a category, and a pair that decodes to it; mappings of a named row, of a class with
an operand that is read and written, and two suffix ISAs for `stwu`. -/
theorem witness_DecodeAfterEncodeGivesBackTheInstruction :
    (Instr.rm1P2S1D (fields 0 2) 4 4 0 0x7C221A14).wfFor referenceIsa = true ∧
    decoded [0x05602400#32, 0x7C221A14#32, 0] = some (.rm1P2S1D (fields 0 2) 4 4 0 0x7C221A14) ∧
    classify 0x05602400#32 = .svp64 ∧ categoryOf referenceIsa 0x7C221A14#32 = some .rm1P2S1D ∧
    (let op := ScalarOp.loadX .lwz true 1 2 3
     op.valid = true ∧ referenceIsa.mapping (op.suffix op.word) = some ⟨.rm2P2S1D, [.rdest, .rsrc1, .rsrc2]⟩ ∧
       (op.suffix op.word).cls = .ldst ∧ ldstCategory (op.suffix op.word) = some .rm2P2S1D ∧
       (op.suffix op.word).isStore = false ∧
       (SubField.rsrc1, (⟨.gpr, 2, true, true⟩ : Slot)) ∈ [SubField.rdest, .rsrc1, .rsrc2].zip (op.suffix op.word).slots ∧
       (ScalarOp.store .stb false 1 2 8).valid = true ∧ (ScalarOp.storeX .stw false 1 2 3).valid = true ∧
       (ScalarOp.load .lbz true 1 2 8).valid = true) ∧
    (∀ op ∈ [ScalarOp.add 1 2 3 false, .rlwimi 1 2 3 4 5 true, .maddld 1 2 3 4, .isel 1 2 3 4, .fmadd 1 2 3 4 false,
        .maddedu 1 2 3 4, .divmod2du 1 2 3 4, .loadX .lha true 1 2 3, .loadX .ld false 1 2 3, .load .lwz true 1 2 8,
        .store .stw false 1 2 8, .storeX .std false 1 2 3],
      op.valid = true ∧ (op.suffix op.word).word = op.word ∧ (referenceIsa.mapping (op.suffix op.word)).isSome = true) ∧
    (∀ cat ∈ [Category.rm2P1S2D, .rm2P2S1D],
      let op := ScalarOp.load .lwz true 1 2 8
      (oneMapping ⟨cat, [.rdest, .rsrc1]⟩).rmCategory
        { op.suffix op.word with slots := [dstSlot LoadKind.lwz.file 1, ⟨.gpr, 2, true, true⟩] } = some ⟨cat, [.rdest, .rsrc1]⟩) ∧
    (ScalarOp.store .stw true 1 2 8).valid = true ∧
    ∀ cat ∈ [Category.rm1P2S1D, .rm2P2S1D],
      let op := ScalarOp.store .stw true 1 2 8
      (oneMapping ⟨cat, [.rdest, .rsrc1, .rsrc2]⟩).rmCategory (op.suffix op.word) = some ⟨cat, [.rdest, .rsrc1, .rsrc2]⟩ ∧
        categoryOf (oneMapping ⟨cat, [.rdest, .rsrc1, .rsrc2]⟩) op.word = some cat := by decide +kernel

/-- O24: four bytes in memory, read in both byte orders; 64-bit mode. -/
theorem witness_BytesMakeWordsInEitherOrder :
    [0x2000#64, 0x2000#64 + 1#64, 0x2000#64 + 2#64, 0x2000#64 + 3#64].map (readByte (withWord one 0x2000 0x11223344)) =
      [some 0x11, some 0x22, some 0x33, some 0x44] ∧ one.mode = .bits64 ∧
    readWord true (withWord one 0x2000 0x11223344) (readGpr one (reg 2) + (0#16).signExtend 64) = .ok 0x11223344 ∧
    readWord false (withWord one 0x2000 0x11223344) (readGpr one (reg 2) + (0#16).signExtend 64) = .ok 0x44332211 := by
  decide +kernel

/-- A little endian machine in which a reserved value does not trap at VL = 0: other open parameters (R4). -/
def other : Params := { machine with bigEndian := false, vlMax := 64, vl0ChecksReserved := false }

/-- O27: a state in the invariant from which a step gives a next state, for `machine` and for other parameters. -/
theorem witness_EveryStepKeepsTheInvariant :
    (four.withFetchWord 64 (0x05602400 + 0x7C221A14 * 2 ^ 32)).Inv ∧
    completes (pair 0x05602400 0x7C221A14 four) = true ∧
    (withWord (withWord four 0x1000 0x00246005) 0x1004 0x141A227C).Inv ∧
    completes (stepFor other (withWord (withWord four 0x1000 0x00246005) 0x1004 0x141A227C)) = true := by
  unfold State.Inv; decide +kernel

/-- O28: an address outside the bytes stored; two canonical memories. -/
theorem witness_MemoryReadsWhatWasWrittenLast :
    [1, 2, 3, 4].length ≤ 18446744073709551616 ∧ ¬bytesAt 0x2000 4 0x2004 ∧ bytesAt 0xFFFFFFFFFFFFFFFC 8 3 ∧
    Memory.wf (withWord one 0x2000 7).mem = true ∧ Memory.wf one.mem = true := by unfold bytesAt; decide +kernel

/-- O30's clauses, but for the second also for other parameters: an empty cell; a pair of another class at a block's end; an SVP64 pair
just before it; an unprefixed word. -/
theorem witness_StepRunsTheDecodedInstruction :
    one.ciaAligned = true ∧
    readWord Config.bigEndian (withWord one 0x1000 0x05800000) one.cia = .ok 0x05800000 ∧
    (decoded [0x05800000#32]).isSome = true ∧
    (let s := withWord (withWord { one with cia := 0x103C } 0x103C 0x04000000) 0x1040 7
     s.cia.toNat % 64 = 60 ∧ classify 0x04000000#32 ≠ .svp64 ∧ readWord Config.bigEndian s s.cia = .ok 0x04000000 ∧
       readWord Config.bigEndian s (s.cia + 4#64) = .ok 7 ∧ (decoded [0x04000000#32, 7]).isSome = true) ∧
    (let s := withWord (withWord { one with cia := 0x1038 } 0x1038 0x05400000) 0x103C 0x7C221A14
     s.cia.toNat % 64 ≠ 60 ∧ readWord Config.bigEndian s s.cia = .ok 0x05400000 ∧
       readWord Config.bigEndian s (s.cia + 4#64) = .ok 0x7C221A14 ∧
       (decoded [0x05400000#32, 0x7C221A14]).isSome = true) ∧
    decodeWords referenceIsa [0x7C221A14#32] = .error (.unprefixed 0x7C221A14#32) ∧
    fetchWord other (withWord one 0x1000 0x00008005) one.cia = .ok 0x05800000 ∧
    (decodeWords other.suffixes [0x05800000#32]).toOption.isSome = true ∧
    (let s := withWord (withWord one 0x1000 0x00004005) 0x1004 0x141A227C
     fetchWord other s s.cia = .ok 0x05400000 ∧ fetchWord other s (s.cia + 4#64) = .ok 0x7C221A14 ∧
       s.cia.toNat % 64 ≠ 60 ∧ (decodeWords other.suffixes [0x05400000#32, 0x7C221A14]).toOption.isSome = true) ∧
    decodeWords other.suffixes [0x7C221A14#32] = .error (.unprefixed 0x7C221A14#32) := by decide +kernel

/-- O31: with no second word. -/
theorem witness_StepRefusesAPairAcrossA64ByteBoundary :
    (let s := withWord { one with cia := 0x103C } 0x103C 0x05400000
     s.cia.toNat % 64 = 60 ∧ readWord Config.bigEndian s s.cia = .ok 0x05400000) ∧ classify 0x05400000#32 = .svp64 := by
  decide +kernel

/-- O32's clauses: not aligned; no first word; an empty cell; no second word; no execute permission on either. -/
theorem witness_FetchFaultsComeInOrder :
    { one with cia := 0x1002 }.ciaAligned = false ∧
    (one.ciaAligned = true ∧ (readWord Config.bigEndian one one.cia).toOption = none) ∧
    (readWord Config.bigEndian (withWord one 0x1000 0x05100000) one.cia = .ok 0x05100000 ∧
      classify 0x05100000#32 = .unallocated .c010001) ∧
    (let s := withWord one 0x1000 0x05400000
     readWord Config.bigEndian s s.cia = .ok 0x05400000 ∧
       decodeWords referenceIsa [0x05400000#32] = .error (.noSecondWord 0x05400000#32) ∧ s.cia.toNat % 64 ≠ 60 ∧
       (readWord Config.bigEndian s (s.cia + 4#64)).toOption = none) ∧
    (let p : Params := { machine with fetchTrap := fun _ a => some (.noExecute a) }
     p.fetchTrap one one.cia = some (.noExecute 0x1000)) ∧
    (let p : Params := { machine with fetchTrap := fun _ a => if a = 0x1004 then some (.noExecute a) else none }
     let s := withWord one 0x1000 0x05400000
     p.fetchTrap s s.cia = none ∧ p.fetchTrap s (s.cia + 4#64) = some (.noExecute 0x1004) ∧
       readWord p.bigEndian s s.cia = .ok 0x05400000 ∧
       decodeWords p.suffixes [0x05400000#32] = .error (.noSecondWord 0x05400000#32)) := by decide +kernel

/-- O36's clauses; O37's at the boundaries of its ranges. -/
theorem witness_VectorOperandsStepByOne :
    (resolve (srcSlot .gpr 2) (.extra3 4)).vector = true ∧ (resolve (srcSlot .gpr 2) (.extra3 1)).vector = false ∧
    (resolve (srcSlot .crBit 14) (.extra3 4)).vector = true ∧ 2 ≤ (2#3).toNat ∧ 2 ≤ (7#3).toNat ∧ 63 < 64 ∧
    32 + 95 ≤ 127 := by decide +kernel

/-- O38's clauses: r3 = VL - 1, and r3 = VL. -/
theorem witness_OneHotMaskEnablesOneElement :
    (let s := start 4 [(3, 3)] []
     s.mode = .bits64 ∧ vlLegal s ∧ plain (fields 0 1) = true ∧ (SubValue.extra3 4).isVector = true ∧
       (readGpr s 3).toNat < s.vl ∧ regNo 1 (.extra3 4) 3 ≤ 127 ∧ regNo 2 (.extra3 4) 3 ≤ 127 ∧ regNo 3 (.extra3 0) 3 ≤ 127) ∧
    (let s := start 4 [(3, 4)] []
     vlLegal s ∧ s.vl ≤ (readGpr s 3).toNat) := by unfold vlLegal; decide +kernel

/-- O39's clauses at their bounds. -/
theorem witness_LengthsBeyondTheirBoundsAreRefused :
    plain (fields 0 2) = true ∧ Config.vlMax < (start (Config.vlMax + 1) [] []).vl ∧ 64 < (start 65 [] []).vl ∧
    (vlLegal (start 65 [] []) ∧ (SubValue.extra3 4).isVector = true ∧ (2#3 : BitVec 3) ≠ 0#3 ∧ (2#3 : BitVec 3) ≠ 1#3 ∧
      64 < (start 65 [] []).vl) ∧
    (plain (fields 1 2) = true ∧ vlLegal (start 97 [] []) ∧ 96 < (start 97 [] []).vl) := by
  unfold vlLegal; decide +kernel

/-- O40. -/
theorem witness_ASplitPairRunsAsItsWords :
    (let i := Instr.rm1P2S1D (fields 0 2) 4 4 0 0x7C221A14
     i.wf = true ∧ i.rm? = some 0x202400 ∧ i.secondWord? = some 0x7C221A14) := by decide +kernel

/-- O41: `add` with VL = 0. -/
theorem witness_VlZeroIsANop :
    (start 0 [] []).vl = 0 ∧ identify machine none 0x202400 0x7C221A14 (start 0 [] []) =
      .ok ⟨prefixWord 0x202400, 0x7C221A14, 0x202400, (ScalarOp.add 1 2 3 false).suffix 0x7C221A14,
        ⟨.rm1P2S1D, [.rdest, .rsrc1, .rsrc2]⟩⟩ ∧
    (match identify machine none 0x202400 0x7C221A14 (start 0 [] []) with
      | .ok q => decide (reservedCause q = none ∧ valueStop q = none)
      | .error _ => false) = true := by decide +kernel

/-- O42's clauses: `add` completes, a load from an absent address traps. -/
theorem witness_ScalarIdentityActsAsTheUnprefixedInstruction :
    one.vl = 1 ∧ primary 0x7C221A14#32 ≠ 1#6 ∧
    (let ins := (ScalarOp.add 1 2 3 false).suffix 0x7C221A14
     referenceDecode 0x7C221A14 = some ins ∧ referenceIsa.mapping ins ≠ none ∧ ins.implicitRs = false ∧ ins.spr = none ∧
       referenceExec1 Config.bigEndian ins (identityMap ins) (scalarView one) = .done [.gpr 1 0x2000] none) ∧
    (let ins := (ScalarOp.load .lwz false 1 2 8).suffix 0x80220008
     referenceDecode 0x80220008 = some ins ∧ referenceIsa.mapping ins ≠ none ∧ ins.implicitRs = false ∧ ins.spr = none ∧
       referenceExec1 Config.bigEndian ins (identityMap ins) (scalarView one) = .trap (.dataAbsent 0x2008)) ∧
    (let ins := (ScalarOp.mfspr 1 8).suffix 0x7C2802A6
     referenceDecode 0x7C2802A6 = some ins ∧ ins.spr = some ⟨8, false⟩ ∧ referenceIsSvSpr 8 = false) := by decide +kernel

/-- O43, and O44's two clauses. -/
theorem witness_PrefixedInstructionsAdvanceByEight :
    (one.mode = .bits64 ∧ one.vl = 1 ∧ one.ciaAligned = true ∧
      readWord Config.bigEndian (withWord one 0x2008 7) (readGpr one 2 + (8#16).signExtend 64) = .ok 7) ∧
    (let i := Instr.rm1P2S1D (fields 0 2) 4 4 0 0x7C221A14
     i.rm? ≠ none ∧ i.secondWord? ≠ none ∧ completes (exec i four) = true) ∧
    (let i := Instr.rm1P2S1D (fields 0 0) 0 0 0 0x48000010
     i.rm? = some 0 ∧ i.secondWord? = some 0x48000010 ∧ completes (exec i one) = true) := by decide +kernel

/-- O45: `add` changes no CR field; `add.` under scalar identity does; a suffix ISA whose executions write neither VL nor CR, and one
whose do. -/
theorem witness_ThePrefixNeverWritesVlOrCr :
    (let i := Instr.rm1P2S1D (fields 0 2) 4 4 0 (ScalarOp.add 1 2 3 false).word
     four.mode = .bits64 ∧ (ScalarOp.add 1 2 3 false).valid = true ∧ (ScalarOp.add 1 2 3 false).spr = none ∧ i.rm? ≠ none ∧
       i.secondWord? = some (ScalarOp.add 1 2 3 false).word ∧ completes (exec i four) = true ∧
       (ScalarOp.add 1 2 3 false).rc = false ∧
       ∀ sl ∈ (ScalarOp.add 1 2 3 false).slots, sl.kind ≠ .crField ∧ sl.kind ≠ .crBit) ∧
    completes (exec (.svp64Prefix 0 (ScalarOp.add 1 2 3 true).word) one) = true ∧
    (let p : Params := { machine with exec1 := fun _ _ _ _ => .done [.lr 7] none }
     p.suffixes.decode 0x7C221A14 = some ((ScalarOp.add 1 2 3 false).suffix 0x7C221A14) ∧
       completes (executePrefixed p none 0 0x7C221A14 one) = true ∧ [Write.lr 7].filterMap Write.crField? = []) ∧
    (let p : Params := { machine with exec1 := fun _ _ _ _ => .done [.svstate ⟨3, []⟩] none }
     (match executePrefixed p none 0 0x7C221A14 one with
       | .next u => u.vl
       | _ => 0) = 3) := by decide +kernel

/-- O46. -/
theorem witness_TheIllegalInstructionTrapIsPrecise :
    cause? (exec (.svp64Prefix 0 0) four) = some .illegalSuffix ∧
    cause? (exec (.ext01_unallocated_011 0) four) = some .unallocatedPrefix := by decide +kernel

/-- O47's clauses: for a suffix ISA whose mapping covers nothing; one whose answer for `stw` R181 to R195 exclude; hardware that
implements no field value, with VL = 1. -/
theorem witness_SuffixesWithoutAMeaningStop :
    primary 0x05400000#32 = 1#6 ∧ (primary 0#32 ≠ 1#6 ∧ machine.suffixes.decode 0 = none) ∧
    (let p : Params := { machine with suffixes := ⟨referenceDecode, fun _ => none⟩ }
     primary 0x7C221A14#32 ≠ 1#6 ∧
       p.suffixes.decode 0x7C221A14 = some ((ScalarOp.add 1 2 3 false).suffix 0x7C221A14) ∧
       p.suffixes.rmCategory ((ScalarOp.add 1 2 3 false).suffix 0x7C221A14) = none) ∧
    (let op := ScalarOp.store .stw false 1 2 8
     let m : RmMap := ⟨.rm1P2S1D, [.rdest, .rsrc1, .rsrc2]⟩
     primary op.word ≠ 1#6 ∧ (oneMapping m).decode op.word = some (op.suffix op.word) ∧
       (oneMapping m).rmCategory (op.suffix op.word) = some m ∧ m.fits (op.suffix op.word) = false) ∧
    (let p : Params := { machine with hwSupports := fun _ _ => false }
     one.vl ≠ 0 ∧ p.vl0ChecksReserved = true ∧
       (match identify p none 0x202400 0x7C221A14 one with
        | .ok q => decide (reservedCause q = none) && !p.hwSupports 0x202400 q.map.cat
        | .error _ => false) = true) := by decide +kernel

/-- O49's clauses: a second word that is not an EXT01 word; a suffix ISA with no such instruction; one that completes. -/
theorem witness_OtherPrefixClassesComplete :
    primary 0x7C221A14#32 ≠ 1#6 ∧
    ({ machine with hasUnprinted := fun _ _ => false } : Params).hasUnprinted 0x06000000 0 = false ∧
    completes (executeV31 { machine with execV31 := fun _ _ _ _ => .done [.gpr 1 7] none } 0x06000000 0 four) = true := by
  decide +kernel

/-- O50: two states that differ in r32 and CR8 alone, and an instruction that completes in both. -/
theorem witness_UnprefixedInstructionsAreNotInfluenced :
    completes (executeUnprefixed machine 0x7C221A14 four) = true ∧ four.mode = .bits64 ∧
    scalarView (writeCr (writeGpr four 32 7) 8 1) = scalarView four ∧ writeCr (writeGpr four 32 7) 8 1 ≠ four := by
  decide +kernel

/-- O51 to O54: values of the fields that meet each clause. -/
theorem witness_field_clauses :
    (3#2 : BitVec 2) = 3#2 ∧ (2#2 : BitVec 2) ≠ 3#2 ∧ (1#2).toNat < 2 ∧ (1#2 : BitVec 2) ≠ 0#2 ∧ (1#3 : BitVec 3) ≠ 0#3 ∧
    (1#5 : BitVec 5) ≠ 0#5 ∧ (1#2 : BitVec 2) ≠ 2#2 ∧
    (let q : Pair := ⟨0, 0, 0x030000, (ScalarOp.mcrf 1 2).suffix 0, ⟨.rm2P1S1D, [.rdest, .rsrc1]⟩⟩
     q.ins.slots ≠ [] ∧ (∀ sl ∈ q.ins.slots, sl.kind = .crField ∨ sl.kind = .crBit) ∧ q.ins.single = false) ∧
    (let w := (ScalarOp.maddld 1 2 3 4).word
     let ins := (ScalarOp.maddld 1 2 3 4).suffix w
     primary w ≠ 1#6 ∧ referenceDecode w = some ins ∧ ins.implicitRs = false ∧
       (referenceIsa.mapping ins).map RmMap.cat = some .rm1P3S1D) := by decide +kernel

/-- O55, O56: VL = 4, and VL = 1 with `RM` not 0. -/
theorem witness_ClassesOutsideTheLoopAreRefused :
    vlLegal four ∧ vlLegal one ∧ plain (fields 0 0) = true ∧ four.vl ≠ 1 ∧
    packRm (fields 0 0) (1#3 ++ 0#3 ++ 0#3) ≠ 0#24 ∧ packRm (fields 0 2) 0#9 ≠ 0#24 ∧
    (ScalarOp.load .lwz false 1 2 8).valid = true ∧ (ScalarOp.load .lwz true 1 2 8).valid = true ∧
    (ScalarOp.loadX .lha true 1 2 3).valid = true ∧ (ScalarOp.store .stw false 1 2 8).valid = true ∧
    (ScalarOp.store .stw true 1 2 8).valid = true ∧ (ScalarOp.storeX .stw true 1 2 3).valid = true ∧
    (ScalarOp.storeX .std false 1 2 3).valid = true := by
  unfold vlLegal; decide +kernel

theorem witness_OpenCombinationsAreRefused :
    vlLegal four ∧ plain (fields 0 2) = true ∧ four.vl ≠ 1 ∧ (SubValue.extra3 3).isVector = false ∧
    (SubValue.extra3 4).isVector = true ∧ (SubValue.extra2 2).isVector = true ∧
    twinAdmitted (fields 0 0) 3 four.vl = false ∧ twinAdmitted (fields 0 0) 0 four.vl = true ∧
    twinAdmitted (fields 0 2) 3 one.vl = true ∧ one.vl = 1 ∧ vlLegal one ∧
    (ScalarOp.store .stw false 1 0 8).valid = true ∧ (ScalarOp.storeX .std false 1 0 3).valid = true ∧
    (ScalarOp.load .lwz false 1 0 8).valid = true ∧ (ScalarOp.loadX .ld false 1 0 3).valid = true := by
  unfold vlLegal; decide +kernel

/-- O57: r126, r127, then element 2 (E11). -/
theorem witness_ARegisterPast127StopsAtItsElement :
    four.mode = .bits64 ∧ vlLegal four ∧ plain (fields 0 0) = true ∧ maskReadable 0 0 four.vl = true ∧
    (SubValue.extra3 6).isVector = true ∧ 2 < four.vl ∧ singleMask four (fields 0 0) 2 = true ∧
    127 < regNo 31 (.extra3 6) 2 ∧
    ∀ i, i < 2 → singleMask four (fields 0 0) i = true →
      regNo 31 (.extra3 6) i ≤ 127 ∧ regNo 2 (.extra3 0) i ≤ 127 ∧ regNo 3 (.extra3 0) i ≤ 127 := by
  unfold vlLegal; decide +kernel

/-- O58: element 1 is the first that writes a later predicate field (element 0 is not enabled). -/
theorem witness_OverwritingALaterPredicateIsAFault :
    (let s := start 8 [] [(33, 8)]
     s.mode = .bits64 ∧ vlLegal s ∧ plain (fields 1 0) = true ∧ s.vl ≤ 96 ∧ (SubValue.extra3 5).isVector = true ∧ 1 < s.vl ∧
       singleMask s (fields 1 0) 1 = true ∧ 32 + 1 < crNo 2 (.extra3 5) 1 ∧ crNo 2 (.extra3 5) 1 < 32 + s.vl ∧
       (∀ i, i ≤ 1 → singleMask s (fields 1 0) i = true →
         crNo 2 (.extra3 5) i ≤ 127 ∧ regNo 4 (.extra3 0) i ≤ 127 ∧ regNo 5 (.extra3 0) i ≤ 127) ∧
       ∀ i, i < 1 → singleMask s (fields 1 0) i = true →
         crNo 2 (.extra3 5) i ≤ 32 + i ∨ 32 + s.vl ≤ crNo 2 (.extra3 5) i) := by unfold vlLegal; decide +kernel

/-- O59: a scalar execution that writes its destination and traps at r10; element 2 is the first that does. -/
theorem witness_AFaultInsideAnElementKeepsTheEarlierOnes :
    (let x := fun (_ : Suffix) (regs : List Nat) (_ : State) =>
       if regs.head? = some 10 then ScalarResult.trap (.other 1) else .done [.fpr (reg (regs.headD 0)) 1] none
     let ws := fun (i : Nat) (_ : State) => [Write.fpr (reg (8 + i)) 1]
     let sees := fun u => if packRm (fields 0 0) (4#3 ++ 0#3 ++ 0#3) = 0#24 ∧ four.vl = 1 then scalarView u else u
     let element := fun i u => x ((ScalarOp.fadds 2 1 1 false).suffix (ScalarOp.fadds 2 1 1 false).word)
       [regNo 2 (.extra3 4) i, regNo 1 (.extra3 0) i, regNo 1 (.extra3 0) i] (sees u)
     let after := fun n => overElements n (singleMask four (fields 0 0)) (fun i u => applyWrites u (ws i u)) four
     vlLegal four ∧ plain (fields 0 0) = true ∧ maskReadable 0 0 four.vl = true ∧ (SubValue.extra3 4).isVector = true ∧
       2 < four.vl ∧ singleMask four (fields 0 0) 2 = true ∧
       (∀ i, i ≤ 2 → singleMask four (fields 0 0) i = true →
         regNo 2 (.extra3 4) i ≤ 127 ∧ regNo 1 (.extra3 0) i ≤ 127 ∧ regNo 1 (.extra3 0) i ≤ 127) ∧
       (∀ i, i < 2 → singleMask four (fields 0 0) i = true → element i (after i) = .done (ws i (after i)) none ∧
         (ws i (after i)).filterMap Write.crField? = []) ∧
       element 2 (after 2) = .trap (.other 1)) := by unfold vlLegal; decide +kernel

/-- O60: an implementation that supports every value of one SVP64 SPR; one that supports every value but 7, for a read, which traps by
the value the SPR holds in the state (R33), and for a write. -/
theorem witness_SvSprAccessesNeverComplete :
    (let p : Params := { machine with isSvSpr := fun n => n == 800, svSprValueOk := fun _ _ => true }
     p.suffixes = referenceIsa ∧ (∀ rm cat, p.hwSupports rm cat = true) ∧ 1 ≤ p.vlMax ∧ p.isSvSpr 800 = true ∧ one.vl = 1 ∧
       refusal? (executePrefixed p none 0 (ScalarOp.mtspr 800 2).word one) = some .svstateAccess) ∧
    (let p : Params := { machine with
       isSvSpr := fun n => n == 800, svSprHeld := fun _ v => v.rest.headD 0, svSprValueOk := fun _ v => v != some 7 }
     let holds := fun v : DWord => writeGpr { one with svstate := ⟨1, [v]⟩ } 2 v
     cause? (executeUnprefixed p (ScalarOp.mfspr 2 800).word (holds 7)) = some (.svSprValue 800) ∧
       refusal? (executeUnprefixed p (ScalarOp.mfspr 2 800).word (holds 6)) = some .svstateAccess ∧
       cause? (executeUnprefixed p (ScalarOp.mtspr 800 2).word (holds 7)) = some (.svSprValue 800) ∧
       refusal? (executeUnprefixed p (ScalarOp.mtspr 800 2).word (holds 6)) = some .svstateAccess) := by
  refine ⟨⟨rfl, fun _ _ => rfl, ?_⟩, ?_⟩ <;> decide +kernel

end Tests
end Sys2Proof
end

section
/-! The statements of family 00_scope: memory is read back as written, and its canonical form determines it. -/

namespace Sys2Proof
namespace Machine

/-! ### The canonical form is canonical -/

section Sparse

variable {α : Type}

/-- What a number holds is listed. -/
theorem mem_of_sparseGet {m : List (Nat × α)} {a : Nat} {x : α} (h : sparseGet m a = some x) : (a, x) ∈ m := by
  induction m with
  | nil => cases h
  | cons e m ih =>
    obtain ⟨k, v⟩ := e
    rw [sparseGet] at h
    split at h
    · next hk => cases h; subst hk; exact List.mem_cons_self
    · exact List.mem_cons_of_mem _ (ih h)

/-- A number beyond every listed one holds nothing. -/
theorem sparseGet_none_of_le {m : List (Nat × α)} {n a : Nat} (h : (m.all fun e => decide (e.1 < n)) = true) (ha : n ≤ a) :
    sparseGet m a = none := by
  refine Option.eq_none_iff_forall_ne_some.mpr fun x hx => ?_
  have hlt : a < n := of_decide_eq_true (List.all_eq_true.mp h _ (mem_of_sparseGet hx))
  omega

/-- In a rising list the head's number is the least that holds something. -/
theorem head_le_of_sparseGet {m : List (Nat × α)} {k a : Nat} {v x : α} (h : sparseRising ((k, v) :: m) = true)
    (hx : sparseGet ((k, v) :: m) a = some x) : k ≤ a := by
  rw [sparseRising, Bool.and_eq_true] at h
  rcases List.mem_cons.mp (mem_of_sparseGet hx) with he | hm
  · cases he; exact Nat.le_refl _
  · exact Nat.le_of_lt (of_decide_eq_true (List.all_eq_true.mp h.1 _ hm))

/-- Two rising lists that hold the same at every number are equal. -/
theorem sparse_ext {m n : List (Nat × α)} (hm : sparseRising m = true) (hn : sparseRising n = true)
    (h : ∀ a, sparseGet m a = sparseGet n a) : m = n := by
  induction m generalizing n with
  | nil =>
    cases n with
    | nil => rfl
    | cons e n => simpa [sparseGet] using h e.1
  | cons e m ih =>
    obtain ⟨k, v⟩ := e
    cases n with
    | nil => simpa [sparseGet] using h k
    | cons e' n =>
      obtain ⟨k', v'⟩ := e'
      have hkv : sparseGet ((k', v') :: n) k = some v := by rw [← h k]; simp [sparseGet]
      have hkv' : sparseGet ((k, v) :: m) k' = some v' := by rw [h k']; simp [sparseGet]
      obtain rfl : k = k' := Nat.le_antisymm (head_le_of_sparseGet hm hkv') (head_le_of_sparseGet hn hkv)
      obtain rfl : v' = v := by simpa [sparseGet] using hkv
      rw [sparseRising, Bool.and_eq_true] at hm hn
      have htail : ∀ a, sparseGet m a = sparseGet n a := fun a => by
        by_cases ha : a = k
        · rw [ha, sparseGet_none_of_lt m k hm.1, sparseGet_none_of_lt n k hn.1]
        · simpa [sparseGet, ha] using h a
      rw [ih hm.2 hn.2 htail]

end Sparse

/-- Two canonical memories that read alike are equal. -/
theorem mem_eq_of_readByte_eq {s t : State} (hs : Memory.wf s.mem = true) (ht : Memory.wf t.mem = true)
    (h : ∀ a, readByte s a = readByte t a) : s.mem = t.mem := by
  rw [Memory.wf, Bool.and_eq_true] at hs ht
  refine sparse_ext hs.1 ht.1 fun a => ?_
  by_cases ha : a < 18446744073709551616
  · simpa [readByte, Nat.mod_eq_of_lt ha] using h (BitVec.ofNat 64 a)
  · rw [sparseGet_none_of_le hs.2 (by omega), sparseGet_none_of_le ht.2 (by omega)]

/-! ### Storing a run of bytes -/

/-- Bytes outside those stored are as before. -/
theorem readByte_storeBytes_of_not_bytesAt (s : State) (a x : DWord) (bs : List Byte) (hx : ¬bytesAt a bs.length x) :
    readByte (applyWrites s (storeBytes a bs)) x = readByte s x := by
  have hw := storeBytes_within (gprs := fun _ => False) (fprs := fun _ => False) (crBits := fun _ _ => False) (fp := false)
    (bytes := bytesAt a bs.length) a bs fun k hk => ⟨k, hk, rfl⟩
  obtain ⟨-, -, -, hbytes, -⟩ := keepsAllBut_writes (keepsAllBut_refl s) hw
  exact hbytes x hx

/-- Fewer than 2^64 bytes from the next address on do not come round to this one. -/
theorem not_bytesAt_succ (a : DWord) {n : Nat} (hn : n < 18446744073709551616) : ¬bytesAt (a + 1#64) n a := by
  rintro ⟨k, hk, he⟩
  bv_omega

/-- Bytes stored are read back, as long as no address is written twice. -/
theorem readBytes_storeBytes (s : State) (a : DWord) (bs : List Byte) (hlen : bs.length ≤ 18446744073709551616) :
    readBytes (applyWrites s (storeBytes a bs)) bs.length a = .ok bs := by
  induction bs generalizing s a with
  | nil => rfl
  | cons b bs ih =>
    rw [List.length_cons] at hlen
    rw [storeBytes, applyWrites_cons, Write.apply, List.length_cons, readBytes,
      readByte_storeBytes_of_not_bytesAt _ _ _ _ (not_bytesAt_succ a (by omega)), readByte_writeByte, if_pos rfl]
    simp only [ih (writeByte s a b) (a + 1#64) (by omega)]

/-- Storing bytes keeps memory in its canonical form. -/
theorem Memory.wf_storeBytes (s : State) (a : DWord) (bs : List Byte) (h : Memory.wf s.mem = true) :
    Memory.wf (applyWrites s (storeBytes a bs)).mem = true := by
  induction bs generalizing s a with
  | nil => exact h
  | cons b bs ih => exact ih (writeByte s a b) (a + 1#64) (Memory.wf_writeByte s a b h)

/-- Settles O28: the head of a rising list is the least number that holds something, so reading alike determines the list; a byte
stored first is not stored over, as the bytes after it do not come round to it. -/
theorem memoryReadsWhatWasWrittenLast : Obligations.MemoryReadsWhatWasWrittenLast :=
  ⟨readBytes_storeBytes, readByte_storeBytes_of_not_bytesAt, Memory.wf_storeBytes, fun _ _ => mem_eq_of_readByte_eq⟩

end Machine
end Sys2Proof
end

section
/-! The statements of family 10_state: the values of reset, the register files, the invariant of every step, the reach of an
unprefixed instruction, what a prefixed one can change, and the stops at a length or an SPR value out of bounds. -/

namespace Sys2Proof
namespace Machine

/-! ### Register files -/

@[simp] theorem readGpr_writeFpr (s : State) (n m : RegNum) (v : DWord) : readGpr (writeFpr s n v) m = readGpr s m := rfl
@[simp] theorem readCr_writeFpr (s : State) (n m : RegNum) (v : DWord) : readCr (writeFpr s n v) m = readCr s m := rfl
@[simp] theorem readFpr_writeCr (s : State) (n m : RegNum) (v : BitVec 4) : readFpr (writeCr s n v) m = readFpr s m := rfl

/-- One bit of a CR field written (R26). -/
theorem crFieldBit_writeCrBit (s : State) (n m : RegNum) (b c : Fin 4) (v : Bool) :
    crFieldBit (readCr (writeCrBit s n b v) m) c = if m = n ∧ c = b then v else crFieldBit (readCr s m) c := by
  rw [writeCrBit, readCr_writeCr]
  by_cases hm : m = n
  · rw [if_pos hm, crFieldBit_set, ← hm]; simp
  · simp [hm]

/-- Settles O29, by what a read returns after a write in each file. -/
theorem registerFilesAreFlat : Obligations.RegisterFilesAreFlat := fun s n m =>
  ⟨fun v => ⟨readGpr_writeGpr s n m v, readFpr_writeGpr s n m v, readCr_writeGpr s n m v⟩,
   fun v => ⟨readFpr_writeFpr s n m v, readGpr_writeFpr s n m v, readCr_writeFpr s n m v⟩,
   fun v => ⟨readCr_writeCr s n m v, readGpr_writeCr s n m v, readFpr_writeCr s n m v⟩,
   fun b c v => crFieldBit_writeCrBit s n m b c v⟩

/-! ### Reset -/

@[simp] theorem readGpr_reset (n : RegNum) : readGpr State.reset n = 0#64 := by simp [readGpr, State.reset]
@[simp] theorem readFpr_reset (n : RegNum) : readFpr State.reset n = 0#64 := by simp [readFpr, State.reset]
@[simp] theorem readCr_reset (n : RegNum) : readCr State.reset n = 0#4 := by simp [readCr, State.reset]
@[simp] theorem readByte_reset (a : DWord) : readByte State.reset a = none := rfl

/-- Settles O25: every register of the three files is 0, and the other fields are as `State.reset` writes them. -/
theorem resetHoldsTheNamedValues : Obligations.ResetHoldsTheNamedValues :=
  ⟨fun n => ⟨readGpr_reset n, readFpr_reset n, readCr_reset n⟩, readByte_reset, rfl, rfl, rfl, rfl, rfl, rfl, rfl, rfl, rfl⟩

/-! ### Every step keeps the invariant -/

/-- An instruction of the opcode table keeps the invariant: each of its kinds does. -/
theorem execFor_inv {p : Params} {i : Instr} {s u : State} (hs : s.Inv) (h : execFor p i s = .next u) : u.Inv := by
  unfold execFor at h
  split at h
  · exact absurd h (outcome_ne_next _ u)
  · split at h
    · exact executePrefixed_inv hs h
    · split at h
      · exact executeUnprinted_inv hs h
      · exact executeUnprinted_inv hs h
      · exact executeUnprinted_inv hs h
      · exact executeV31_inv hs h

/-- So does a step, of an unprefixed instruction or of one of the opcode table. -/
theorem stepFor_inv {p : Params} {s u : State} (hs : s.Inv) (h : stepFor p s = .next u) : u.Inv := by
  unfold stepFor at h
  split at h
  · exact absurd h (outcome_ne_next _ u)
  · exact executeUnprefixed_inv hs h
  · exact execFor_inv hs h

/-- Settles O27: what a step executes is an unprefixed instruction, a prefixed one or one of another class, and each keeps the
invariant; `step` is the step at the machine's parameters. -/
theorem everyStepKeepsTheInvariant : Obligations.EveryStepKeepsTheInvariant :=
  ⟨fun s _ hs h => stepFor_inv hs (step_eq_stepFor s ▸ h), fun _ _ _ hs h => stepFor_inv hs h⟩

/-! ### A zero sub-field -/

/-- Settles O35: the tag is the sub-field's, which is Scalar, and the number the field's own. -/
theorem zeroSubFieldLeavesTheOperandUnextended : Obligations.ZeroSubFieldLeavesTheOperandUnextended := by
  intro slot i v hv
  have hz : v.isZero = true ∧ v.isVector = false := by
    simp only [List.mem_cons, List.not_mem_nil, or_false] at hv
    rcases hv with rfl | rfl <;> decide
  exact ⟨(resolve_vector slot v).trans hz.2, (resolve_zero hz.1 i).1⟩

/-! ### FP operands -/

/-- An arithmetic instruction of a single-predicate category with its one element enabled: the outcome of its one execution (R241,
R245, R252). -/
theorem executePrefixed_arith_one {op : ScalarOp} {m : RmMap} (hv : op.valid = true) (hm : op.rmMap = some m) {rm : Rm} {s : State}
    (hmode : s.mode = .bits64) (hvl : s.vl = 1) (hplain : plain (commonOf rm) = true) (hc : op.cls = .arith)
    (hrc : op.rc = false) (hi : op.implicitRs = false) (hra0 : op.ra0 = none) (hcat : m.cat.isTwin = false)
    (he : m.cat ≠ .rm1P3S1D ∨ extra2ModeOf rm = 0#1) (hsub : ((layout m.cat).all fun e => m.subs.contains e.1) = true)
    (hon : singleMask s (commonOf rm) 0 = true) (ops : List Operand) (hops : resolveAll (op.suffix op.word) m rm = ops)
    (r : ScalarResult) (hr : execOp true op (op.suffix op.word) (ops.map fun o => o.register 0) s = r)
    (ht : ∀ ws target, r = .done ws target → target = none ∧ (rm = 0#24 → scalarReach ws = ws)) :
    executePrefixed machine (some m.cat) rm op.word s = oneOutcome s r := by
  have hspr : op.spr = none := by cases op with
    | mtspr => cases hc
    | mfspr => cases hc
    | _ => rfl
  have h0 : ra0Stop (pairOf op m rm) = none := by simp [ra0Stop, pairOf, ScalarOp.suffix, hra0]
  exact executePrefixed_one hv hm (.inr rfl) hmode hvl (reservedCause_plain hplain hsub (he.imp_right .inr)) hplain hi hspr ops
    hops (admissionStop_none (.inl hc) hrc (.inr rfl) (.inl hcat) h0) true (by rw [elementMask_single_one hcat, hon])
    (fun _ => hops ▸ resolveAll_fits_one _ _ _) r hr ht

/-- What an FP operation answers: the enabled exception, or its result and the FPSCR (R191, R252). -/
def fpOutcome (trap : Bool) (n : RegNum) (v fpscr : DWord) : ScalarResult :=
  if trap then .trap .fpEnabled else .done [.fpr n v, .fpscr fpscr] none

/-- With VL = 1 it is the fault, or the next state with the two written. -/
theorem oneOutcome_fpOutcome (s : State) (trap : Bool) (n : RegNum) (v fpscr : DWord) :
    oneOutcome s (fpOutcome trap n v fpscr) =
      if trap then .fault (.suffixTrap 0 .fpEnabled s)
      else .next (setCia { writeFpr s n v with fpscr := fpscr } (s.cia + 8#64)) := by
  cases trap <;> rfl

/-- It branches nowhere, and is within the reach of an unprefixed instruction where its register is (R22). -/
theorem fpOutcome_reach {trap : Bool} {n : RegNum} {v fpscr : DWord} {rm : Rm} (h : rm = 0#24 → n.val < 32) :
    ∀ ws target, fpOutcome trap n v fpscr = .done ws target → target = none ∧ (rm = 0#24 → scalarReach ws = ws) := by
  intro ws target he
  cases trap with
  | true => cases he
  | false => cases he; exact ⟨rfl, fun h0 => by simp [scalarReach, Write.inScalarReach, h h0]⟩

/-- Settles O13: each is an arithmetic instruction of one element, whose one execution is an FP outcome on the extended registers. -/
theorem svFaddsAndFmaddExtendFpRegisters : Obligations.SvFaddsAndFmaddExtendFpRegisters := by
  refine ⟨fun c rd r1 r2 r3 t a d b s hmode hvl hp hon => ?_, fun c rd r1 r2 t a b s hmode hvl hp hon => ?_⟩
  · obtain ⟨-, -, -, -, hmodeBit⟩ := extra2Mode_packRm c rd r1 r2 r3 0#1
    refine Eq.trans ?_ (oneOutcome_fpOutcome s _ _ _ _)
    refine executePrefixed_arith_one (m := ⟨.rm1P3S1D, [.rdest, .rsrc1, .rsrc2, .rsrc3]⟩) rfl rfl hmode hvl
      (by rwa [commonOf_packRm]) rfl rfl rfl rfl rfl (.inr hmodeBit) rfl (by rwa [commonOf_packRm]) _
      (resolveAll_rm1P3S1D rfl c rd r1 r2 r3 0#1) _ ?_ (fpOutcome_reach fun h0 => ?_)
    · simp only [List.map_cons, List.map_nil, resolve_fpr_register, srcSlot, dstSlot]
      rfl
    · rw [(extra2Mode_zero h0).1]; exact reg_zero_reach t rfl
  · refine Eq.trans ?_ (oneOutcome_fpOutcome s _ _ _ _)
    refine executePrefixed_arith_one (m := ⟨.rm1P2S1D, [.rdest, .rsrc1, .rsrc2]⟩) rfl rfl hmode hvl
      (by rwa [commonOf_packRm]) rfl rfl rfl rfl rfl (.inl (by decide)) rfl (by rwa [commonOf_packRm]) _
      (resolveAll_rm1P2S1D rfl c rd r1 r2) _ ?_ (fpOutcome_reach fun h0 => ?_)
    · simp only [List.map_cons, List.map_nil, resolve_fpr_register, srcSlot, dstSlot]
      rfl
    · rw [(extra3_zero h0).1]; exact reg_zero_reach t rfl

/-! ### A reference instruction under other parameters -/

/-- Identification reads nothing of the parameters but the suffix ISA (R108 steps 1 to 3). -/
theorem identify_word_of_suffixes {p : Params} (hp : p.suffixes = referenceIsa) {op : ScalarOp} {m : RmMap}
    (hv : op.valid = true) (hm : op.rmMap = some m) {want : Option Category} (hw : want = none ∨ want = some m.cat) (rm : Rm)
    (s : State) : identify p want rm op.word s = .ok (pairOf op m rm) := by
  rw [← identify_word hv hm hw rm s]
  simp only [identify, hp, show machine.suffixes = referenceIsa from rfl]

/-- On a full implementation, with no reserved value and no value without a meaning, what is left of the decode checks is the bound on VL
(R30, R107). -/
theorem decodeStop_eq_vlAboveMax {p : Params} {q : Pair} {s : State} (hh : ∀ rm cat, p.hwSupports rm cat = true)
    (hres : reservedCause q = none) (hval : valueStop q = none) :
    decodeStop p q s = stopIf (decide (p.vlMax < s.vl)) (.refuse .vlAboveMax) := by
  have hill : illegalStop p q s = none := by simp [illegalStop, hres, hh]
  rw [decodeStop, hill, hval, ite_self, firstStop_none, firstStop_none]
  cases decide (p.vlMax < s.vl) <;> rfl

/-- A reference instruction that passes the decode checks but for the bound on VL (R108 steps 1 to 7, R30). -/
theorem executePrefixed_word_of_suffixes {p : Params} (hp : p.suffixes = referenceIsa) (hh : ∀ rm cat, p.hwSupports rm cat = true)
    {op : ScalarOp} {m : RmMap} (hv : op.valid = true) (hm : op.rmMap = some m) {want : Option Category}
    (hw : want = none ∨ want = some m.cat) {rm : Rm} {s : State} (hres : reservedCause (pairOf op m rm) = none)
    (hval : valueStop (pairOf op m rm) = none) :
    executePrefixed p want rm op.word s =
      if p.vlMax < s.vl then .refused .vlAboveMax else executeChecked p (pairOf op m rm) s := by
  have hid := identify_word_of_suffixes hp hv hm hw rm s
  have hdec := decodeStop_eq_vlAboveMax (s := s) hh hres hval
  by_cases h : p.vlMax < s.vl <;> simp [executePrefixed, hid, hdec, h]

/-! ### Lengths beyond their bounds -/

/-- An integer bit test of more than 64 elements (R154). -/
theorem maskStop_integer {sel : BitVec 3} {vl : Nat} (h0 : sel ≠ 0#3) (h1 : sel ≠ 1#3) (hvl : 64 < vl) :
    maskStop 0#1 sel vl = some (.refuse .integerPredicateBeyond63) := by
  simp [maskStop, bne_iff_ne.mpr h0, bne_iff_ne.mpr h1, hvl]

/-- CR predicate fields past CR127 (R156). -/
theorem maskStop_cr {sel : BitVec 3} {vl : Nat} (hvl : 96 < vl) :
    maskStop 1#1 sel vl = some (.refuse .crPredicatePast127) := by
  have : 128 < Config.crPredOffs + vl := by simp only [Config.crPredOffs]; omega
  simp [maskStop, this]

/-- A loop that is admitted and whose masks cannot be read is refused (R154, R156). -/
theorem executeLoop_masksStop {p : Params} {q : Pair} {s : State} {st : Stop}
    (hadm : admissionStop p q (resolveAll q.ins q.map q.rm) s.vl = none) (hmask : masksStop q.map.cat q.rm s.vl = some st) :
    executeLoop p q s = st.outcome := by
  simp only [executeLoop, hadm, hmask, firstStop_none, firstStop_some]

section SvAdd

variable {c : CommonRm} {rd ra rb : BitVec 3} {t a b : BitVec 5} {s : State}

/-- `sv.add` with plain fields after the decode checks. -/
theorem execFor_add {p : Params} (hs : p.suffixes = referenceIsa) (hh : ∀ rm cat, p.hwSupports rm cat = true)
    (hp : plain c = true) :
    execFor p (.rm1P2S1D c rd ra rb (ScalarOp.add t a b false).word) s =
      if p.vlMax < s.vl then .refused .vlAboveMax
      else executeChecked p (pairOf (.add t a b false) ⟨.rm1P2S1D, [.rdest, .rsrc1, .rsrc2]⟩ (packRm c (rd ++ ra ++ rb))) s := by
  have hpl : plain (commonOf (packRm c (rd ++ ra ++ rb))) = true := by rwa [commonOf_packRm]
  exact executePrefixed_word_of_suffixes hs hh (op := .add t a b false) (m := ⟨.rm1P2S1D, [.rdest, .rsrc1, .rsrc2]⟩) rfl rfl
    (.inr rfl) (reservedCause_plain hpl rfl (.inl (by simp [pairOf]))) (valueStop_plain hpl rfl)

/-- `sv.add` of more than one element whose mask cannot be read (R154, R156). -/
theorem exec_add_maskStop {st : Stop} (hp : plain c = true) (hlegal : vlLegal s) (hvec : (SubValue.extra3 rd).isVector = true)
    (h1 : s.vl ≠ 1) (hmask : maskStop c.maskmode c.mask s.vl = some st) :
    exec (.rm1P2S1D c rd ra rb (ScalarOp.add t a b false).word) s = st.outcome := by
  have hops := resolveAll_rm1P2S1D (ins := (ScalarOp.add t a b false).suffix (ScalarOp.add t a b false).word) rfl c rd ra rb
  have hdest : hasScalarDest (resolveAll ((ScalarOp.add t a b false).suffix (ScalarOp.add t a b false).word)
      ⟨.rm1P2S1D, [.rdest, .rsrc1, .rsrc2]⟩ (packRm c (rd ++ ra ++ rb))) = false := by
    simp [hops, hasScalarDest, resolve_slot, resolve_vector, hvec, dstSlot, srcSlot]
  have hmax : ¬machine.vlMax < s.vl := Nat.not_lt.mpr hlegal.2
  rw [exec_eq_execFor, execFor_add rfl (fun _ _ => rfl) hp, if_neg hmax, executeChecked,
    if_neg (Nat.one_le_iff_ne_zero.mp hlegal.1), if_neg fun h => h1 h.2]
  refine executeLoop_masksStop (admissionStop_none (.inl rfl) rfl (.inl hdest) (.inl rfl) rfl) ?_
  simp [masksStop, pairOf, commonOf_packRm, hmask]

end SvAdd

/-- Settles O39: a length beyond `VL_MAX` is what is left of the decode checks; the other two bounds are those of the mask, read once
the loop is admitted. -/
theorem lengthsBeyondTheirBoundsAreRefused : Obligations.LengthsBeyondTheirBoundsAreRefused := by
  intro c rd ra rb t a b s hp
  have habove : ∀ m, m < s.vl → execFor { machine with vlMax := m } (.rm1P2S1D c rd ra rb (ScalarOp.add t a b false).word) s =
      .refused .vlAboveMax := fun m hvl => (execFor_add rfl (fun _ _ => rfl) hp).trans (if_pos hvl)
  refine ⟨habove, fun hvl => (exec_eq_execFor _ s).trans (habove _ hvl), fun hl hv hm h0 h1 hvl => ?_, fun hl hv hm hvl => ?_⟩
  · exact exec_add_maskStop hp hl hv (by omega) (hm ▸ maskStop_integer h0 h1 hvl)
  · exact exec_add_maskStop hp hl hv (by omega) (hm ▸ maskStop_cr hvl)

/-! ### What no write changes -/

/-- What no write of a list changes keeps its value. -/
theorem applyWrites_keeps {β : Type} (get : State → β) {ws : List Write} (h : ∀ w ∈ ws, ∀ s, get (w.apply s) = get s)
    (s : State) : get (applyWrites s ws) = get s := by
  induction ws generalizing s with
  | nil => rfl
  | cons w ws ih => rw [applyWrites_cons, ih fun x hx => h x (List.mem_cons_of_mem _ hx), h w List.mem_cons_self]

/-- Only a write of SVSTATE changes it (R30). -/
theorem Write.apply_svstate {w : Write} (h : ∀ v, w ≠ .svstate v) (s : State) : (w.apply s).svstate = s.svstate := by
  cases w with
  | svstate v => exact absurd rfl (h v)
  | _ => rfl

/-- Only a write of a CR field or of one of its bits changes CR (R26). -/
theorem Write.apply_cr {w : Write} (h : w.crField? = none) (s : State) : (w.apply s).cr = s.cr := by
  cases w with
  | crField n v => cases h
  | crBit n b v => cases h
  | _ => rfl

/-- A write within the reach of an unprefixed instruction leaves the FPRs from 32 up alone (R22). -/
theorem Write.readFpr_apply_of_inScalarReach {w : Write} (h : w.inScalarReach = true) {n : RegNum} (hn : 32 ≤ n.val) (s : State) :
    readFpr (w.apply s) n = readFpr s n := by
  cases w with
  | fpr m v =>
    have hm : m.val < 32 := of_decide_eq_true h
    rw [Write.apply, readFpr_writeFpr, if_neg fun e => by subst e; omega]
  | _ => rfl

/-- A write within the reach of an unprefixed instruction leaves the CR fields from 8 up alone (R22). -/
theorem Write.readCr_apply_of_inScalarReach {w : Write} (h : w.inScalarReach = true) {n : RegNum} (hn : 8 ≤ n.val) (s : State) :
    readCr (w.apply s) n = readCr s n := by
  have hother : ∀ (m : RegNum) v, m.val < 8 → readCr (writeCr s m v) n = readCr s n := fun m v hm => by
    rw [readCr_writeCr, if_neg fun e => by subst e; omega]
  cases w with
  | crField m v => exact hother m v (of_decide_eq_true h)
  | crBit m b v => exact hother m _ (of_decide_eq_true h)
  | _ => rfl

/-- The registers above the reach of an unprefixed instruction keep their values (R22, R243). -/
theorem scalarReach_keeps_upper (s : State) (ws : List Write) :
    (∀ n : RegNum, 32 ≤ n.val → readGpr (applyWrites s (scalarReach ws)) n = readGpr s n ∧
      readFpr (applyWrites s (scalarReach ws)) n = readFpr s n) ∧
    (∀ n : RegNum, 8 ≤ n.val → readCr (applyWrites s (scalarReach ws)) n = readCr s n) := by
  have hreach : ∀ w ∈ scalarReach ws, w.inScalarReach = true := fun w hw => (List.mem_filter.mp hw).2
  exact ⟨fun n hn => ⟨scalarReach_keeps_gpr s ws n hn,
      applyWrites_keeps (readFpr · n) (fun w hw => Write.readFpr_apply_of_inScalarReach (hreach w hw) hn) s⟩,
    fun n hn => applyWrites_keeps (readCr · n) (fun w hw => Write.readCr_apply_of_inScalarReach (hreach w hw) hn) s⟩

/-! ### Unprefixed instructions -/

/-- All that an unprefixed instruction can do when it answers a next state. -/
theorem executeUnprefixed_next {p : Params} {w : Word32} {s u : State} (h : executeUnprefixed p w s = .next u) :
    ∃ ins, p.suffixes.decode w = some ins ∧ runScalar p ins w none 4#64 s = .next u := by
  unfold executeUnprefixed at h
  split at h
  · exact absurd h (outcome_ne_next _ u)
  · next ins hd => exact ⟨ins, hd, h⟩

/-- An unprefixed reference instruction runs as its scalar execution, 4 bytes long (R243). -/
theorem executeUnprefixed_word {p : Params} (hp : p.suffixes = referenceIsa) {op : ScalarOp} (hv : op.valid = true) (s : State) :
    executeUnprefixed p op.word s = runScalar p (op.suffix op.word) op.word none 4#64 s := by
  rw [executeUnprefixed, hp, referenceDecode_word op hv]

/-- An access passes where it is to no SVP64 SPR, whatever the state holds (R31). -/
theorem sprStop_eq_none {p : Params} {ins : Suffix} {regs : List Nat} {w0 : Word32} {w1 : Option Word32} {s : State} :
    sprStop p ins regs w0 w1 s = none ↔ ∀ acc, ins.spr = some acc → p.isSvSpr acc.num = false := by
  unfold sprStop
  split
  · next hn => simp [hn]
  · next acc ha =>
    rw [ha]
    cases hsv : p.isSvSpr acc.num with
    | false => simp [hsv]
    | true => cases p.svSprValueOk acc.num (svSprValue p ins acc regs s) <;> simp [hsv]

/-- A scalar execution depends on, and answers, no more than an unprefixed instruction can read (R22, R243). -/
theorem runScalar_scalarView {p : Params} {ins : Suffix} {w0 : Word32} {w1 : Option Word32} {len : DWord} {s t u : State}
    (hst : scalarView s = scalarView t) (h : runScalar p ins w0 w1 len s = .next u) :
    ∃ v, runScalar p ins w0 w1 len t = .next v ∧ scalarView u = scalarView v := by
  obtain ⟨ws, target, hspr, hrun, rfl⟩ := runScalar_next h
  have hspr' : sprStop p ins (identityMap ins) w0 w1 t = none := sprStop_eq_none.mpr (sprStop_eq_none.mp hspr)
  rw [hst] at hrun
  refine ⟨setCia (applyWrites t (scalarReach ws)) (nextAddress t len target), ?_, ?_⟩
  · simp only [runScalar, hspr', hrun]
  · have hcia : s.cia = t.cia := by simpa using congrArg State.cia hst
    have hnext : nextAddress s len target = nextAddress t len target := by simp only [nextAddress, hcia]
    have hset : ∀ (x : State) (a : DWord), scalarView (setCia x a) = setCia (scalarView x) a := fun _ _ => rfl
    rw [hset, hset, scalarView_applyWrites, scalarView_applyWrites, hst, hnext]

/-- A scalar execution of a reference instruction that completes (R240, R243). -/
theorem runScalar_word {op : ScalarOp} (hv : op.valid = true) (hi : op.implicitRs = false) (hspr : op.spr = none)
    {w0 : Word32} {w1 : Option Word32} {len : DWord} {s : State} (hmode : s.mode = .bits64) {ws : List Write}
    {target : Option DWord}
    (he : execOp true op (op.suffix op.word) (identityMap (op.suffix op.word)) s = .done ws target) :
    runScalar machine (op.suffix op.word) w0 w1 len s =
      .next (setCia (applyWrites s (scalarReach ws)) (nextAddress s len target)) := by
  have hstop : sprStop machine (op.suffix op.word) (identityMap (op.suffix op.word)) w0 w1 s = none :=
    sprStop_eq_none.mpr fun acc ha => absurd (hspr.symm.trans ha) nofun
  have hrun : machine.run (op.suffix op.word) (identityMap (op.suffix op.word)) (scalarView s) = .done ws target := by
    rw [exec1_word hv _ (s := scalarView s) hmode, execOp_scalarView true hi hspr, he]
  simp only [runScalar, hstop, hrun]

/-- A 5-bit register number is within the reach of an unprefixed instruction (R22). -/
theorem reg_toNat_lt (f : BitVec 5) : (reg f.toNat).val < 32 := by
  have := f.isLt
  simp only [reg, Fin.ofNat]
  omega

/-- `add`, whatever VL is (R28, R243). -/
theorem executeUnprefixed_add (t a b : BitVec 5) (s : State) (hmode : s.mode = .bits64) :
    executeUnprefixed machine (ScalarOp.add t a b false).word s = .next (setCia
      (writeGpr s (reg t.toNat) (readGpr s (reg a.toNat) + readGpr s (reg b.toNat))) (s.cia + 4#64)) := by
  have hr := runScalar_word (op := .add t a b false) (w0 := (ScalarOp.add t a b false).word) (w1 := none) (len := 4#64) rfl rfl
    rfl hmode (ws := [.gpr (reg t.toNat) (readGpr s (reg a.toNat) + readGpr s (reg b.toNat))]) (target := none) rfl
  rw [executeUnprefixed_word rfl rfl, hr]
  simp [scalarReach, Write.inScalarReach, reg_toNat_lt, nextAddress, Write.apply]

/-- Settles O50: the writes are cut to the low registers, the reads see nothing else of the state, and nothing looks at VL. -/
theorem unprefixedInstructionsAreNotInfluenced : Obligations.UnprefixedInstructionsAreNotInfluenced := by
  refine ⟨fun w s u h => ?_, fun w s t u hst h => ?_, executeUnprefixed_add⟩
  · obtain ⟨ins, -, hr⟩ := executeUnprefixed_next h
    obtain ⟨ws, target, -, -, rfl⟩ := runScalar_next hr
    exact scalarReach_keeps_upper s ws
  · obtain ⟨ins, hd, hr⟩ := executeUnprefixed_next h
    simpa only [executeUnprefixed, hd] using runScalar_scalarView hst hr

/-! ### Scalar identity and the SVP64 SPRs -/

/-- A list of causes has none exactly when each of them is none. -/
theorem firstCause_eq_none (l : List (Option IllegalCause)) : firstCause l = none ↔ ∀ c ∈ l, c = none := by
  induction l with
  | nil => simp [firstCause]
  | cons c l ih => cases c <;> simp [firstCause, ih]

/-- With `RM = 0` no value is reserved, whether its field is in use or not (R105, R131). -/
theorem reservedCause_zero {q : Pair} (h : q.rm = 0#24) : reservedCause q = none := by
  rw [reservedCause, h, commonOf_zero, firstCause_eq_none]
  intro c hc
  simp only [List.mem_append, List.mem_singleton] at hc
  rcases hc with (hc | hc) | rfl
  · revert c
    simp [widthCauses, reservedWidth, narrowWidth, unusedWidth, fpWidth, singleWidths]
  · obtain ⟨e, -, rfl⟩ := List.mem_map.mp hc
    have hz : ∀ three shift, (subAt 0#24 three shift).isZero = true := fun three shift => by
      cases three <;> simp [subAt, SubValue.isZero]
    simp only [hz, Bool.not_true, Bool.and_false, Bool.false_eq_true, if_false]
  · simp [extra2ModeCause, extra2ModeOf]

/-- Every instruction of the reference suffix ISA has a category (R103). -/
theorem exists_rmMap (op : ScalarOp) : ∃ m, op.rmMap = some m := by
  cases op with
  | load k u => cases u <;> exact ⟨_, rfl⟩
  | store k u => cases u <;> exact ⟨_, rfl⟩
  | storeX k u => cases u <;> exact ⟨_, rfl⟩
  | _ => exact ⟨_, rfl⟩

/-- Scalar identity: with `RM = 0` and VL = 1 a reference instruction runs as the unprefixed one, 8 bytes long (R241). -/
theorem executePrefixed_identity {p : Params} (hp : p.suffixes = referenceIsa) (hh : ∀ rm cat, p.hwSupports rm cat = true)
    (hmax : 1 ≤ p.vlMax) {op : ScalarOp} (hv : op.valid = true) (hi : op.implicitRs = false) {s : State} (hvl : s.vl = 1) :
    executePrefixed p none 0#24 op.word s =
      runScalar p (op.suffix op.word) (prefixWord 0#24) (some op.word) 8#64 s := by
  obtain ⟨m, hm⟩ := exists_rmMap op
  have hres : reservedCause (pairOf op m 0#24) = none := reservedCause_zero rfl
  have hval : valueStop (pairOf op m 0#24) = none := valueStop_plain (by decide : plain (commonOf 0#24) = true) hi
  rw [executePrefixed_word_of_suffixes hp hh hv hm (.inl rfl) hres hval, if_neg (by omega), executeChecked, if_neg (by omega),
    if_pos ⟨rfl, hvl⟩]
  rfl

/-- A scalar execution that accesses an SVP64 SPR never completes (R31, R33); `v` is the value read or written. -/
theorem runScalar_svSpr {p : Params} {ins : Suffix} {acc : SprAccess} (ha : ins.spr = some acc) (hsv : p.isSvSpr acc.num = true)
    {w0 : Word32} {w1 : Option Word32} {len : DWord} {s : State} {v : Option DWord}
    (hval : svSprValue p ins acc (identityMap ins) s = v) :
    runScalar p ins w0 w1 len s =
      if p.svSprValueOk acc.num v then .refused .svstateAccess
      else .fault (.illegalInstruction ⟨s.cia, w0, w1, .svSprValue acc.num⟩ s) := by
  have hstop : sprStop p ins (identityMap ins) w0 w1 s =
      if p.svSprValueOk acc.num v then some (.refuse .svstateAccess) else some (raiseIllegal w0 w1 (.svSprValue acc.num) s) := by
    simp only [sprStop, ha, hsv, hval, if_true]
  rw [runScalar, hstop]
  cases p.svSprValueOk acc.num v <;> rfl

/-- Settles O60: prefixed with `RM = 0` and unprefixed alike, each access is a scalar execution, which stops at its SPR. -/
theorem svSprAccessesNeverComplete : Obligations.SvSprAccessesNeverComplete := by
  intro p n t s hp hh hmax hsv hvl
  have hwrite : ∀ w, svSprValue p ((ScalarOp.mtspr n t).suffix w) ⟨n, true⟩ (identityMap ((ScalarOp.mtspr n t).suffix w)) s =
      some (readGpr s (reg t.toNat)) := fun _ => rfl
  have hread : ∀ w, svSprValue p ((ScalarOp.mfspr t n).suffix w) ⟨n, false⟩ (identityMap ((ScalarOp.mfspr t n).suffix w)) s =
      some (p.svSprHeld n s.svstate) := fun _ => rfl
  exact ⟨(executePrefixed_identity hp hh hmax rfl rfl hvl).trans (runScalar_svSpr rfl hsv (hwrite _)),
    (executePrefixed_identity hp hh hmax rfl rfl hvl).trans (runScalar_svSpr rfl hsv (hread _)),
    (executeUnprefixed_word hp rfl s).trans (runScalar_svSpr rfl hsv (hwrite _)),
    (executeUnprefixed_word hp rfl s).trans (runScalar_svSpr rfl hsv (hread _))⟩

/-! ### What a prefixed instruction can change -/

/-- Identification finds the suffix of the second word and its mapping, of the category that a split pair names (R102, R103). -/
theorem identify_ok {p : Params} {want : Option Category} {rm : Rm} {w1 : Word32} {s : State} {q : Pair}
    (h : identify p want rm w1 s = .ok q) :
    p.suffixes.decode w1 = some q.ins ∧ p.suffixes.mapping q.ins = some q.map ∧ (want = none ∨ want = some q.map.cat) := by
  unfold identify at h
  split at h
  · cases h
  · split at h
    · cases h
    · next ins hd =>
      split at h
      · cases h
      · next m hm =>
        split at h
        · cases h; exact ⟨hd, hm, .inl rfl⟩
        · split at h
          · next hc => cases h; exact ⟨hd, hm, .inr (congrArg some hc.symm)⟩
          · cases h

/-- A write of some scalar execution of a suffix (R240 part `exec1`). -/
def SuffixWrites (p : Params) (ins : Suffix) (x : Write) : Prop :=
  ∃ regs t vs target, p.run ins regs t = .done vs target ∧ x ∈ vs

/-- The state `s` with writes of a suffix and nothing else. -/
def ChangedBySuffix (p : Params) (ins : Suffix) (s u : State) : Prop :=
  ∃ ws, (∀ x ∈ ws, SuffixWrites p ins x) ∧ u = applyWrites s ws

/-- The loop leaves the state before it with writes of its suffix (R245). -/
theorem runLoop_changedBySuffix {p : Params} {q : Pair} {ops : List Operand} {vl : Nat} {stop : Bool} {mask : List Bool} {i : Nat}
    {s u : State} (h : runLoop p q ops vl stop i mask s = .ok u) : ChangedBySuffix p q.ins s u := by
  refine runLoop_keeps (ChangedBySuffix p q.ins s) p q ops vl stop ?_ mask i s u ⟨[], nofun, rfl⟩ h
  rintro j v t ⟨ws, hws, rfl⟩ he
  obtain ⟨vs, target, -, hrun, -, rfl⟩ := runElement_ok he
  refine ⟨ws ++ vs, fun x hx => ?_, (applyWrites_append s ws vs).symm⟩
  rcases List.mem_append.mp hx with hx | hx
  · exact hws x hx
  · exact ⟨_, _, vs, target, hrun, hx⟩

/-- A prefixed instruction leaves the state before it with writes of its suffix, and a new program counter (R26, R30). -/
theorem executePrefixed_onlyWrites {p : Params} {want : Option Category} {rm : Rm} {w : Word32} {s u : State}
    (h : executePrefixed p want rm w s = .next u) :
    ∃ ins ws, p.suffixes.decode w = some ins ∧ (∀ x ∈ ws, SuffixWrites p ins x) ∧ u = setCia (applyWrites s ws) u.cia := by
  obtain ⟨q, hq, -, hcase⟩ := executePrefixed_next h
  refine ⟨q.ins, ?_⟩
  rcases hcase with ⟨-, rfl⟩ | ⟨-, -, hr⟩ | ⟨-, -, -, -, v, hv, rfl⟩
  · exact ⟨[], (identify_ok hq).1, by simp, rfl⟩
  · obtain ⟨vs, target, -, hrun, rfl⟩ := runScalar_next hr
    exact ⟨scalarReach vs, (identify_ok hq).1, fun x hx => ⟨_, _, vs, target, hrun, (List.mem_filter.mp hx).1⟩, rfl⟩
  · obtain ⟨ws, hws, rfl⟩ := runLoop_changedBySuffix hv
    exact ⟨ws, (identify_ok hq).1, hws, rfl⟩

/-- SVSTATE, and CR, are unchanged where no execution of the suffix writes them (R26, R30). -/
theorem executePrefixed_keeps_unwritten {p : Params} {want : Option Category} {rm : Rm} {w : Word32} {ins : Suffix} {s u : State}
    (h : executePrefixed p want rm w s = .next u) (hd : p.suffixes.decode w = some ins) :
    ((∀ regs t vs target v, p.run ins regs t = .done vs target → Write.svstate v ∉ vs) → u.svstate = s.svstate) ∧
    ((∀ regs t vs target, p.run ins regs t = .done vs target → vs.filterMap Write.crField? = []) → u.cr = s.cr) := by
  obtain ⟨ins', ws, hd', hws, hu⟩ := executePrefixed_onlyWrites h
  obtain rfl : ins' = ins := Option.some.inj (hd'.symm.trans hd)
  rw [hu]
  refine ⟨fun hno => ?_, fun hno => ?_⟩
  · refine applyWrites_keeps State.svstate (fun x hx => Write.apply_svstate fun v e => ?_) s
    obtain ⟨regs, t, vs, target, hrun, hmem⟩ := hws x hx
    exact hno regs t vs target v hrun (e ▸ hmem)
  · refine applyWrites_keeps State.cr (fun x hx => Write.apply_cr ?_) s
    obtain ⟨regs, t, vs, target, hrun, hmem⟩ := hws x hx
    exact List.filterMap_eq_nil_iff.mp (hno regs t vs target hrun) x hmem

/-! ### The writes of the reference instructions -/

/-- The instruction may write CR: Rc=1, or a CR operand (R240, R251). -/
def mayWriteCr (op : ScalarOp) : Prop := op.rc = true ∨ ∃ sl ∈ op.slots, sl.kind = .crField ∨ sl.kind = .crBit

/-- A write of a GPR, an FPR, memory or FPSCR, or, if `cr` holds, of CR: none of SVSTATE, the mode or another special register. -/
def Write.ordinary (cr : Prop) (w : Write) : Prop :=
  w.within (fun _ => True) (fun _ => True) (fun _ _ => cr) (fun _ => True) true

section Ordinary

variable {cr : Prop}

/-- A GPR result and its record in CR0, where Rc=1. -/
theorem ordinary_gpr_recordInt {s : State} {n : RegNum} {v x : DWord} {rc : Bool} (h : rc = true → cr) :
    ∀ w ∈ .gpr n v :: recordInt s rc x, w.ordinary cr := by
  cases rc with
  | false => simp [recordInt, Write.ordinary, Write.within]
  | true => simp [recordInt, Write.ordinary, Write.within, h rfl]

/-- An FPR result, the FPSCR and its record in CR1, where Rc=1. -/
theorem ordinary_fpr_recordFp {n : RegNum} {v f : DWord} {rc : Bool} (h : rc = true → cr) :
    ∀ w ∈ [.fpr n v, .fpscr f] ++ recordFp rc f, w.ordinary cr := by
  cases rc with
  | false => simp [recordFp, Write.ordinary, Write.within]
  | true => simp [recordFp, Write.ordinary, Write.within, h rfl]

theorem ordinary_gpr {n : RegNum} {v : DWord} : ∀ w ∈ [Write.gpr n v], w.ordinary cr := by
  simp [Write.ordinary, Write.within]

/-- The writes of a store without update. -/
theorem ordinary_storeBytes {a : DWord} {l : List Byte} : ∀ w ∈ storeBytes a l, w.ordinary cr :=
  storeBytes_within a l fun _ _ => trivial

/-- The writes of a load without update. -/
theorem ordinary_loadFrom_write {be : Bool} {s : State} {k : LoadKind} {ea : DWord} {r : RegNum} {ws : List Write}
    {target : Option DWord} (h : loadFrom be s k ea (fun v => [k.write r v]) = .done ws target) : ∀ w ∈ ws, w.ordinary cr :=
  loadFrom_within (fun v w hw => List.mem_singleton.mp hw ▸ write_within (by simp) v) h

/-- The writes of a load with update. -/
theorem ordinary_loadFrom_updateWrites {be : Bool} {s : State} {k : LoadKind} {ea : DWord} {rt ra : RegNum} {ws : List Write}
    {target : Option DWord} (h : loadFrom be s k ea (fun v => updateWrites k rt ra v ea) = .done ws target) :
    ∀ w ∈ ws, w.ordinary cr :=
  loadFrom_within (fun v => updateWrites_within (by simp) trivial v ea) h

/-- The writes of a store with update. -/
theorem ordinary_storeBytes_gpr {a : DWord} {l : List Byte} {n : RegNum} {v : DWord} :
    ∀ w ∈ storeBytes a l ++ [.gpr n v], w.ordinary cr := fun w hw =>
  (List.mem_append.mp hw).elim (ordinary_storeBytes w) (ordinary_gpr w)

end Ordinary

/-- An instruction the reference writes out writes GPRs, FPRs, memory and FPSCR, and CR only where it says so. -/
theorem execOp_ordinary {be : Bool} {op : ScalarOp} (hi : op.implicitRs = false) (hspr : op.spr = none) {ins : Suffix}
    {regs : List Nat} {s : State} {ws : List Write} {target : Option DWord} (h : execOp be op ins regs s = .done ws target) :
    ∀ w ∈ ws, w.ordinary (mayWriteCr op) := by
  cases op with
  | maddedu => cases hi
  | divmod2du => cases hi
  | mtspr => cases hspr
  | mfspr => cases hspr
  | add => cases h; exact ordinary_gpr_recordInt .inl
  | subf => cases h; exact ordinary_gpr_recordInt .inl
  | logic => cases h; exact ordinary_gpr_recordInt .inl
  | extsb => cases h; exact ordinary_gpr_recordInt .inl
  | rlwimi => cases h; exact ordinary_gpr_recordInt .inl
  | addi => cases h; exact ordinary_gpr
  | maddld => cases h; exact ordinary_gpr
  | isel => cases h; exact ordinary_gpr
  | cmp =>
    cases h
    exact fun w hw => List.mem_singleton.mp hw ▸ fun _ => .inr ⟨_, List.mem_cons_self, .inl rfl⟩
  | mcrf =>
    cases h
    exact fun w hw => List.mem_singleton.mp hw ▸ fun _ => .inr ⟨_, List.mem_cons_self, .inl rfl⟩
  | crlogic =>
    cases h
    exact fun w hw => List.mem_singleton.mp hw ▸ (.inr ⟨_, List.mem_cons_self, .inr rfl⟩ : mayWriteCr _)
  | fadds =>
    simp only [execOp] at h
    split at h
    · cases h
    · cases h; exact ordinary_fpr_recordFp .inl
  | fmadd =>
    simp only [execOp] at h
    split at h
    · cases h
    · cases h; exact ordinary_fpr_recordFp .inl
  | load k u =>
    cases u with
    | false => exact ordinary_loadFrom_write h
    | true => exact ordinary_loadFrom_updateWrites h
  | loadX k u =>
    cases u with
    | false => exact ordinary_loadFrom_write h
    | true => exact ordinary_loadFrom_updateWrites h
  | store k u =>
    cases u with
    | false => cases h; exact ordinary_storeBytes
    | true => cases h; exact ordinary_storeBytes_gpr
  | storeX k u =>
    cases u with
    | false => cases h; exact ordinary_storeBytes
    | true => cases h; exact ordinary_storeBytes_gpr
  | branch => cases h; exact nofun
  | sync => cases h; exact nofun

/-! ### The result for a reference suffix -/

/-- The mask of every category is a function of the element (R121, R157). -/
theorem exists_elementMask (s : State) (cat : Category) (rm : Rm) (vl : Nat) :
    ∃ on : Nat → Bool, elementMask s cat rm vl = (List.range vl).map on := by
  cases h : cat.isTwin with
  | false => exact ⟨_, elementMask_single h⟩
  | true => exact ⟨_, elementMask_twin h⟩

/-- An SVP64 instruction runs its `RM` and its suffix (R100, R103). -/
theorem exec_of_rm {i : Instr} {rm : Rm} {w : Word32} (hrm : i.rm? = some rm) (hw : i.secondWord? = some w) (s : State) :
    exec i s = executePrefixed machine i.category? rm w s := by
  rw [exec_eq_execFor]
  simp only [execFor, hw, hrm]

/-- A pair identified with a reference word is that word's, of the category it was split by (R103). -/
theorem identify_word_ok {op : ScalarOp} (hv : op.valid = true) {want : Option Category} {rm : Rm} {s : State} {q : Pair}
    (h : identify machine want rm op.word s = .ok q) :
    ∃ m, op.rmMap = some m ∧ (want = none ∨ want = some m.cat) ∧ q = pairOf op m rm := by
  obtain ⟨hd, hm, hwant⟩ := identify_ok h
  have hins : q.ins = op.suffix op.word := Option.some.inj (hd.symm.trans (referenceDecode_word op hv))
  rw [hins] at hm
  have hmap : op.rmMap = some q.map := (mapping_word op hv).symm.trans hm
  exact ⟨q.map, hmap, hwant, Except.ok.inj (h.symm.trans (identify_word hv hmap hwant rm s))⟩

/-- A suffix with an implicit RS does not pass the decode checks (R182). -/
theorem implicitRs_of_decodeStop {p : Params} {q : Pair} {s : State} (h : decodeStop p q s = none) : q.ins.implicitRs = false := by
  have hval : valueStop q = none := (firstStop_eq_none _).mp h _ (by simp)
  exact (stopIf_eq_none _ _).mp ((firstStop_eq_none _).mp hval _ List.mem_cons_self)

/-- A prefixed reference instruction that names no SPR changes no more than ordinary writes do (R26, R30). -/
theorem executePrefixed_ordinary {op : ScalarOp} (hv : op.valid = true) (hspr : op.spr = none) {want : Option Category} {rm : Rm}
    {s u : State} (hmode : s.mode = .bits64) (h : executePrefixed machine want rm op.word s = .next u) :
    keepsAllBut (fun _ => True) (fun _ => True) (fun _ _ => mayWriteCr op) (fun _ => True) true s u := by
  obtain ⟨q, hq, hd, -⟩ := executePrefixed_next h
  obtain ⟨m, hm, hwant, rfl⟩ := identify_word_ok hv hq
  have hi : op.implicitRs = false := implicitRs_of_decodeStop hd
  obtain ⟨on, hon⟩ := exists_elementMask s m.cat rm s.vl
  exact executePrefixed_frame hv hm hwant hmode hi hspr _ rfl on hon
    (fun _ _ _ _ _ _ _ _ _ _ he => execOp_ordinary hi hspr he) (fun _ => resolveAll_fits_one _ _ _) h

/-- A CR field is its four bits (R26). -/
theorem crField_ext {f g : BitVec 4} (h : ∀ b, crFieldBit f b = crFieldBit g b) : f = g := by
  refine BitVec.eq_of_getLsbD_eq fun i hi => ?_
  have hb := h ⟨3 - i, by omega⟩
  rwa [crFieldBit, crFieldBit, Nat.sub_sub_self (Nat.le_of_lt_succ hi)] at hb

/-- CR is the bits of its fields (R25, R26). -/
theorem cr_ext {s u : State} (h : ∀ n b, crFieldBit (readCr u n) b = crFieldBit (readCr s n) b) : u.cr = s.cr :=
  Vector.ext fun i hi => crField_ext (h ⟨i, hi⟩)

/-- Settles O45: the next state is the state before with writes of the suffix, so that what no execution writes is unchanged; an
instruction the reference writes out has ordinary writes only, and of CR only with Rc=1 or a CR operand. -/
theorem thePrefixNeverWritesVlOrCr : Obligations.ThePrefixNeverWritesVlOrCr := by
  refine ⟨fun p want rm w s u h => executePrefixed_onlyWrites h,
    fun p want rm w ins s u h hd => executePrefixed_keeps_unwritten h hd, fun i op s u hmode hv hspr hrm hw h => ?_⟩
  obtain ⟨rm, hrm⟩ := Option.ne_none_iff_exists'.mp hrm
  rw [exec_of_rm hrm hw] at h
  obtain ⟨-, -, hcr, -, hsv, hmo, hx, hl, hc, -, ho⟩ := executePrefixed_ordinary hv hspr hmode h
  refine ⟨hsv, hmo, ho, hx, hl, hc, fun hrc hsl => cr_ext fun n b => hcr n b ?_⟩
  rintro (hrc' | ⟨sl, hmem, hk⟩)
  · exact absurd (hrc.symm.trans hrc') nofun
  · exact hk.elim (hsl sl hmem).1 (hsl sl hmem).2

end Machine
end Sys2Proof
end

section
/-! The statements of family 20_memory: byte order, the invariant at reset, and what a step fetches and runs. -/

namespace Sys2Proof

/-! ### Words and doublewords of bytes (R51) -/

theorem toNat_append_bytes (a b c d : Byte) :
    (a ++ b ++ c ++ d).toNat = a.toNat <<< 24 ||| b.toNat <<< 16 ||| c.toNat <<< 8 ||| d.toNat := by
  simp only [BitVec.toNat_append, Nat.shiftLeft_or_distrib, ← Nat.shiftLeft_add]

/-- Four bytes more, one at a time or as a word. -/
theorem append_append_bytes (x : Word32) (a b c d : Byte) : x ++ a ++ b ++ c ++ d = x ++ (a ++ b ++ c ++ d) := by
  refine BitVec.eq_of_toNat_eq ?_
  rw [BitVec.toNat_append x, toNat_append_bytes]
  simp only [BitVec.toNat_append, Nat.shiftLeft_or_distrib, ← Nat.shiftLeft_add, Nat.lor_assoc]

/-- One more byte at the low end of a number. -/
theorem shiftLeft_or_byte {n : Nat} (x : BitVec n) (b : Byte) :
    x.zeroExtend 64 <<< 8 ||| b.zeroExtend 64 = (x ++ b).zeroExtend 64 := by
  ext i hi
  simp only [BitVec.getElem_or, BitVec.getElem_shiftLeft, BitVec.getElem_setWidth, BitVec.getLsbD_append]
  by_cases h : i < 8
  · simp [h]
  · simp [h, BitVec.getLsbD_of_ge b i (by omega)]

theorem dwordOfBytes_one (be : Bool) (b0 : Byte) : dwordOfBytes be [b0] = b0.zeroExtend 64 := by
  cases be <;> simp [dwordOfBytes]

theorem dwordOfBytes_two (be : Bool) (b0 b1 : Byte) :
    dwordOfBytes be [b0, b1] = (if be then b0 ++ b1 else b1 ++ b0).zeroExtend 64 := by
  cases be <;> simp [dwordOfBytes, shiftLeft_or_byte]

theorem dwordOfBytes_four (be : Bool) (b0 b1 b2 b3 : Byte) :
    dwordOfBytes be [b0, b1, b2, b3] = (wordOfBytes be b0 b1 b2 b3).zeroExtend 64 := by
  cases be <;> simp [dwordOfBytes, wordOfBytes, shiftLeft_or_byte]

theorem dwordOfBytes_eight (be : Bool) (b0 b1 b2 b3 b4 b5 b6 b7 : Byte) :
    dwordOfBytes be [b0, b1, b2, b3, b4, b5, b6, b7] =
      if be then wordOfBytes be b0 b1 b2 b3 ++ wordOfBytes be b4 b5 b6 b7
      else wordOfBytes be b4 b5 b6 b7 ++ wordOfBytes be b0 b1 b2 b3 := by
  cases be <;> simp [dwordOfBytes, wordOfBytes, shiftLeft_or_byte, append_append_bytes]

/-! ### The bytes of a doubleword (R51) -/

/-- The low end of a number reads back. -/
theorem low_zeroExtend {n : Nat} (x : BitVec n) (hn : n ≤ 64) : (x.zeroExtend 64).extractLsb' 0 n = x := by
  rw [BitVec.zeroExtend, BitVec.extractLsb'_setWidth_of_le (by omega), BitVec.extractLsb'_eq_self]

/-- A field of a field. -/
theorem extractLsb'_extractLsb' {w : Nat} (x : BitVec w) (n k i j : Nat) (h : i + j ≤ k) :
    (x.extractLsb' n k).extractLsb' i j = x.extractLsb' (n + i) j := by
  ext t ht; simp; grind

theorem lowBytes_one (be : Bool) (v : DWord) : lowBytes be 1 v = [v.extractLsb' 0 8] := by
  cases be <;> simp [lowBytes, List.range_succ]

theorem lowBytes_two (be : Bool) (v : DWord) :
    lowBytes be 2 v = if be then [v.extractLsb' 8 8, v.extractLsb' 0 8] else [v.extractLsb' 0 8, v.extractLsb' 8 8] := by
  cases be <;> simp [lowBytes, List.range_succ]

theorem lowBytes_four (be : Bool) (v : DWord) : lowBytes be 4 v = bytesOfWord be (v.extractLsb' 0 32) := by
  cases be <;> simp [lowBytes, List.range_succ, bytesOfWord, extractLsb'_extractLsb']

theorem lowBytes_eight (be : Bool) (v : DWord) :
    lowBytes be 8 v =
      if be then bytesOfWord be (v.extractLsb' 32 32) ++ bytesOfWord be (v.extractLsb' 0 32)
      else bytesOfWord be (v.extractLsb' 0 32) ++ bytesOfWord be (v.extractLsb' 32 32) := by
  cases be <;> simp [lowBytes, List.range_succ, bytesOfWord, extractLsb'_extractLsb']

/-! ### The values of the loads and the bytes of the stores (R51, log entry 4) -/

theorem dwordOfBytes_two_low (be : Bool) (b0 b1 : Byte) :
    (dwordOfBytes be [b0, b1]).extractLsb' 0 16 = if be then b0 ++ b1 else b1 ++ b0 := by
  rw [dwordOfBytes_two, low_zeroExtend _ (by decide)]

theorem dwordOfBytes_four_low (be : Bool) (b0 b1 b2 b3 : Byte) :
    (dwordOfBytes be [b0, b1, b2, b3]).extractLsb' 0 32 = wordOfBytes be b0 b1 b2 b3 := by
  rw [dwordOfBytes_four, low_zeroExtend _ (by decide)]

theorem stfs_bytes (be : Bool) (v : DWord) : StoreKind.stfs.bytes be v = bytesOfWord be (Machine.doubleToSingle v) :=
  (lowBytes_four be _).trans (congrArg (bytesOfWord be) (low_zeroExtend _ (by decide)))

namespace Machine

/-! ### Words in memory (R51, R56) -/

/-- A word read is made of the four bytes read. -/
theorem readWord_eq_ok {be : Bool} {s : State} {a : DWord} {w : Word32} :
    readWord be s a = .ok w ↔ ∃ b0 b1 b2 b3, readBytes s 4 a = .ok [b0, b1, b2, b3] ∧ wordOfBytes be b0 b1 b2 b3 = w := by
  constructor
  · intro h
    unfold readWord at h
    split at h
    · cases h
    · next b0 b1 b2 b3 hb => exact ⟨b0, b1, b2, b3, hb, Except.ok.inj h⟩
    · cases h
  · rintro ⟨b0, b1, b2, b3, hb, rfl⟩
    simp only [readWord, hb]

theorem readBytes_four {s : State} {a : DWord} {b0 b1 b2 b3 : Byte} (h0 : readByte s a = some b0)
    (h1 : readByte s (a + 1#64) = some b1) (h2 : readByte s (a + 2#64) = some b2) (h3 : readByte s (a + 3#64) = some b3) :
    readBytes s 4 a = .ok [b0, b1, b2, b3] := by
  simp [readBytes, BitVec.add_assoc, h0, h1, h2, h3]

/-- A load of a word gives what `readWord` reads. -/
theorem loadFrom_lwz {be : Bool} {s : State} {ea : DWord} {w : Word32} (h : readWord be s ea = .ok w) (ws : DWord → List Write) :
    loadFrom be s .lwz ea ws = .done (ws (w.zeroExtend 64)) none := by
  obtain ⟨b0, b1, b2, b3, hb, rfl⟩ := readWord_eq_ok.mp h
  rw [← dwordOfBytes_four]
  simp only [loadFrom, LoadKind.width, hb, LoadKind.value]

/-- A word that can be read is fetched where the suffix ISA has no fetch fault of its own (R58, R286). -/
theorem fetchWord_of_readWord {p : Params} {s : State} {a : DWord} {w : Word32} (hp : p.fetchTrap s a = none)
    (h : readWord p.bigEndian s a = .ok w) : fetchWord p s a = .ok w := by
  simp only [fetchWord, hp, h]

/-! ### Unprefixed loads and stores in either byte order (R4, R243) -/

/-- An unprefixed reference instruction that completes, under any parameters with the reference suffix ISA. -/
theorem executeUnprefixed_done {p : Params} (hs : p.suffixes = referenceIsa) (hx : p.exec1 = referenceExec1) {op : ScalarOp}
    (hv : op.valid = true) (hi : op.implicitRs = false) (hspr : op.spr = none) {s : State} (hmode : s.mode = .bits64)
    {ws : List Write} {target : Option DWord}
    (he : execOp p.bigEndian op (op.suffix op.word) (identityMap (op.suffix op.word)) s = .done ws target) :
    executeUnprefixed p op.word s = .next (setCia (applyWrites s (scalarReach ws)) (nextAddress s 4#64 target)) := by
  have hstop : sprStop p (op.suffix op.word) (identityMap (op.suffix op.word)) op.word none s = none :=
    sprStop_eq_none.mpr fun acc ha => absurd (hspr.symm.trans ha) nofun
  have hrun : p.run (op.suffix op.word) (identityMap (op.suffix op.word)) (scalarView s) = .done ws target := by
    rw [run_word hx hv _ (s := scalarView s) hmode, execOp_scalarView _ hi hspr, he]
  simp only [executeUnprefixed_word hs hv, runScalar, hstop, hrun]

/-- What `stw` stores. -/
theorem executeUnprefixed_stw {p : Params} (hs : p.suffixes = referenceIsa) (hx : p.exec1 = referenceExec1) (t a : BitVec 5)
    (d : BitVec 16) {s : State} (hmode : s.mode = .bits64) :
    executeUnprefixed p (ScalarOp.store .stw false t a d).word s =
      .next (setCia (applyWrites s (storeBytes ((if a = 0#5 then 0#64 else readGpr s (reg a.toNat)) + d.signExtend 64)
        (bytesOfWord p.bigEndian ((readGpr s (reg t.toNat)).extractLsb' 0 32)))) (s.cia + 4#64)) := by
  rw [executeUnprefixed_done hs hx rfl rfl rfl hmode rfl, storeBytes_reach, ← lowBytes_four]
  rfl

/-- What `lwz` loads. -/
theorem executeUnprefixed_lwz {p : Params} (hs : p.suffixes = referenceIsa) (hx : p.exec1 = referenceExec1) (t a : BitVec 5)
    (d : BitVec 16) {s : State} (hmode : s.mode = .bits64) {w : Word32}
    (hw : readWord p.bigEndian s ((if a = 0#5 then 0#64 else readGpr s (reg a.toNat)) + d.signExtend 64) = .ok w) :
    executeUnprefixed p (ScalarOp.load .lwz false t a d).word s =
      .next (setCia (writeGpr s (reg t.toNat) (w.zeroExtend 64)) (s.cia + 4#64)) := by
  have he : ∀ word, execOp p.bigEndian (.load .lwz false t a d) ((ScalarOp.load .lwz false t a d).suffix word)
      (identityMap ((ScalarOp.load .lwz false t a d).suffix word)) s =
        .done [LoadKind.lwz.write (reg t.toNat) (w.zeroExtend 64)] none :=
    fun _ => loadFrom_lwz hw fun v => [LoadKind.lwz.write (reg t.toNat) v]
  rw [executeUnprefixed_done hs hx rfl rfl rfl hmode (he _), write_reach (reg_toNat_lt t)]
  rfl

/-- Settles O24: a number is built byte by byte from its high end, so that two, four and eight bytes make the halfword, the word and
the doubleword of either order; a store takes the same bytes of its register, and fetch and data read words by one parameter. -/
theorem bytesMakeWordsInEitherOrder : Obligations.BytesMakeWordsInEitherOrder := by
  refine ⟨fun b0 b1 b2 b3 => ⟨toNat_append_bytes b0 b1 b2 b3, toNat_append_bytes b3 b2 b1 b0⟩, fun be w0 w1 => ?_,
    fun be s a b0 b1 b2 b3 h0 h1 h2 h3 => readWord_eq_ok.mpr ⟨b0, b1, b2, b3, readBytes_four h0 h1 h2 h3, rfl⟩,
    fun be s x w t a d => ⟨fun h => fetchWord_of_readWord rfl h, executeUnprefixed_stw rfl rfl t a d,
      fun hm hw => executeUnprefixed_lwz rfl rfl t a d hm hw⟩,
    fun be b0 b1 b2 b3 b4 b5 b6 b7 => ?_, fun be v => ?_⟩
  · have h1 := wordsOfBytes_bytesOfWord be w1 []
    rw [List.append_nil] at h1
    rw [wordsOfBytes_bytesOfWord, h1]
    rfl
  · exact ⟨dwordOfBytes_one be b0, dwordOfBytes_two be b0 b1,
      congrArg (·.signExtend 64) (dwordOfBytes_two_low be b0 b1),
      dwordOfBytes_four be b0 b1 b2 b3,
      congrArg (·.signExtend 64) (dwordOfBytes_four_low be b0 b1 b2 b3),
      dwordOfBytes_eight be b0 b1 b2 b3 b4 b5 b6 b7,
      dwordOfBytes_two (!be) b0 b1, dwordOfBytes_four (!be) b0 b1 b2 b3, dwordOfBytes_eight (!be) b0 b1 b2 b3 b4 b5 b6 b7,
      congrArg singleToDouble (dwordOfBytes_four_low be b0 b1 b2 b3),
      dwordOfBytes_eight be b0 b1 b2 b3 b4 b5 b6 b7,
      congrArg (·.signExtend 64) (dwordOfBytes_four_low be b0 b1 b2 b3),
      dwordOfBytes_four be b0 b1 b2 b3⟩
  · exact ⟨lowBytes_one be v, lowBytes_two be v, lowBytes_four be v, lowBytes_eight be v, lowBytes_two (!be) v,
      lowBytes_four (!be) v, lowBytes_eight (!be) v, stfs_bytes be v, lowBytes_eight be v, lowBytes_four be v⟩

/-! ### Reset -/

/-- Settles O26: reset memory and the suffix ISA's own registers are empty, and `CIA` is 0. -/
theorem resetMeetsTheInvariant : Obligations.ResetMeetsTheInvariant := ⟨Memory.wf_reset, rfl, rfl⟩

/-! ### What is fetched at `CIA` (R52, R54, R79, R100), by the class of the first word -/

/-- An SVP64 pair crosses a 64-byte block exactly when its first word is the last of one (R54). -/
theorem crossesBlock_iff {cia : DWord} : crossesBlock cia = true ↔ cia.toNat % 64 = 60 := by
  simp [crossesBlock, ← BitVec.toNat_inj]

theorem cia_low_of_aligned {s : State} (h : s.ciaAligned = true) : s.cia.extractLsb' 0 2 = 0#2 := eq_of_beq h

/-- The last word of a 64-byte block is aligned. -/
theorem ciaAligned_of_crossesBlock {s : State} (h : s.cia.toNat % 64 = 60) : s.ciaAligned = true := by
  simp only [State.ciaAligned, beq_iff_eq, ← BitVec.toNat_inj, BitVec.extractLsb'_toNat]
  simp
  omega

section Fetch

variable {p : Params} {s : State} {w0 w1 : Word32} (ha : s.ciaAligned = true) (h0 : fetchWord p s s.cia = .ok w0)

theorem fetchSecond_ok {k : Word32 → Instr} (h1 : fetchWord p s (s.cia + 4#64) = .ok w1) :
    fetchSecond p s k = .instr (k w1) := by
  simp only [fetchSecond, h1]

include ha h0

theorem fetchNext_of_unprefixed (hc : classify w0 = .unprefixed) : fetchNext p s = .unprefixed w0 := by
  simp [fetchNext, cia_low_of_aligned ha, h0, hc]

theorem fetchNext_of_unallocated {cell : EmptyCell} (hc : classify w0 = .unallocated cell) :
    fetchNext p s = .instr (decodeEmpty cell w0) := by
  simp [fetchNext, cia_low_of_aligned ha, h0, hc]

theorem fetchNext_of_v31 {row : V31Row} (hc : classify w0 = .v31 row) :
    fetchNext p s = fetchSecond p s (decodeV31 row w0) := by
  simp [fetchNext, cia_low_of_aligned ha, h0, hc]

theorem fetchNext_of_svp64 (hc : classify w0 = .svp64) :
    fetchNext p s = if s.cia.toNat % 64 = 60 then .stopped (.refuse .crosses64ByteBoundary)
      else fetchSecond p s (decodePair p.suffixes w0) := by
  simp [fetchNext, cia_low_of_aligned ha, h0, hc, crossesBlock_iff]

/-- One word that decodes to an instruction is all that is fetched: it lies in an empty cell (R79). -/
theorem fetchNext_of_decodeWords_one {i : Instr} (hd : decodeWords p.suffixes [w0] = .ok i) : fetchNext p s = .instr i := by
  cases hc : classify w0 with
  | unallocated cell =>
    simp only [decodeWords, hc, Except.ok.injEq] at hd
    exact hd ▸ fetchNext_of_unallocated ha h0 hc
  | unprefixed | svp64 | v31 => simp [decodeWords, hc] at hd

/-- The words at `CIA` are fetched as the instruction they decode to, an SVP64 pair within a 64-byte block (R54, R100). -/
theorem fetchNext_of_decodeWords_two {i : Instr} (hb : classify w0 = .svp64 → s.cia.toNat % 64 ≠ 60)
    (h1 : fetchWord p s (s.cia + 4#64) = .ok w1) (hd : decodeWords p.suffixes [w0, w1] = .ok i) :
    fetchNext p s = .instr i := by
  cases hc : classify w0 with
  | unprefixed => simp [decodeWords, hc] at hd
  | unallocated cell =>
    simp only [decodeWords, hc, Except.ok.injEq] at hd
    exact hd ▸ fetchNext_of_unallocated ha h0 hc
  | svp64 =>
    simp only [decodeWords, hc, Except.ok.injEq] at hd
    rw [fetchNext_of_svp64 ha h0 hc, if_neg (hb hc), fetchSecond_ok h1, hd]
  | v31 row =>
    simp only [decodeWords, hc, Except.ok.injEq] at hd
    rw [fetchNext_of_v31 ha h0 hc, fetchSecond_ok h1, hd]

/-- A word that the decoder hands over as unprefixed is fetched as such (R71, R243). -/
theorem fetchNext_of_decodeWords_unprefixed {isa : SuffixIsa} (hd : decodeWords isa [w0] = .error (.unprefixed w0)) :
    fetchNext p s = .unprefixed w0 := by
  cases hc : classify w0 with
  | unprefixed => exact fetchNext_of_unprefixed ha h0 hc
  | unallocated | svp64 | v31 => simp [decodeWords, hc] at hd

end Fetch

/-! ### The step -/

theorem stepFor_of_instr {p : Params} {s : State} {i : Instr} (h : fetchNext p s = .instr i) : stepFor p s = execFor p i s := by
  simp only [stepFor, h]

theorem stepFor_of_unprefixed {p : Params} {s : State} {w0 : Word32} (h : fetchNext p s = .unprefixed w0) :
    stepFor p s = executeUnprefixed p w0 s := by
  simp only [stepFor, h]

/-- A step runs what decodes, under any parameters. -/
theorem stepFor_runs_decoded {p : Params} {s : State} {w0 : Word32} (ha : s.ciaAligned = true)
    (h0 : fetchWord p s s.cia = .ok w0) :
    (∀ i, decodeWords p.suffixes [w0] = .ok i → stepFor p s = execFor p i s) ∧
    (∀ w1 i, (classify w0 = .svp64 → s.cia.toNat % 64 ≠ 60) → fetchWord p s (s.cia + 4#64) = .ok w1 →
      decodeWords p.suffixes [w0, w1] = .ok i → stepFor p s = execFor p i s) ∧
    (decodeWords p.suffixes [w0] = .error (.unprefixed w0) → stepFor p s = executeUnprefixed p w0 s) :=
  ⟨fun _ hd => stepFor_of_instr (fetchNext_of_decodeWords_one ha h0 hd),
    fun _ _ hb h1 hd => stepFor_of_instr (fetchNext_of_decodeWords_two ha h0 hb h1 hd),
    fun hd => stepFor_of_unprefixed (fetchNext_of_decodeWords_unprefixed ha h0 hd)⟩

/-- The runnable machine has no fetch fault but absent memory (log entry 28). -/
theorem fetchWord_machine {s : State} {a : DWord} {w : Word32} (h : readWord Config.bigEndian s a = .ok w) :
    fetchWord machine s a = .ok w := fetchWord_of_readWord rfl h

/-- Settles O30: fetch and decoder split on the class of the first word alike; `step` and `exec` are those of the parameters
`machine`, whose fetch is a read of memory. -/
theorem stepRunsTheDecodedInstruction : Obligations.StepRunsTheDecodedInstruction := by
  refine ⟨fun s w0 ha h0 => ?_, fun i s => ⟨exec_eq_execFor i s, step_eq_stepFor s⟩, fun p s w0 => stepFor_runs_decoded⟩
  obtain ⟨hone, htwo, hunprefixed⟩ := stepFor_runs_decoded ha (fetchWord_machine h0)
  simp only [step_eq_stepFor, exec_eq_execFor]
  exact ⟨hone, fun w1 i hb h1 => htwo w1 i hb (fetchWord_machine h1), hunprefixed⟩

/-- Settles O31: the test of the block comes before the second word is fetched. -/
theorem stepRefusesAPairAcrossA64ByteBoundary : Obligations.StepRefusesAPairAcrossA64ByteBoundary := by
  intro s w0 hblock h0 hc
  have hf := fetchNext_of_svp64 (ciaAligned_of_crossesBlock hblock) (fetchWord_machine h0) hc
  rw [if_pos hblock] at hf
  simp only [step_eq_stepFor, stepFor, hf, refuse_outcome]

end Machine
end Sys2Proof
end

section
/-! The statements of family 30_encoding: the prefix word and `RM` in integers and in bits, the opcode map, the codec both ways, the
split of EXTRA and its categories, the faults of fetching, and the instructions of the other rows of the map. -/

namespace Sys2Proof

/-! ### Fields in integers (R75) -/

/-- A field is shifted down and masked (R75). -/
theorem extractLsb'_toNat_and {w : Nat} (x : BitVec w) (s n : Nat) :
    (x.extractLsb' s n).toNat = (x.toNat >>> s) &&& (2 ^ n - 1) := by
  rw [BitVec.extractLsb'_toNat, Nat.and_two_pow_sub_one_eq_mod]

/-- The primary opcode is `W >> 26` (R71). -/
theorem primary_toNat (w : Word32) : (primary w).toNat = w.toNat >>> 26 := by
  rw [primary, BitVec.extractLsb'_toNat, Nat.mod_eq_of_lt]
  rw [Nat.shiftRight_eq_div_pow]
  omega

/-! ### The bits of `RM` in the prefix word (R73) -/

theorem rmOf_getLsbD_of_lt (w : Word32) {i : Nat} (h : i < 22) : (rmOf w).getLsbD i = w.getLsbD i := by
  simp only [rmOf, BitVec.getLsbD_append, BitVec.getLsbD_extractLsb', h, Nat.zero_add, decide_true, Bool.true_and, if_true]

theorem rmOf_getLsbD_22 (w : Word32) : (rmOf w).getLsbD 22 = w.getLsbD 23 := by
  simp only [rmOf, BitVec.getLsbD_append]; simp

theorem rmOf_getLsbD_23 (w : Word32) : (rmOf w).getLsbD 23 = w.getLsbD 25 := by
  simp only [rmOf, BitVec.getLsbD_append]; simp

/-- The same in MSB0 numbering (R73). -/
theorem rmOf_getMsbD (w : Word32) : (rmOf w).getMsbD 0 = w.getMsbD 6 ∧ (rmOf w).getMsbD 1 = w.getMsbD 8 ∧
    ∀ k, 2 ≤ k → k ≤ 23 → (rmOf w).getMsbD k = w.getMsbD (k + 8) := by
  refine ⟨rmOf_getLsbD_23 w, rmOf_getLsbD_22 w, fun k h2 h23 => ?_⟩
  rw [BitVec.getMsbD_eq_getLsbD, rmOf_getLsbD_of_lt w (by omega), BitVec.getMsbD_eq_getLsbD,
    show 32 - 1 - (k + 8) = 24 - 1 - k by omega, decide_eq_true (show k < 24 by omega),
    decide_eq_true (show k + 8 < 32 by omega)]

/-! ### The fields of `RM` in the prefix word (R75) -/

/-- A field below the two top bits stands where it stands in the word. -/
theorem rmOf_extractLsb'_low (w : Word32) {s n : Nat} (h : s + n ≤ 22) : (rmOf w).extractLsb' s n = w.extractLsb' s n := by
  ext i hi
  rw [BitVec.getElem_extractLsb', BitVec.getElem_extractLsb', rmOf_getLsbD_of_lt w (by omega)]

theorem rmOf_maskmode (w : Word32) : (rmOf w).extractLsb' 23 1 = w.extractLsb' 25 1 := by
  ext i hi; simp [rmOf]; grind

theorem rmOf_mask (w : Word32) : (rmOf w).extractLsb' 20 3 = w.extractLsb' 23 1 ++ w.extractLsb' 20 2 := by
  ext i hi; simp [rmOf]; grind

/-- Settles O20: every field is shifted down and masked, and but for the two top bits, word bits 6 and 8, `RM` is the word. -/
theorem rmFieldsStandAtTheirPositions : Obligations.RmFieldsStandAtTheirPositions := by
  refine ⟨fun rm => ?_, fun w => ?_⟩
  · have hf : ∀ s n, (rm.extractLsb' s n).toNat = (rm.toNat >>> s) &&& (2 ^ n - 1) := extractLsb'_toNat_and rm
    exact ⟨hf 23 1, hf 20 3, hf 18 2, hf 16 2, hf 14 2, hf 5 9, hf 0 5⟩
  · have hlow : ∀ s n, s + n ≤ 22 → ((rmOf w).extractLsb' s n).toNat = (w.toNat >>> s) &&& (2 ^ n - 1) := fun s n h => by
      rw [rmOf_extractLsb'_low w h, extractLsb'_toNat_and]
    have hmaskmode : ((rmOf w).extractLsb' 23 1).toNat = (w.toNat >>> 25) &&& 1 := by
      rw [rmOf_maskmode]
      exact extractLsb'_toNat_and w 25 1
    have hmask : ((rmOf w).extractLsb' 20 3).toNat = ((w.toNat >>> 23) &&& 1) <<< 2 ||| ((w.toNat >>> 20) &&& 3) := by
      rw [rmOf_mask, BitVec.toNat_append, extractLsb'_toNat_and, extractLsb'_toNat_and]
      rfl
    exact ⟨hmaskmode, hmask, hlow 18 2 (by decide), hlow 16 2 (by decide), hlow 14 2 (by decide), hlow 5 9 (by decide),
      hlow 0 5 (by decide)⟩

/-! ### The prefix word (R72, R73, R101) -/

/-- The fixed bits of a prefix word (R72). -/
theorem prefixWord_fixed_bits (rm : Rm) : prefixWord rm &&& 0xFD400000#32 = 0x05400000#32 := by
  apply BitVec.eq_of_getLsbD_eq
  intro i hi
  simp only [prefixWord, BitVec.getLsbD_and, BitVec.getLsbD_append, BitVec.getLsbD_extractLsb']
  interval_cases i <;> simp

/-- The SVP64 test in integers (R72): the mask takes bits 0:5, 7 and 9. -/
theorem classify_eq_svp64_iff_and (w : Word32) : classify w = .svp64 ↔ w &&& 0xFD400000#32 = 0x05400000#32 := by
  refine ⟨fun h => ?_, fun h => (classify_eq_svp64 w).mpr ⟨?_, ?_, ?_⟩⟩
  · rw [← prefixWord_rmOf w h, prefixWord_fixed_bits]
  · have hp := congrArg primary h
    rw [primary, BitVec.extractLsb'_and] at hp
    exact BitVec.and_allOnes.symm.trans hp
  · simpa using congrArg (BitVec.getLsbD · 24) h
  · simpa using congrArg (BitVec.getLsbD · 22) h

theorem rmOf_toNat (w : Word32) : (rmOf w).toNat =
    ((w.toNat >>> 25) &&& 1) <<< 23 ||| ((w.toNat >>> 23) &&& 1) <<< 22 ||| (w.toNat &&& 0x003FFFFF) := by
  simp only [rmOf, BitVec.toNat_append, extractLsb'_toNat_and, Nat.shiftLeft_or_distrib, ← Nat.shiftLeft_add]
  rfl

/-- The bits that R72 fixes, put together. -/
theorem fixed_bits_or (a b c : Nat) :
    1 <<< 26 ||| a ||| 1 <<< 24 ||| b ||| 1 <<< 22 ||| c = 0x05400000 ||| a ||| b ||| c := by
  rw [show 0x05400000 = 1 <<< 26 ||| (1 <<< 24 ||| 1 <<< 22) by decide]
  generalize 1 <<< 26 = x, 1 <<< 24 = y, 1 <<< 22 = z
  ac_rfl

theorem prefixWord_toNat (rm : Rm) : (prefixWord rm).toNat =
    0x05400000 ||| ((rm.toNat >>> 23) &&& 1) <<< 25 ||| ((rm.toNat >>> 22) &&& 1) <<< 23 ||| (rm.toNat &&& 0x003FFFFF) := by
  simp only [prefixWord, BitVec.toNat_append, extractLsb'_toNat_and, Nat.shiftLeft_or_distrib, ← Nat.shiftLeft_add]
  exact fixed_bits_or _ _ _

/-- Settles O19: a word that passes the test is the prefix word of its `RM`, which has the fixed bits; the formulas are the fields
put together. -/
theorem prefixWordAndRmAreABijection : Obligations.PrefixWordAndRmAreABijection :=
  ⟨classify_eq_svp64_iff_and, rmOf_toNat, prefixWord_toNat, rmOf_getMsbD,
    fun rm => ⟨classify_prefixWord rm, rmOf_prefixWord rm⟩, prefixWord_rmOf⟩

/-! ### The opcode map (R71, R77) -/

/-- A word is unprefixed by its primary opcode alone (R71). -/
theorem classify_eq_unprefixed {w : Word32} : classify w = .unprefixed ↔ primary w ≠ 1#6 := by
  refine ⟨fun h hp => ?_, fun h => if_pos h⟩
  rw [classify, if_neg (not_not.mpr hp)] at h
  split at h
  · cases h
  · split at h <;> cases h

/-- A word of the EXT01 opcode map, by its row, its column and the bits below them (R77). -/
def cellWord (r c : BitVec 3) (x : BitVec 20) : Word32 := 1#6 ++ r ++ c ++ x

/-- Every prefix word stands in a cell of the map. -/
theorem exists_cellWord {w : Word32} (h : classify w ≠ .unprefixed) : ∃ r c x, w = cellWord r c x := by
  have hp : primary w = 1#6 := not_not.mp (mt classify_eq_unprefixed.mpr h)
  refine ⟨mapRow w, mapCol w, w.extractLsb' 0 20, ?_⟩
  rw [cellWord, ← hp]
  ext i hi; simp [primary, mapRow, mapCol]; grind

/-- The cell alone decides, so that a fact of a class is one of at most 64 cells. -/
theorem classify_cellWord (r c : BitVec 3) (x : BitVec 20) : classify (cellWord r c x) = classify (cellWord r c 0#20) :=
  classify_cell (1#6 ++ r ++ c) x

/-- Settles O22: the length rule reads the primary opcode, and the 64 cells are looked at one by one. -/
theorem opcodeMapClassifiesFirstWords : Obligations.OpcodeMapClassifiesFirstWords := by
  refine ⟨fun w => ?_, fun row col rest => ?_⟩
  · rw [classify_eq_unprefixed, ← primary_toNat, Ne, ← BitVec.toNat_inj]
    rfl
  · refine (classify_cellWord row col rest).trans ?_
    revert row col
    decide

/-! ### The SVP64 rows: an instruction is its category, its `RM` and its suffix (R103) -/

theorem firstWord_of_rm {i : Instr} {rm : Rm} (h : i.rm? = some rm) : i.firstWord = prefixWord rm := by
  cases i <;> cases h <;> rfl

theorem wfFor_of_rm {isa : SuffixIsa} {i : Instr} {rm : Rm} {w : Word32} (h : i.rm? = some rm) (hw : i.secondWord? = some w) :
    i.wfFor isa = (categoryOf isa w == i.category?) := by
  cases i <;> cases h <;> cases hw <;> rfl

theorem wfFor_of_rm_none {isa : SuffixIsa} {i : Instr} (h : i.rm? = none) : i.wfFor isa = true := by
  cases i <;> cases h <;> rfl

/-- Splitting `RM` by the category of an SVP64 instruction gives the instruction back (R76). -/
theorem splitInstr_category {i : Instr} {cat : Category} {rm : Rm} {w : Word32} (hc : i.category? = some cat)
    (h : i.rm? = some rm) (hw : i.secondWord? = some w) : splitInstr cat rm w = i := by
  cases i with
  | rm1P3S1D c d a b e y w =>
    cases hc; cases h; cases hw
    obtain ⟨hd, ha, hb, he, hy⟩ := extra2Mode_packRm c d a b e y
    rw [splitInstr, commonOf_packRm, hd, ha, hb, he, hy]
  | rm1P2S1D c d a b w | rm2P1S1D c d a b w | rm2P2S c d a b w =>
    cases hc; cases h; cases hw
    obtain ⟨hd, ha, hb⟩ := extra3_packRm c d a b
    rw [splitInstr, commonOf_packRm, hd, ha, hb]
  | rm2P2S1D c d a b m w | rm2P1S2D c d a b m w | rm2P3S c d a b m w =>
    cases hc; cases h; cases hw
    obtain ⟨hd, ha, hb, hm⟩ := extra2Mask_packRm c d a b m
    rw [splitInstr, commonOf_packRm, hd, ha, hb, hm]
  | _ => cases hc

/-- An SVP64 instruction without a category is the unsplit pair (R103). -/
theorem svp64Prefix_of_category_none {i : Instr} {rm : Rm} {w : Word32} (hc : i.category? = none) (h : i.rm? = some rm)
    (hw : i.secondWord? = some w) : Instr.svp64Prefix rm w = i := by
  cases i with
  | svp64Prefix => cases h; cases hw; rfl
  | _ => cases hc <;> cases h

/-- A well-formed SVP64 instruction decodes from its two words (R73, R103). -/
theorem decodePair_firstWord {isa : SuffixIsa} {i : Instr} {rm : Rm} {w : Word32} (h : i.rm? = some rm)
    (hw : i.secondWord? = some w) (hwf : i.wfFor isa = true) : decodePair isa i.firstWord w = i := by
  rw [wfFor_of_rm h hw, beq_iff_eq] at hwf
  rw [decodePair, firstWord_of_rm h, rmOf_prefixWord, hwf]
  cases hc : i.category? with
  | none => exact svp64Prefix_of_category_none hc h hw
  | some cat => exact splitInstr_category hc h hw

theorem splitInstr_category? (cat : Category) (rm : Rm) (w : Word32) : (splitInstr cat rm w).category? = some cat := by
  cases cat <;> rfl

/-- What a pair of words decodes to: `RM` of the first, the second, and the category of the second (R73, R103). -/
theorem decodePair_fields (isa : SuffixIsa) (w0 w1 : Word32) :
    (decodePair isa w0 w1).rm? = some (rmOf w0) ∧ (decodePair isa w0 w1).secondWord? = some w1 ∧
      (decodePair isa w0 w1).category? = categoryOf isa w1 := by
  unfold decodePair
  split
  · next h => exact ⟨rfl, rfl, h.symm⟩
  · next cat h =>
    obtain ⟨hrm, hw⟩ := splitInstr_packs cat (rmOf w0) w1
    exact ⟨hrm, hw, (splitInstr_category? cat _ w1).trans h.symm⟩

/-! ### The other rows: an instruction is its row, its payload and its second word (R79) -/

/-- An instruction of a row handed to the suffix ISA decodes from its two words. -/
theorem decodeV31_firstWord {i : Instr} {row : V31Row} (h : i.firstKind = .v31 row) :
    ∃ w, i.secondWord? = some w ∧ decodeV31 row i.firstWord w = i := by
  cases i with
  | ext01_8LS x w => cases h; exact ⟨w, rfl, congrArg (Instr.ext01_8LS · w) (payload23 _ x)⟩
  | ext01_row100 x w => cases h; exact ⟨w, rfl, congrArg (Instr.ext01_row100 · w) (payload23 _ x)⟩
  | ext01_row001 x w => cases h; exact ⟨w, rfl, congrArg (Instr.ext01_row001 · w) (payload23 _ x)⟩
  | ext01_row101 x w => cases h; exact ⟨w, rfl, congrArg (Instr.ext01_row101 · w) (payload23 _ x)⟩
  | ext01_8RR x w => cases h; exact ⟨w, rfl, congrArg (Instr.ext01_8RR · w) (payload20 _ x)⟩
  | ext01_MRR x w => cases h; exact ⟨w, rfl, congrArg (Instr.ext01_MRR · w) (payload20 _ x)⟩
  | ext01_MMIRR x w => cases h; exact ⟨w, rfl, congrArg (Instr.ext01_MMIRR · w) (payload20 _ x)⟩
  | _ => cases h

/-- An instruction of an empty cell decodes from its one word. -/
theorem decodeEmpty_firstWord {i : Instr} {cell : EmptyCell} (h : i.firstKind = .unallocated cell) :
    i.secondWord? = none ∧ decodeEmpty cell i.firstWord = i := by
  cases i with
  | ext01_unallocated_011 x => cases h; exact ⟨rfl, congrArg _ (payload22 _ x)⟩
  | ext01_unallocated_010001 x | ext01_unallocated_010010 x | ext01_unallocated_010011 x
  | ext01_unallocated_110001 x | ext01_unallocated_110010 x | ext01_unallocated_110011 x
  | ext01_unallocated_111000 x | ext01_unallocated_111010 x | ext01_unallocated_111011 x =>
    cases h; exact ⟨rfl, congrArg _ (payload20 _ x)⟩
  | _ => cases h

theorem decodeV31_fields (row : V31Row) (w0 w1 : Word32) :
    (decodeV31 row w0 w1).rm? = none ∧ (decodeV31 row w0 w1).secondWord? = some w1 := by
  cases row <;> exact ⟨rfl, rfl⟩

theorem decodeEmpty_fields (cell : EmptyCell) (w0 : Word32) :
    (decodeEmpty cell w0).rm? = none ∧ (decodeEmpty cell w0).secondWord? = none := by
  cases cell <;> exact ⟨rfl, rfl⟩

section Cell

variable (r c : BitVec 3) (x : BitVec 20)

/-- A word of the map is the bits that are fixed in its row of the opcode table, and the payload. -/
theorem append_payload23 {k : BitVec 9} (h : k = 1#6 ++ r) : k ++ (cellWord r c x).extractLsb' 0 23 = cellWord r c x := by
  subst h
  ext i hi; simp [cellWord]; grind

theorem append_payload22 {k : BitVec 10} (h : k = 1#6 ++ r ++ c.extractLsb' 2 1) :
    k ++ (cellWord r c x).extractLsb' 0 22 = cellWord r c x := by
  subst h
  ext i hi; simp [cellWord]; grind

theorem append_payload20 {k : BitVec 12} (h : k = 1#6 ++ r ++ c) :
    k ++ (cellWord r c x).extractLsb' 0 20 = cellWord r c x := by
  subst h
  ext i hi; simp [cellWord]; grind

end Cell

/-- What a word of such a row decodes to has that first word: the cells of the row agree in its fixed bits. -/
theorem firstWord_decodeV31 {w0 : Word32} {row : V31Row} (h : classify w0 = .v31 row) (w1 : Word32) :
    (decodeV31 row w0 w1).firstWord = w0 := by
  obtain ⟨r, c, x, rfl⟩ := exists_cellWord (w := w0) (by rw [h]; exact nofun)
  rw [classify_cellWord] at h
  cases row with
  | ls8 | row100 | row001 | row101 => exact append_payload23 r c x (by revert r c; decide)
  | rr8 | mrr | mmirr => exact append_payload20 r c x (by revert r c; decide)

/-- The same for an empty cell. -/
theorem firstWord_decodeEmpty {w0 : Word32} {cell : EmptyCell} (h : classify w0 = .unallocated cell) :
    (decodeEmpty cell w0).firstWord = w0 := by
  obtain ⟨r, c, x, rfl⟩ := exists_cellWord (w := w0) (by rw [h]; exact nofun)
  rw [classify_cellWord] at h
  cases cell with
  | c011 => exact append_payload22 r c x (by revert r c; decide)
  | _ => exact append_payload20 r c x (by revert r c; decide)

/-! ### The codec, by the class of the first word -/

theorem firstKind_ne_unprefixed (i : Instr) : i.firstKind ≠ .unprefixed := by
  cases i <;> exact nofun

theorem exists_rm_of_firstKind {i : Instr} (h : i.firstKind = .svp64) : ∃ rm w, i.rm? = some rm ∧ i.secondWord? = some w := by
  cases i with
  | svp64Prefix | rm1P3S1D | rm1P2S1D | rm2P1S1D | rm2P2S | rm2P2S1D | rm2P1S2D | rm2P3S => exact ⟨_, _, rfl, rfl⟩
  | _ => cases h

/-- A well-formed instruction decodes from its words, whatever follows. -/
theorem decodeWords_encode {isa : SuffixIsa} {i : Instr} (hwf : i.wfFor isa = true) (rest : List Word32) :
    decodeWords isa (encode i ++ rest) = .ok i := by
  have hc := classify_firstWord i
  cases hk : i.firstKind with
  | unprefixed => exact absurd hk (firstKind_ne_unprefixed i)
  | svp64 =>
    obtain ⟨rm, w, hrm, hw⟩ := exists_rm_of_firstKind hk
    simp [encode, decodeWords, hc, hk, hw, decodePair_firstWord hrm hw hwf]
  | v31 row =>
    obtain ⟨w, hw, hd⟩ := decodeV31_firstWord hk
    simp [encode, decodeWords, hc, hk, hw, hd]
  | unallocated cell =>
    obtain ⟨hw, hd⟩ := decodeEmpty_firstWord hk
    simp [encode, decodeWords, hc, hk, hw, hd]

/-- The bytes of words make the words, whatever follows (R51). -/
theorem wordsOfBytes_flatMap (be : Bool) (ws : List Word32) (rest : List Byte) :
    wordsOfBytes be (ws.flatMap (bytesOfWord be) ++ rest) = ws ++ wordsOfBytes be rest := by
  induction ws with
  | nil => rfl
  | cons w ws ih => rw [List.flatMap_cons, List.append_assoc, wordsOfBytes_bytesOfWord, ih, List.cons_append]

/-- Settles O17: the first word is of the class of the instruction, and in each class the fields read back; the bytes make the words
in either order. -/
theorem decodeAfterEncodeGivesBackTheInstruction : Obligations.DecodeAfterEncodeGivesBackTheInstruction := by
  refine fun isa i hwf => ⟨decodeWords_encode hwf, fun be rest => ?_⟩
  rw [decodeBytes, wordsOfBytes_flatMap]
  exact decodeWords_encode hwf _

/-- What decodes is well formed, and is encoded as the words it was decoded from. -/
theorem wfFor_and_encode_of_decodeWords {isa : SuffixIsa} {ws : List Word32} {i : Instr} (h : decodeWords isa ws = .ok i) :
    i.wfFor isa = true ∧ ∃ rest, ws = encode i ++ rest := by
  unfold decodeWords at h
  split at h
  · cases h
  · next w0 rest =>
    split at h
    · cases h
    · next cell hc =>
      obtain rfl := Except.ok.inj h
      obtain ⟨hrm, hw⟩ := decodeEmpty_fields cell w0
      exact ⟨wfFor_of_rm_none hrm, rest, by simp [encode, hw, firstWord_decodeEmpty hc]⟩
    · next hc =>
      split at h
      · cases h
      · next w1 rest =>
        obtain rfl := Except.ok.inj h
        obtain ⟨hrm, hw, hcat⟩ := decodePair_fields isa w0 w1
        refine ⟨by rw [wfFor_of_rm hrm hw, hcat, beq_self_eq_true], rest, ?_⟩
        simp [encode, hw, firstWord_of_rm hrm, prefixWord_rmOf w0 hc]
    · next row hc =>
      split at h
      · cases h
      · next w1 rest =>
        obtain rfl := Except.ok.inj h
        obtain ⟨hrm, hw⟩ := decodeV31_fields row w0 w1
        exact ⟨wfFor_of_rm_none hrm, rest, by simp [encode, hw, firstWord_decodeV31 hc]⟩

/-- Settles O18: an SVP64 word is the prefix word of its `RM`, a word of another class the fixed bits of its row and its payload. -/
theorem encodeAfterDecodeGivesBackTheWords : Obligations.EncodeAfterDecodeGivesBackTheWords :=
  fun _ _ _ => wfFor_and_encode_of_decodeWords

/-! ### What R181 to R195 ask of a mapping -/

/-- The clauses of `RmMap.fits` one by one. -/
theorem fits_iff {m : RmMap} {ins : Suffix} : m.fits ins = true ↔
    m.subs.length = ins.slots.length ∧
    (∀ e ∈ m.subs.zip ins.slots, e.1.covers e.2 = true ∧
      (e.2.reads = true → e.2.writes = true → m.sharesSubField ins e.1 = true)) ∧
    (∀ f ∈ m.subs, ∃ e ∈ layout m.cat, e.1 = f) ∧ m.subs.Nodup ∧
    (ins.cls = .ldst → ∀ cat, ldstCategory ins = some cat → cat = m.cat) ∧
    (ins.implicitRs = true → m.cat = .rm1P3S1D) ∧ m.meetsNamedRow ins = true := by
  simp only [RmMap.fits, Bool.and_eq_true, beq_iff_eq, List.all_eq_true, List.any_eq_true, decide_eq_true_eq, Bool.or_eq_true,
    Bool.not_eq_true', bne_iff_ne, Option.all_eq_true, and_assoc, Bool.and_eq_false_iff]
  grind

/-- A destination sub-field extends what is only written, a source sub-field what is read (R181 to R190). -/
theorem covers_iff {f : SubField} {sl : Slot} : f.covers sl = true ↔
    if f = .rdest ∨ f = .rdest2 then sl.writes = true ∧ sl.reads = false else sl.reads = true := by
  cases f <;> simp [SubField.covers]

/-- Where one sub-field may serve a read and a write (R184, R188, R189). -/
theorem sharesSubField_iff {m : RmMap} {ins : Suffix} {f : SubField} : m.sharesSubField ins f = true ↔
    m.cat ≠ .rm1P2S1D ∧ (ins.cls = .ldst → ins.isStore = false → (m.cat = .rm2P2S1D ∨ m.cat = .rm2P1S2D) ∧ f = .rsrc1) := by
  simp only [RmMap.sharesSubField, Bool.and_eq_true, Bool.or_eq_true, bne_iff_ne, beq_iff_eq]
  grind

/-- A sub-field of the layout has a value (R76). -/
theorem subField_isSome {cat : Category} {f : SubField} (h : ∃ e ∈ layout cat, e.1 = f) (rm : Rm) :
    (subField cat rm f).isSome = true := by
  simpa [subField] using h

/-- A category that agrees with the class row of R195 wherever there is one, by sources and destinations. -/
theorem ldstCategory_rows {ins : Suffix} {cat : Category} (hrow : ∀ c, ldstCategory ins = some c → c = cat) :
    let sources := ins.slots.countP Slot.reads
    let dests := ins.slots.countP Slot.writes
    (ins.isStore = true → dests = 0 → (sources = 2 → cat = .rm2P2S) ∧ (sources = 3 → cat = .rm2P3S)) ∧
    (ins.isStore = false → (sources = 2 → dests = 1 ∨ dests = 2 → cat = .rm2P2S1D) ∧
      (sources = 1 → dests = 2 → cat = .rm2P1S2D)) := by
  refine ⟨fun hs hd => ⟨fun h => ?_, fun h => ?_⟩, fun hs => ⟨fun h hd => ?_, fun h hd => ?_⟩⟩
  · exact (hrow _ (by simp only [ldstCategory, hs, hd, h])).symm
  · exact (hrow _ (by simp only [ldstCategory, hs, hd, h])).symm
  · rcases hd with hd | hd <;> exact (hrow _ (by simp only [ldstCategory, hs, hd, h])).symm
  · exact (hrow _ (by simp only [ldstCategory, hs, hd, h])).symm

namespace Machine

/-- The row of R195 of a suffix word is that of its instruction. -/
theorem meetsNamedRow_word {m : RmMap} {ins : Suffix} {op : ScalarOp} (hv : op.valid = true) (hw : ins.word = op.word) :
    m.meetsNamedRow ins =
      op.namedRow.all fun row => row.1 == m.cat && row.2.all fun e => (m.subs.zip ins.slots).contains e := by
  rw [RmMap.meetsNamedRow, hw, scalarOp_word op hv, Option.bind_some]

/-- A mapping that meets its row of R195 has the row's category and sub-fields. -/
theorem namedRow_of_meetsNamedRow {m : RmMap} {ins : Suffix} {op : ScalarOp} {cat : Category} {l : List (SubField × Slot)}
    (h : m.meetsNamedRow ins = true) (hrow : op.namedRow = some (cat, l)) (hv : op.valid = true) (hw : ins.word = op.word) :
    m.cat = cat ∧ ∀ e ∈ l, e ∈ m.subs.zip ins.slots := by
  rw [meetsNamedRow_word hv hw, hrow, Option.all_some, Bool.and_eq_true, beq_iff_eq, List.all_eq_true] at h
  obtain ⟨hcat, hl⟩ := h
  exact ⟨hcat.symm, fun e he => List.contains_iff_mem.mp (hl e he)⟩

theorem mapping_of_rmCategory {isa : SuffixIsa} {ins : Suffix} {m : RmMap} (h : isa.rmCategory ins = some m) :
    isa.mapping ins = if m.fits ins then some m else none := by
  rw [SuffixIsa.mapping, h, Option.filter_some]

/-- With RA as one operand, read and written, a load with displacement and update fits RM-2P-1S2D alone (R189). -/
theorem fits_load_update (k : LoadKind) (t a : BitVec 5) (n : BitVec 16) (cat : Category)
    (hv : (ScalarOp.load k true t a n).valid = true) :
    let op := ScalarOp.load k true t a n
    RmMap.fits ⟨cat, [.rdest, .rsrc1]⟩ { op.suffix op.word with slots := [dstSlot k.file t, ⟨.gpr, a, true, true⟩] } =
      decide (cat = .rm2P1S2D) := by
  intro op
  rw [RmMap.fits, meetsNamedRow_word hv rfl]
  cases cat <;> rfl

/-- A store with displacement and update fits either category of R194. -/
theorem fits_store_update (k : StoreKind) (t a : BitVec 5) (n : BitVec 16) {cat : Category}
    (hv : (ScalarOp.store k true t a n).valid = true) (hc : cat ∈ [Category.rm1P2S1D, .rm2P2S1D]) :
    let op := ScalarOp.store k true t a n
    RmMap.fits ⟨cat, [.rdest, .rsrc1, .rsrc2]⟩ (op.suffix op.word) = true := by
  intro op
  rw [RmMap.fits, meetsNamedRow_word hv rfl]
  simp only [List.mem_cons, List.not_mem_nil, or_false] at hc
  rcases hc with rfl | rfl <;> rfl

/-- Settles O21: the category picks the layout, whose fields are `(RM >> s) & mask` by definition; what a mapping says is what
`RmMap.fits` lets pass, the rows of R195 among it, by the instruction of the word; and the reference's words have the category of
their instruction. -/
theorem extraSplitsByCategory : Obligations.ExtraSplitsByCategory := by
  refine ⟨fun isa w0 w1 rest cat hc hcat => ?_,
    fun rm w => ⟨rfl, rfl, rfl, rfl, rfl, rfl, rfl, rfl, rfl, rfl, rfl, rfl, rfl, rfl, rfl, rfl⟩,
    fun isa ins m h => ?_, fun isa ins m k l t a b d x n rc h => ?_, fun isa k t a n cat hv hm => ?_,
    fun isa l t a n hv cat hc hm => ?_, fun k l u t a b d x n rc => ?_⟩
  · simp only [decodeWords, hc, decodePair, hcat]
  · obtain ⟨hcat, hfits⟩ := mapping_eq_some.mp h
    obtain ⟨hlen, hslots, hlayout, hnodup, hldst, -, -⟩ := fits_iff.mp hfits
    exact ⟨hcat, hlen, hnodup, fun f hf => subField_isSome (hlayout f hf), fun e he => covers_iff.mp (hslots e he).1,
      fun hcls => ldstCategory_rows (hldst hcls),
      fun e he hr hw => sharesSubField_iff.mp ((hslots e he).2 hr hw)⟩
  · obtain ⟨-, -, -, -, -, -, hrow⟩ := fits_iff.mp (mapping_eq_some.mp h).2
    have hnamed : ∀ {op : ScalarOp} {cat : Category} {l : List (SubField × Slot)}, op.namedRow = some (cat, l) →
        op.valid = true → ins.word = op.word → m.cat = cat ∧ ∀ e ∈ l, e ∈ m.subs.zip ins.slots :=
      namedRow_of_meetsNamedRow hrow
    exact ⟨hnamed rfl, hnamed rfl, hnamed rfl, hnamed rfl, hnamed rfl, hnamed rfl, hnamed rfl, hnamed rfl, hnamed rfl,
      hnamed rfl, hnamed rfl, hnamed rfl⟩
  · rw [mapping_of_rmCategory hm, fits_load_update k t a n cat hv]
    by_cases hcat : cat = .rm2P1S2D <;> simp [hcat]
  · exact mapping_eq_some.mpr ⟨hm, fits_store_update l t a n hv hc⟩
  · exact ⟨categoryOf_word _ rfl, categoryOf_word _ rfl, categoryOf_word _ rfl, categoryOf_word _ rfl, categoryOf_word _ rfl,
      categoryOf_word _ rfl, categoryOf_word _ rfl, categoryOf_word _, categoryOf_word _, categoryOf_word _, categoryOf_word _,
      categoryOf_word _, categoryOf_word _⟩

/-! ### Empty cells (R79, R271) -/

/-- An instruction of one word traps (R79, R271 cause 1). -/
theorem execFor_of_secondWord_none (p : Params) {i : Instr} (h : i.secondWord? = none) (s : State) :
    execFor p i s = .fault (.illegalInstruction ⟨s.cia, i.firstWord, none, .unallocatedPrefix⟩ s) := by
  simp only [execFor, h]
  rfl

/-- Settles O48: no empty cell has a second word. -/
theorem unallocatedPrefixesTrap : Obligations.UnallocatedPrefixesTrap := by
  intro x y s i hi
  rw [exec_eq_execFor]
  refine execFor_of_secondWord_none machine ?_ s
  revert i
  simp only [List.forall_mem_cons]
  exact ⟨rfl, rfl, rfl, rfl, rfl, rfl, rfl, rfl, rfl, rfl, nofun⟩

/-! ### The faults of fetching (R273, R286) -/

theorem fetchWord_of_fetchTrap {p : Params} {s : State} {a : DWord} {t : SuffixTrap} (h : p.fetchTrap s a = some t) :
    fetchWord p s a = .error t := by
  simp only [fetchWord, h]

theorem fetchWord_of_absent {p : Params} {s : State} {a x : DWord} (hp : p.fetchTrap s a = none)
    (h : readWord p.bigEndian s a = .error x) : fetchWord p s a = .error (.fetchAbsent x) := by
  simp only [fetchWord, hp, h]

theorem fetchNext_of_misaligned {p : Params} {s : State} (h : s.ciaAligned = false) :
    fetchNext p s = .stopped (.fault .misalignedCia) := if_pos (ne_of_beq_false h)

theorem fetchNext_of_first_fault {p : Params} {s : State} {t : SuffixTrap} (ha : s.ciaAligned = true)
    (h : fetchWord p s s.cia = .error t) : fetchNext p s = fetchStop s t := by
  rw [fetchNext, if_neg (not_not.mpr (cia_low_of_aligned ha)), h]

/-- The second word is fetched where the decoder asks for one, of an SVP64 pair within a 64-byte block only (R54, R100). -/
theorem fetchNext_of_second_fault {p : Params} {s : State} {w0 : Word32} {t : SuffixTrap} (ha : s.ciaAligned = true)
    (h0 : fetchWord p s s.cia = .ok w0) {isa : SuffixIsa} (hd : decodeWords isa [w0] = .error (.noSecondWord w0))
    (hb : classify w0 = .svp64 → s.cia.toNat % 64 ≠ 60) (h1 : fetchWord p s (s.cia + 4#64) = .error t) :
    fetchNext p s = fetchStop s t := by
  have hsecond : ∀ k, fetchSecond p s k = fetchStop s t := fun k => by rw [fetchSecond, h1]
  cases hc : classify w0 with
  | unprefixed | unallocated => simp [decodeWords, hc] at hd
  | svp64 => rw [fetchNext_of_svp64 ha h0 hc, if_neg (hb hc), hsecond]
  | v31 row => rw [fetchNext_of_v31 ha h0 hc, hsecond]

theorem step_of_stopped {s : State} {st : Stop} (h : fetchNext machine s = .stopped st) : step s = st.outcome := by
  simp only [step, h]

/-- Settles O32: the alignment is tested before the first word is fetched, its class before the second, and in each fetch the suffix
ISA's fault before absent memory. -/
theorem fetchFaultsComeInOrder : Obligations.FetchFaultsComeInOrder := by
  refine fun s => ⟨fun ha => step_of_stopped (fetchNext_of_misaligned ha),
    fun x ha h => step_of_stopped (fetchNext_of_first_fault ha (fetchWord_of_absent rfl h)),
    fun w0 cell ha h0 hc => ?_,
    fun w0 x ha h0 hd hb h1 => step_of_stopped
      (fetchNext_of_second_fault ha (fetchWord_machine h0) hd hb (fetchWord_of_absent rfl h1)),
    fun p t ha => ⟨fun h => fetchNext_of_first_fault ha (fetchWord_of_fetchTrap h), fun w0 hp h0 hd hb h1 =>
      fetchNext_of_second_fault ha (fetchWord_of_readWord hp h0) hd hb (fetchWord_of_fetchTrap h1)⟩⟩
  obtain ⟨-, hw⟩ := decodeEmpty_fields cell w0
  rw [step_eq_stepFor, stepFor_of_instr (fetchNext_of_unallocated ha (fetchWord_machine h0) hc),
    execFor_of_secondWord_none machine hw, firstWord_decodeEmpty hc]

/-! ### The other rows of the opcode map (R79, R243) -/

/-- A prefixed instruction of another class always completes in the runnable machine (log entry 9). -/
theorem executeV31_machine (w0 w1 : Word32) (s : State) : executeV31 machine w0 w1 s =
    .next (setCia (applyWrites s (scalarReach (Config.v31Writes Config.bigEndian w0 w1 (scalarView s))))
      (nextAddress s 8#64 (Config.v31Target Config.bigEndian w0 w1 (scalarView s)))) := rfl

theorem executeV31_next {p : Params} {w0 w1 : Word32} {s u : State} (h : executeV31 p w0 w1 s = .next u) :
    ∃ ws target, p.execV31 p.bigEndian w0 w1 (scalarView s) = .done ws target ∧
      u = setCia (applyWrites s (scalarReach ws)) (nextAddress s 8#64 target) := by
  unfold executeV31 at h
  split at h
  · next ws target hd => cases h; exact ⟨ws, target, hd, rfl⟩
  · cases h

/-- Where the suffix ISA has no instruction for a pair of a row that is not printed, the pair is illegal (R79). -/
theorem executeUnprinted_eq (p : Params) (w0 w1 : Word32) (s : State) : executeUnprinted p w0 w1 s =
    if p.hasUnprinted w0 w1 then executeV31 p w0 w1 s
    else .fault (.illegalInstruction ⟨s.cia, w0, some w1, .unallocatedPrefix⟩ s) := rfl

/-- The runnable machine has one unless the second word is an EXT01 word (log entry 9). -/
theorem executeUnprinted_machine (w0 : Word32) {w1 : Word32} (s : State) (h : primary w1 ≠ 1#6) :
    executeUnprinted machine w0 w1 s = executeV31 machine w0 w1 s := by
  have hu : machine.hasUnprinted w0 w1 = true := by simp [machine, referenceHasUnprinted, h]
  rw [executeUnprinted_eq, if_pos hu]

/-- Settles O49: each row is handed to the suffix ISA, whose writes are cut to what an unprefixed instruction reaches. -/
theorem otherPrefixClassesComplete : Obligations.OtherPrefixClassesComplete := by
  refine ⟨fun x y w1 s => ?_, executeUnprinted_eq, fun p w0 w1 s u h => ?_⟩
  · have hprinted := fun w0 => executeV31_machine w0 w1 s
    have hunprinted := fun w0 h => (executeUnprinted_machine w0 s h).trans (hprinted w0)
    simp only [List.forall_mem_cons]
    exact ⟨⟨hprinted _, hprinted _, hprinted _, hprinted _, nofun⟩, ⟨rfl, hunprinted _⟩, ⟨rfl, hunprinted _⟩,
      ⟨rfl, hunprinted _⟩, nofun⟩
  · obtain ⟨ws, target, -, rfl⟩ := executeV31_next h
    exact scalarReach_keeps_upper s ws

end Machine
end Sys2Proof
end

section
/-! The statements of family 40_prefix_word: a pair runs as its two words do, what stops a pair that its suffix gives no meaning or
whose values the hardware lacks, and the fields that have no use for the suffix. -/

namespace Sys2Proof
namespace Machine

/-! ### A split pair and its two words (R103) -/

/-- Identification wants nothing more of a pair that was split by the category of its suffix (R108 steps 2 and 3). -/
theorem identify_categoryOf (p : Params) (rm : Rm) (w : Word32) (s : State) :
    identify p (categoryOf p.suffixes w) rm w s = identify p none rm w s := by
  unfold identify categoryOf
  by_cases hprim : primary w = 1#6
  · simp only [hprim, if_true]
  · simp only [hprim, if_false]
    cases p.suffixes.decode w with
    | none => rfl
    | some ins =>
      cases hmap : p.suffixes.mapping ins with
      | none => simp only [hmap]
      | some map => simp only [Option.bind_some, hmap, Option.map_some, if_true]

/-- Settles O40: a well-formed pair names the category of its suffix, and with it or without it the same pair is identified. -/
theorem aSplitPairRunsAsItsWords : Obligations.ASplitPairRunsAsItsWords := by
  intro i rm w s hwf hrm hw
  have hcat : i.category? = categoryOf machine.suffixes w := by
    rw [Instr.wf, wfFor_of_rm hrm hw, beq_iff_eq] at hwf
    exact hwf.symm
  rw [exec_of_rm hrm hw, exec_of_rm (i := .svp64Prefix rm w) rfl rfl, hcat, executePrefixed, identify_categoryOf]
  rfl

/-! ### A suffix without a meaning (R102, R103) -/

theorem executePrefixed_of_identify_error {p : Params} {want : Option Category} {rm : Rm} {w : Word32} {s : State} {st : Stop}
    (h : identify p want rm w s = .error st) : executePrefixed p want rm w s = st.outcome := by
  rw [executePrefixed, h]

theorem identify_of_prefixWord (p : Params) (want : Option Category) (rm : Rm) {w : Word32} (s : State) (hw : primary w = 1#6) :
    identify p want rm w s = .error (.refuse .suffixIsPrefixWord) := if_pos hw

theorem identify_of_decode_none {p : Params} {w : Word32} (want : Option Category) (rm : Rm) (s : State) (hw : primary w ≠ 1#6)
    (hd : p.suffixes.decode w = none) :
    identify p want rm w s = .error (raiseIllegal (prefixWord rm) (some w) .illegalSuffix s) := by
  rw [identify, if_neg hw, hd]

theorem identify_of_mapping_none {p : Params} {w : Word32} {ins : Suffix} (want : Option Category) (rm : Rm) (s : State)
    (hw : primary w ≠ 1#6) (hd : p.suffixes.decode w = some ins) (hm : p.suffixes.mapping ins = none) :
    identify p want rm w s = .error (.refuse .noRmCategory) := by
  rw [identify, if_neg hw, hd]
  simp only [hm]

/-- A suffix maps to nothing where `rmCategory` gives no category, or one that R181 to R195 exclude (log entry 29). -/
theorem mapping_eq_none {isa : SuffixIsa} {ins : Suffix} :
    isa.mapping ins = none ↔ isa.rmCategory ins = none ∨ ∃ m, isa.rmCategory ins = some m ∧ m.fits ins = false := by
  cases h : isa.rmCategory ins <;> simp [SuffixIsa.mapping, h, Option.filter]

/-! ### Reserved values and values the hardware lacks (R104, R105, R107) -/

/-- The pair that is identified consists of the two words it is given (R101, R108). -/
theorem identify_ok_words {p : Params} {want : Option Category} {rm : Rm} {w : Word32} {s : State} {q : Pair}
    (h : identify p want rm w s = .ok q) : q.w0 = prefixWord rm ∧ q.w1 = w ∧ q.rm = rm := by
  unfold identify at h
  split at h
  · cases h
  · split at h
    · cases h
    · split at h
      · cases h
      · split at h
        · cases h; exact ⟨rfl, rfl, rfl⟩
        · split at h
          · cases h; exact ⟨rfl, rfl, rfl⟩
          · cases h

/-- With VL not 0, or where reserved values trap at VL = 0 as well, no illegal value is overlooked (U9). -/
theorem skipsIllegal_eq_false {p : Params} {s : State} (h : s.vl ≠ 0 ∨ p.vl0ChecksReserved = true) :
    skipsIllegal p s = false := by
  rcases h with h | h <;> simp [skipsIllegal, h]

theorem illegalStop_of_reservedCause {p : Params} {q : Pair} {c : IllegalCause} (s : State) (h : reservedCause q = some c) :
    illegalStop p q s = some (raiseIllegal q.w0 (some q.w1) c s) := by
  simp only [illegalStop, h]

theorem illegalStop_of_not_hwSupports {p : Params} {q : Pair} (s : State) (h : reservedCause q = none)
    (hh : p.hwSupports q.rm q.map.cat = false) : illegalStop p q s = some (raiseIllegal q.w0 (some q.w1) .unsupported s) := by
  simp only [illegalStop, h, hh, Bool.not_false, stopIf_true]

/-- What an identified pair does at R108 steps 5 and 6 comes before any other of its checks. -/
theorem executePrefixed_of_illegalStop {p : Params} {want : Option Category} {rm : Rm} {w : Word32} {s : State} {q : Pair}
    {st : Stop} (hq : identify p want rm w s = .ok q) (hvl : s.vl ≠ 0 ∨ p.vl0ChecksReserved = true) (h : illegalStop p q s = some st) :
    executePrefixed p want rm w s = st.outcome := by
  have hd : decodeStop p q s = some st := by
    rw [decodeStop, skipsIllegal_eq_false hvl, h]
    rfl
  rw [executePrefixed, hq]
  simp only [hd]

/-- Settles O47: identification stops at the first three, in its own order; an identified pair passes to the subset check. -/
theorem suffixesWithoutAMeaningStop : Obligations.SuffixesWithoutAMeaningStop := by
  refine fun p rm w s => ⟨rfl,
    fun hw => executePrefixed_of_identify_error (identify_of_prefixWord p none rm s hw),
    fun hw hd => executePrefixed_of_identify_error (identify_of_decode_none none rm s hw hd),
    fun ins hw hd hm => executePrefixed_of_identify_error (identify_of_mapping_none none rm s hw hd (mapping_eq_none.mpr hm)),
    fun q hq hres hh hvl => ?_⟩
  obtain ⟨hw0, hw1, hrm⟩ := identify_ok_words hq
  rw [executePrefixed_of_illegalStop hq hvl (illegalStop_of_not_hwSupports s hres (hrm ▸ hh)), hw0, hw1]
  rfl

/-! ### Fields with no use for the suffix (R105) -/

@[simp] theorem firstCause_nil : firstCause [] = none := rfl

@[simp] theorem firstCause_cons (c : Option IllegalCause) (l : List (Option IllegalCause)) :
    firstCause (c :: l) = c.or (firstCause l) := by
  cases c <;> rfl

@[simp] theorem firstCause_append (l r : List (Option IllegalCause)) : firstCause (l ++ r) = (firstCause l).or (firstCause r) := by
  induction l with
  | nil => rfl
  | cons c l ih => rw [List.cons_append, firstCause_cons, firstCause_cons, ih, Option.or_assoc]

/-- A reserved value of a reference instruction traps at every VL (R104; at VL = 0 by the default of log entry 17). -/
theorem exec_of_reservedCause {i : Instr} {op : ScalarOp} {m : RmMap} {rm : Rm} {cause : IllegalCause} (hv : op.valid = true)
    (hm : op.rmMap = some m) (hrm : i.rm? = some rm) (hw : i.secondWord? = some op.word) (hcat : i.category? = some m.cat)
    (s : State) (h : reservedCause (pairOf op m rm) = some cause) :
    exec i s = .fault (.illegalInstruction ⟨s.cia, i.firstWord, i.secondWord?, cause⟩ s) := by
  rw [exec_of_rm hrm hw, hw, firstWord_of_rm hrm]
  exact executePrefixed_of_illegalStop (identify_word hv hm (.inr hcat) rm s) (.inr rfl) (illegalStop_of_reservedCause s h)

/-- Cause 4 for a width field that has no use. -/
def idleWidth (field : WidthField) (v : BitVec 2) : Option IllegalCause := if v = 0#2 then none else some (.unusedWidth field v)

/-- Cause 4 for an EXTRA3 sub-field that has no use. -/
def idleExtra3 (f : SubField) (v : BitVec 3) : Option IllegalCause :=
  if v = 0#3 then none else some (.unusedSubField f (.extra3 v))

@[simp] theorem idleWidth_zero (field : WidthField) : idleWidth field 0#2 = none := rfl
@[simp] theorem idleExtra3_zero (f : SubField) : idleExtra3 f 0#3 = none := rfl

theorem idleWidth_ne_zero {field : WidthField} {v : BitVec 2} (h : v ≠ 0#2) : idleWidth field v = some (.unusedWidth field v) :=
  if_neg h

theorem idleExtra3_ne_zero {f : SubField} {v : BitVec 3} (h : v ≠ 0#3) : idleExtra3 f v = some (.unusedSubField f (.extra3 v)) :=
  if_neg h

theorem unusedWidth_eq_idleWidth {ins : Suffix} (hcr : crOnly ins = false) (field : WidthField) (v : BitVec 2) :
    unusedWidth ins field v = if hasWidth ins field then none else idleWidth field v := by
  cases h : hasWidth ins field <;> by_cases hv : v = 0#2 <;> simp [unusedWidth, idleWidth, hcr, h, hv]

/-- An EXTRA3 sub-field's cause 4, by whether it extends an operand. -/
theorem unusedSubField_eq_idleExtra3 (subs : List SubField) (f : SubField) (v : BitVec 3) :
    (if !subs.contains f && !(SubValue.extra3 v).isZero then some (IllegalCause.unusedSubField f (.extra3 v)) else none) =
      if subs.contains f then none else idleExtra3 f v := by
  cases subs.contains f <;> by_cases hv : v = 0#3 <;> simp [SubValue.isZero, idleExtra3, hv]

theorem unusedSubCauses_rm1P2S1D (subs : List SubField) (c : CommonRm) (d a b : BitVec 3) :
    unusedSubCauses ⟨.rm1P2S1D, subs⟩ (packRm c (d ++ a ++ b)) =
      [if subs.contains .rdest then none else idleExtra3 .rdest d, if subs.contains .rsrc1 then none else idleExtra3 .rsrc1 a,
        if subs.contains .rsrc2 then none else idleExtra3 .rsrc2 b] := by
  obtain ⟨hd, ha, hb⟩ := extra3_packRm c d a b
  simp only [unusedSubCauses, layout, List.map_cons, List.map_nil, subAt, if_true, hd, ha, hb, unusedSubField_eq_idleExtra3]

theorem unusedSubCauses_rm2P1S1D (subs : List SubField) (c : CommonRm) (d a m : BitVec 3) :
    unusedSubCauses ⟨.rm2P1S1D, subs⟩ (packRm c (d ++ a ++ m)) =
      [if subs.contains .rdest then none else idleExtra3 .rdest d, if subs.contains .rsrc1 then none else idleExtra3 .rsrc1 a] := by
  obtain ⟨hd, ha, -⟩ := extra3_packRm c d a m
  simp only [unusedSubCauses, layout, List.map_cons, List.map_nil, subAt, if_true, hd, ha, unusedSubField_eq_idleExtra3]

/-- Without FP and CR operands, and outside RM-1P-3S1D, only cause 4 is left, in the order of R273 (8). -/
theorem reservedCause_of_integer {q : Pair} {dst src : Bool} (hfp : ∀ field, fpWidthApplies q.ins field = false)
    (hs : q.ins.single = false) (hcr : crOnly q.ins = false) (hcat : q.map.cat ≠ .rm1P3S1D)
    (hdst : hasWidth q.ins .elwidth = dst) (hsrc : hasWidth q.ins .elwidthSrc = src) :
    reservedCause q = firstCause
      ([if dst then none else idleWidth .elwidth (commonOf q.rm).elwidth,
        if src then none else idleWidth .elwidthSrc (commonOf q.rm).elwidthSrc] ++ unusedSubCauses q.map q.rm) := by
  simp [reservedCause, widthCauses, reservedWidth, narrowWidth, extra2ModeCause, unusedWidth_eq_idleWidth hcr, hfp, hs, hcat,
    hdst, hsrc]

/-- A branch and a fence have no operand, and use neither width and no sub-field (log entry 13). -/
theorem reservedCause_of_no_operand {op : ScalarOp} (hop : op = .sync ∨ ∃ li aa, op = .branch li aa) (c : CommonRm)
    (d a b : BitVec 3) :
    reservedCause (pairOf op ⟨.rm1P2S1D, []⟩ (packRm c (d ++ a ++ b))) = firstCause
      [idleWidth .elwidth c.elwidth, idleWidth .elwidthSrc c.elwidthSrc, idleExtra3 .rdest d, idleExtra3 .rsrc1 a,
        idleExtra3 .rsrc2 b] := by
  rcases hop with rfl | ⟨li, aa, rfl⟩ <;>
  · rw [reservedCause_of_integer (dst := false) (src := false) (by intro f; cases f <;> rfl) rfl rfl (by simp [pairOf]) rfl rfl]
    simp only [pairOf, unusedSubCauses_rm1P2S1D, commonOf_packRm]
    rfl

/-- `mtspr` reads a register and writes none. -/
theorem reservedCause_mtspr (n : BitVec 10) (t : BitVec 5) (c : CommonRm) (d a m : BitVec 3) :
    reservedCause (pairOf (.mtspr n t) ⟨.rm2P1S1D, [.rsrc1]⟩ (packRm c (d ++ a ++ m))) =
      firstCause [idleWidth .elwidth c.elwidth, idleExtra3 .rdest d] := by
  rw [reservedCause_of_integer (dst := false) (src := true) (by intro f; cases f <;> rfl) rfl rfl (by simp [pairOf]) rfl rfl]
  simp [pairOf, unusedSubCauses_rm2P1S1D, commonOf_packRm]

/-- `mfspr` writes a register and reads none. -/
theorem reservedCause_mfspr (n : BitVec 10) (t : BitVec 5) (c : CommonRm) (d a m : BitVec 3) :
    reservedCause (pairOf (.mfspr t n) ⟨.rm2P1S1D, [.rdest]⟩ (packRm c (d ++ a ++ m))) =
      firstCause [idleWidth .elwidthSrc c.elwidthSrc, idleExtra3 .rsrc1 a] := by
  rw [reservedCause_of_integer (dst := true) (src := false) (by intro f; cases f <;> rfl) rfl rfl (by simp [pairOf]) rfl rfl]
  simp [pairOf, unusedSubCauses_rm2P1S1D, commonOf_packRm]

/-- Settles O52: each suffix reports the first idle field that is not zero, and the fields it uses none. -/
theorem unusedFieldsTrap : Obligations.UnusedFieldsTrap := by
  intro c rd r1 r2 li aa n t s branch fence toSpr fromSpr traps
  have hnone : ∀ cause, firstCause [idleWidth .elwidth c.elwidth, idleWidth .elwidthSrc c.elwidthSrc, idleExtra3 .rdest rd,
      idleExtra3 .rsrc1 r1, idleExtra3 .rsrc2 r2] = some cause → ∀ i ∈ [branch, fence], traps i cause := fun cause h => by
    simp only [List.forall_mem_cons]
    exact ⟨exec_of_reservedCause (op := .branch li aa) rfl rfl rfl rfl rfl s
        ((reservedCause_of_no_operand (.inr ⟨li, aa, rfl⟩) c rd r1 r2).trans h),
      exec_of_reservedCause (op := .sync) rfl rfl rfl rfl rfl s
        ((reservedCause_of_no_operand (.inl rfl) c rd r1 r2).trans h), nofun⟩
  have hto : ∀ cause, firstCause [idleWidth .elwidth c.elwidth, idleExtra3 .rdest rd] = some cause →
      traps toSpr cause := fun cause h =>
    exec_of_reservedCause (op := .mtspr n t) rfl rfl rfl rfl rfl s ((reservedCause_mtspr n t c rd r1 r2).trans h)
  have hfrom : ∀ cause, firstCause [idleWidth .elwidthSrc c.elwidthSrc, idleExtra3 .rsrc1 r1] = some cause →
      traps fromSpr cause := fun cause h =>
    exec_of_reservedCause (op := .mfspr t n) rfl rfl rfl rfl rfl s ((reservedCause_mfspr n t c rd r1 r2).trans h)
  refine ⟨fun hw => ?_, fun hw hs => ?_, fun hs => ?_, fun hw hs i hi => ⟨fun hd => ?_, fun hd ha => ?_, fun hd ha hb => ?_⟩,
    fun hs ha => ?_, fun hw hd => ?_⟩
  · exact List.forall_mem_append.mpr ⟨hnone _ (by simp [idleWidth_ne_zero hw]),
      List.forall_mem_singleton.mpr (hto _ (by simp [idleWidth_ne_zero hw]))⟩
  · exact hnone _ (by simp [hw, idleWidth_ne_zero hs])
  · exact hfrom _ (by simp [idleWidth_ne_zero hs])
  · exact hnone _ (by simp [hw, hs, idleExtra3_ne_zero hd]) i hi
  · exact hnone _ (by simp [hw, hs, hd, idleExtra3_ne_zero ha]) i hi
  · exact hnone _ (by simp [hw, hs, hd, ha, idleExtra3_ne_zero hb]) i hi
  · exact hfrom _ (by simp [hs, idleExtra3_ne_zero ha])
  · exact hto _ (by simp [hw, idleExtra3_ne_zero hd])

end Machine
end Sys2Proof
end

section
/-! The statements of family 41_rm_common_fields: the FP widths without a meaning, reserved or not specified, in either width field. -/

namespace Sys2Proof
namespace Machine

/-! ### The causes of the FP widths (R124, R125) -/

/-- Cause 2 of an FP width: bf16 is reserved. -/
def bf16Cause (field : WidthField) (v : BitVec 2) : Option IllegalCause :=
  if v = 3#2 then some (.reservedElwidth field) else none

/-- Cause 3 of an operation ending in 's': at f16 and bf16 it has no width to compute in. -/
def singleCause (field : WidthField) (v : BitVec 2) : Option IllegalCause :=
  if v = 2#2 ∨ v = 3#2 then some (.narrowSingle field v) else none

theorem fpWidth_eq_bf16 (v : BitVec 2) : (fpWidth v == .bf16) = decide (v = 3#2) := by
  revert v; decide

theorem singleWidths_isNone (v : BitVec 2) : (singleWidths v).isNone = decide (v = 2#2 ∨ v = 3#2) := by
  revert v; decide

theorem reservedWidth_eq_bf16Cause {ins : Suffix} {field : WidthField} (h : fpWidthApplies ins field = true) (v : BitVec 2) :
    reservedWidth ins field v = bf16Cause field v := by
  simp [reservedWidth, bf16Cause, h, fpWidth_eq_bf16]

theorem narrowWidth_eq_singleCause (ins : Suffix) (field : WidthField) (v : BitVec 2) :
    narrowWidth ins field v = if ins.single then singleCause field v else none := by
  cases h : ins.single <;> simp [narrowWidth, singleCause, h, singleWidths_isNone]

theorem unusedWidth_of_hasWidth {ins : Suffix} {field : WidthField} (h : hasWidth ins field = true) (v : BitVec 2) :
    unusedWidth ins field v = none := by
  simp [unusedWidth, h]

/-- The first cause of the two width fields, ELWIDTH first (R273 (8)). -/
def widthCause (q : Pair) : Option IllegalCause := firstCause (widthCauses q.ins (commonOf q.rm))

/-- The width fields come before the sub-fields and EXTRA2_MODE (R273 (8)). -/
theorem reservedCause_of_widthCause {q : Pair} {cause : IllegalCause} (h : widthCause q = some cause) :
    reservedCause q = some cause := by
  rw [widthCause] at h
  simp [reservedCause, h]

/-- Without a cause of the width fields, nothing is reserved where every sub-field is in use. -/
theorem reservedCause_of_widthCause_none {q : Pair} (h : widthCause q = none)
    (hsub : ((layout q.map.cat).all fun e => q.map.subs.contains e.1) = true)
    (he : q.map.cat ≠ .rm1P3S1D ∨ q.ins.implicitRs = true ∨ extra2ModeOf q.rm = 0#1) : reservedCause q = none :=
  reservedCause_of_widths ((firstCause_eq_none _).mp h) hsub he

/-- Where both width fields are FP widths in use, causes 2 and 3 are all there is to them. -/
theorem widthCause_of_fp {op : ScalarOp} {m : RmMap} {c : CommonRm} {e : BitVec 9}
    (hfp : ∀ field, fpWidthApplies (op.suffix op.word) field = true) (hwidth : ∀ field, hasWidth (op.suffix op.word) field = true) :
    widthCause (pairOf op m (packRm c e)) = firstCause
      [bf16Cause .elwidth c.elwidth, if op.single then singleCause .elwidth c.elwidth else none,
        if op.single then singleCause .elwidthSrc c.elwidthSrc else none, bf16Cause .elwidthSrc c.elwidthSrc] := by
  have hs : (op.suffix op.word).single = op.single := rfl
  simp [widthCause, pairOf, commonOf_packRm, widthCauses, reservedWidth_eq_bf16Cause (hfp _), narrowWidth_eq_singleCause,
    unusedWidth_of_hasWidth (hwidth _), hs]

/-- `fadds` ends in 's', so that bf16 has two causes (U28). -/
theorem widthCause_fadds (t a b : BitVec 5) (m : RmMap) (c : CommonRm) (e : BitVec 9) :
    widthCause (pairOf (.fadds t a b false) m (packRm c e)) = firstCause
      [bf16Cause .elwidth c.elwidth, singleCause .elwidth c.elwidth, singleCause .elwidthSrc c.elwidthSrc,
        bf16Cause .elwidthSrc c.elwidthSrc] :=
  widthCause_of_fp (by intro f; cases f <;> rfl) (by intro f; cases f <;> rfl)

/-- `fmadd` does not end in 's', so that cause 3 is none of its causes. -/
theorem widthCause_fmadd (t a x b : BitVec 5) (m : RmMap) (c : CommonRm) (e : BitVec 9) :
    widthCause (pairOf (.fmadd t a x b false) m (packRm c e)) =
      firstCause [bf16Cause .elwidth c.elwidth, bf16Cause .elwidthSrc c.elwidthSrc] :=
  (widthCause_of_fp (by intro f; cases f <;> rfl) (by intro f; cases f <;> rfl)).trans (by simp [ScalarOp.single])

/-! ### Field values without a meaning (R108 step 7) -/

/-- A reference instruction without a reserved value stops at its first field value without a meaning, at every VL. -/
theorem exec_of_valueStop {i : Instr} {op : ScalarOp} {m : RmMap} {rm : Rm} {st : Stop} (hv : op.valid = true)
    (hm : op.rmMap = some m) (hrm : i.rm? = some rm) (hw : i.secondWord? = some op.word) (hcat : i.category? = some m.cat)
    (s : State) (hres : reservedCause (pairOf op m rm) = none) (hval : valueStop (pairOf op m rm) = some st) :
    exec i s = st.outcome := by
  have hd : decodeStop machine (pairOf op m rm) s = some st := by
    rw [decodeStop, illegalStop_word hres, ite_self, firstStop_none, hval, firstStop_some]
  rw [exec_of_rm hrm hw, executePrefixed, identify_word hv hm (.inr hcat) rm s]
  simp only [hd]

/-- R244 line 3: with MODE and SUBVL 0, a width field that is not 0 is refused. -/
theorem valueStop_elwidthNotSpecified {op : ScalarOp} {m : RmMap} {c : CommonRm} {e : BitVec 9} (hi : op.implicitRs = false)
    (hmode : c.mode = 0#5) (hsubvl : c.subvl = 0#2) (hw : c.elwidth ≠ 0#2 ∨ c.elwidthSrc ≠ 0#2) :
    valueStop (pairOf op m (packRm c e)) = some (.refuse .elwidthNotSpecified) := by
  have hne : (c.elwidth != 0#2 || c.elwidthSrc != 0#2) = true := by simpa using hw
  simp [valueStop, pairOf, ScalarOp.suffix, commonOf_packRm, hi, hmode, hsubvl, hne]

/-- Settles O51: the traps are the first cause of the two width fields; the refusals are a width that has none. -/
theorem reservedFpWidthsTrap : Obligations.ReservedFpWidthsTrap := by
  intro c rd r1 r2 t a b d e f g y x s single double traps
  have hsingle : ∀ cause, firstCause [bf16Cause .elwidth c.elwidth, singleCause .elwidth c.elwidth,
      singleCause .elwidthSrc c.elwidthSrc, bf16Cause .elwidthSrc c.elwidthSrc] = some cause → traps single cause :=
    fun cause h => exec_of_reservedCause (op := .fadds t a b false) rfl rfl rfl rfl rfl s
      (reservedCause_of_widthCause ((widthCause_fadds t a b _ c _).trans h))
  have hdouble : ∀ cause, firstCause [bf16Cause .elwidth c.elwidth, bf16Cause .elwidthSrc c.elwidthSrc] = some cause →
      traps double cause :=
    fun cause h => exec_of_reservedCause (op := .fmadd t a x b false) rfl rfl rfl rfl rfl s
      (reservedCause_of_widthCause ((widthCause_fmadd t a x b _ c _).trans h))
  refine ⟨fun hw => ⟨⟨_, List.mem_cons_self, hsingle _ ?_⟩, hdouble _ ?_⟩, fun hw => hsingle _ ?_, fun h2 h3 hs => hsingle _ ?_,
    fun h2 h3 hs => ⟨_, List.mem_cons_of_mem _ List.mem_cons_self, hsingle _ ?_⟩, fun h3 hs => hdouble _ ?_,
    fun hw hs hmode hsubvl hy => ?_, fun hw hs hmode hsubvl => ?_⟩
  · simp [bf16Cause, hw]
  · simp [bf16Cause, hw]
  · simp [bf16Cause, singleCause, hw]
  · simp [bf16Cause, singleCause, h2, h3, hs]
  · simp [bf16Cause, singleCause, h2, h3, hs]
  · simp [bf16Cause, h3, hs]
  · have hcause : firstCause [bf16Cause .elwidth c.elwidth, bf16Cause .elwidthSrc c.elwidthSrc] = none := by
      simp [bf16Cause, hw, hs]
    obtain ⟨-, -, -, -, hmodeBit⟩ := extra2Mode_packRm c d e f g y
    exact exec_of_valueStop (op := .fmadd t a x b false) rfl rfl rfl rfl rfl s
      (reservedCause_of_widthCause_none ((widthCause_fmadd t a x b _ c _).trans hcause) rfl (.inr (.inr (hmodeBit.trans hy))))
      (valueStop_elwidthNotSpecified rfl hmode hsubvl (.inl (by simp [hw])))
  · have hcause : firstCause [bf16Cause .elwidth c.elwidth, singleCause .elwidth c.elwidth,
        singleCause .elwidthSrc c.elwidthSrc, bf16Cause .elwidthSrc c.elwidthSrc] = none := by
      have hs2 : c.elwidthSrc ≠ 2#2 := fun h => by simp [h] at hs
      have hs3 : c.elwidthSrc ≠ 3#2 := fun h => by simp [h] at hs
      simp [bf16Cause, singleCause, hw, hs2, hs3]
    exact exec_of_valueStop (op := .fadds t a b false) rfl rfl rfl rfl rfl s
      (reservedCause_of_widthCause_none ((widthCause_fadds t a b _ c _).trans hcause) rfl (.inl (by simp [pairOf])))
      (valueStop_elwidthNotSpecified rfl hmode hsubvl (.inl (by simp [hw])))

end Machine
end Sys2Proof
end

section
/-! The statements of family 42_predication: the enable function in numbers, the one-hot mask, and the fault of an element that writes a
later predicate field. -/

namespace Sys2Proof
namespace Machine

/-! ### The enable function (R150 to R156, R160) -/

/-- The bit test `(R >> i) & 1 = 1` of R152 and R155. -/
theorem shiftRight_and_one_eq_getLsbD {w : Nat} (x : BitVec w) (i : Nat) : ((x.toNat >>> i) &&& 1 == 1) = x.getLsbD i := by
  rw [BitVec.getLsbD, Nat.testBit, Nat.and_comm]
  rcases Nat.mod_two_eq_zero_or_one (x.toNat >>> i) with h | h <;> simp [Nat.one_and_eq_mod_two, h]

/-- The selectors of the integer bit tests come in plain and inverted pairs, one pair for each of r3, r10 and r30 (R152). -/
theorem intEnabled_bitTest {sel : BitVec 3} (h : 2 ≤ sel.toNat) (s : State) (i : Nat) :
    intEnabled s sel i =
      ((if sel.toNat / 2 = 1 then readGpr s 3 else if sel.toNat / 2 = 2 then readGpr s 10 else readGpr s 30).getLsbD i !=
        (sel.toNat % 2 == 1)) := by
  have hlt := sel.isLt
  unfold intEnabled
  generalize sel.toNat = n at h hlt
  interval_cases n <;> simp

/-- The selectors of the CR tests come in set and clear pairs, in the order LT, GT, EQ, SO of the bits (R155). -/
theorem crEnabled_bitTest (s : State) (sel : BitVec 3) (i : Nat) :
    crEnabled s sel i = ((readCr s (crPredField i)).getLsbD (3 - sel.toNat / 2) != (sel.toNat % 2 == 1)) := by
  have hlt := sel.isLt
  unfold crEnabled
  generalize sel.toNat = n at hlt
  interval_cases n <;> simp [crFieldBit]

/-- Settles O37: ALWAYS and the one-hot test are rows of the table; the other rows come in plain and inverted pairs, one pair a bit. -/
theorem enabledIsTheCompleteFunction : Obligations.EnabledIsTheCompleteFunction := by
  intro s sel i
  refine ⟨?_, ?_, fun h2 _ => ?_, fun _ => ?_⟩
  · rintro rfl; rfl
  · rintro rfl; rfl
  · exact (intEnabled_bitTest h2 s i).trans (by rw [shiftRight_and_one_eq_getLsbD])
  · exact (crEnabled_bitTest s sel i).trans (by rw [shiftRight_and_one_eq_getLsbD]; rfl)

/-! ### Instructions of three EXTRA3 operands (R183) -/

/-- The mapping of an instruction of one destination and two sources (R183, R195). -/
def extra3Map : RmMap := ⟨.rm1P2S1D, [.rdest, .rsrc1, .rsrc2]⟩

/-- Its operands: three slots, each extended by its own sub-field. -/
def extra3Operands (d x y : Slot) (rd ra rb : BitVec 3) : List Operand :=
  [resolve d (.extra3 rd), resolve x (.extra3 ra), resolve y (.extra3 rb)]

section Extra3

variable {op : ScalarOp} {d x y : Slot} {c : CommonRm} {rd ra rb : BitVec 3} {s : State}

theorem resolveAll_extra3 (hslots : op.slots = [d, x, y]) (c : CommonRm) (rd ra rb : BitVec 3) :
    resolveAll (op.suffix op.word) extra3Map (packRm c (rd ++ ra ++ rb)) = extra3Operands d x y rd ra rb :=
  resolveAll_rm1P2S1D hslots c rd ra rb

/-- The loop admits it: its one destination is a vector, or there is one element (R244 lines 4 to 8). -/
theorem admissionStop_extra3 {rm : Rm} {vl : Nat} (hcls : op.cls = .arith ∨ op.cls = .crop) (hrc : op.rc = false)
    (hra0 : op.ra0 = none) (hx : x.writes = false) (hy : y.writes = false)
    (hdest : (SubValue.extra3 rd).isVector = true ∨ vl = 1) :
    admissionStop machine (pairOf op extra3Map rm) (extra3Operands d x y rd ra rb) vl = none := by
  have h0 : ra0Stop (pairOf op extra3Map rm) = none := by simp [ra0Stop, pairOf, ScalarOp.suffix, hra0]
  have hvec : hasScalarDest (extra3Operands d x y rd ra rb) = false ∨ vl = 1 :=
    hdest.imp_left fun hv => by simp [extra3Operands, hasScalarDest, resolve_slot, resolve_vector, hv, hx, hy]
  exact admissionStop_none (hcls.imp_right .inl) hrc hvec (.inl rfl) h0

/-- Its mask is MASK, read before element 0 (R121, R158). -/
theorem elementMask_extra3 (s : State) (c : CommonRm) (e : BitVec 9) :
    elementMask s extra3Map.cat (packRm c e) s.vl = (List.range s.vl).map (singleMask s c) := by
  rw [elementMask_single rfl, commonOf_packRm]; rfl

theorem masksStop_extra3 {vl : Nat} (hread : maskReadable c.maskmode c.mask vl = true) (e : BitVec 9) :
    masksStop extra3Map.cat (packRm c e) vl = none :=
  masksStop_single rfl (by rwa [commonOf_packRm])

theorem reservedCause_extra3 (hp : plain c = true) (e : BitVec 9) : reservedCause (pairOf op extra3Map (packRm c e)) = none :=
  reservedCause_plain (by simpa [pairOf, commonOf_packRm] using hp) rfl (.inl (by simp [pairOf, extra3Map]))

end Extra3

/-! ### The elements in order where at most one is enabled -/

theorem overElements_of_none {n : Nat} {on : Nat → Bool} (f : Nat → State → State) (s : State)
    (h : ∀ i, i < n → on i = false) : overElements n on f s = s := by
  induction n with
  | zero => rfl
  | succ n ih => rw [overElements_succ, h n (Nat.lt_succ_self n), ih fun i hi => h i (Nat.lt_succ_of_lt hi)]; rfl

theorem overElements_of_only {n k : Nat} {on : Nat → Bool} (f : Nat → State → State) (s : State) (hk : k < n)
    (h : ∀ i, on i = decide (i = k)) : overElements n on f s = f k s := by
  induction n with
  | zero => exact absurd hk (Nat.not_lt_zero k)
  | succ n ih =>
    rw [overElements_succ, h n]
    rcases Nat.lt_succ_iff_lt_or_eq.mp hk with hlt | rfl
    · rw [decide_eq_false (Nat.ne_of_gt hlt), ih hlt]; rfl
    · rw [decide_eq_true rfl, overElements_of_none f s fun i hi => by rw [h i]; exact decide_eq_false (Nat.ne_of_lt hi)]; rfl

section SvAddElements

variable {c : CommonRm} {rd ra rb : BitVec 3} {t a b : BitVec 5} {s : State}

/-- The sum that an element of `sv.add` computes. -/
def addSum (ra rb : BitVec 3) (a b : BitVec 5) (i : Nat) (u : State) : DWord :=
  readGpr u (reg (regNo a (.extra3 ra) i)) + readGpr u (reg (regNo b (.extra3 rb) i))

/-- The one element of `sv.add`: the sum of its two source registers to its destination (R222). -/
def addElement (rd ra rb : BitVec 3) (t a b : BitVec 5) (i : Nat) (u : State) : State :=
  writeGpr u (reg (regNo t (.extra3 rd) i)) (addSum ra rb a b i u)

/-- `sv.add` runs its enabled elements in order (R245, R249). -/
theorem exec_add_elements (hmode : s.mode = .bits64) (hlegal : vlLegal s) (hp : plain c = true)
    (hread : maskReadable c.maskmode c.mask s.vl = true) (hdest : (SubValue.extra3 rd).isVector = true ∨ s.vl = 1)
    (hfit : ∀ i, i < s.vl → singleMask s c i = true →
      regNo t (.extra3 rd) i ≤ 127 ∧ regNo a (.extra3 ra) i ≤ 127 ∧ regNo b (.extra3 rb) i ≤ 127) :
    exec (.rm1P2S1D c rd ra rb (ScalarOp.add t a b false).word) s =
      .next (setCia (overElements s.vl (singleMask s c) (addElement rd ra rb t a b) s) (s.cia + 8#64)) := by
  refine executePrefixed_writes (op := .add t a b false) (m := extra3Map) rfl rfl (.inr rfl) hmode hlegal
    (reservedCause_extra3 hp _) (by rwa [commonOf_packRm]) rfl rfl _ (resolveAll_extra3 rfl c rd ra rb)
    (admissionStop_extra3 (.inl rfl) rfl rfl rfl rfl hdest) (masksStop_extra3 hread _) (singleMask s c) (elementMask_extra3 s c _)
    (fun i u => [.gpr (reg (regNo t (.extra3 rd) i)) (addSum ra rb a b i u)]) (fun i u => ?_) (fun _ _ => rfl)
    (fun i hi hon => ?_) (fun _ _ _ _ => overwritesPredicate_none ?_ rfl) (fun h0 => ?_)
  · simp only [extra3Operands, List.map_cons, List.map_nil, resolve_gpr_register, srcSlot, dstSlot]
    rfl
  · simpa [extra3Operands, resolve_gpr_number, srcSlot, dstSlot] using hfit i hi hon
  · simp [extra3Operands, resolve_slot, srcSlot, dstSlot]
  · have ht : (reg (regNo t (.extra3 rd) 0)).val < 32 := by rw [(extra3_zero h0).1]; exact reg_zero_reach t rfl
    simp [scalarReach, Write.inScalarReach, ht]

end SvAddElements

/-- The selector `1 << R3` compares the whole of r3 (R153). -/
theorem singleMask_oneHot {c : CommonRm} (hm : c.maskmode = 0#1) (h1 : c.mask = 1#3) (s : State) (i : Nat) :
    singleMask s c i = decide (i = (readGpr s 3).toNat) := by
  rw [singleMask, hm, h1]; rfl

/-- Settles O38: of the elements in order at most the one of index r3 runs, and none where r3 is past them. -/
theorem oneHotMaskEnablesOneElement : Obligations.OneHotMaskEnablesOneElement := by
  intro c rd ra rb t a b s hmode hlegal hp hm h1 hdest k
  have hon : ∀ i, singleMask s c i = decide (i = k) := singleMask_oneHot hm h1 s
  have hrun := exec_add_elements (t := t) (a := a) (b := b) (ra := ra) (rb := rb) hmode hlegal hp
    (by simp [maskReadable, hm, h1]) hdest
  refine ⟨fun hk => ?_, fun hk ht ha hb => ?_⟩
  · have hoff : ∀ i, i < s.vl → singleMask s c i = false := fun i hi => (hon i).trans (decide_eq_false (by omega))
    rw [hrun fun i hi h => absurd (hoff i hi) (by simp [h]), overElements_of_none _ s hoff]
  · rw [hrun fun i _ h => ?_, overElements_of_only _ s hk hon]
    · rfl
    · obtain rfl : i = k := by simpa [hon] using h
      exact ⟨ht, ha, hb⟩

/-! ### An element that writes a later predicate field (R159, R285) -/

/-- A loop that stops, outside scalar identity, is the outcome of the instruction (R252). -/
theorem executeChecked_of_runLoop_error {p : Params} {q : Pair} {ops : List Operand} {s : State} {st : Stop} (h0 : s.vl ≠ 0)
    (hid : ¬(q.rm = 0#24 ∧ s.vl = 1)) (hops : resolveAll q.ins q.map q.rm = ops) (hadm : admissionStop p q ops s.vl = none)
    (hmask : masksStop q.map.cat q.rm s.vl = none)
    (hloop : runLoop p q ops s.vl (endsAfterFirst p ops s.vl) 0 (elementMask s q.map.cat q.rm s.vl) s = .error st) :
    executeChecked p q s = st.outcome := by
  rw [executeChecked, if_neg h0, if_neg hid]
  simp only [executeLoop, hops, hadm, hmask, hloop, firstStop_none, firstStop_nil]

/-- An instruction of three EXTRA3 operands, outside scalar identity, whose loop stops (R245, R252). -/
theorem exec_extra3_of_runLoop_error {op : ScalarOp} {d x y : Slot} {c : CommonRm} {rd ra rb : BitVec 3} {s : State} {st : Stop}
    (hv : op.valid = true) (hm : op.rmMap = some extra3Map) (hslots : op.slots = [d, x, y]) (hi : op.implicitRs = false)
    (hlegal : vlLegal s) (hp : plain c = true) (hread : maskReadable c.maskmode c.mask s.vl = true)
    (hid : ¬(packRm c (rd ++ ra ++ rb) = 0#24 ∧ s.vl = 1))
    (hadm : admissionStop machine (pairOf op extra3Map (packRm c (rd ++ ra ++ rb))) (extra3Operands d x y rd ra rb) s.vl = none)
    (hloop : runLoop machine (pairOf op extra3Map (packRm c (rd ++ ra ++ rb))) (extra3Operands d x y rd ra rb) s.vl false 0
      ((List.range s.vl).map (singleMask s c)) s = .error st) :
    exec (.rm1P2S1D c rd ra rb op.word) s = st.outcome := by
  have hval : valueStop (pairOf op extra3Map (packRm c (rd ++ ra ++ rb))) = none :=
    valueStop_plain (by simpa [pairOf, commonOf_packRm] using hp) hi
  refine (executePrefixed_word_of_suffixes rfl (fun _ _ => rfl) hv hm (.inr rfl) (reservedCause_extra3 hp _) hval).trans ?_
  rw [if_neg (show ¬machine.vlMax < s.vl from Nat.not_lt.mpr hlegal.2)]
  refine executeChecked_of_runLoop_error (Nat.one_le_iff_ne_zero.mp hlegal.1) hid (resolveAll_extra3 hslots c rd ra rb) hadm
    (masksStop_extra3 hread _) ?_
  exact (congrArg (runLoop _ _ _ _ false 0 · s) (elementMask_extra3 s c _)).trans hloop

/-- Under CR predication `RM` is not 0 (R241). -/
theorem packRm_ne_zero_of_maskmode {c : CommonRm} (h : c.maskmode = 1#1) (e : BitVec 9) : packRm c e ≠ 0#24 := fun h0 => by
  have hc : c = commonOf 0#24 := (commonOf_packRm c e).symm.trans (congrArg commonOf h0)
  rw [hc] at h
  exact absurd h (by decide)

/-- Under CR predication an element with a written CR operand past its own predicate field, up to the last one, overwrites a later
one (R159). -/
theorem overwritesPredicate_of_operand {ops : List Operand} {o : Operand} {i vl : Nat} (ho : o ∈ ops)
    (hw : o.slot.writes = true) (hk : o.slot.kind = .crField ∨ o.slot.kind = .crBit) (hlo : 32 + i < o.number i)
    (hhi : o.number i < 32 + vl) (r : ScalarResult) : overwritesPredicate 1#1 ops i vl r = true := by
  have hmem : o.number i ∈ elementCrFields ops i r :=
    List.mem_append_left _ (List.mem_map_of_mem (List.mem_filter.mpr ⟨ho, by simpa [hw] using hk⟩))
  simp only [overwritesPredicate, beq_self_eq_true, Bool.true_and, List.any_eq_true, Bool.and_eq_true, decide_eq_true_eq]
  exact ⟨_, hmem, hlo, hhi⟩

/-- Such an element faults with the state it found, whatever its scalar execution answers (R285, D19). -/
theorem runElement_overwrites {p : Params} {q : Pair} {ops : List Operand} {vl i : Nat} (s : State)
    (hoff : runsOffEnd ops i = false)
    (hover : ∀ r, overwritesPredicate (commonOf q.rm).maskmode ops i vl r = true) :
    runElement p q ops vl i s = .error (.fault (.undefinedCRPredicateOverwrite i s)) := by
  simp [runElement, hoff, hover]

/-- The numbers of the operands fit (R223). -/
theorem runsOffEnd_eq_false {ops : List Operand} {i : Nat} (h : ∀ o ∈ ops, o.number i ≤ 127) : runsOffEnd ops i = false := by
  simpa [runsOffEnd] using h

section SvCmp

variable {c : CommonRm} {rd ra rb bf : BitVec 3} {a b : BitVec 5} {s : State}

/-- The pair of `sv.cmp` on doublewords. -/
def cmpPair (c : CommonRm) (rd ra rb bf : BitVec 3) (a b : BitVec 5) : Pair :=
  pairOf (.cmp bf true a b) extra3Map (packRm c (rd ++ ra ++ rb))

/-- The operands of `sv.cmp`. -/
def cmpOperands (rd ra rb bf : BitVec 3) (a b : BitVec 5) : List Operand :=
  extra3Operands (dstSlot .crField (bf.zeroExtend 5)) (srcSlot .gpr a) (srcSlot .gpr b) rd ra rb

/-- The CR field that an element of `sv.cmp` computes. -/
def cmpField (ra rb : BitVec 3) (a b : BitVec 5) (i : Nat) (u : State) : BitVec 4 :=
  crOfCompare u (readGpr u (reg (regNo a (.extra3 ra) i))).toInt (readGpr u (reg (regNo b (.extra3 rb) i))).toInt

/-- The one element of `sv.cmp` (R216, R222). -/
def cmpElement (rd ra rb bf : BitVec 3) (a b : BitVec 5) (i : Nat) (u : State) : State :=
  writeCr u (reg (crNo bf (.extra3 rd) i)) (cmpField ra rb a b i u)

/-- The compare field stands in the low three bits of its slot. -/
theorem extractLsb'_zeroExtend_compareField (bf : BitVec 3) : (bf.zeroExtend 5).extractLsb' 0 3 = bf := by
  revert bf; decide

theorem cmpOperands_register (i : Nat) : (cmpOperands rd ra rb bf a b).map (fun o => o.register i) =
    [crNo bf (.extra3 rd) i, regNo a (.extra3 ra) i, regNo b (.extra3 rb) i] := by
  simp only [cmpOperands, extra3Operands, List.map_cons, List.map_nil, resolve_crField_register, resolve_gpr_register, srcSlot,
    dstSlot, extractLsb'_zeroExtend_compareField]

theorem runsOffEnd_cmpOperands {i : Nat}
    (h : crNo bf (.extra3 rd) i ≤ 127 ∧ regNo a (.extra3 ra) i ≤ 127 ∧ regNo b (.extra3 rb) i ≤ 127) :
    runsOffEnd (cmpOperands rd ra rb bf a b) i = false :=
  runsOffEnd_eq_false (by
    simpa [cmpOperands, extra3Operands, resolve_crField_number, resolve_gpr_number, srcSlot, dstSlot,
      extractLsb'_zeroExtend_compareField] using h)

theorem run_cmp {u : State} (hmode : u.mode = .bits64) (i : Nat) :
    machine.run (cmpPair c rd ra rb bf a b).ins ((cmpOperands rd ra rb bf a b).map fun o => o.register i) u =
      .done [.crField (reg (crNo bf (.extra3 rd) i)) (cmpField ra rb a b i u)] none := by
  rw [cmpOperands_register]
  exact exec1_word rfl _ hmode

/-- An element that leaves the later predicate fields alone completes (R245). -/
theorem runElement_cmp {vl i : Nat} {u : State} (hmode : u.mode = .bits64)
    (hfit : crNo bf (.extra3 rd) i ≤ 127 ∧ regNo a (.extra3 ra) i ≤ 127 ∧ regNo b (.extra3 rb) i ≤ 127)
    (hclear : crNo bf (.extra3 rd) i ≤ 32 + i ∨ 32 + vl ≤ crNo bf (.extra3 rd) i) :
    runElement machine (cmpPair c rd ra rb bf a b) (cmpOperands rd ra rb bf a b) vl i u =
      .ok (cmpElement rd ra rb bf a b i u) := by
  refine runElement_done (runsOffEnd_cmpOperands hfit) (run_cmp hmode i)
    (overwritesPredicate_field (n := crNo bf (.extra3 rd) i) ?_ fun _ => hclear)
  simp [elementCrFields, cmpOperands, extra3Operands, resolve_slot, resolve_crField_number, srcSlot, dstSlot,
    extractLsb'_zeroExtend_compareField, Write.crField?, reg_val hfit.1]

/-- An element that writes a later predicate field faults (R159, R285). -/
theorem runElement_cmp_overwrites {vl i : Nat} (u : State) (hmm : c.maskmode = 1#1)
    (hfit : crNo bf (.extra3 rd) i ≤ 127 ∧ regNo a (.extra3 ra) i ≤ 127 ∧ regNo b (.extra3 rb) i ≤ 127)
    (hlo : 32 + i < crNo bf (.extra3 rd) i) (hhi : crNo bf (.extra3 rd) i < 32 + vl) :
    runElement machine (cmpPair c rd ra rb bf a b) (cmpOperands rd ra rb bf a b) vl i u =
      .error (.fault (.undefinedCRPredicateOverwrite i u)) := by
  have hnum : (resolve (dstSlot .crField (bf.zeroExtend 5)) (.extra3 rd)).number i = crNo bf (.extra3 rd) i := by
    simp [resolve_crField_number, dstSlot, extractLsb'_zeroExtend_compareField]
  refine runElement_overwrites u (runsOffEnd_cmpOperands hfit) fun r => ?_
  rw [cmpPair, pairOf, commonOf_packRm, hmm]
  exact overwritesPredicate_of_operand List.mem_cons_self (by simp [resolve_slot, dstSlot]) (by simp [resolve_slot, dstSlot])
    (hnum ▸ hlo) (hnum ▸ hhi) r

end SvCmp

/-- Settles O58: the elements before `k` leave the later predicate fields alone and complete; element `k` has a written CR operand
among them, so that the loop stops with the state it found. -/
theorem overwritingALaterPredicateIsAFault : Obligations.OverwritingALaterPredicateIsAFault := by
  intro c rd ra rb bf a b s k hmode hlegal hp hmm hvl hdest hk hon hlo hhi hfit hclear
  have hread : maskReadable c.maskmode c.mask s.vl = true := by simp [maskReadable, hmm, hvl]
  have hloop : runLoop machine (cmpPair c rd ra rb bf a b) (cmpOperands rd ra rb bf a b) s.vl false 0
      ((List.range s.vl).map (singleMask s c)) s =
        .error (.fault (.undefinedCRPredicateOverwrite k (overElements k (singleMask s c) (cmpElement rd ra rb bf a b) s))) :=
    runLoop_stops (fun u => u.mode = .bits64) machine _ _ _ _ k _ (cmpElement rd ra rb bf a b) s _ hmode (fun _ _ hu => hu) hk
      (fun i u hi hoi hu => runElement_cmp hu (hfit i hi.le hoi) (hclear i hi hoi)) hon
      (runElement_cmp_overwrites _ hmm (hfit k le_rfl hon) hlo hhi)
  exact exec_extra3_of_runLoop_error (op := .cmp bf true a b) rfl rfl rfl rfl hlegal hp hread
    (fun h => packRm_ne_zero_of_maskmode hmm _ h.1) (admissionStop_extra3 (.inl rfl) rfl rfl rfl rfl hdest) hloop

end Machine
end Sys2Proof
end

section
/-! The statements of family 43_extra_formats: the results of the instructions of each EXTRA layout, element by element, the loads and
stores with one element, and EXTRA2_MODE. -/

namespace Sys2Proof
namespace Machine

/-! ### The mask of the element loop (R121, R157) -/

/-- The mask of a category can be read and is `on`; twin predication, where the category has it, is admitted (R154, R156, R248). -/
structure MasksAre (cat : Category) (rm : Rm) (s : State) (on : Nat → Bool) : Prop where
  readable : masksStop cat rm s.vl = none
  latched : elementMask s cat rm s.vl = (List.range s.vl).map on
  admitted : cat.isTwin = false ∨ twinAdmitted (commonOf rm) (maskSrcOf rm) s.vl = true

theorem masksAre_single {cat : Category} (hcat : cat.isTwin = false) {c : CommonRm} {s : State}
    (hread : maskReadable c.maskmode c.mask s.vl = true) (e : BitVec 9) : MasksAre cat (packRm c e) s (singleMask s c) where
  readable := masksStop_single hcat (by rwa [commonOf_packRm])
  latched := by rw [elementMask_single hcat, commonOf_packRm]; rfl
  admitted := .inl hcat

theorem masksAre_twin {cat : Category} (hcat : cat.isTwin = true) {c : CommonRm} {m : BitVec 3} {s : State}
    (hadm : twinAdmitted c m s.vl = true) {e : BitVec 9} (hsrc : maskSrcOf (packRm c e) = m) :
    MasksAre cat (packRm c e) s (twinMask s c m) where
  readable := masksStop_twin (by rwa [commonOf_packRm, hsrc])
  latched := by rw [elementMask_twin hcat, commonOf_packRm, hsrc]; rfl
  admitted := .inr (by rwa [commonOf_packRm, hsrc])

theorem masksAre_single_one {cat : Category} (hcat : cat.isTwin = false) {s : State} (hvl : s.vl = 1) (c : CommonRm) (e : BitVec 9) :
    MasksAre cat (packRm c e) s (singleMask s c) :=
  masksAre_single hcat (hvl ▸ maskReadable_one _ _) e

theorem masksAre_twin_one {cat : Category} (hcat : cat.isTwin = true) {s : State} (hvl : s.vl = 1) {c : CommonRm} {m : BitVec 3}
    {e : BitVec 9} (hsrc : maskSrcOf (packRm c e) = m) : MasksAre cat (packRm c e) s (twinMask s c m) :=
  masksAre_twin hcat (hvl ▸ twinAdmitted_one c m) hsrc

/-- With one element the mask is that element's. -/
theorem MasksAre.one {cat : Category} {rm : Rm} {s : State} {on : Nat → Bool} (h : MasksAre cat rm s on) (hvl : s.vl = 1) :
    elementMask s cat rm 1 = [on 0] := by
  rw [← hvl, h.latched, hvl]; rfl

/-- Where twin predication is admitted no element writes the predicate of a later one: there is none, or no predicate is a CR field
(R159, R248). -/
theorem overwritesPredicate_of_twinAdmitted {c : CommonRm} {m : BitVec 3} {ops : List Operand} {i vl : Nat}
    (h : twinAdmitted c m vl = true) (hi : i < vl) (r : ScalarResult) : overwritesPredicate c.maskmode ops i vl r = false := by
  simp only [twinAdmitted, always, Bool.or_eq_true, Bool.and_eq_true, decide_eq_true_eq, beq_iff_eq] at h
  rcases h with rfl | ⟨⟨hmm, -⟩, -⟩
  · obtain rfl : i = 0 := by omega
    exact overwritesPredicate_one _ _ _
  · simp [overwritesPredicate, hmm]

/-! ### The registers of an operand (R191, R222) -/

section Registers

variable (f : BitVec 5) (sub : SubValue) (i : Nat)

theorem register_gpr_src : (resolve (srcSlot .gpr f) sub).register i = regNo f sub i := resolve_gpr_register rfl sub i

theorem register_gpr_dst : (resolve (dstSlot .gpr f) sub).register i = regNo f sub i := resolve_gpr_register rfl sub i

/-- RA of an indexed load with update (R188). -/
theorem register_gpr_both : (resolve ⟨.gpr, f, true, true⟩ sub).register i = regNo f sub i := resolve_gpr_register rfl sub i

/-- A compare field (R216). -/
theorem register_crField_src (f : BitVec 3) :
    (resolve (srcSlot .crField (f.zeroExtend 5)) sub).register i = crNo f sub i := by
  rw [resolve_crField_register rfl, srcSlot, extractLsb'_zeroExtend_compareField]

theorem register_crField_dst (f : BitVec 3) :
    (resolve (dstSlot .crField (f.zeroExtend 5)) sub).register i = crNo f sub i := by
  rw [resolve_crField_register rfl, dstSlot, extractLsb'_zeroExtend_compareField]

/-- A CR bit: its extended field's number and its own bit's (R219). -/
theorem register_crBit_src : (resolve (srcSlot .crBit f) sub).register i =
    crNo (f.extractLsb' 2 3) sub i * 4 + (f.extractLsb' 0 2).toNat := resolve_crBit_register rfl sub i

theorem register_store_src (k : StoreKind) : (resolve (srcSlot k.file f) sub).register i = regNo f sub i :=
  resolve_file_register (storeKind_file k) sub i

theorem register_load_dst (k : LoadKind) : (resolve (dstSlot k.file f) sub).register i = regNo f sub i :=
  resolve_file_register (loadKind_file k) sub i

end Registers

/-! ### Instructions that make one write for each element (R245) -/

/-- What the loop admits for any VL names no SPR (R244 line 4). -/
theorem spr_of_cls {op : ScalarOp} (h : op.cls = .arith ∨ op.cls = .crop) : op.spr = none := by
  cases op with
  | mtspr => rcases h with h | h <;> cases h
  | mfspr => rcases h with h | h <;> cases h
  | _ => rfl

section Elements

variable {op : ScalarOp} {m : RmMap} {c : CommonRm} {e : BitVec 9} {s : State} {on : Nat → Bool} {d : Slot} {x : SubValue}
  {srcs : List Operand} (hv : op.valid = true) (hm : op.rmMap = some m) (hcls : op.cls = .arith ∨ op.cls = .crop)
  (hrc : op.rc = false) (hi : op.implicitRs = false) (hsub : ((layout m.cat).all fun e => m.subs.contains e.1) = true)
  (hmode : s.mode = .bits64) (hlegal : vlLegal s) (hp : plain c = true)
  (he : m.cat ≠ .rm1P3S1D ∨ extra2ModeOf (packRm c e) = 0#1) (h0 : ra0Stop (pairOf op m (packRm c e)) = none)
  (hmasks : MasksAre m.cat (packRm c e) s on) (hops : resolveAll (op.suffix op.word) m (packRm c e) = resolve d x :: srcs)
  (hsrcs : ∀ o ∈ srcs, o.slot.writes = false) (hdest : x.isVector = true ∨ s.vl = 1)
  (hfit : ∀ i, i < s.vl → on i = true → ∀ o ∈ resolve d x :: srcs, o.number i ≤ 127)

include hv hm hcls hrc hi hsub hmode hlegal hp he h0 hmasks hops hsrcs hdest hfit

/-- The result of an instruction with one destination whose every element makes the one write `w` (R245, R249). -/
theorem executePrefixed_elements {w : Nat → State → Write}
    (hexec : ∀ i u, execOp true op (op.suffix op.word) ((resolve d x :: srcs).map fun o => o.register i) u = .done [w i u] none)
    (hw : ∀ i u, ((w i u).apply u).mode = u.mode)
    (hover : ∀ i u, i < s.vl → overwritesPredicate c.maskmode (resolve d x :: srcs) i s.vl (.done [w i u] none) = false)
    (hreach : packRm c e = 0#24 → (w 0 s).inScalarReach = true) :
    executePrefixed machine (some m.cat) (packRm c e) op.word s =
      .next (setCia (overElements s.vl on (fun i u => (w i u).apply u) s) (s.cia + 8#64)) := by
  have hplain : plain (commonOf (packRm c e)) = true := by rwa [commonOf_packRm]
  have hvec : hasScalarDest (resolve d x :: srcs) = false ∨ s.vl = 1 := hdest.imp_left fun hx => by
    simpa [hasScalarDest, resolve_vector, hx] using fun o ho hwr => absurd (hwr.symm.trans (hsrcs o ho)) nofun
  exact executePrefixed_writes hv hm (.inr rfl) hmode hlegal (reservedCause_plain hplain hsub (he.imp_right .inr)) hplain hi
    (spr_of_cls hcls) _ hops (admissionStop_none (hcls.imp_right .inl) hrc hvec hmasks.admitted h0) hmasks.readable on
    hmasks.latched (fun i u => [w i u]) hexec hw hfit (fun i u hlt _ => (commonOf_packRm c e).symm ▸ hover i u hlt)
    fun hz => by simp [scalarReach, hreach hz]

/-- The result of one that writes a GPR. -/
theorem executePrefixed_gpr {t : BitVec 5} (hd : d = dstSlot .gpr t) {value : Nat → State → DWord}
    (hexec : ∀ i u, execOp true op (op.suffix op.word) ((resolve d x :: srcs).map fun o => o.register i) u =
      .done [.gpr (reg (regNo t x i)) (value i u)] none)
    (hzero : packRm c e = 0#24 → x.isZero = true) :
    executePrefixed machine (some m.cat) (packRm c e) op.word s =
      .next (setCia (overElements s.vl on (fun i u => writeGpr u (reg (regNo t x i)) (value i u)) s) (s.cia + 8#64)) := by
  have hcr : ((resolve d x :: srcs).any fun o => o.slot.writes && (o.slot.kind == .crField || o.slot.kind == .crBit)) = false := by
    rw [List.any_cons, List.any_eq_false.mpr fun o ho => by simp [hsrcs o ho], resolve_slot, hd]; rfl
  exact executePrefixed_elements hv hm hcls hrc hi hsub hmode hlegal hp he h0 hmasks hops hsrcs hdest hfit hexec (fun _ _ => rfl)
    (fun _ _ _ => overwritesPredicate_none hcr rfl) fun hz => decide_eq_true (reg_zero_reach t (hzero hz))

end Elements

/-! ### `sv.add` and `sv.rlwimi` (R183, R184) -/

/-- Settles O1: the split pair runs its enabled elements, and the unsplit one runs as the split one. -/
theorem svAddRunsItsEnabledElements : Obligations.SvAddRunsItsEnabledElements := by
  intro c rd ra rb t a b s hmode hlegal hp hread hdest hfit
  have hrun := exec_add_elements (t := t) (a := a) (b := b) hmode hlegal hp hread hdest hfit
  have hwf : (Instr.rm1P2S1D c rd ra rb (ScalarOp.add t a b false).word).wf = true :=
    beq_iff_eq.mpr (categoryOf_word (.add t a b false) rfl)
  simp only [List.forall_mem_cons]
  exact ⟨hrun, (aSplitPairRunsAsItsWords _ _ _ s hwf rfl rfl).symm.trans hrun, nofun⟩

/-- Settles O2: RA is two operands, the first slot under Rdest and the third under Rsrc2. -/
theorem svRlwimiExtendsRaTwice : Obligations.SvRlwimiExtendsRaTwice := by
  intro c rd r1 r2 a t sh mb me s hmode hlegal hp hread hdest hfit
  refine executePrefixed_gpr (op := .rlwimi a t sh mb me false) (m := extra3Map) rfl rfl (.inl rfl) rfl rfl rfl hmode hlegal hp
    (.inl nofun) rfl (masksAre_single rfl hread _) (resolveAll_extra3 rfl c rd r1 r2) (by simp [resolve_slot, srcSlot]) hdest
    (fun i hlt hon => ?_) rfl (fun i u => ?_) fun hz => ?_
  · simpa [resolve_gpr_number, srcSlot, dstSlot] using hfit i hlt hon
  · simp only [List.map_cons, List.map_nil, register_gpr_src, register_gpr_dst]; rfl
  · rw [(extra3_zero hz).1]; rfl

/-! ### `sv.maddld` and `sv.isel` (R181, R217) -/

/-- The mapping of an instruction of one destination and three sources (R181, R195). -/
def extra2Map : RmMap := ⟨.rm1P3S1D, [.rdest, .rsrc1, .rsrc2, .rsrc3]⟩

/-- A CR bit of a number made of a field and a bit in it (R219). -/
theorem crBitAt_of_getD {regs : List Nat} {k n : Nat} {b : BitVec 2} (h : regs.getD k 0 = n * 4 + b.toNat) (u : State) :
    crBitAt u regs k = crFieldBit (readCr u (reg n)) b.toFin := by
  have hb := b.isLt
  have hfield : crBitField regs k = reg n := by rw [crBitField, h, reg]; congr 1; omega
  have hbit : crBitPart regs k = b.toFin := by
    refine Fin.ext ?_
    simp only [crBitPart, h, Fin.ofNat, BitVec.val_toFin]
    omega
  rw [crBitAt, hfield, hbit]

/-- Settles O5: each is an instruction that writes one GPR; the number of the CR bit is its extended field's and its own bit's. -/
theorem svMaddldAndIselRunTheirEnabledElements : Obligations.SvMaddldAndIselRunTheirEnabledElements := by
  intro c rd r1 r2 r3 t a b d s hmode hlegal hp hread hdest hfit
  obtain ⟨-, hr1, -, -, hbit⟩ := extra2Mode_packRm c rd r1 r2 r3 0#1
  have hzero : packRm c (rd ++ r1 ++ r2 ++ r3 ++ 0#1) = 0#24 → (SubValue.extra2 rd).isZero = true := fun hz => by
    rw [(extra2Mode_zero hz).1]; rfl
  have hmasks := masksAre_single (cat := extra2Map.cat) rfl hread (rd ++ r1 ++ r2 ++ r3 ++ 0#1)
  refine ⟨fun hd => ?_, fun ha0 hd => ?_⟩
  · refine executePrefixed_gpr (op := .maddld t a b d) (m := extra2Map) rfl rfl (.inl rfl) rfl rfl rfl hmode hlegal hp (.inr hbit)
      rfl hmasks (resolveAll_rm1P3S1D rfl c rd r1 r2 r3 0#1) (by simp [resolve_slot, srcSlot]) hdest (fun i hlt hon => ?_) rfl
      (fun i u => ?_) hzero
    · obtain ⟨ht, ha, hb⟩ := hfit i hlt hon
      simpa [resolve_gpr_number, srcSlot, dstSlot] using ⟨ht, ha, hb, hd i hlt hon⟩
    · simp only [List.map_cons, List.map_nil, register_gpr_src, register_gpr_dst]; rfl
  · refine executePrefixed_gpr (op := .isel t a b d) (m := extra2Map) rfl rfl (.inl rfl) rfl rfl rfl hmode hlegal hp (.inr hbit)
      (ra0Stop_none rfl rfl (congrArg SubValue.extra2 hr1) (ha0.imp_right beq_iff_eq.mpr)) hmasks
      (resolveAll_rm1P3S1D rfl c rd r1 r2 r3 0#1) (by simp [resolve_slot, srcSlot]) hdest (fun i hlt hon => ?_) rfl
      (fun i u => ?_) hzero
    · obtain ⟨ht, ha, hb⟩ := hfit i hlt hon
      simpa [resolve_gpr_number, resolve_crBit_number, srcSlot, dstSlot] using ⟨ht, ha, hb, hd i hlt hon⟩
    · simp only [List.map_cons, List.map_nil, register_gpr_src, register_gpr_dst, register_crBit_src, execOp]
      rw [crBitAt_of_getD rfl]; rfl

/-! ### `sv.extsb` and `sv.mcrf` (R185, R216) -/

/-- Settles O6: both run under the twin mask; an element of `mcrf` writes one CR field, of no later predicate. -/
theorem svExtsbAndMcrfRunUnderBothMasks : Obligations.SvExtsbAndMcrfRunUnderBothMasks := by
  intro c rd r1 m a t bf bfa s hmode hlegal hp hadm hdest
  have hmasks := masksAre_twin (cat := .rm2P1S1D) rfl hadm (maskSrcOf_extra3 c rd r1 m)
  have hzero : packRm c (rd ++ r1 ++ m) = 0#24 → (SubValue.extra3 rd).isZero = true := fun hz => by rw [(extra3_zero hz).1]; rfl
  refine ⟨fun hfit => ?_, fun hfit => ?_⟩
  · refine executePrefixed_gpr (op := .extsb a t false) (m := ⟨.rm2P1S1D, [.rdest, .rsrc1]⟩) rfl rfl (.inl rfl) rfl rfl rfl hmode
      hlegal hp (.inl nofun) rfl hmasks (resolveAll_rm2P1S1D rfl c rd r1 m) (by simp [resolve_slot, srcSlot]) hdest
      (fun i hlt hon => ?_) rfl (fun i u => ?_) hzero
    · simpa [resolve_gpr_number, srcSlot, dstSlot] using hfit i hlt hon
    · simp only [List.map_cons, List.map_nil, register_gpr_src, register_gpr_dst]; rfl
  · refine executePrefixed_elements (op := .mcrf bf bfa) (m := ⟨.rm2P1S1D, [.rdest, .rsrc1]⟩) rfl rfl (.inr rfl) rfl rfl rfl hmode
      hlegal hp (.inl nofun) rfl hmasks (resolveAll_rm2P1S1D rfl c rd r1 m) (by simp [resolve_slot, srcSlot]) hdest
      (fun i hlt hon => ?_) (w := fun i u => .crField (reg (crNo bf (.extra3 rd) i)) (readCr u (reg (crNo bfa (.extra3 r1) i))))
      (fun i u => ?_) (fun _ _ => rfl) (fun i u hlt => overwritesPredicate_of_twinAdmitted hadm hlt _)
      fun hz => decide_eq_true (cr_zero_reach bf (hzero hz))
    · simpa [resolve_crField_number, srcSlot, dstSlot, extractLsb'_zeroExtend_compareField] using hfit i hlt hon
    · simp only [List.map_cons, List.map_nil, register_crField_src, register_crField_dst]; rfl

/-! ### Loads and stores with one element (R186 to R190) -/

section OneAccess

variable {op : ScalarOp} {m : RmMap} {c : CommonRm} {e : BitVec 9} {s : State} {on : Nat → Bool} {ops : List Operand}
  (hv : op.valid = true) (hm : op.rmMap = some m) (hc : op.cls = .ldst)
  (hsub : ((layout m.cat).all fun e => m.subs.contains e.1) = true) (hmode : s.mode = .bits64) (hvl : s.vl = 1) (hp : plain c = true)
  (he : m.cat ≠ .rm1P3S1D ∨ extra2ModeOf (packRm c e) = 0#1) (h0 : ra0Stop (pairOf op m (packRm c e)) = none)
  (hmasks : MasksAre m.cat (packRm c e) s on) (hops : resolveAll (op.suffix op.word) m (packRm c e) = ops)

include hv hm hc hsub hmode hvl hp he h0 hmasks hops

/-- A store with VL = 1: what its writes leave where its element is enabled, else nothing (R246). -/
theorem executePrefixed_store {ws : List Write} {after : State}
    (hexec : execOp true op (op.suffix op.word) (ops.map fun o => o.register 0) s = .done ws none)
    (hreach : packRm c e = 0#24 → scalarReach ws = ws) (hafter : applyWrites s ws = after) :
    executePrefixed machine (some m.cat) (packRm c e) op.word s =
      .next (setCia (if on 0 then after else s) (s.cia + 8#64)) := by
  rw [executePrefixed_ldst hv hm hmode hvl (by rwa [commonOf_packRm]) hc (on 0) (hmasks.one hvl) he hsub ops hops h0 _ hexec
    fun l target h => by cases h; exact ⟨rfl, hreach⟩, ← hafter]
  cases on 0 <;> rfl

/-- A load with VL = 1: its three outcomes (R246, R252). -/
theorem loadsOrTraps_of_execOp {k : LoadKind} {ea : DWord} {ws : DWord → List Write} {after : DWord → State}
    (hexec : execOp true op (op.suffix op.word) (ops.map fun o => o.register 0) s = loadFrom true s k ea ws)
    (hreach : packRm c e = 0#24 → ∀ v, scalarReach (ws v) = ws v) (hafter : ∀ v, applyWrites s (ws v) = after v) {i : Instr}
    (hrm : i.rm? = some (packRm c e)) (hw : i.secondWord? = some op.word) (hcat : i.category? = some m.cat) :
    loadsOrTraps i s (on 0) k ea after := by
  refine loadsOrTraps_of hafter ?_
  rw [exec_of_rm hrm hw, hcat]
  exact executePrefixed_ldst hv hm hmode hvl (by rwa [commonOf_packRm]) hc (on 0) (hmasks.one hvl) he hsub ops hops h0 _ hexec
    (loadFrom_reach hreach)

end OneAccess

/-- Settles O8: each store has one execution, of the registers its layout gives; with update RA is written under Rdest. -/
theorem svDisplacementStoresStoreTheirBytes : Obligations.SvDisplacementStoresStoreTheirBytes := by
  refine ⟨fun k c r1 r2 m t a d s hmode hvl hp hv ha0 => ?_, fun k c rd r1 r2 t a d s hmode hvl hp hv => ?_⟩
  · obtain ⟨-, hr2, -⟩ := extra3_packRm c r1 r2 m
    refine executePrefixed_store (op := .store k false t a d) (m := ⟨.rm2P2S, [.rsrc1, .rsrc2]⟩) hv rfl rfl rfl hmode hvl hp
      (.inl nofun) (ra0Stop_none rfl rfl (congrArg SubValue.extra3 hr2) (ha0.imp_right beq_iff_eq.mpr))
      (masksAre_twin_one rfl hvl (maskSrcOf_extra3 c r1 r2 m)) (resolveAll_rm2P2S rfl c r1 r2 m) ?_
      (fun _ => storeBytes_reach _ _) rfl
    simp only [List.map_cons, List.map_nil, register_gpr_src, register_store_src]
    rfl
  · refine executePrefixed_store (op := .store k true t a d) (m := extra3Map) hv rfl rfl rfl hmode hvl hp (.inl nofun) rfl
      (masksAre_single_one rfl hvl c _) (resolveAll_rm1P2S1D rfl c rd r1 r2) ?_ (fun hz => storeUpdate_reach ?_ _ _ _)
      (applyWrites_append s _ _)
    · simp only [List.map_cons, List.map_nil, register_gpr_src, register_gpr_dst, register_store_src]
      rfl
    · rw [(extra3_zero hz).1]; exact reg_zero_reach a rfl

/-- Settles O9: as the stores with a displacement, with a register more. -/
theorem svIndexedStoresStoreTheirBytes : Obligations.SvIndexedStoresStoreTheirBytes := by
  refine ⟨fun k c r1 r2 r3 m t a b s hmode hvl hp hv ha0 => ?_, fun k c rd r1 r2 r3 t a b s hmode hvl hp hv => ?_⟩
  · obtain ⟨-, hr2, -, -⟩ := extra2Mask_packRm c r1 r2 r3 m
    refine executePrefixed_store (op := .storeX k false t a b) (m := ⟨.rm2P3S, [.rsrc1, .rsrc2, .rsrc3]⟩) hv rfl rfl rfl hmode hvl
      hp (.inl nofun) (ra0Stop_none rfl rfl (congrArg SubValue.extra2 hr2) (ha0.imp_right beq_iff_eq.mpr))
      (masksAre_twin_one rfl hvl (maskSrcOf_extra2 c r1 r2 r3 m)) (resolveAll_rm2P3S rfl c r1 r2 r3 m) ?_
      (fun _ => storeBytes_reach _ _) rfl
    simp only [List.map_cons, List.map_nil, register_gpr_src, register_store_src]
    rfl
  · obtain ⟨-, -, -, -, hbit⟩ := extra2Mode_packRm c rd r1 r2 r3 0#1
    refine executePrefixed_store (op := .storeX k true t a b) (m := extra2Map) hv rfl rfl rfl hmode hvl hp (.inr hbit) rfl
      (masksAre_single_one rfl hvl c _) (resolveAll_rm1P3S1D rfl c rd r1 r2 r3 0#1) ?_ (fun hz => storeUpdate_reach ?_ _ _ _)
      (applyWrites_append s _ _)
    · simp only [List.map_cons, List.map_nil, register_gpr_src, register_gpr_dst, register_store_src]
      rfl
    · rw [(extra2Mode_zero hz).1]; exact reg_zero_reach a rfl

/-- Settles O10: each load has one execution, a load from the address its operands give. -/
theorem svLoadsLoadOrTrap : Obligations.SvLoadsLoadOrTrap := by
  refine ⟨fun k c rd r1 m t a d s hmode hvl hp hv ha0 => ?_, fun k c rd r1 r2 m t a b s hmode hvl hp hv ha0 => ?_⟩
  · obtain ⟨-, hr1, -⟩ := extra3_packRm c rd r1 m
    refine loadsOrTraps_of_execOp (op := .load k false t a d) (m := ⟨.rm2P1S1D, [.rdest, .rsrc1]⟩) hv rfl rfl rfl hmode hvl hp
      (.inl nofun) (ra0Stop_none rfl rfl (congrArg SubValue.extra3 hr1) (ha0.imp_right beq_iff_eq.mpr))
      (masksAre_twin_one rfl hvl (maskSrcOf_extra3 c rd r1 m)) (resolveAll_rm2P1S1D rfl c rd r1 m) ?_ (fun hz => write_reach ?_ k)
      (write_apply s k _) rfl rfl rfl
    · simp only [List.map_cons, List.map_nil, register_gpr_src, register_load_dst]
      rfl
    · rw [(extra3_zero hz).1]; exact reg_zero_reach t rfl
  · obtain ⟨-, hr1, -, -⟩ := extra2Mask_packRm c rd r1 r2 m
    refine loadsOrTraps_of_execOp (op := .loadX k false t a b) (m := ⟨.rm2P2S1D, [.rdest, .rsrc1, .rsrc2]⟩) hv rfl rfl rfl hmode
      hvl hp (.inl nofun) (ra0Stop_none rfl rfl (congrArg SubValue.extra2 hr1) (ha0.imp_right beq_iff_eq.mpr))
      (masksAre_twin_one rfl hvl (maskSrcOf_extra2 c rd r1 r2 m)) (resolveAll_rm2P2S1D rfl c rd r1 r2 m) ?_
      (fun hz => write_reach ?_ k) (write_apply s k _) rfl rfl rfl
    · simp only [List.map_cons, List.map_nil, register_gpr_src, register_load_dst]
      rfl
    · rw [(extra2Mask_zero hz).1]; exact reg_zero_reach t rfl

/-- Settles O11: RA is one operand under Rsrc1, read for the base and written with the address. -/
theorem svIndexedLoadsWithUpdateWriteTheBaseTheyRead : Obligations.SvIndexedLoadsWithUpdateWriteTheBaseTheyRead := by
  intro k c rd r1 r2 m t a b s hmode hvl hp hv ea
  refine loadsOrTraps_of_execOp (op := .loadX k true t a b) (m := ⟨.rm2P2S1D, [.rdest, .rsrc1, .rsrc2]⟩) hv rfl rfl rfl hmode hvl
    hp (.inl nofun) rfl (masksAre_twin_one rfl hvl (maskSrcOf_extra2 c rd r1 r2 m)) (resolveAll_rm2P2S1D rfl c rd r1 r2 m) ?_
    (fun hz v => updateWrites_reach ?_ ?_ k v ea) (fun v => applyWrites_updateWrites s k _ _ v ea) rfl rfl rfl
  · simp only [List.map_cons, List.map_nil, register_gpr_src, register_gpr_both, register_load_dst]
    rfl
  · rw [(extra2Mask_zero hz).1]; exact reg_zero_reach t rfl
  · rw [(extra2Mask_zero hz).2.1]; exact reg_zero_reach a rfl

/-- Settles O12: the first sub-field extends RA where it is read, the second RT, the third RA where it is written. -/
theorem svLoadsWithUpdateHaveTwoDestinations : Obligations.SvLoadsWithUpdateHaveTwoDestinations := by
  intro k c r1 d1 d2 m t a d s hmode hvl hp hv ea
  refine loadsOrTraps_of_execOp (op := .load k true t a d) (m := ⟨.rm2P1S2D, [.rdest, .rsrc1, .rdest2]⟩) hv rfl rfl rfl hmode hvl
    hp (.inl nofun) rfl (masksAre_twin_one rfl hvl (maskSrcOf_extra2 c r1 d1 d2 m)) (resolveAll_rm2P1S2D rfl c r1 d1 d2 m) ?_
    (fun hz v => updateWrites_reach ?_ ?_ k v ea) (fun v => applyWrites_updateWrites s k _ _ v ea) rfl rfl rfl
  · simp only [List.map_cons, List.map_nil, register_gpr_src, register_gpr_dst, register_load_dst]
    rfl
  · rw [(extra2Mask_zero hz).2.1]; exact reg_zero_reach t rfl
  · rw [(extra2Mask_zero hz).2.2]; exact reg_zero_reach a rfl

/-! ### EXTRA2_MODE (R182) -/

/-- A suffix with a mapping is identified, of the category the pair names (R108 steps 1 to 3). -/
theorem identify_of_mapping_some {p : Params} {w : Word32} {ins : Suffix} {map : RmMap} (rm : Rm) (s : State)
    (hw : primary w ≠ 1#6) (hd : p.suffixes.decode w = some ins) (hm : p.suffixes.mapping ins = some map) :
    identify p (some map.cat) rm w s = .ok ⟨prefixWord rm, w, rm, ins, map⟩ := by
  simp only [identify, if_neg hw, hd, hm, if_true]

/-- EXTRA2_MODE 1 is reserved for a suffix of RM-1P-3S1D without an implicit RS, after the width fields and the sub-fields (R273 (8)). -/
theorem reservedCause_of_extra2Mode {q : Pair} (hcat : q.map.cat = .rm1P3S1D) (hi : q.ins.implicitRs = false)
    (hbit : extra2ModeOf q.rm = 1#1) :
    reservedCause q = some ((firstCause (widthCauses q.ins (commonOf q.rm) ++ unusedSubCauses q.map q.rm)).getD .unusedExtra2Mode) := by
  have hcause : extra2ModeCause q.ins q.map q.rm = some .unusedExtra2Mode := by simp [extra2ModeCause, hcat, hi, hbit]
  rw [reservedCause, firstCause_append, firstCause_cons, hcause, Option.some_or, Option.or_some]

/-- An integer suffix that reads and writes registers has no reserved width. -/
theorem widthCauses_of_integer {ins : Suffix} (hfp : ∀ field, fpWidthApplies ins field = false) (hs : ins.single = false)
    (hwidth : ∀ field, hasWidth ins field = true) (c : CommonRm) : firstCause (widthCauses ins c) = none := by
  simp [widthCauses, reservedWidth, narrowWidth, unusedWidth_of_hasWidth (hwidth _), hfp, hs]

/-- `maddld` uses both widths and every sub-field, so that EXTRA2_MODE is its only reserved value. -/
theorem reservedCause_maddld (t a b d : BitVec 5) {rm : Rm} (hbit : extra2ModeOf rm = 1#1) :
    reservedCause (pairOf (.maddld t a b d) extra2Map rm) = some .unusedExtra2Mode := by
  have hwidth : firstCause (widthCauses ((ScalarOp.maddld t a b d).suffix (ScalarOp.maddld t a b d).word) (commonOf rm)) = none :=
    widthCauses_of_integer (by intro f; cases f <;> rfl) rfl (by intro f; cases f <;> rfl) _
  have hsub : firstCause (unusedSubCauses extra2Map rm) = none := rfl
  rw [reservedCause_of_extra2Mode rfl rfl hbit, pairOf, firstCause_append, hwidth, hsub]
  rfl

/-- `maddedu` and `divmod2du` have no reserved value, and the selection of RS comes before every other field value. -/
theorem exec_of_implicitRs {op : ScalarOp} (hi : op.implicitRs = true) (c : CommonRm) (rd r1 r2 r3 : BitVec 2) (y : BitVec 1)
    (s : State) : exec (.rm1P3S1D c rd r1 r2 r3 y op.word) s = .refused .rsSelectionNotSpecified := by
  obtain ⟨hv, hm, hres⟩ : op.valid = true ∧ op.rmMap = some extra2Map ∧ ∀ rm, reservedCause (pairOf op extra2Map rm) = none := by
    cases op with
    | maddedu => exact ⟨rfl, rfl, fun _ => reservedCause_none rfl rfl rfl rfl rfl (.inr (.inl rfl))⟩
    | divmod2du => exact ⟨rfl, rfl, fun _ => reservedCause_none rfl rfl rfl rfl rfl (.inr (.inl rfl))⟩
    | _ => cases hi
  refine exec_of_valueStop hv hm rfl rfl rfl s (hres _) (st := .refuse .rsSelectionNotSpecified) ?_
  simp [valueStop, pairOf, ScalarOp.suffix, hi]

/-- Settles O53: EXTRA2_MODE is the last of the reserved values, and the only one of `maddld`; an implicit RS has its own refusal. -/
theorem extra2ModeBelongsToTwoInstructions : Obligations.Extra2ModeBelongsToTwoInstructions := by
  intro c rd r1 r2 r3 y s
  obtain ⟨-, -, -, -, hbit⟩ := extra2Mode_packRm c rd r1 r2 r3 1#1
  refine ⟨fun w ins map hw hd hm hcat hi => ?_, fun t a b d => ?_, fun t a b d =>
    ⟨exec_of_implicitRs rfl c rd r1 r2 r3 y s, exec_of_implicitRs rfl c rd r1 r2 r3 y s⟩⟩
  · have hq := identify_of_mapping_some (p := machine) (packRm c (rd ++ r1 ++ r2 ++ r3 ++ 1#1)) s hw hd hm
    rw [hcat] at hq
    exact ⟨_, executePrefixed_of_illegalStop hq (.inr rfl)
      (illegalStop_of_reservedCause s (reservedCause_of_extra2Mode hcat hi hbit))⟩
  · exact exec_of_reservedCause (op := .maddld t a b d) (m := extra2Map) rfl rfl rfl rfl rfl s (reservedCause_maddld t a b d hbit)

end Machine
end Sys2Proof
end

section
/-! The statements of family 44_register_extension: the tables of extended numbers, the stepping of operands, the instructions that
write CR fields and CR bits, and the stop at a register past 127. -/

namespace Sys2Proof
namespace Machine

/-! ### Extended numbers as integers (R211 to R219) -/

/-- Concatenation of fields in integers. -/
theorem toNat_append_eq_add {m n : Nat} (x : BitVec m) (y : BitVec n) : (x ++ y).toNat = 2 ^ n * x.toNat + y.toNat := by
  rw [BitVec.toNat_append, ← Nat.shiftLeft_add_eq_or_of_lt y.isLt, Nat.shiftLeft_eq, Nat.mul_comm]

/-- `aug` is below the field of a vector and above that of a scalar (R211). -/
theorem extendReg_toNat (f : BitVec 5) (sub : SubValue) :
    (extendReg f sub).2.toNat = if sub.isVector then 4 * f.toNat + sub.aug.toNat else 32 * sub.aug.toNat + f.toNat := by
  unfold extendReg
  split <;> exact toNat_append_eq_add _ _

/-- A vector starts at a multiple of 4 CR fields (R219). -/
theorem extendCr_toNat (f : BitVec 3) (sub : SubValue) :
    (extendCr f sub).2.toNat = if sub.isVector then 16 * f.toNat + 4 * sub.aug.toNat else 8 * sub.aug.toNat + f.toNat := by
  unfold extendCr
  split <;> simp only [toNat_append_eq_add, BitVec.toNat_ofNat] <;> omega

/-! ### The element of an operand (R222) -/

section Stepping

variable {o : Operand} (i : Nat)

theorem Operand.number_scalar (h : o.vector = false) : o.number i = o.base := by simp [Operand.number, h]

theorem Operand.number_vector (h : o.vector = true) : o.number i = o.base + i := by simp [Operand.number, h]

/-- The first number is the base, whatever the tag. -/
theorem Operand.number_first (o : Operand) : o.number 0 = o.base := by simp [Operand.number]

theorem Operand.register_of_ne_crBit (h : o.slot.kind ≠ .crBit) : o.register i = o.number i := by
  unfold Operand.register
  split
  · rfl
  · rfl
  · rfl
  · next hk => exact absurd hk h

/-- A CR bit number is a field number and a bit below 4 (R219). -/
theorem Operand.register_of_crBit (h : o.slot.kind = .crBit) :
    o.register i = o.number i * 4 + (o.slot.field.extractLsb' 0 2).toNat := by
  simp only [Operand.register, h]

end Stepping

/-- Settles O36: the number of an operand steps with its tag; a register, or a CR bit above its bit part, is that number. -/
theorem vectorOperandsStepByOne : Obligations.VectorOperandsStepByOne := by
  intro slot v i
  have hslot : (resolve slot v).slot = slot := resolve_slot slot v
  refine ⟨fun hs => ?_, fun hv hk => ?_, fun hv hk => ?_⟩
  · by_cases hk : slot.kind = .crBit
    · simp only [Operand.register_of_crBit _ (hslot ▸ hk), Operand.number_scalar _ hs]
    · simp only [Operand.register_of_ne_crBit _ (hslot ▸ hk), Operand.number_scalar _ hs]
  · simp only [Operand.register_of_ne_crBit _ (hslot ▸ hk), Operand.number_vector _ hv, Nat.add_zero]
  · have hbit := (slot.field.extractLsb' 0 2).isLt
    simp only [Operand.register_of_crBit _ (hslot ▸ hk), Operand.number_vector _ hv, hslot]
    omega

/-! ### The tables (R212 to R218) -/

theorem regNo_first (f : BitVec 5) (sub : SubValue) :
    regNo f sub 0 = if sub.isVector then 4 * f.toNat + sub.aug.toNat else 32 * sub.aug.toNat + f.toNat := by
  rw [regNo, extendReg_toNat, ite_self, Nat.add_zero]

theorem crNo_first (f : BitVec 3) (sub : SubValue) :
    crNo f sub 0 = if sub.isVector then 16 * f.toNat + 4 * sub.aug.toNat else 8 * sub.aug.toNat + f.toNat := by
  rw [crNo, extendCr_toNat, ite_self, Nat.add_zero]

/-- Settles O33: the tag is the sub-field's and the number that of its first element; each row is its sub-field's. -/
theorem intAndFpNumbersFollowTheirTables : Obligations.IntAndFpNumbersFollowTheirTables := by
  intro f r w k hk
  have hrow : ∀ v, ((resolve ⟨k, f, r, w⟩ v).vector, (resolve ⟨k, f, r, w⟩ v).base) =
      (v.isVector, regNo f v 0) := fun v => by
    have hnum : (resolve ⟨k, f, r, w⟩ v).number 0 = regNo f v 0 := by
      rcases hk with rfl | rfl
      · exact resolve_gpr_number rfl v 0
      · exact resolve_fpr_number rfl v 0
    rw [resolve_vector, ← Operand.number_first, hnum]
  simp only [hrow, regNo_first]
  simp [SubValue.isVector, SubValue.aug]

/-- The tag and the CR field number of a row of the CR tables (R215 to R218). -/
def crRow (f : BitVec 3) (v : SubValue) : Bool × Nat := (v.isVector, crNo f v 0)

theorem map_crRow_extra3 (f : BitVec 3) :
    [0#3, 1#3, 2#3, 3#3, 4#3, 5#3, 6#3, 7#3].map (fun v => crRow f (.extra3 v)) =
      [(false, f.toNat), (false, 8 + f.toNat), (false, 16 + f.toNat), (false, 24 + f.toNat),
        (true, 16 * f.toNat), (true, 16 * f.toNat + 4), (true, 16 * f.toNat + 8), (true, 16 * f.toNat + 12)] := by
  simp [crRow, crNo_first, SubValue.isVector, SubValue.aug]

theorem map_crRow_extra2 (f : BitVec 3) :
    [0#2, 1#2, 2#2, 3#2].map (fun v => crRow f (.extra2 v)) =
      [(false, f.toNat), (false, 8 + f.toNat), (true, 16 * f.toNat), (true, 16 * f.toNat + 8)] := by
  simp [crRow, crNo_first, SubValue.isVector, SubValue.aug]

/-- A 3-bit operand is resolved to its row (R216, R218). -/
theorem resolve_crField_row (f : BitVec 3) (r w : Bool) (v : SubValue) :
    ((resolve ⟨.crField, f.zeroExtend 5, r, w⟩ v).vector, (resolve ⟨.crField, f.zeroExtend 5, r, w⟩ v).register 0) =
      crRow f v := by
  rw [resolve_vector, resolve_crField_register rfl, extractLsb'_zeroExtend_compareField, crRow]

/-- A 5-bit operand is resolved to the row of its field part, with its bit part below (R215, R217). -/
theorem resolve_crBit_row (f : BitVec 3) (b : BitVec 2) (r w : Bool) (v : SubValue) :
    ((resolve ⟨.crBit, f ++ b, r, w⟩ v).vector, (resolve ⟨.crBit, f ++ b, r, w⟩ v).register 0) =
      ((crRow f v).1, 4 * (crRow f v).2 + b.toNat) := by
  have hparts : ∀ (f : BitVec 3) (b : BitVec 2), (f ++ b).extractLsb' 2 3 = f ∧ (f ++ b).extractLsb' 0 2 = b := by decide
  rw [resolve_vector, resolve_crBit_register rfl, (hparts f b).1, (hparts f b).2, crRow, Nat.mul_comm]

/-- Settles O34: both kinds of operand follow the rows of their field number; the bit part of a 5-bit one is copied. -/
theorem crNumbersFollowTheirTables : Obligations.CrNumbersFollowTheirTables := by
  intro f b r w
  simp only [resolve_crBit_row, resolve_crField_row]
  refine ⟨?_, map_crRow_extra3 f, ?_, map_crRow_extra2 f⟩
  · rw [← map_crRow_extra3 f, List.map_map]; rfl
  · rw [← map_crRow_extra2 f, List.map_map]; rfl

/-! ### Instructions of three EXTRA3 operands that write CR (R159, R183) -/

/-- A write of CR leaves the mode alone. -/
theorem Write.mode_apply_of_crField {w : Write} {n : RegNum} (h : w.crField? = some n) (s : State) : (w.apply s).mode = s.mode := by
  cases w with
  | crField => rfl
  | crBit => rfl
  | _ => cases h

/-- A write of CR0 to CR7 is within the reach of an unprefixed instruction (R25). -/
theorem Write.inScalarReach_of_crField {w : Write} {n : RegNum} (h : w.crField? = some n) (hn : n.val < 8) :
    w.inScalarReach = true := by
  cases w with
  | crField => cases h; exact decide_eq_true hn
  | crBit => cases h; exact decide_eq_true hn
  | _ => cases h

/-- Of two sources and a destination only the destination is written. -/
theorem eq_destination_of_writes {d x y : Slot} {rd ra rb : BitVec 3} {o : Operand} (hx : x.writes = false) (hy : y.writes = false)
    (ho : o ∈ extra3Operands d x y rd ra rb) (hw : o.slot.writes = true) : o = resolve d (.extra3 rd) := by
  simp only [extra3Operands, List.mem_cons, List.not_mem_nil, or_false] at ho
  rcases ho with rfl | rfl | rfl
  · rfl
  · rw [resolve_slot, hx] at hw; cases hw
  · rw [resolve_slot, hy] at hw; cases hw

section CrDestination

variable {op : ScalarOp} {d x y : Slot} {c : CommonRm} {rd ra rb f : BitVec 3} {s : State}

/-- An element that writes the CR field of its destination, or one bit of it, and of no later predicate (R159). -/
theorem overwritesPredicate_crDestination {mm : BitVec 1} {i vl : Nat} {w : Write} {target : Option DWord}
    (hx : x.writes = false) (hy : y.writes = false) (hd : (resolve d (.extra3 rd)).number i = crNo f (.extra3 rd) i)
    (hw : w.crField? = some (reg (crNo f (.extra3 rd) i))) (hfit : crNo f (.extra3 rd) i ≤ 127)
    (hclear : mm = 1#1 → crNo f (.extra3 rd) i ≤ 32 + i ∨ 32 + vl ≤ crNo f (.extra3 rd) i) :
    overwritesPredicate mm (extra3Operands d x y rd ra rb) i vl (.done [w] target) = false := by
  refine overwritesPredicate_field (n := crNo f (.extra3 rd) i) (fun k hk => ?_) hclear
  rcases List.mem_append.mp hk with hk | hk
  · obtain ⟨o, ho, rfl⟩ := List.mem_map.mp hk
    obtain ⟨hmem, hwr⟩ := List.mem_filter.mp ho
    rw [eq_destination_of_writes hx hy hmem (Bool.and_eq_true_iff.mp hwr).1, hd]
  · simpa [hw, reg_val hfit] using hk

/-- The enabled elements in order of an instruction each of whose elements makes one write, to the CR field of its destination or one
bit of it; no enabled element writes the predicate field of a later one (R159, R245, R249). -/
theorem exec_extra3_crDestination (hv : op.valid = true) (hm : op.rmMap = some extra3Map) (hslots : op.slots = [d, x, y])
    (hcls : op.cls = .arith ∨ op.cls = .crop) (hrc : op.rc = false) (hi : op.implicitRs = false) (hra0 : op.ra0 = none)
    (hx : x.writes = false) (hy : y.writes = false) (hd : ∀ i, (resolve d (.extra3 rd)).number i = crNo f (.extra3 rd) i)
    (hmode : s.mode = .bits64) (hlegal : vlLegal s) (hp : plain c = true) (hread : maskReadable c.maskmode c.mask s.vl = true)
    (hdest : (SubValue.extra3 rd).isVector = true ∨ s.vl = 1) {w : Nat → State → Write}
    (hexec : ∀ i u, execOp true op (op.suffix op.word) ((extra3Operands d x y rd ra rb).map fun o => o.register i) u =
      .done [w i u] none)
    (hw : ∀ i u, (w i u).crField? = some (reg (crNo f (.extra3 rd) i)))
    (hfit : ∀ i, i < s.vl → singleMask s c i = true → ∀ o ∈ extra3Operands d x y rd ra rb, o.number i ≤ 127)
    (hclear : ∀ i, i < s.vl → singleMask s c i = true → c.maskmode = 1#1 →
      crNo f (.extra3 rd) i ≤ 32 + i ∨ 32 + s.vl ≤ crNo f (.extra3 rd) i) :
    exec (.rm1P2S1D c rd ra rb op.word) s =
      .next (setCia (overElements s.vl (singleMask s c) (fun i u => (w i u).apply u) s) (s.cia + 8#64)) := by
  refine executePrefixed_writes hv hm (.inr rfl) hmode hlegal (reservedCause_extra3 hp _) (by rwa [commonOf_packRm]) hi
    (spr_of_cls hcls) _ (resolveAll_extra3 hslots c rd ra rb) (admissionStop_extra3 hcls hrc hra0 hx hy hdest)
    (masksStop_extra3 hread _) _ (elementMask_extra3 s c _) (fun i u => [w i u]) hexec
    (fun i u => Write.mode_apply_of_crField (hw i u) u) hfit (fun i u hlt hon => ?_) (fun hz => ?_)
  · rw [commonOf_packRm]
    exact overwritesPredicate_crDestination hx hy (hd i) (hw i u) (hd i ▸ hfit i hlt hon _ List.mem_cons_self) (hclear i hlt hon)
  · have hzero : (SubValue.extra3 rd).isZero = true := by rw [(extra3_zero hz).1]; rfl
    simp [scalarReach, Write.inScalarReach_of_crField (hw 0 s) (cr_zero_reach f hzero)]

end CrDestination

/-- The CR field of a comparison of doublewords, or, with L = 0, of their low words (log entry 4). -/
def compareBySize (l : Bool) (u : State) (x y : DWord) : BitVec 4 :=
  if l then crOfCompare u x.toInt y.toInt else crOfCompare u (x.extractLsb' 0 32).toInt (y.extractLsb' 0 32).toInt

/-- Settles O3: `cmp` writes the CR field of its first operand, with the comparison of its two registers. -/
theorem svCmpWritesAVectorOfCrFields : Obligations.SvCmpWritesAVectorOfCrFields := by
  intro c rd ra rb bf l a b s hmode hlegal hp hread hdest hfit
  refine exec_extra3_crDestination (op := .cmp bf l a b) (f := bf) rfl rfl rfl (.inl rfl) rfl rfl rfl rfl rfl (fun i => ?_)
    hmode hlegal hp hread hdest
    (w := fun i u => .crField (reg (crNo bf (.extra3 rd) i))
      (compareBySize l u (readGpr u (reg (regNo a (.extra3 ra) i))) (readGpr u (reg (regNo b (.extra3 rb) i)))))
    (fun i u => ?_) (fun _ _ => rfl) (fun i hlt hon => ?_) (fun i hlt hon => (hfit i hlt hon).2.2.2)
  · rw [resolve_crField_number rfl, dstSlot, extractLsb'_zeroExtend_compareField]
  · simp only [extra3Operands, List.map_cons, List.map_nil, register_crField_dst, register_gpr_src]
    rfl
  · obtain ⟨hd, ha, hb, -⟩ := hfit i hlt hon
    simpa [extra3Operands, resolve_crField_number, resolve_gpr_number, srcSlot, dstSlot, extractLsb'_zeroExtend_compareField] using
      ⟨hd, ha, hb⟩

/-- The destination of a CR logical instruction (R215). -/
theorem register_crBit_dst (f : BitVec 5) (sub : SubValue) (i : Nat) : (resolve (dstSlot .crBit f) sub).register i =
    crNo (f.extractLsb' 2 3) sub i * 4 + (f.extractLsb' 0 2).toNat := resolve_crBit_register rfl sub i

/-- The field and the bit of a CR bit number made of the two (R219). -/
theorem crBitField_crBitPart_of_getD {regs : List Nat} {k n : Nat} {b : BitVec 2} (h : regs.getD k 0 = n * 4 + b.toNat) :
    crBitField regs k = reg n ∧ crBitPart regs k = b.toFin := by
  have hb := b.isLt
  refine ⟨?_, Fin.ext ?_⟩
  · rw [crBitField, h, reg, show (n * 4 + b.toNat) / 4 = n by omega]
  · simp only [crBitPart, h, Fin.ofNat, BitVec.val_toFin]
    omega

/-- Settles O4: a CR logical instruction writes one bit, of the field its first operand's field part names. -/
theorem svCrLogicStepsFieldsAndKeepsBits : Obligations.SvCrLogicStepsFieldsAndKeepsBits := by
  intro c rd r1 r2 fn bt ba bb s hmode hlegal hp hread hdest hfit
  refine exec_extra3_crDestination (op := .crlogic fn bt ba bb) (f := bt.extractLsb' 2 3) rfl rfl rfl (.inr rfl) rfl rfl rfl
    rfl rfl (fun i => resolve_crBit_number rfl _ i) hmode hlegal hp hread hdest
    (w := fun i u => .crBit (reg (crNo (bt.extractLsb' 2 3) (.extra3 rd) i)) (bt.extractLsb' 0 2).toFin
      (crLogicBit fn
        (crFieldBit (readCr u (reg (crNo (ba.extractLsb' 2 3) (.extra3 r1) i))) (ba.extractLsb' 0 2).toFin)
        (crFieldBit (readCr u (reg (crNo (bb.extractLsb' 2 3) (.extra3 r2) i))) (bb.extractLsb' 0 2).toFin)))
    (fun i u => ?_) (fun _ _ => rfl) (fun i hlt hon => ?_) (fun i hlt hon => (hfit i hlt hon).2.2.2)
  · simp only [extra3Operands, List.map_cons, List.map_nil, register_crBit_dst, register_crBit_src, execOp]
    obtain ⟨hfield, hbit⟩ := crBitField_crBitPart_of_getD (k := 0) (regs := _ :: _) rfl
    rw [hfield, hbit, crBitAt_of_getD rfl, crBitAt_of_getD rfl]
  · obtain ⟨hd, ha, hb, -⟩ := hfit i hlt hon
    simpa [extra3Operands, resolve_crBit_number, srcSlot, dstSlot] using ⟨hd, ha, hb⟩

/-! ### A register past 127 (R223) -/

section SvAddStop

variable {c : CommonRm} {rd ra rb : BitVec 3} {t a b : BitVec 5}

/-- The operands of `sv.add`. -/
def addOperands (rd ra rb : BitVec 3) (t a b : BitVec 5) : List Operand :=
  extra3Operands (dstSlot .gpr t) (srcSlot .gpr a) (srcSlot .gpr b) rd ra rb

/-- An element runs off the end unless the numbers of all its registers fit (R223). -/
theorem runsOffEnd_addOperands (i : Nat) : runsOffEnd (addOperands rd ra rb t a b) i = true ↔
    127 < regNo t (.extra3 rd) i ∨ 127 < regNo a (.extra3 ra) i ∨ 127 < regNo b (.extra3 rb) i := by
  simp [runsOffEnd, addOperands, extra3Operands, resolve_gpr_number, srcSlot, dstSlot]

/-- No operand runs off the end in element 0 (R211). -/
theorem runsOffEnd_first (d x y : Slot) (rd ra rb : BitVec 3) : runsOffEnd (extra3Operands d x y rd ra rb) 0 = false :=
  runsOffEnd_eq_false (by simp [extra3Operands, fits_one])

/-- An element whose registers fit completes (R245). -/
theorem runElement_add {vl i : Nat} {u : State} (hmode : u.mode = .bits64)
    (hfit : regNo t (.extra3 rd) i ≤ 127 ∧ regNo a (.extra3 ra) i ≤ 127 ∧ regNo b (.extra3 rb) i ≤ 127) :
    runElement machine (pairOf (.add t a b false) extra3Map (packRm c (rd ++ ra ++ rb))) (addOperands rd ra rb t a b) vl i u =
      .ok (addElement rd ra rb t a b i u) := by
  have hoff : runsOffEnd (addOperands rd ra rb t a b) i = false := by
    rw [Bool.eq_false_iff, Ne, runsOffEnd_addOperands]; omega
  have hrun : machine.run ((ScalarOp.add t a b false).suffix (ScalarOp.add t a b false).word)
      ((addOperands rd ra rb t a b).map fun o => o.register i) u =
        .done [.gpr (reg (regNo t (.extra3 rd) i)) (addSum ra rb a b i u)] none := by
    simp only [addOperands, extra3Operands, List.map_cons, List.map_nil, register_gpr_src, register_gpr_dst]
    exact exec1_word (op := .add t a b false) rfl _ hmode
  refine runElement_done hoff hrun (overwritesPredicate_none (ws := [.gpr _ _]) ?_ rfl)
  simp [addOperands, extra3Operands, resolve_slot, srcSlot, dstSlot]

end SvAddStop

/-- Settles O57: the elements before `k` complete and element `k` is refused; it is not the first element, so that VL is not 1 and
this is no scalar identity. -/
theorem aRegisterPast127StopsAtItsElement : Obligations.ARegisterPast127StopsAtItsElement := by
  intro c rd ra rb t a b s k hmode hlegal hp hread hdest hk hon hpast hfit
  have hoff : runsOffEnd (addOperands rd ra rb t a b) k = true := (runsOffEnd_addOperands k).mpr hpast
  have hvl : s.vl ≠ 1 := fun h1 => by
    obtain rfl : k = 0 := by omega
    exact absurd hoff (by simp [addOperands, runsOffEnd_first])
  have hloop : runLoop machine (pairOf (.add t a b false) extra3Map (packRm c (rd ++ ra ++ rb))) (addOperands rd ra rb t a b) s.vl
      false 0 ((List.range s.vl).map (singleMask s c)) s =
        .error (.refuse (.registerPast127 k (overElements k (singleMask s c) (addElement rd ra rb t a b) s))) :=
    runLoop_stops (fun u => u.mode = .bits64) machine _ _ _ _ k _ (addElement rd ra rb t a b) s _ hmode (fun _ _ hu => hu) hk
      (fun i u hi hoi hu => runElement_add hu (hfit i hi hoi)) hon (by simp [runElement, hoff])
  exact exec_extra3_of_runLoop_error (op := .add t a b false) rfl rfl rfl rfl hlegal hp hread (fun h => hvl h.2)
    (admissionStop_extra3 (.inl rfl) rfl rfl rfl rfl hdest) hloop

end Machine
end Sys2Proof
end

section
/-! The statements of family 45_element_loop: what passes the checks and runs, as a nop, as the unprefixed instruction or as the element
loop; what each form leaves unchanged; what the loop refuses, and the trap inside it. -/

namespace Sys2Proof
namespace Machine

/-! ### The constant 0 of `sv.addi` (R256) -/

/-- The mapping of a twin-predicate instruction of one destination and one source (R185, R195). -/
def twinMap : RmMap := ⟨.rm2P1S1D, [.rdest, .rsrc1]⟩

/-- Settles O7: `addi` writes one GPR, under both masks; RA field 0 with sub-field 0 is admitted and reads as 0. -/
theorem svAddiKeepsRaZeroAsZero : Obligations.SvAddiKeepsRaZeroAsZero := by
  intro c rd r1 m t a si s hmode hlegal hp hadm hdest ha0 hfit
  obtain ⟨-, hr1, -⟩ := extra3_packRm c rd r1 m
  refine executePrefixed_gpr (op := .addi t a si) (m := twinMap) rfl rfl (.inl rfl) rfl rfl rfl hmode hlegal hp (.inl nofun)
    (ra0Stop_none rfl rfl (congrArg SubValue.extra3 hr1) (ha0.imp_right beq_iff_eq.mpr))
    (masksAre_twin rfl hadm (maskSrcOf_extra3 c rd r1 m)) (resolveAll_rm2P1S1D rfl c rd r1 m) (by simp [resolve_slot, srcSlot]) hdest
    (fun i hlt hon => ?_) rfl (fun i u => ?_) fun hz => by rw [(extra3_zero hz).1]; rfl
  · simpa [resolve_gpr_number, srcSlot, dstSlot] using hfit i hlt hon
  · simp only [List.map_cons, List.map_nil, register_gpr_src, register_gpr_dst]; rfl

/-! ### A pair that passes the checks (R108 step 8) -/

/-- A pair that is identified and passes the decode checks is a nop, a scalar execution or the loop (R241, R242). -/
theorem executePrefixed_of_decodeStop_none {p : Params} {want : Option Category} {rm : Rm} {w : Word32} {s : State} {q : Pair}
    (hq : identify p want rm w s = .ok q) (hd : decodeStop p q s = none) :
    executePrefixed p want rm w s = executeChecked p q s := by
  rw [executePrefixed, hq]
  simp only [hd]

/-- With `RM = 0` and VL = 1 it is the scalar execution (R241). -/
theorem executeChecked_identity {p : Params} {q : Pair} {s : State} (h0 : q.rm = 0#24) (h1 : s.vl = 1) :
    executeChecked p q s = runScalar p q.ins q.w0 (some q.w1) 8#64 s := by
  rw [executeChecked, if_neg (by omega), if_pos ⟨h0, h1⟩]

/-- Settles O41: with VL = 0 the bound on VL passes too, and the first case after the checks is the nop. -/
theorem vlZeroIsANop : Obligations.VlZeroIsANop := by
  intro rm w q s hvl hq hres hval
  have hd : decodeStop machine q s = none := by
    rw [decodeStop_eq_vlAboveMax (fun _ _ => rfl) hres hval, hvl]; rfl
  exact (executePrefixed_of_decodeStop_none hq hd).trans (if_pos hvl)

/-! ### The program counter (R249) -/

/-- Settles O44: the nop and the loop advance by 8, and so does scalar identity unless its suffix branches. -/
theorem prefixedInstructionsAdvanceByEight : Obligations.PrefixedInstructionsAdvanceByEight := by
  intro i rm w s u hrm hw h
  rw [exec_of_rm hrm hw] at h
  obtain ⟨q, hq, -, hcase⟩ := executePrefixed_next h
  obtain ⟨-, -, rfl⟩ := identify_ok_words hq
  rcases hcase with ⟨-, rfl⟩ | ⟨h0, h1, hr⟩ | ⟨-, -, -, -, v, hv, rfl⟩
  · exact .inl rfl
  · obtain ⟨ws, target, -, hrun, rfl⟩ := runScalar_next hr
    cases target with
    | none => exact .inl rfl
    | some t => exact .inr ⟨h0, h1, q.ins, ws, t, (identify_ok hq).1, hrun, rfl⟩
  · exact .inl rfl

/-! ### Scalar identity (R241) -/

/-- The outcome of a scalar execution of `length` bytes that answers `r` (R240, R243). -/
def scalarOutcome (length : DWord) (s : State) : ScalarResult → Host.Outcome State Fault Refusal
  | .done ws target => .next (setCia (applyWrites s (scalarReach ws)) (nextAddress s length target))
  | .trap t => .fault (.suffixTrap 0 t s)

/-- A scalar execution that accesses no SVP64 SPR is what its suffix answers in what an unprefixed instruction can read (R22, R31). -/
theorem runScalar_eq_scalarOutcome {p : Params} {ins : Suffix} (hspr : ∀ acc, ins.spr = some acc → p.isSvSpr acc.num = false)
    (w0 : Word32) (w1 : Option Word32) (len : DWord) (s : State) :
    runScalar p ins w0 w1 len s = scalarOutcome len s (p.run ins (identityMap ins) (scalarView s)) := by
  simp only [runScalar, sprStop_eq_none.mpr hspr]
  cases p.run ins (identityMap ins) (scalarView s) <;> rfl

/-- With `RM = 0` and VL = 1 every suffix with a category and without an implicit RS passes the checks, and runs as a scalar execution 8
bytes long (R108, R131, R241). -/
theorem exec_identity {w : Word32} {ins : Suffix} {s : State} (hvl : s.vl = 1) (hw : primary w ≠ 1#6)
    (hd : referenceDecode w = some ins) (hm : referenceIsa.mapping ins ≠ none) (hi : ins.implicitRs = false) :
    exec (.svp64Prefix 0#24 w) s = runScalar machine ins (prefixWord 0#24) (some w) 8#64 s := by
  obtain ⟨m, hm⟩ := Option.ne_none_iff_exists'.mp hm
  have hq : identify machine none 0#24 w s = .ok ⟨prefixWord 0#24, w, 0#24, ins, m⟩ := by
    simp only [identify, if_neg hw, show machine.suffixes.decode w = some ins from hd,
      show machine.suffixes.mapping ins = some m from hm]
  have hres : reservedCause ⟨prefixWord 0#24, w, 0#24, ins, m⟩ = none := reservedCause_zero rfl
  have hval : valueStop ⟨prefixWord 0#24, w, 0#24, ins, m⟩ = none :=
    valueStop_plain (show plain (commonOf 0#24) = true by decide) hi
  have hmax : decide (machine.vlMax < s.vl) = false := decide_eq_false (by rw [hvl]; decide)
  have hstop : decodeStop machine ⟨prefixWord 0#24, w, 0#24, ins, m⟩ s = none := by
    rw [decodeStop_eq_vlAboveMax (fun _ _ => rfl) hres hval, hmax, stopIf_false]
  exact (executePrefixed_of_decodeStop_none hq hstop).trans (executeChecked_identity rfl hvl)

/-- Settles O42: prefixed and unprefixed, the suffix runs as the same scalar execution, of its own length. -/
theorem scalarIdentityActsAsTheUnprefixedInstruction : Obligations.ScalarIdentityActsAsTheUnprefixedInstruction := by
  intro w ins s hvl hw hd hm hi hspr
  have hprefixed := (exec_identity hvl hw hd hm hi).trans (runScalar_eq_scalarOutcome hspr _ _ _ _)
  have hunprefixed : executeUnprefixed machine w s =
      scalarOutcome 4#64 s (referenceExec1 Config.bigEndian ins (identityMap ins) (scalarView s)) := by
    rw [executeUnprefixed, show machine.suffixes.decode w = some ins from hd]
    exact runScalar_eq_scalarOutcome hspr _ _ _ _
  refine ⟨fun ws target he => ⟨?_, ?_⟩, fun x he => ⟨?_, ?_⟩⟩
  · rw [hunprefixed, he]; rfl
  · exact hprefixed.trans (congrArg (scalarOutcome 8#64 s) he)
  · rw [hunprefixed, he]; rfl
  · exact hprefixed.trans (congrArg (scalarOutcome 8#64 s) he)

/-! ### The forms of scalar identity (R241, R251, R253, R60) -/

/-- Under scalar identity a reference instruction that completes makes its writes, where they are within reach, and goes on at its target,
or 8 bytes further; `u` and `a` are what that gives. -/
theorem exec_identity_done {op : ScalarOp} (hv : op.valid = true) (hi : op.implicitRs = false)
    (hspr : ∀ acc, op.spr = some acc → referenceIsSvSpr acc.num = false) {s : State} (hmode : s.mode = .bits64) (hvl : s.vl = 1)
    {ws : List Write} {target : Option DWord} {u : State} {a : DWord}
    (he : execOp true op (op.suffix op.word) (identityMap (op.suffix op.word)) (scalarView s) = .done ws target)
    (hreach : scalarReach ws = ws) (hu : applyWrites s ws = u) (ha : nextAddress s 8#64 target = a) :
    exec (.svp64Prefix 0#24 op.word) s = .next (setCia u a) := by
  obtain ⟨m, hm⟩ := exists_rmMap op
  have hrun := (exec1_word hv (identityMap (op.suffix op.word)) (s := scalarView s) hmode).trans he
  rw [exec_identity hvl (primary_word_ne op hv) (referenceDecode_word op hv) (by simp [mapping_word op hv, hm]) hi,
    runScalar_eq_scalarOutcome hspr, hrun, scalarOutcome, hreach, hu, ha]

/-- The same for one that names no SPR, whose reads are within reach. -/
theorem exec_identity_of_spr_none {op : ScalarOp} (hv : op.valid = true) (hi : op.implicitRs = false) (hspr : op.spr = none) {s : State}
    (hmode : s.mode = .bits64) (hvl : s.vl = 1) {ws : List Write} {target : Option DWord} {u : State} {a : DWord}
    (he : execOp true op (op.suffix op.word) (identityMap (op.suffix op.word)) s = .done ws target) (hreach : scalarReach ws = ws)
    (hu : applyWrites s ws = u) (ha : nextAddress s 8#64 target = a) :
    exec (.svp64Prefix 0#24 op.word) s = .next (setCia u a) :=
  exec_identity_done hv hi (fun _ h => absurd (hspr.symm.trans h) nofun) hmode hvl ((execOp_scalarView true hi hspr _ s).trans he)
    hreach hu ha

/-- The bit part of an unextended CR bit number is its field's (R219). -/
theorem fin4_ofNat_toNat (f : BitVec 5) : Fin.ofNat 4 f.toNat = (f.extractLsb' 0 2).toFin := by
  revert f; decide

/-- A CR bit of a field number is a bit of CR0 to CR7 (R25). -/
theorem reg_toNat_div_lt (f : BitVec 5) : (reg (f.toNat / 4)).val < 8 := by
  have := f.isLt
  simp only [reg, Fin.ofNat]
  omega

/-- A target that is a multiple of 4 is an instruction address (R28). -/
theorem alignTarget_of_aligned {t : DWord} (h : t.extractLsb' 0 2 = 0#2) : alignTarget t = t := by
  have hmask : ~~~3#64 = BitVec.allOnes 62 ++ 0#2 := by decide
  have hsplit : t = t.extractLsb' 2 62 ++ 0#2 := by
    rw [← h]; ext i hi; simp; grind
  rw [alignTarget, hmask, hsplit, BitVec.and_append, BitVec.and_allOnes, BitVec.zero_and]

/-- A displacement is a multiple of 4. -/
theorem displacement_aligned (li : BitVec 24) : ((li ++ 0#2).signExtend 64).extractLsb' 0 2 = 0#2 := by
  ext i hi
  simp [BitVec.getLsbD_signExtend]
  grind

/-- XER, LR and CTR are no SVP64 SPRs (PRESUMED, log entry 8). -/
theorem referenceIsSvSpr_of_ordinary {n : BitVec 10} (h : n = 1#10 ∨ n = 8#10 ∨ n = 9#10) {write : Bool} :
    ∀ acc, some (⟨n, write⟩ : SprAccess) = some acc → referenceIsSvSpr acc.num = false := by
  rintro acc ⟨⟩
  exact if_pos h

/-- Settles O43: each form completes as its one scalar execution, with writes within reach. -/
theorem scalarIdentityAdmitsEveryClass : Obligations.ScalarIdentityAdmitsEveryClass := by
  intro t a b d fn bf bfa li s hmode hvl hcia r sum nia bit ea
  have hgpr : ∀ (f : BitVec 5) v, scalarReach [.gpr (r f) v] = [.gpr (r f) v] := fun f v => by
    simp [scalarReach, Write.inScalarReach, r, reg_toNat_lt]
  have hview : readGpr (scalarView s) (r a) = readGpr s (r a) := (readGpr_scalarView s _).trans (if_pos (reg_toNat_lt a))
  have hcia : s.cia.extractLsb' 0 2 = 0#2 := by simpa [State.ciaAligned] using hcia
  refine ⟨?_, ?_, ?_, ?_, fun w hw => ?_, ?_, ?_, ?_, ?_, ?_, ?_, ?_, ?_, ?_⟩
  · exact exec_identity_of_spr_none (op := .add t a b true) rfl rfl rfl hmode hvl
      (ws := [.gpr (r t) sum, .crField 0 (crOfResult s sum)]) rfl (by simp [scalarReach, Write.inScalarReach, r, reg_toNat_lt]) rfl
      rfl
  · refine exec_identity_of_spr_none (op := .crlogic fn t a b) rfl rfl rfl hmode hvl (target := none)
      (ws := [.crBit (reg (t.toNat / 4)) (t.extractLsb' 0 2).toFin (crLogicBit fn (bit a) (bit b))]) ?_ ?_ rfl rfl
    · simp only [bit, ← fin4_ofNat_toNat]; rfl
    · simp [scalarReach, Write.inScalarReach, reg_toNat_div_lt]
  · have hfield : ∀ f : BitVec 3, (reg f.toNat).val < 8 := fun f => (crNo_zero f (sub := .extra3 0#3) rfl) ▸ cr_zero_reach f rfl
    refine exec_identity_of_spr_none (op := .mcrf bf bfa) rfl rfl rfl hmode hvl (target := none)
      (ws := [.crField (reg bf.toNat) (readCr s (reg bfa.toNat))]) ?_ (by simp [scalarReach, Write.inScalarReach, hfield]) rfl rfl
    have hid : identityMap ((ScalarOp.mcrf bf bfa).suffix (ScalarOp.mcrf bf bfa).word) =
        [((bf.zeroExtend 5).extractLsb' 0 3).toNat, ((bfa.zeroExtend 5).extractLsb' 0 3).toNat] := rfl
    rw [hid, extractLsb'_zeroExtend_compareField, extractLsb'_zeroExtend_compareField]; rfl
  · refine exec_identity_of_spr_none (op := .store .stw false t a d) rfl rfl rfl hmode hvl (target := none) ?_
      (storeBytes_reach _ _) rfl rfl
    rw [← lowBytes_four]; rfl
  · exact exec_identity_of_spr_none (op := .load .lwz false t a d) rfl rfl rfl hmode hvl
      (loadFrom_lwz hw fun v => [LoadKind.lwz.write (r t) v]) (write_reach (reg_toNat_lt t) _ _) rfl rfl
  · exact exec_identity_of_spr_none (op := .branch li false) rfl rfl rfl hmode hvl rfl rfl rfl
      (alignTarget_of_aligned (aligned_add _ _ hcia (displacement_aligned li)))
  · exact exec_identity_of_spr_none (op := .branch li true) rfl rfl rfl hmode hvl rfl rfl rfl
      (alignTarget_of_aligned (displacement_aligned li))
  · exact exec_identity_of_spr_none (op := .sync) rfl rfl rfl hmode hvl rfl rfl rfl rfl
  · exact exec_identity_done (op := .mtspr 1#10 a) rfl rfl (referenceIsSvSpr_of_ordinary (.inl rfl)) hmode hvl
      (congrArg (fun v => ScalarResult.done [.xer v] none) hview) rfl rfl rfl
  · exact exec_identity_done (op := .mtspr 8#10 a) rfl rfl (referenceIsSvSpr_of_ordinary (.inr (.inl rfl))) hmode hvl
      (congrArg (fun v => ScalarResult.done [.lr v] none) hview) rfl rfl rfl
  · exact exec_identity_done (op := .mtspr 9#10 a) rfl rfl (referenceIsSvSpr_of_ordinary (.inr (.inr rfl))) hmode hvl
      (congrArg (fun v => ScalarResult.done [.ctr v] none) hview) rfl rfl rfl
  · exact exec_identity_done (op := .mfspr t 1#10) rfl rfl (referenceIsSvSpr_of_ordinary (.inl rfl)) hmode hvl rfl (hgpr t s.xer) rfl
      rfl
  · exact exec_identity_done (op := .mfspr t 8#10) rfl rfl (referenceIsSvSpr_of_ordinary (.inr (.inl rfl))) hmode hvl rfl
      (hgpr t s.lr) rfl rfl
  · exact exec_identity_done (op := .mfspr t 9#10) rfl rfl (referenceIsSvSpr_of_ordinary (.inr (.inr rfl))) hmode hvl rfl
      (hgpr t s.ctr) rfl rfl

/-! ### The frame of an instruction (R246) -/

/-- The mask of a single-predicate category, by the fields (R121). -/
theorem elementMask_packRm_single {cat : Category} (hcat : cat.isTwin = false) (s : State) (c : CommonRm) (e : BitVec 9) (vl : Nat) :
    elementMask s cat (packRm c e) vl = (List.range vl).map (singleMask s c) := by
  rw [elementMask_single hcat, commonOf_packRm]; rfl

/-- The mask of a twin-predicate category, by the fields and MASK_SRC (R157). -/
theorem elementMask_packRm_twin {cat : Category} (hcat : cat.isTwin = true) (s : State) {c : CommonRm} {e : BitVec 9} {m : BitVec 3}
    (hsrc : maskSrcOf (packRm c e) = m) (vl : Nat) :
    elementMask s cat (packRm c e) vl = (List.range vl).map (twinMask s c m) := by
  rw [elementMask_twin hcat, commonOf_packRm, hsrc]; rfl

/-- The writes of a scalar execution, if it completes, lie within the frame. -/
def ScalarResult.within (gprs fprs : RegNum → Prop) (crBits : RegNum → Fin 4 → Prop) (bytes : DWord → Prop) (fp : Bool)
    (r : ScalarResult) : Prop := ∀ ws target, r = .done ws target → ∀ w ∈ ws, w.within gprs fprs crBits bytes fp

section Frame

variable {gprs fprs : RegNum → Prop} {crBits : RegNum → Fin 4 → Prop} {bytes : DWord → Prop} {fp : Bool} {op : ScalarOp} {m : RmMap}
  {rm : Rm} {s u : State} {on : Nat → Bool}

theorem within_done {ws : List Write} (target : Option DWord) (h : ∀ w ∈ ws, w.within gprs fprs crBits bytes fp) :
    (ScalarResult.done ws target).within gprs fprs crBits bytes fp := by
  rintro _ _ ⟨⟩; exact h

theorem within_gpr {n : RegNum} (h : gprs n) (v : DWord) :
    (ScalarResult.done [.gpr n v] none).within gprs fprs crBits bytes fp :=
  within_done none (List.forall_mem_singleton.mpr h)

theorem within_crField {n : RegNum} (h : ∀ b, crBits n b) (v : BitVec 4) :
    (ScalarResult.done [.crField n v] none).within gprs fprs crBits bytes fp :=
  within_done none (List.forall_mem_singleton.mpr h)

theorem within_crBit {n : RegNum} {b : Fin 4} (h : crBits n b) (v : Bool) :
    (ScalarResult.done [.crBit n b v] none).within gprs fprs crBits bytes fp :=
  within_done none (List.forall_mem_singleton.mpr h)

/-- An FP operation writes its destination and the FPSCR, or traps (R191). -/
theorem within_fpOutcome {n : RegNum} (h : fprs n) (trap : Bool) (v fpscr : DWord) :
    (fpOutcome trap n v fpscr).within gprs fprs crBits bytes true := by
  cases trap with
  | true => exact nofun
  | false => exact within_done none (by simpa [Write.within] using h)

variable (hv : op.valid = true) (hm : op.rmMap = some m) (hmode : s.mode = .bits64)
  (hon : elementMask s m.cat rm s.vl = (List.range s.vl).map on)

include hv hm hmode hon

/-- A load or store keeps all that its one execution does not write (R244 line 4). -/
theorem keepsAllBut_of_access {ops : List Operand} (hops : resolveAll (op.suffix op.word) m rm = ops) (hcls : op.cls = .ldst)
    (hr : s.vl = 1 → on 0 = true →
      (execOp true op (op.suffix op.word) (ops.map fun o => o.register 0) s).within gprs fprs crBits bytes fp)
    (h : executePrefixed machine (some m.cat) rm op.word s = .next u) : keepsAllBut gprs fprs crBits bytes fp s u :=
  executePrefixed_frame_ldst hv hm hmode hcls on hon ops hops (fun ws target hvl hoi he => hr hvl hoi ws target he) h

variable {d : Slot} {x : SubValue} {srcs : List Operand}

/-- An instruction of the loop keeps all that the executions of its enabled elements do not write; the number of its destination `d` stands
first among their registers. -/
theorem keepsAllBut_of_destination (hops : resolveAll (op.suffix op.word) m rm = resolve d x :: srcs)
    (hcls : op.cls = .arith ∨ op.cls = .crop) (hi : op.implicitRs = false)
    (hr : ∀ i regs v, i < s.vl → on i = true → regs.getD 0 0 = (resolve d x).register i →
      (execOp true op (op.suffix op.word) regs v).within gprs fprs crBits bytes fp)
    (h : executePrefixed machine (some m.cat) rm op.word s = .next u) : keepsAllBut gprs fprs crBits bytes fp s u :=
  executePrefixed_frame hv hm (.inr rfl) hmode hi (spr_of_cls hcls) _ hops on hon
    (fun i v ws target hlt hoi _ _ _ _ he => hr i _ v hlt hoi rfl ws target he) (fun _ => hops ▸ resolveAll_fits_one _ _ _) h

/-- One whose executions make one write, of the GPR that stands first. -/
theorem keepsAllBut_of_gpr {t : BitVec 5} (hops : resolveAll (op.suffix op.word) m rm = resolve (dstSlot .gpr t) x :: srcs)
    (hcls : op.cls = .arith) (hi : op.implicitRs = false)
    (hexec : ∀ regs v, ∃ value, execOp true op (op.suffix op.word) regs v = .done [.gpr (regAt regs 0) value] none)
    (h : executePrefixed machine (some m.cat) rm op.word s = .next u) :
    keepsAllBut (fun n => ∃ i, i < s.vl ∧ on i = true ∧ n = reg (regNo t x i)) (fun _ => False) (fun _ _ => False) (fun _ => False)
      false s u := by
  refine keepsAllBut_of_destination hv hm hmode hon hops (.inl hcls) hi (fun i regs v hlt hoi h0 => ?_) h
  obtain ⟨value, he⟩ := hexec regs v
  rw [he]
  exact within_gpr ⟨i, hlt, hoi, congrArg reg (h0.trans (register_gpr_dst t x i))⟩ value

end Frame

/-- Settles O14: an element of each makes one write, of the GPR of its destination. -/
theorem integerFormsChangeOnlyTheirDestinations : Obligations.IntegerFormsChangeOnlyTheirDestinations := by
  refine ⟨fun c rd ra rb t a b s u hmode => ?_, fun c rd r1 r2 a t sh mb me s u hmode => ?_,
    fun c rd r1 r2 r3 e t a b d s u hmode => ?_, fun c rd r1 r2 r3 e t a b d s u hmode => ?_,
    fun c rd r1 m a t s u hmode => ?_, fun c rd r1 m t a si s u hmode => ?_⟩
  · exact keepsAllBut_of_gpr (op := .add t a b false) (m := extra3Map) rfl rfl hmode (elementMask_packRm_single rfl s c _ _)
      (resolveAll_extra3 rfl c rd ra rb) rfl rfl fun _ _ => ⟨_, rfl⟩
  · exact keepsAllBut_of_gpr (op := .rlwimi a t sh mb me false) (m := extra3Map) rfl rfl hmode
      (elementMask_packRm_single rfl s c _ _) (resolveAll_extra3 rfl c rd r1 r2) rfl rfl fun _ _ => ⟨_, rfl⟩
  · exact keepsAllBut_of_gpr (op := .maddld t a b d) (m := extra2Map) rfl rfl hmode (elementMask_packRm_single rfl s c _ _)
      (resolveAll_rm1P3S1D rfl c rd r1 r2 r3 e) rfl rfl fun _ _ => ⟨_, rfl⟩
  · exact keepsAllBut_of_gpr (op := .isel t a b d) (m := extra2Map) rfl rfl hmode (elementMask_packRm_single rfl s c _ _)
      (resolveAll_rm1P3S1D rfl c rd r1 r2 r3 e) rfl rfl fun _ _ => ⟨_, rfl⟩
  · exact keepsAllBut_of_gpr (op := .extsb a t false) (m := twinMap) rfl rfl hmode
      (elementMask_packRm_twin rfl s (maskSrcOf_extra3 c rd r1 m) _) (resolveAll_rm2P1S1D rfl c rd r1 m) rfl rfl fun _ _ => ⟨_, rfl⟩
  · exact keepsAllBut_of_gpr (op := .addi t a si) (m := twinMap) rfl rfl hmode
      (elementMask_packRm_twin rfl s (maskSrcOf_extra3 c rd r1 m) _) (resolveAll_rm2P1S1D rfl c rd r1 m) rfl rfl fun _ _ => ⟨_, rfl⟩

/-- Settles O15: an element of each writes the CR field, the CR bit, or the FPR and the FPSCR, of its destination. -/
theorem crAndFpFormsChangeOnlyTheirDestinations : Obligations.CrAndFpFormsChangeOnlyTheirDestinations := by
  refine ⟨fun c rd ra rb bf l a b s u hmode => ?_, fun c rd r1 r2 fn bt ba bb s u hmode => ?_,
    fun c rd r1 m bf bfa s u hmode => ?_, fun c rd r1 r2 r3 e t a d b s u hmode => ?_, fun c rd r1 r2 t a b s u hmode => ?_⟩
  · exact keepsAllBut_of_destination (op := .cmp bf l a b) (m := extra3Map) rfl rfl hmode (elementMask_packRm_single rfl s c _ _)
      (resolveAll_extra3 rfl c rd ra rb) (.inl rfl) rfl fun i regs v hlt hon h0 =>
        within_crField (fun _ => ⟨i, hlt, hon, congrArg reg (h0.trans (register_crField_dst _ i bf))⟩) _
  · refine keepsAllBut_of_destination (op := .crlogic fn bt ba bb) (m := extra3Map) rfl rfl hmode
      (elementMask_packRm_single rfl s c _ _) (resolveAll_extra3 rfl c rd r1 r2) (.inr rfl) rfl fun i regs v hlt hon h0 => ?_
    obtain ⟨hfield, hbit⟩ := crBitField_crBitPart_of_getD (h0.trans (register_crBit_dst bt _ i))
    exact within_crBit ⟨hbit, i, hlt, hon, hfield⟩ _
  · exact keepsAllBut_of_destination (op := .mcrf bf bfa) (m := twinMap) rfl rfl hmode
      (elementMask_packRm_twin rfl s (maskSrcOf_extra3 c rd r1 m) _) (resolveAll_rm2P1S1D rfl c rd r1 m) (.inr rfl) rfl
      fun i regs v hlt hon h0 => within_crField (fun _ => ⟨i, hlt, hon, congrArg reg (h0.trans (register_crField_dst _ i bf))⟩) _
  · exact keepsAllBut_of_destination (op := .fmadd t a d b false) (m := extra2Map) rfl rfl hmode
      (elementMask_packRm_single rfl s c _ _) (resolveAll_rm1P3S1D rfl c rd r1 r2 r3 e) (.inl rfl) rfl
      fun i regs v hlt hon h0 => within_fpOutcome ⟨i, hlt, hon, congrArg reg (h0.trans (resolve_fpr_register rfl _ i))⟩ _ _ _
  · exact keepsAllBut_of_destination (op := .fadds t a b false) (m := extra3Map) rfl rfl hmode
      (elementMask_packRm_single rfl s c _ _) (resolveAll_extra3 rfl c rd r1 r2) (.inl rfl) rfl
      fun i regs v hlt hon h0 => within_fpOutcome ⟨i, hlt, hon, congrArg reg (h0.trans (resolve_fpr_register rfl _ i))⟩ _ _ _

/-! ### The frame of a load or store (R244 line 4, R246) -/

section Access

variable {gprs fprs : RegNum → Prop} {crBits : RegNum → Fin 4 → Prop} {bytes : DWord → Prop} {fp be : Bool} {s : State} {ea : DWord}

/-- A load writes the register of its kind, with the value of its bytes. -/
theorem within_load {k : LoadKind} {rt : RegNum} (h : if k.fp then fprs rt else gprs rt) :
    (loadFrom be s k ea fun v => [k.write rt v]).within gprs fprs crBits bytes fp := fun _ _ =>
  loadFrom_within fun v => List.forall_mem_singleton.mpr (write_within h v)

/-- With update its base too. -/
theorem within_loadUpdate {k : LoadKind} {rt ra : RegNum} (ht : if k.fp then fprs rt else gprs rt) (ha : gprs ra) :
    (loadFrom be s k ea fun v => updateWrites k rt ra v ea).within gprs fprs crBits bytes fp := fun _ _ =>
  loadFrom_within fun v => updateWrites_within ht ha v ea

/-- A store writes the bytes of its width. -/
theorem within_store {k : StoreKind} (h : ∀ x, bytesAt ea k.width x → bytes x) (v : DWord) :
    (ScalarResult.done (storeBytes ea (k.bytes be v)) none).within gprs fprs crBits bytes fp :=
  within_done none (storeBytes_within ea _ fun j hj => h _ ⟨j, bytes_length be k v ▸ hj, rfl⟩)

/-- With update its base too. -/
theorem within_storeUpdate {k : StoreKind} (h : ∀ x, bytesAt ea k.width x → bytes x) {ra : RegNum} (ha : gprs ra) (v : DWord) :
    (ScalarResult.done (storeBytes ea (k.bytes be v) ++ [.gpr ra ea]) none).within gprs fprs crBits bytes fp :=
  within_done none (List.forall_mem_append.mpr ⟨within_store h v _ _ rfl, List.forall_mem_singleton.mpr ha⟩)

end Access

/-- Settles O16: the one execution of a store writes the bytes of its width, that of a load its destination, each with update RA too. -/
theorem loadsAndStoresChangeOnlyTheirDestinations : Obligations.LoadsAndStoresChangeOnlyTheirDestinations := by
  refine ⟨fun k c r1 r2 m t a d s u hmode hv => ?_, fun k c rd r1 r2 t a d s u hmode hv => ?_,
    fun k c r1 r2 r3 m t a b s u hmode hv => ?_, fun k c rd r1 r2 r3 e t a b s u hmode hv => ?_,
    fun k c rd r1 m t a d s u hmode hv => ?_, fun k c r1 d1 d2 m t a d s u hmode hv => ?_,
    fun k c rd r1 r2 m t a b s u hmode hv => ?_, fun k c rd r1 r2 m t a b s u hmode hv => ?_⟩
  · refine keepsAllBut_of_access (op := .store k false t a d) (m := ⟨.rm2P2S, [.rsrc1, .rsrc2]⟩) hv rfl hmode
      (elementMask_packRm_twin rfl s (maskSrcOf_extra3 c r1 r2 m) _) (resolveAll_rm2P2S rfl c r1 r2 m) rfl fun hvl hon => ?_
    simp only [List.map_cons, List.map_nil, register_gpr_src, register_store_src]
    exact within_store (fun x hx => ⟨hvl, hon, hx⟩) _
  · refine keepsAllBut_of_access (op := .store k true t a d) (m := extra3Map) hv rfl hmode (elementMask_packRm_single rfl s c _ _)
      (resolveAll_rm1P2S1D rfl c rd r1 r2) rfl fun hvl hon => ?_
    simp only [List.map_cons, List.map_nil, register_gpr_src, register_gpr_dst, register_store_src]
    exact within_storeUpdate (fun x hx => ⟨hvl, hon, hx⟩) ⟨hvl, hon, rfl⟩ _
  · refine keepsAllBut_of_access (op := .storeX k false t a b) (m := ⟨.rm2P3S, [.rsrc1, .rsrc2, .rsrc3]⟩) hv rfl hmode
      (elementMask_packRm_twin rfl s (maskSrcOf_extra2 c r1 r2 r3 m) _) (resolveAll_rm2P3S rfl c r1 r2 r3 m) rfl fun hvl hon => ?_
    simp only [List.map_cons, List.map_nil, register_gpr_src, register_store_src]
    exact within_store (fun x hx => ⟨hvl, hon, hx⟩) _
  · refine keepsAllBut_of_access (op := .storeX k true t a b) (m := extra2Map) hv rfl hmode (elementMask_packRm_single rfl s c _ _)
      (resolveAll_rm1P3S1D rfl c rd r1 r2 r3 e) rfl fun hvl hon => ?_
    simp only [List.map_cons, List.map_nil, register_gpr_src, register_gpr_dst, register_store_src]
    exact within_storeUpdate (fun x hx => ⟨hvl, hon, hx⟩) ⟨hvl, hon, rfl⟩ _
  · refine keepsAllBut_of_access (op := .load k false t a d) (m := twinMap) hv rfl hmode
      (elementMask_packRm_twin rfl s (maskSrcOf_extra3 c rd r1 m) _) (resolveAll_rm2P1S1D rfl c rd r1 m) rfl fun hvl hon => ?_
    simp only [List.map_cons, List.map_nil, register_gpr_src, register_load_dst]
    exact within_load (by cases k.fp <;> exact ⟨rfl, hvl, hon, rfl⟩)
  · refine keepsAllBut_of_access (op := .load k true t a d) (m := ⟨.rm2P1S2D, [.rdest, .rsrc1, .rdest2]⟩) hv rfl hmode
      (elementMask_packRm_twin rfl s (maskSrcOf_extra2 c r1 d1 d2 m) _) (resolveAll_rm2P1S2D rfl c r1 d1 d2 m) rfl fun hvl hon => ?_
    simp only [List.map_cons, List.map_nil, register_gpr_src, register_gpr_dst, register_load_dst]
    refine within_loadUpdate ?_ ⟨hvl, hon, .inr rfl⟩
    cases k.fp with
    | false => exact ⟨hvl, hon, .inl ⟨rfl, rfl⟩⟩
    | true => exact ⟨rfl, hvl, hon, rfl⟩
  · refine keepsAllBut_of_access (op := .loadX k false t a b) (m := ⟨.rm2P2S1D, [.rdest, .rsrc1, .rsrc2]⟩) hv rfl hmode
      (elementMask_packRm_twin rfl s (maskSrcOf_extra2 c rd r1 r2 m) _) (resolveAll_rm2P2S1D rfl c rd r1 r2 m) rfl fun hvl hon => ?_
    simp only [List.map_cons, List.map_nil, register_gpr_src, register_load_dst]
    exact within_load (by cases k.fp <;> exact ⟨rfl, hvl, hon, rfl⟩)
  · refine keepsAllBut_of_access (op := .loadX k true t a b) (m := ⟨.rm2P2S1D, [.rdest, .rsrc1, .rsrc2]⟩) hv rfl hmode
      (elementMask_packRm_twin rfl s (maskSrcOf_extra2 c rd r1 r2 m) _) (resolveAll_rm2P2S1D rfl c rd r1 r2 m) rfl fun hvl hon => ?_
    simp only [List.map_cons, List.map_nil, register_gpr_src, register_gpr_both, register_load_dst]
    refine within_loadUpdate ?_ ⟨hvl, hon, .inr rfl⟩
    cases k.fp with
    | false => exact ⟨hvl, hon, .inl ⟨rfl, rfl⟩⟩
    | true => exact ⟨rfl, hvl, hon, rfl⟩

/-! ### Field values without a meaning (R244 lines 1 to 3) -/

/-- A reference instruction without a reserved value or an implicit RS is refused for MODE, SUBVL and a width that is not zero, in this
order (R129, R254, R122). -/
theorem exec_of_field_without_meaning {i : Instr} {op : ScalarOp} {m : RmMap} {c : CommonRm} {e : BitVec 9} (hv : op.valid = true)
    (hm : op.rmMap = some m) (hrm : i.rm? = some (packRm c e)) (hw : i.secondWord? = some op.word) (hcat : i.category? = some m.cat)
    (hi : op.implicitRs = false) (s : State) (hres : reservedCause (pairOf op m (packRm c e)) = none) :
    (c.mode ≠ 0#5 → exec i s = .refused .modeNotSpecified) ∧
    (c.mode = 0#5 → c.subvl ≠ 0#2 → exec i s = .refused .subvlNotSpecified) ∧
    (c.mode = 0#5 → c.subvl = 0#2 → (c.elwidth ≠ 0#2 ∨ c.elwidthSrc ≠ 0#2) → exec i s = .refused .elwidthNotSpecified) := by
  have hstop : ∀ r, valueStop (pairOf op m (packRm c e)) = some (.refuse r) → exec i s = .refused r :=
    fun _ => exec_of_valueStop hv hm hrm hw hcat s hres
  refine ⟨fun hmode => hstop _ ?_, fun hmode hsubvl => hstop _ ?_,
    fun hmode hsubvl hwidth => hstop _ (valueStop_elwidthNotSpecified hi hmode hsubvl hwidth)⟩
  · simp [valueStop, pairOf, ScalarOp.suffix, commonOf_packRm, hi, bne_iff_ne.mpr hmode]
  · simp [valueStop, pairOf, ScalarOp.suffix, commonOf_packRm, hi, hmode, bne_iff_ne.mpr hsubvl]

/-- A suffix whose operands are CR fields or bits alone has no width cause, whatever the width fields hold (R126). -/
theorem widthCauses_of_crOperands {ins : Suffix} (hne : ins.slots ≠ [])
    (hcr : ∀ sl ∈ ins.slots, sl.kind = .crField ∨ sl.kind = .crBit) (hs : ins.single = false) (c : CommonRm) :
    ∀ x ∈ widthCauses ins c, x = none := by
  have hfp : ∀ field, fpWidthApplies ins field = false := fun field => by
    have hkind : ∀ sl ∈ ins.slots, (sl.kind == .fpr) = false := fun sl hsl => by rcases hcr sl hsl with h | h <;> rw [h] <;> rfl
    cases field <;> simpa [fpWidthApplies] using fun sl hsl hk => absurd hk (by simpa using hkind sl hsl)
  have honly : crOnly ins = true := by
    simpa [crOnly, hne] using .inr hcr
  simp [widthCauses, reservedWidth, narrowWidth, unusedWidth, hfp, hs, honly]

/-- Settles O54: none of the three has a reserved value, for each uses both widths and every sub-field. -/
theorem fieldValuesWithoutAMeaningAreRefused : Obligations.FieldValuesWithoutAMeaningAreRefused := by
  refine ⟨fun c rd ra rb t a b fn bf bfa s => ?_, fun q hne hcr hs => widthCauses_of_crOperands hne hcr hs _⟩
  simp only [List.forall_mem_cons]
  exact ⟨exec_of_field_without_meaning (op := .add t a b false) (m := extra3Map) rfl rfl rfl rfl rfl rfl s
      (reservedCause_none rfl rfl rfl rfl rfl (.inl nofun)),
    exec_of_field_without_meaning (op := .crlogic fn t a b) (m := extra3Map) rfl rfl rfl rfl rfl rfl s
      (reservedCause_none rfl rfl rfl rfl rfl (.inl nofun)),
    exec_of_field_without_meaning (op := .mcrf bf bfa) (m := twinMap) rfl rfl rfl rfl rfl rfl s
      (reservedCause_none rfl rfl rfl rfl rfl (.inl nofun)), nofun⟩

/-! ### What the loop does not admit (R244 lines 4 to 8) -/

/-- Line 4 passes. -/
theorem classStop_none {ins : Suffix} {vl : Nat} (h : ins.cls = .arith ∨ ins.cls = .crop ∨ (ins.cls = .ldst ∧ vl = 1)) :
    classStop ins vl = none := by
  rcases h with h | h | ⟨h, rfl⟩ <;> simp [classStop, h]

/-- Line 6 passes. -/
theorem scalarDestStop_none {p : Params} {ops : List Operand} {vl : Nat} (h : hasScalarDest ops = false ∨ vl = 1) :
    scalarDestStop p ops vl = none := by
  rcases h with h | rfl <;> simp [scalarDestStop, *]

/-- Line 7 is the negation of `twinAdmitted` (R248). -/
theorem twinStop_eq {m : RmMap} {rm : Rm} {vl : Nat} :
    twinStop m rm vl = stopIf (m.cat.isTwin && !twinAdmitted (commonOf rm) (maskSrcOf rm) vl) (.refuse .twinSteppingNotSpecified) := by
  rw [twinStop]
  congr 1
  simp only [twinAdmitted, always]
  cases m.cat.isTwin <;> cases (commonOf rm).maskmode == 0#1 <;> simp

section Refused

variable {i : Instr} {op : ScalarOp} {m : RmMap} {c : CommonRm} {e : BitVec 9} {s : State} (hv : op.valid = true)
  (hm : op.rmMap = some m) (hrm : i.rm? = some (packRm c e)) (hw : i.secondWord? = some op.word) (hcat : i.category? = some m.cat)
  (hi : op.implicitRs = false) (hlegal : vlLegal s) (hp : plain c = true)
  (hres : reservedCause (pairOf op m (packRm c e)) = none) (hid : s.vl ≠ 1 ∨ packRm c e ≠ 0#24)

include hv hm hrm hw hcat hi hlegal hp hres hid

/-- A reference instruction outside scalar identity that passes the decode checks stops where the loop does not admit it. -/
theorem exec_of_admissionStop {st : Stop} (hadm : admissionStop machine (pairOf op m (packRm c e))
    (resolveAll (op.suffix op.word) m (packRm c e)) s.vl = some st) : exec i s = st.outcome := by
  have hval : valueStop (pairOf op m (packRm c e)) = none := valueStop_plain (by simpa [pairOf, commonOf_packRm] using hp) hi
  have hloop : executeLoop machine (pairOf op m (packRm c e)) s = st.outcome := by
    simp only [executeLoop]
    rw [show admissionStop machine (pairOf op m (packRm c e)) (resolveAll (pairOf op m (packRm c e)).ins
      (pairOf op m (packRm c e)).map (pairOf op m (packRm c e)).rm) s.vl = some st from hadm, firstStop_some]
  rw [exec_of_rm hrm hw, executePrefixed_of_decodeStop_none (identify_word hv hm (.inr hcat) _ s) (decodeStop_word hres hval hlegal.2),
    executeChecked, if_neg (Nat.one_le_iff_ne_zero.mp hlegal.1), if_neg fun h => hid.elim (· h.2) (· h.1), hloop]

/-- Line 4: a class the loop does not admit. -/
theorem exec_of_classStop {r : Refusal} (h : classStop (op.suffix op.word) s.vl = some (.refuse r)) : exec i s = .refused r :=
  exec_of_admissionStop hv hm hrm hw hcat hi hlegal hp hres hid (st := .refuse r) (by
    rw [admissionStop, show classStop (pairOf op m (packRm c e)).ins s.vl = _ from h, firstStop_some])

/-- Line 5: Rc=1 (R251). -/
theorem exec_of_rc (hcls : op.cls = .arith) (hrc : op.rc = true) : exec i s = .refused .vectorisedRc1 :=
  exec_of_admissionStop hv hm hrm hw hcat hi hlegal hp hres hid (st := .refuse .vectorisedRc1) (by
    rw [admissionStop, classStop_none (.inl hcls), firstStop_none, show (pairOf op m (packRm c e)).ins.rc1 = true from hrc, stopIf_true,
      firstStop_some])

variable {ops : List Operand} (hcls : op.cls = .arith ∨ op.cls = .crop ∨ (op.cls = .ldst ∧ s.vl = 1)) (hrc : op.rc = false)
  (hops : resolveAll (op.suffix op.word) m (packRm c e) = ops)

include hcls hrc hops

/-- Lines 6 to 8, where lines 4 and 5 pass. -/
theorem exec_of_operandStop {r : Refusal} (h : firstStop [scalarDestStop machine ops s.vl, twinStop m (packRm c e) s.vl,
      ra0Stop (pairOf op m (packRm c e))] = some (.refuse r)) : exec i s = .refused r :=
  exec_of_admissionStop hv hm hrm hw hcat hi hlegal hp hres hid (st := .refuse r) (by
    rw [hops, admissionStop, classStop_none hcls, firstStop_none, show (pairOf op m (packRm c e)).ins.rc1 = false from hrc,
      stopIf_false, firstStop_none]
    exact h)

omit hid in
/-- Line 8, where the others pass: RA field 0 with a sub-field that is not 0, so that `RM` is not 0 either (R256). -/
theorem exec_of_ra0 {x : SubValue} (hd : hasScalarDest ops = false ∨ s.vl = 1)
    (ht : m.cat.isTwin = false ∨ twinAdmitted c (maskSrcOf (packRm c e)) s.vl = true) (h0 : op.ra0 = some 1)
    (hs : op.slots[1]? = some (srcSlot .gpr 0#5)) (hx : slotSub m (packRm c e) 1 = x) (hne : x.isZero = false) :
    exec i s = .refused .ra0WithExtra := by
  have hrm0 : packRm c e ≠ 0#24 := fun hz => by
    have hzero := slotSub_zero m 1
    rw [← hz, hx, hne] at hzero
    cases hzero
  have htwin : (m.cat.isTwin && !twinAdmitted c (maskSrcOf (packRm c e)) s.vl) = false := by
    rcases ht with h | h <;> simp [h]
  refine exec_of_operandStop hv hm hrm hw hcat hi hlegal hp hres (.inr hrm0) hcls hrc hops ?_
  rw [scalarDestStop_none hd, twinStop_eq, commonOf_packRm, htwin, stopIf_false]
  simp [ra0Stop, pairOf, ScalarOp.suffix, h0, hs, hx, hne, srcSlot]

end Refused

/-- Plain fields hold no reserved value where every sub-field extends an operand and EXTRA2_MODE is 0. -/
theorem reservedCause_of_plain {op : ScalarOp} {m : RmMap} {c : CommonRm} {e : BitVec 9} (hp : plain c = true)
    (hsub : ((layout m.cat).all fun e => m.subs.contains e.1) = true)
    (he : m.cat ≠ .rm1P3S1D ∨ extra2ModeOf (packRm c e) = 0#1) : reservedCause (pairOf op m (packRm c e)) = none :=
  reservedCause_plain (by simpa [pairOf, commonOf_packRm] using hp) hsub (he.imp_right .inr)

/-- A load or store with VL > 1 (R244 line 4). -/
theorem exec_of_ldst {i : Instr} {op : ScalarOp} {m : RmMap} {c : CommonRm} {e : BitVec 9} {s : State} (hv : op.valid = true)
    (hm : op.rmMap = some m) (hrm : i.rm? = some (packRm c e)) (hw : i.secondWord? = some op.word) (hcat : i.category? = some m.cat)
    (hlegal : vlLegal s) (hp : plain c = true) (hvl : s.vl ≠ 1) (hcls : op.cls = .ldst)
    (hsub : ((layout m.cat).all fun e => m.subs.contains e.1) = true)
    (he : m.cat ≠ .rm1P3S1D ∨ extra2ModeOf (packRm c e) = 0#1) : exec i s = .refused .vectorisedLdst :=
  exec_of_classStop hv hm hrm hw hcat (ldst_plain hcls).2.1 hlegal hp (reservedCause_of_plain hp hsub he) (.inl hvl)
    (by simp [classStop, ScalarOp.suffix, hcls, hvl])

/-- A load or store of one element with RA field 0 and a sub-field that is not 0 (R256). -/
theorem exec_of_ldst_ra0 {i : Instr} {op : ScalarOp} {m : RmMap} {c : CommonRm} {e : BitVec 9} {s : State} (hv : op.valid = true)
    (hm : op.rmMap = some m) (hrm : i.rm? = some (packRm c e)) (hw : i.secondWord? = some op.word) (hcat : i.category? = some m.cat)
    (hlegal : vlLegal s) (hp : plain c = true) (hvl : s.vl = 1) (hcls : op.cls = .ldst)
    (hsub : ((layout m.cat).all fun e => m.subs.contains e.1) = true) (he : m.cat ≠ .rm1P3S1D) (h0 : op.ra0 = some 1)
    (hs : op.slots[1]? = some (srcSlot .gpr 0#5)) {x : SubValue} (hx : slotSub m (packRm c e) 1 = x) (hne : x.isZero = false) :
    exec i s = .refused .ra0WithExtra := by
  obtain ⟨hrc, hi, -⟩ := ldst_plain hcls
  exact exec_of_ra0 hv hm hrm hw hcat hi hlegal hp (reservedCause_of_plain hp hsub (.inl he)) (.inr (.inr ⟨hcls, hvl⟩)) hrc rfl
    (.inr hvl) (.inr (hvl ▸ twinAdmitted_one c _)) h0 hs hx hne

/-- A vector destination before sources is no scalar one (R247). -/
theorem hasScalarDest_of_isVector {d : Slot} {x : SubValue} (hx : x.isVector = true) {srcs : List Operand}
    (hsrcs : ∀ o ∈ srcs, o.slot.writes = false) : hasScalarDest (resolve d x :: srcs) = false := by
  have hnone : hasScalarDest srcs = false := by simpa [hasScalarDest] using fun o ho hw => absurd hw (by simp [hsrcs o ho])
  rw [hasScalarDest, List.any_cons, resolve_vector, hx, Bool.not_true, Bool.and_false, Bool.false_or]
  exact hnone

/-- Settles O55: each is refused by its class, or for Rc=1; a branch, a fence and an SPR move hold no reserved value where the sub-fields
they do not use are 0. -/
theorem classesOutsideTheLoopAreRefused : Obligations.ClassesOutsideTheLoopAreRefused := by
  intro c r1 r2 r3 m e f g h t a b d li aa n s hlegal hp
  have hwidths : c.elwidth = 0#2 ∧ c.elwidthSrc = 0#2 := by
    simp only [plain, Bool.and_eq_true, beq_iff_eq] at hp
    exact hp.1.1
  obtain ⟨hw, hws⟩ := hwidths
  refine ⟨fun hid => ⟨?_, ?_⟩, fun hid => ⟨?_, ?_⟩, fun hid => ?_, fun hid => ?_, fun hvl k l u => ⟨fun hv => ?_, fun hv => ?_,
    fun hv => ?_, fun hv => ?_, fun hv => ?_, fun hv => ?_, fun hv => ?_⟩⟩
  · exact exec_of_rc (op := .add t a b true) (m := extra3Map) rfl rfl rfl rfl rfl rfl hlegal hp (reservedCause_extra3 hp _) hid rfl rfl
  · exact exec_of_rc (op := .extsb t a true) (m := twinMap) rfl rfl rfl rfl rfl rfl hlegal hp
      (reservedCause_of_plain hp rfl (.inl nofun)) hid rfl rfl
  · exact exec_of_classStop (op := .branch li aa) rfl rfl rfl rfl rfl rfl hlegal hp
      ((reservedCause_of_no_operand (.inr ⟨li, aa, rfl⟩) c 0#3 0#3 0#3).trans (by simp [hw, hws])) hid rfl
  · exact exec_of_classStop (op := .sync) rfl rfl rfl rfl rfl rfl hlegal hp
      ((reservedCause_of_no_operand (.inl rfl) c 0#3 0#3 0#3).trans (by simp [hw, hws])) hid rfl
  · exact exec_of_classStop (op := .mtspr n t) rfl rfl rfl rfl rfl rfl hlegal hp
      ((reservedCause_mtspr n t c 0#3 r1 m).trans (by simp [hw])) hid rfl
  · exact exec_of_classStop (op := .mfspr t n) rfl rfl rfl rfl rfl rfl hlegal hp
      ((reservedCause_mfspr n t c r1 0#3 m).trans (by simp [hws])) hid rfl
  · exact exec_of_ldst (op := .load k false t a d) hv rfl rfl rfl rfl hlegal hp hvl rfl rfl (.inl nofun)
  · exact exec_of_ldst (op := .load k true t a d) hv rfl rfl rfl rfl hlegal hp hvl rfl rfl (.inl nofun)
  · exact exec_of_ldst (op := .loadX k u t a b) hv rfl rfl rfl rfl hlegal hp hvl rfl rfl (.inl nofun)
  · exact exec_of_ldst (op := .store l false t a d) hv rfl rfl rfl rfl hlegal hp hvl rfl rfl (.inl nofun)
  · exact exec_of_ldst (op := .store l true t a d) hv rfl rfl rfl rfl hlegal hp hvl rfl rfl (.inl nofun)
  · exact exec_of_ldst (op := .storeX l false t a b) hv rfl rfl rfl rfl hlegal hp hvl rfl rfl (.inl nofun)
  · obtain ⟨-, -, -, -, hbit⟩ := extra2Mode_packRm c e f g h 0#1
    exact exec_of_ldst (op := .storeX l true t a b) hv rfl rfl rfl rfl hlegal hp hvl rfl rfl (.inr hbit)

/-- Settles O56: a scalar destination, two masks that are not admitted, and then a sub-field of the constant 0, which is not 0, so that
`RM` is not 0 either. -/
theorem openCombinationsAreRefused : Obligations.OpenCombinationsAreRefused := by
  intro c rd r1 r2 m e f g h t a b d s hlegal hp
  have hne3 : ∀ x : BitVec 3, x ≠ 0#3 → (SubValue.extra3 x).isZero = false := fun x hx => by simpa [SubValue.isZero] using hx
  have hne2 : ∀ x : BitVec 2, x ≠ 0#2 → (SubValue.extra2 x).isZero = false := fun x hx => by simpa [SubValue.isZero] using hx
  refine ⟨fun hvl hsc => ?_, fun hvl hvec htw => ?_, fun hdest htw hr1 => ?_, fun hdest hf => ?_,
    fun hvl k l => ⟨fun hv hr2 => ?_, fun hv hf => ?_, fun hv hr1 => ?_, fun hv hf => ?_⟩⟩
  · refine exec_of_operandStop (op := .add t a b false) (m := extra3Map) rfl rfl rfl rfl rfl rfl hlegal hp (reservedCause_extra3 hp _)
      (.inl hvl) (.inl rfl) rfl (resolveAll_extra3 rfl c rd r1 r2) ?_
    have hdest : hasScalarDest (extra3Operands (dstSlot .gpr t) (srcSlot .gpr a) (srcSlot .gpr b) rd r1 r2) = true := by
      simp [extra3Operands, hasScalarDest, resolve_slot, resolve_vector, hsc, dstSlot]
    rw [scalarDestStop, hdest, decide_eq_true hvl]
    rfl
  · refine exec_of_operandStop (op := .extsb t a false) (m := twinMap) rfl rfl rfl rfl rfl rfl hlegal hp
      (reservedCause_of_plain hp rfl (.inl nofun)) (.inl hvl) (.inl rfl) rfl (resolveAll_rm2P1S1D rfl c rd r1 m) ?_
    rw [scalarDestStop_none (.inl (hasScalarDest_of_isVector hvec (by simp [resolve_slot, srcSlot]))), twinStop_eq, commonOf_packRm,
      maskSrcOf_extra3, htw]
    rfl
  · obtain ⟨-, hsub, -⟩ := extra3_packRm c rd r1 m
    exact exec_of_ra0 (op := .addi t 0#5 d) (m := twinMap) rfl rfl rfl rfl rfl rfl hlegal hp
      (reservedCause_of_plain hp rfl (.inl nofun)) (.inl rfl) rfl (resolveAll_rm2P1S1D rfl c rd r1 m)
      (hdest.imp_left fun hvec => hasScalarDest_of_isVector hvec (by simp [resolve_slot, srcSlot]))
      (.inr ((maskSrcOf_extra3 c rd r1 m).symm ▸ htw)) rfl rfl (congrArg SubValue.extra3 hsub) (hne3 _ hr1)
  · obtain ⟨-, hsub, -, -, hbit⟩ := extra2Mode_packRm c e f g h 0#1
    exact exec_of_ra0 (op := .isel t 0#5 a b) (m := extra2Map) rfl rfl rfl rfl rfl rfl hlegal hp
      (reservedCause_of_plain hp rfl (.inr hbit)) (.inl rfl) rfl (resolveAll_rm1P3S1D rfl c e f g h 0#1)
      (hdest.imp_left fun hvec => hasScalarDest_of_isVector hvec (by simp [resolve_slot, srcSlot])) (.inl rfl) rfl rfl
      (congrArg SubValue.extra2 hsub) (hne2 _ hf)
  · obtain ⟨-, hsub, -⟩ := extra3_packRm c rd r2 m
    exact exec_of_ldst_ra0 (op := .store l false t 0#5 d) hv rfl rfl rfl rfl hlegal hp hvl rfl rfl nofun rfl rfl
      (congrArg SubValue.extra3 hsub) (hne3 _ hr2)
  · obtain ⟨-, hsub, -⟩ := extra2Mask_packRm c e f g m
    exact exec_of_ldst_ra0 (op := .storeX l false t 0#5 b) hv rfl rfl rfl rfl hlegal hp hvl rfl rfl nofun rfl rfl
      (congrArg SubValue.extra2 hsub) (hne2 _ hf)
  · obtain ⟨-, hsub, -⟩ := extra3_packRm c rd r1 m
    exact exec_of_ldst_ra0 (op := .load k false t 0#5 d) hv rfl rfl rfl rfl hlegal hp hvl rfl rfl nofun rfl rfl
      (congrArg SubValue.extra3 hsub) (hne3 _ hr1)
  · obtain ⟨-, hsub, -⟩ := extra2Mask_packRm c e f g m
    exact exec_of_ldst_ra0 (op := .loadX k false t 0#5 b) hv rfl rfl rfl rfl hlegal hp hvl rfl rfl nofun rfl rfl
      (congrArg SubValue.extra2 hsub) (hne2 _ hf)

/-! ### The trap inside an element (R252, R286) -/

/-- A trap writes nothing, so that it overwrites no predicate but where a written operand is one (R159). -/
theorem overwritesPredicate_trap {mm : BitVec 1} {ops : List Operand} {i vl : Nat} (t : SuffixTrap)
    (ho : (ops.any fun o => o.slot.writes && (o.slot.kind == .crField || o.slot.kind == .crBit)) = false) :
    overwritesPredicate mm ops i vl (.trap t) = false :=
  overwritesPredicate_none (ws := []) (target := none) ho rfl

/-- An element whose numbers fit and whose scalar execution traps stops with the state it found (R252). -/
theorem runElement_trap {p : Params} {q : Pair} {ops : List Operand} {vl i : Nat} {s : State} {t : SuffixTrap}
    (hoff : runsOffEnd ops i = false) (he : p.run q.ins (ops.map fun o => o.register i) s = .trap t)
    (hover : overwritesPredicate (commonOf q.rm).maskmode ops i vl (.trap t) = false) :
    runElement p q ops vl i s = .error (.fault (.suffixTrap i t s)) := by
  simp [runElement, hoff, he, hover]

/-- The runnable machine with another scalar execution (R240). -/
def machineWith (x : Suffix → List Nat → State → ScalarResult) : Params := { machine with exec1 := fun _ => x }

section Fadds

variable {x : Suffix → List Nat → State → ScalarResult} {c : CommonRm} {rd r1 r2 : BitVec 3} {t a b : BitVec 5} {s : State}

/-- The pair of `sv.fadds`. -/
def faddsPair (c : CommonRm) (rd r1 r2 : BitVec 3) (t a b : BitVec 5) : Pair :=
  pairOf (.fadds t a b false) extra3Map (packRm c (rd ++ r1 ++ r2))

/-- The operands of `sv.fadds`, three FP registers. -/
def faddsOperands (rd r1 r2 : BitVec 3) (t a b : BitVec 5) : List Operand :=
  extra3Operands (dstSlot .fpr t) (srcSlot .fpr a) (srcSlot .fpr b) rd r1 r2

theorem resolveAll_faddsPair : resolveAll (faddsPair c rd r1 r2 t a b).ins extra3Map (packRm c (rd ++ r1 ++ r2)) =
    faddsOperands rd r1 r2 t a b := resolveAll_extra3 rfl c rd r1 r2

theorem faddsOperands_register (i : Nat) : (faddsOperands rd r1 r2 t a b).map (fun o => o.register i) =
    [regNo t (.extra3 rd) i, regNo a (.extra3 r1) i, regNo b (.extra3 r2) i] := by
  simp only [faddsOperands, extra3Operands, List.map_cons, List.map_nil, resolve_fpr_register, srcSlot, dstSlot]

theorem runsOffEnd_faddsOperands {i : Nat}
    (h : regNo t (.extra3 rd) i ≤ 127 ∧ regNo a (.extra3 r1) i ≤ 127 ∧ regNo b (.extra3 r2) i ≤ 127) :
    runsOffEnd (faddsOperands rd r1 r2 t a b) i = false :=
  runsOffEnd_eq_false (by simpa [faddsOperands, extra3Operands, resolve_fpr_number, srcSlot, dstSlot] using h)

/-- No operand of `sv.fadds` is one of CR. -/
theorem faddsOperands_not_cr : ((faddsOperands rd r1 r2 t a b).any fun o =>
    o.slot.writes && (o.slot.kind == .crField || o.slot.kind == .crBit)) = false := by
  simp [faddsOperands, extra3Operands, resolve_slot, srcSlot, dstSlot]

/-- One scalar execution of the suffix of `sv.fadds` on the registers of element `i`. -/
theorem run_fadds (i : Nat) (u : State) :
    (machineWith x).run (faddsPair c rd r1 r2 t a b).ins ((faddsOperands rd r1 r2 t a b).map fun o => o.register i) u =
      x ((ScalarOp.fadds t a b false).suffix (ScalarOp.fadds t a b false).word)
        [regNo t (.extra3 rd) i, regNo a (.extra3 r1) i, regNo b (.extra3 r2) i] u := by
  rw [faddsOperands_register]; rfl

/-- `sv.fadds` with plain fields passes the decode checks, whatever its scalar execution is. -/
theorem executePrefixed_fadds (hlegal : vlLegal s) (hp : plain c = true) :
    executePrefixed (machineWith x) (some .rm1P2S1D) (packRm c (rd ++ r1 ++ r2)) (ScalarOp.fadds t a b false).word s =
      executeChecked (machineWith x) (faddsPair c rd r1 r2 t a b) s := by
  have hval : valueStop (faddsPair c rd r1 r2 t a b) = none :=
    valueStop_plain (by simpa [faddsPair, pairOf, commonOf_packRm] using hp) rfl
  exact (executePrefixed_word_of_suffixes rfl (fun _ _ => rfl) (op := .fadds t a b false) (m := extra3Map) rfl rfl (.inr rfl)
    (reservedCause_extra3 hp _) hval).trans (if_neg (show ¬machine.vlMax < s.vl from Nat.not_lt.mpr hlegal.2))

/-- Under scalar identity the trap of the one element is that of the instruction (R241). -/
theorem executeChecked_fadds_identity (hid : packRm c (rd ++ r1 ++ r2) = 0#24 ∧ s.vl = 1) {trap : SuffixTrap}
    (htrap : x ((ScalarOp.fadds t a b false).suffix (ScalarOp.fadds t a b false).word)
      [regNo t (.extra3 rd) 0, regNo a (.extra3 r1) 0, regNo b (.extra3 r2) 0] (scalarView s) = .trap trap) :
    executeChecked (machineWith x) (faddsPair c rd r1 r2 t a b) s = .fault (.suffixTrap 0 trap s) := by
  have hregs : identityMap (faddsPair c rd r1 r2 t a b).ins = (faddsOperands rd r1 r2 t a b).map fun o => o.register 0 := by
    rw [← registers_zero _ extra3Map, ← hid.1, resolveAll_faddsPair]
  have hspr : (faddsPair c rd r1 r2 t a b).ins.spr = none := rfl
  rw [executeChecked_identity hid.1 hid.2, runScalar_eq_scalarOutcome fun _ h => absurd (hspr.symm.trans h) nofun, hregs, run_fadds,
    htrap, scalarOutcome]

/-- Outside it a loop that stops is the outcome of the instruction (R245, R252). -/
theorem executeChecked_fadds_loop (hid : ¬(packRm c (rd ++ r1 ++ r2) = 0#24 ∧ s.vl = 1)) (hlegal : vlLegal s)
    (hread : maskReadable c.maskmode c.mask s.vl = true) (hdest : (SubValue.extra3 rd).isVector = true ∨ s.vl = 1) {st : Stop}
    (hloop : runLoop (machineWith x) (faddsPair c rd r1 r2 t a b) (faddsOperands rd r1 r2 t a b) s.vl false 0
      ((List.range s.vl).map (singleMask s c)) s = .error st) :
    executeChecked (machineWith x) (faddsPair c rd r1 r2 t a b) s = st.outcome :=
  executeChecked_of_runLoop_error (Nat.one_le_iff_ne_zero.mp hlegal.1) hid resolveAll_faddsPair
    (admissionStop_extra3 (op := .fadds t a b false) (.inl rfl) rfl rfl rfl rfl hdest) (masksStop_extra3 hread _)
    ((congrArg (runLoop _ _ _ _ false 0 · s) (elementMask_extra3 s c _)).trans hloop)

end Fadds

/-- Settles O59: under scalar identity the first element is the only one; in the loop the elements before `k` complete, and element `k`
stops with the state they leave. -/
theorem aFaultInsideAnElementKeepsTheEarlierOnes : Obligations.AFaultInsideAnElementKeepsTheEarlierOnes := by
  intro x ws c rd r1 r2 t a b s k trap hlegal hp hread hdest hk hon word sees element after hfit hdone htrap
  refine (executePrefixed_fadds (x := x) hlegal hp).trans ?_
  by_cases hid : packRm c (rd ++ r1 ++ r2) = 0#24 ∧ s.vl = 1
  · obtain rfl : k = 0 := by omega
    have hsees : sees s = scalarView s := if_pos hid
    exact executeChecked_fadds_identity hid (hsees ▸ htrap)
  · have hsees : ∀ u, sees u = u := fun u => if_neg hid
    have hrun : ∀ i u, (machineWith x).run (faddsPair c rd r1 r2 t a b).ins
        ((faddsOperands rd r1 r2 t a b).map fun o => o.register i) u = element i u := fun i u => by
      rw [run_fadds]; simp only [element, hsees, word]
    refine executeChecked_fadds_loop hid hlegal hread hdest (st := .fault (.suffixTrap k trap (after k))) ?_
    refine runLoop_stops_at hk (f := fun i u => applyWrites u (ws i u)) (fun i hi hoi => ?_) hon ?_
    · obtain ⟨he, hcr⟩ := hdone i hi hoi
      exact runElement_done (runsOffEnd_faddsOperands (hfit i hi.le hoi)) ((hrun i _).trans he)
        (overwritesPredicate_none faddsOperands_not_cr hcr)
    · exact runElement_trap (runsOffEnd_faddsOperands (hfit k le_rfl hon)) ((hrun k _).trans htrap)
        (overwritesPredicate_trap trap faddsOperands_not_cr)

end Machine
end Sys2Proof
end

section
/-! The statement of family 60_exceptions: what raises the illegal instruction trap records the words it was given and carries the state
it found. The checks and the scalar execution find the state before the instruction; the element loop, which does not, never raises it. -/

namespace Sys2Proof
namespace Machine

/-- The outcome, if it is the illegal instruction trap, carries the state `s` and records the address in it and the words (R270, R272). -/
def IllegalIsPrecise (w0 : Word32) (w1 : Option Word32) (s : State) (o : Host.Outcome State Fault Refusal) : Prop :=
  ∀ r t, o = .fault (.illegalInstruction r t) → t = s ∧ r.cia = s.cia ∧ r.w0 = w0 ∧ r.w1 = w1

/-- A check that raises the illegal instruction trap raises it with the state `s` and the words. -/
def CheckIsPrecise (w0 : Word32) (w1 : Option Word32) (s : State) (c : Option Stop) : Prop :=
  ∀ st ∈ c, IllegalIsPrecise w0 w1 s st.outcome

section Precise

variable {p : Params} {q : Pair} {w0 : Word32} {w1 : Option Word32} {s : State}

/-! ### Outcomes -/

@[simp] theorem illegalIsPrecise_next (t : State) : IllegalIsPrecise w0 w1 s (.next t) := nofun
@[simp] theorem illegalIsPrecise_refused (r : Refusal) : IllegalIsPrecise w0 w1 s (.refused r) := nofun
@[simp] theorem illegalIsPrecise_suffixTrap (i : Nat) (x : SuffixTrap) (t : State) :
    IllegalIsPrecise w0 w1 s (.fault (.suffixTrap i x t)) := nofun
@[simp] theorem illegalIsPrecise_overwrite (i : Nat) (t : State) :
    IllegalIsPrecise w0 w1 s (.fault (.undefinedCRPredicateOverwrite i t)) := nofun

@[simp] theorem illegalIsPrecise_raiseIllegal (c : IllegalCause) : IllegalIsPrecise w0 w1 s (raiseIllegal w0 w1 c s).outcome := by
  intro r t h
  cases h
  exact ⟨rfl, rfl, rfl, rfl⟩

/-! ### Checks -/

@[simp] theorem checkIsPrecise_none : CheckIsPrecise w0 w1 s none := nofun

@[simp] theorem checkIsPrecise_some (st : Stop) : CheckIsPrecise w0 w1 s (some st) ↔ IllegalIsPrecise w0 w1 s st.outcome := by
  simp [CheckIsPrecise]

theorem CheckIsPrecise.stopIf (c : Bool) {st : Stop} (h : IllegalIsPrecise w0 w1 s st.outcome) :
    CheckIsPrecise w0 w1 s (stopIf c st) := by
  cases c <;> simp [h]

@[simp] theorem checkIsPrecise_stopIf_refuse (c : Bool) (r : Refusal) : CheckIsPrecise w0 w1 s (stopIf c (.refuse r)) :=
  .stopIf c (illegalIsPrecise_refused r)

/-- The first stop of a list is precise where every check of the list is. -/
theorem CheckIsPrecise.firstStop {l : List (Option Stop)} (h : ∀ c ∈ l, CheckIsPrecise w0 w1 s c) :
    CheckIsPrecise w0 w1 s (firstStop l) := by
  induction l with
  | nil => exact checkIsPrecise_none
  | cons c l ih =>
    rw [List.forall_mem_cons] at h
    cases c with
    | none => exact ih h.2
    | some st => exact h.1

theorem illegalStop_precise : CheckIsPrecise q.w0 (some q.w1) s (illegalStop p q s) := by
  unfold illegalStop
  split
  · simp
  · exact .stopIf _ (illegalIsPrecise_raiseIllegal _)

theorem valueStop_precise : CheckIsPrecise w0 w1 s (valueStop q) := .firstStop (by simp)

theorem decodeStop_precise : CheckIsPrecise q.w0 (some q.w1) s (decodeStop p q s) := by
  refine .firstStop ?_
  simp only [List.forall_mem_cons, checkIsPrecise_stopIf_refuse, valueStop_precise, true_and]
  refine ⟨?_, nofun⟩
  split
  · exact checkIsPrecise_none
  · exact illegalStop_precise

theorem classStop_precise (ins : Suffix) (vl : Nat) : CheckIsPrecise w0 w1 s (classStop ins vl) := by
  unfold classStop
  split <;> simp

theorem ra0Stop_precise : CheckIsPrecise w0 w1 s (ra0Stop q) := by
  unfold ra0Stop
  split
  · exact checkIsPrecise_none
  · split <;> simp

theorem admissionStop_precise (ops : List Operand) (vl : Nat) : CheckIsPrecise w0 w1 s (admissionStop p q ops vl) :=
  .firstStop (by simp [classStop_precise, scalarDestStop, twinStop, ra0Stop_precise])

theorem maskStop_precise (mm : BitVec 1) (sel : BitVec 3) (vl : Nat) : CheckIsPrecise w0 w1 s (maskStop mm sel vl) :=
  .firstStop (by simp)

theorem masksStop_precise (cat : Category) (rm : Rm) (vl : Nat) : CheckIsPrecise w0 w1 s (masksStop cat rm vl) := by
  refine .firstStop ?_
  simp only [List.forall_mem_cons, maskStop_precise, true_and]
  refine ⟨?_, nofun⟩
  split
  · exact maskStop_precise _ _ _
  · exact checkIsPrecise_none

theorem sprStop_precise (ins : Suffix) (regs : List Nat) : CheckIsPrecise w0 w1 s (sprStop p ins regs w0 w1 s) := by
  intro st h
  obtain ⟨acc, -, -, rfl⟩ := sprStop_eq_some h
  split <;> simp

/-! ### Execution -/

theorem runScalar_precise (ins : Suffix) (len : DWord) : IllegalIsPrecise w0 w1 s (runScalar p ins w0 w1 len s) := by
  unfold runScalar
  split
  · next st h => exact sprStop_precise ins _ st h
  · split <;> simp

/-- What stops the element loop is the stop of one element, in the state it found. -/
theorem exists_runElement_error {ops : List Operand} {vl : Nat} {stop : Bool} {mask : List Bool} {i : Nat} {st : Stop}
    (h : runLoop p q ops vl stop i mask s = .error st) : ∃ k u, runElement p q ops vl k u = .error st := by
  induction mask generalizing i s with
  | nil => cases h
  | cons on mask ih =>
    cases on with
    | false => exact ih h
    | true =>
      simp only [runLoop] at h
      split at h
      · next he => cases h; exact ⟨i, s, he⟩
      · split at h
        · cases h
        · exact ih h

/-- No element raises the illegal instruction trap (R252, R286), so the loop does not. -/
theorem runLoop_error_precise {ops : List Operand} {vl : Nat} {stop : Bool} {mask : List Bool} {i : Nat} {u : State} {st : Stop}
    (h : runLoop p q ops vl stop i mask u = .error st) : IllegalIsPrecise w0 w1 s st.outcome := by
  obtain ⟨k, v, he⟩ := exists_runElement_error h
  obtain rfl | rfl | ⟨x, rfl⟩ := runElement_error he <;> simp

theorem executeLoop_precise : IllegalIsPrecise w0 w1 s (executeLoop p q s) := by
  have hstop : CheckIsPrecise w0 w1 s
      (firstStop [admissionStop p q (resolveAll q.ins q.map q.rm) s.vl, masksStop q.map.cat q.rm s.vl]) :=
    .firstStop (by simp [admissionStop_precise, masksStop_precise])
  unfold executeLoop
  simp only
  split
  · next st h => exact hstop st h
  · split
    · next st h => exact runLoop_error_precise h
    · simp

theorem executeChecked_precise : IllegalIsPrecise q.w0 (some q.w1) s (executeChecked p q s) := by
  unfold executeChecked
  split
  · exact illegalIsPrecise_next _
  · split
    · exact runScalar_precise q.ins _
    · exact executeLoop_precise

theorem identify_error_precise {want : Option Category} {rm : Rm} {w : Word32} {st : Stop} (h : identify p want rm w s = .error st) :
    IllegalIsPrecise (prefixWord rm) (some w) s st.outcome := by
  unfold identify at h
  split at h
  · cases h; simp
  · split at h
    · cases h; simp
    · split at h
      · cases h; simp
      · split at h
        · cases h
        · split at h <;> cases h
          simp

theorem executePrefixed_precise (want : Option Category) (rm : Rm) (w : Word32) :
    IllegalIsPrecise (prefixWord rm) (some w) s (executePrefixed p want rm w s) := by
  unfold executePrefixed
  split
  · next st h => exact identify_error_precise h
  · next q hq =>
    obtain ⟨hw0, rfl, -⟩ := identify_ok_words hq
    rw [← hw0]
    split
    · next st h => exact decodeStop_precise st h
    · exact executeChecked_precise

theorem executeV31_precise (a b : Word32) : IllegalIsPrecise w0 w1 s (executeV31 p a b s) := by
  unfold executeV31
  split <;> simp

theorem executeUnprinted_precise (w : Word32) : IllegalIsPrecise w0 (some w) s (executeUnprinted p w0 w s) := by
  unfold executeUnprinted
  split
  · exact executeV31_precise _ _
  · exact illegalIsPrecise_raiseIllegal _

/-- The illegal instruction trap of an instruction of the opcode table is precise under every choice of parameters (R4, R270). -/
theorem execFor_precise (p : Params) (i : Instr) (s : State) : IllegalIsPrecise i.firstWord i.secondWord? s (execFor p i s) := by
  unfold execFor
  split
  · next hw => rw [hw]; exact illegalIsPrecise_raiseIllegal _
  · next w hw =>
    rw [hw]
    split
    · next rm hrm => rw [firstWord_of_rm hrm]; exact executePrefixed_precise _ _ _
    · split
      · exact executeUnprinted_precise w
      · exact executeUnprinted_precise w
      · exact executeUnprinted_precise w
      · exact executeV31_precise _ _

end Precise

/-- Settles O46: the runnable machine is one choice of the parameters. -/
theorem theIllegalInstructionTrapIsPrecise : Obligations.TheIllegalInstructionTrapIsPrecise := by
  intro i s t r h
  rw [exec_eq_execFor] at h
  exact execFor_precise machine i s r t h

end Machine
end Sys2Proof
end

section
/-! The statement of family other: words of the test vectors. Each is the encoding of a well-formed instruction, so that the codec
gives the instruction back, or is not of the opcode map. -/

namespace Sys2Proof

/-- The words that a well-formed instruction is encoded as decode to it. -/
theorem decodeWords_of_encode {isa : SuffixIsa} {i : Instr} {ws : List Word32} (hwf : i.wfFor isa = true) (h : encode i = ws) :
    decodeWords isa ws = .ok i := by
  rw [← h, ← List.append_nil (encode i)]
  exact decodeWords_encode hwf []

/-- An SVP64 instruction is well formed if its suffix is an instruction of the reference suffix ISA, of its category (R103, R193). -/
theorem decodeWords_pair {i : Instr} {rm : Rm} {ws : List Word32} (op : ScalarOp) (hv : op.valid = true) (hrm : i.rm? = some rm)
    (hw : i.secondWord? = some op.word) (hcat : op.rmMap.map RmMap.cat = i.category?) (h : encode i = ws) :
    decodeWords referenceIsa ws = .ok i := by
  refine decodeWords_of_encode ?_ h
  rw [wfFor_of_rm hrm hw, Machine.categoryOf_word op hv, hcat, beq_self_eq_true]

/-- An instruction of another row of the map is always well formed (R79). -/
theorem decodeWords_of_rm_none {isa : SuffixIsa} {i : Instr} {ws : List Word32} (hrm : i.rm? = none) (h : encode i = ws) :
    decodeWords isa ws = .ok i :=
  decodeWords_of_encode (wfFor_of_rm_none hrm) h

theorem decodeWords_unprefixed {isa : SuffixIsa} {w : Word32} (h : primary w ≠ 1#6) (rest : List Word32) :
    decodeWords isa (w :: rest) = .error (.unprefixed w) := by
  simp only [decodeWords, classify_eq_unprefixed.mpr h]

/-- Settles O23: four SVP64 pairs with a suffix of the reference, three instructions of other rows of the map, and a word that is
not of the map. -/
theorem wordsOfTheSpecDecode : Obligations.WordsOfTheSpecDecode := by
  refine ⟨?_, ?_, ?_, ?_, ?_, ?_, ?_, ?_⟩
  · exact decodeWords_pair (.add 1#5 2#5 3#5 false) rfl rfl rfl rfl (by decide)
  · exact decodeWords_pair (.maddld 1#5 2#5 3#5 4#5) rfl rfl rfl rfl (by decide)
  · exact decodeWords_pair (.extsb 5#5 6#5 false) rfl rfl rfl rfl (by decide)
  · exact decodeWords_pair (.cmp 2#3 true 4#5 5#5) rfl rfl rfl rfl (by decide)
  · exact decodeWords_of_rm_none rfl (by decide)
  · exact decodeWords_of_rm_none rfl (by decide)
  · exact decodeWords_of_rm_none rfl (by decide)
  · exact decodeWords_unprefixed (by decide) []

end Sys2Proof
end
